-- ==== Sys2Proof/Word.lean ====
section
/-! DEFINITION. The word types of the hart: registers are held in 64 bits whatever XLEN is
(`Params.toXlen` keeps a value within XLEN bits), memory is bytes. -/

namespace Sys2Proof

/-- A register value, an address, a program counter (10 R36, R37). -/
abbrev Word := BitVec 64

/-- One byte of memory or of the Program Buffer. -/
abbrev Byte := BitVec 8

/-- The number of a general register, a field of an instruction (30 R77, R78). -/
abbrev RegNum := BitVec 5

/-- A CSR number: 12 bits (20 R50). -/
abbrev CsrNum := BitVec 12

/-- A 12-bit offset of a load or a store (30 R79). -/
abbrev Imm12 := BitVec 12

end Sys2Proof
end

