-- ==== Sys2Proof/Config.lean ====
section
/-! DEFINITION. What an implementation fixes: the parameters of 00_scope.md section 4 as plain data (a State
carries them, no step changes them), and the one free value, an opaque constant. -/

namespace Sys2Proof

/-- PRIVCHG_IN_PROGBUF (42 R163, 93 U4): what a privilege-changing instruction does in the Program Buffer. -/
inductive PrivChange where
  | nop
  | exception
deriving DecidableEq, Repr

/-- MISALIGNED_ACCESS (20 R61). -/
inductive MisalignedAccess where
  | trap
  | split
deriving DecidableEq, Repr

/-- DMPRV_PRIV_SOURCE (20 R53, 90 C7). -/
inductive DmprvSource where
  | spp
  | spvp
deriving DecidableEq, Repr

/-- legalize_prv_v (40 R101, 93 U6): keep the previous pair, or any legal pair of the implementation's choice
(the free value `Config.legalPrvV`). -/
inductive LegalizeRule where
  | keep
  | implementation
deriving DecidableEq, Repr

/-- The parameters of 00_scope.md section 4, with the presence of base features the rules mention (DESIGN CHOICE,
log 2). -/
structure Params where
  /-- HAS_S: S-mode (HS-mode with the hypervisor extension). -/
  hasS : Bool
  /-- HAS_U. -/
  hasU : Bool
  /-- HAS_H: the hypervisor modes HS, VS, VU. -/
  hasH : Bool
  hasSmsdedbg : Bool
  hasSmvsdedbg : Bool
  hasSmudedbg : Bool
  /-- HAS_TRACE. -/
  hasTrace : Bool
  /-- HAS_SDTRIG. -/
  hasSdtrig : Bool
  /-- Resumable non-maskable interrupts: MNRET exists (42 R167). -/
  hasRnmi : Bool
  /-- Compressed instructions: C.EBREAK exists and `dpc` bit 1 is writable (30 R74, R80). -/
  hasC : Bool
  /-- `dscratch1` is implemented (41 R130). -/
  hasDscratch1 : Bool
  /-- XLEN is 64 (true) or 32 (false); DXLEN = XLEN (92 D24). -/
  xlen64 : Bool
  sdcsrAddr : CsrNum
  sdpcAddr : CsrNum
  udcsrAddr : CsrNum
  udpcAddr : CsrNum
  msdcfgAddr : CsrNum
  sdetrcBit : BitVec 6
  vsetrcBit : BitVec 6
  usetrcBit : BitVec 6
  privChange : PrivChange
  legalize : LegalizeRule
  /-- U_FOLLOWS_VS (40 R97). -/
  uFollowsVs : Bool
  dmprvSource : DmprvSource
  /-- `sdcsr.DMPRV` is writable; false: hardwired 0 (93 U9). -/
  dmprvWritable : Bool
  /-- MSDCFG_RESET (70 R272). -/
  msdcfgReset : Word
  /-- CMDERR_NOT_ALLOWED (40 R107): `none` refuses the command, `some v` reports `v` in CMDERR. -/
  cmderrNotAllowed : Option (BitVec 3)
  /-- BREAKPOINT_TVAL (60 R238): the address of the EBREAK (true) or 0 (false). -/
  breakpointTvalPc : Bool
  /-- `tval` of an illegal-instruction exception: the instruction's bits (true) or 0 (false) (60 R256). -/
  illegalTvalBits : Bool
  misaligned : MisalignedAccess
  /-- A trigger that enters Debug Mode goes before a simultaneous interrupt to a debug-disallowed mode (true) or after
  it (44 R221, 93 U7). An interrupt to a debug-allowed mode always goes first (60 R248). -/
  triggerFirst : Bool
  /-- The hart has the base architecture's endianness controls MBE, SBE, UBE, VSBE (20 R60, log 35). -/
  hasEndianControls : Bool
  /-- The first address executed after reset (70 R270: not in the source). -/
  resetVector : Word
  /-- The address of the handler of a non-maskable interrupt. -/
  nmiVector : Word
deriving DecidableEq, Repr

/-- The configuration of `State.reset`: every mode and every sub-extension, XLEN 64, the spec's defaults where
00_scope.md section 4 gives one (DESIGN CHOICE, log 2; CSR numbers log 3, bit positions log 4). -/
def Params.full : Params where
  hasS := true
  hasU := true
  hasH := true
  hasSmsdedbg := true
  hasSmvsdedbg := true
  hasSmudedbg := true
  hasTrace := true
  hasSdtrig := true
  hasRnmi := true
  hasC := true
  hasDscratch1 := true
  xlen64 := true
  sdcsrAddr := 0x7b4
  sdpcAddr := 0x7b5
  udcsrAddr := 0x7b6
  udpcAddr := 0x7b7
  msdcfgAddr := 0x7c0
  sdetrcBit := 10
  vsetrcBit := 11
  usetrcBit := 12
  privChange := .exception
  legalize := .keep
  uFollowsVs := false
  dmprvSource := .spp
  dmprvWritable := true
  msdcfgReset := 0
  cmderrNotAllowed := none
  breakpointTvalPc := false
  illegalTvalBits := true
  misaligned := .split
  triggerFirst := false
  hasEndianControls := true
  resetVector := 0
  nmiVector := 0

/-- FREE VALUE (log 11). The pair an implementation retains after an illegal write of PRV and V: a function of the
debug configuration (mdbgen, sde, vse, use), the old pair and the written pair, pairs as V then PRV. Its answer is
used only where it is legal. -/
opaque Config.legalPrvV : BitVec 4 → BitVec 3 → BitVec 3 → BitVec 3

end Sys2Proof
end

