-- ==== Sys2Proof/Syntax.lean ====
section
/-! DEFINITION. The instructions: one constructor per row of opcode_table.json, in the table's order. Loads are
written `rd rs1 imm`, stores `rs2 rs1 imm`, CSR instructions `rd csr rs1` or `rd csr uimm`, hypervisor loads `rd rs1`,
hypervisor stores `rs2 rs1` (30 R83). -/

namespace Sys2Proof

/-- The 36 instructions whose behaviour Sdsec changes or uses (30 R70). -/
inductive Instr where
  | csrrw (rd : RegNum) (csr : CsrNum) (rs1 : RegNum)
  | csrrs (rd : RegNum) (csr : CsrNum) (rs1 : RegNum)
  | csrrc (rd : RegNum) (csr : CsrNum) (rs1 : RegNum)
  | csrrwi (rd : RegNum) (csr : CsrNum) (uimm : BitVec 5)
  | csrrsi (rd : RegNum) (csr : CsrNum) (uimm : BitVec 5)
  | csrrci (rd : RegNum) (csr : CsrNum) (uimm : BitVec 5)
  | ebreak
  | cebreak
  | ecall
  | mret
  | sret
  | mnret
  | lb (rd rs1 : RegNum) (imm : Imm12)
  | lh (rd rs1 : RegNum) (imm : Imm12)
  | lw (rd rs1 : RegNum) (imm : Imm12)
  | lbu (rd rs1 : RegNum) (imm : Imm12)
  | lhu (rd rs1 : RegNum) (imm : Imm12)
  | lwu (rd rs1 : RegNum) (imm : Imm12)
  | ld (rd rs1 : RegNum) (imm : Imm12)
  | sb (rs2 rs1 : RegNum) (imm : Imm12)
  | sh (rs2 rs1 : RegNum) (imm : Imm12)
  | sw (rs2 rs1 : RegNum) (imm : Imm12)
  | sd (rs2 rs1 : RegNum) (imm : Imm12)
  | hlvb (rd rs1 : RegNum)
  | hlvbu (rd rs1 : RegNum)
  | hlvh (rd rs1 : RegNum)
  | hlvhu (rd rs1 : RegNum)
  | hlvxhu (rd rs1 : RegNum)
  | hlvw (rd rs1 : RegNum)
  | hlvxwu (rd rs1 : RegNum)
  | hlvwu (rd rs1 : RegNum)
  | hlvd (rd rs1 : RegNum)
  | hsvb (rs2 rs1 : RegNum)
  | hsvh (rs2 rs1 : RegNum)
  | hsvw (rs2 rs1 : RegNum)
  | hsvd (rs2 rs1 : RegNum)
deriving DecidableEq, Repr

end Sys2Proof
end

