-- ==== Sys2Proof/WellFormed.lean ====
section
/-! DEFINITION. Which instructions exist on a hart with given parameters. Operand fields are bit vectors of the
encoding's widths, so every operand fits its field; what can be ill-formed is an instruction the hart lacks. -/

namespace Sys2Proof

/-- The instruction exists on the hart: XLEN = 64 for LWU, LD, SD, HLV.WU, HLV.D, HSV.D (30 R78); the hypervisor
extension for HLV, HLVX, HSV (95 2.11); resumable NMIs for MNRET (42 R167); S-mode for SRET and compressed
instructions for C.EBREAK (PRESUMED, log 41). -/
def Instr.wellFormed (p : Params) : Instr → Bool
  | .csrrw _ _ _ | .csrrs _ _ _ | .csrrc _ _ _ => true
  | .csrrwi _ _ _ | .csrrsi _ _ _ | .csrrci _ _ _ => true
  | .ebreak | .ecall | .mret => true
  | .cebreak => p.hasC
  | .sret => p.hasS
  | .mnret => p.hasRnmi
  | .lb _ _ _ | .lh _ _ _ | .lw _ _ _ | .lbu _ _ _ | .lhu _ _ _ => true
  | .lwu _ _ _ | .ld _ _ _ => p.xlen64
  | .sb _ _ _ | .sh _ _ _ | .sw _ _ _ => true
  | .sd _ _ _ => p.xlen64
  | .hlvb _ _ | .hlvbu _ _ | .hlvh _ _ | .hlvhu _ _ | .hlvxhu _ _ | .hlvw _ _ | .hlvxwu _ _ => p.hasH
  | .hlvwu _ _ | .hlvd _ _ => p.hasH && p.xlen64
  | .hsvb _ _ | .hsvh _ _ | .hsvw _ _ => p.hasH
  | .hsvd _ _ => p.hasH && p.xlen64

end Sys2Proof
end

