-- ==== Sys2Proof/Decode.lean ====
section
/-! DEFINITION. The decoder, total on any bytes and rejecting by name, and after it the encoder. Formats 30 R77 to
R80; instruction bytes lie in memory with the least significant byte first (20 R60). -/

namespace Sys2Proof

/-- Why bytes are none of the 36 instructions. -/
inductive DecodeError where
  /-- Fewer bytes than the instruction's length. -/
  | truncated
  /-- A 16-bit encoding other than C.EBREAK (30 R80, 42 R195). -/
  | compressed (h : BitVec 16)
  /-- A floating-point, vector, atomic or cache-block memory instruction (42 R195: refused by name). -/
  | otherMemory (w : BitVec 32)
  /-- Any other instruction: the base instruction set is outside the spec (00 section 3). -/
  | notInTable (w : BitVec 32)
deriving DecidableEq, Repr

/-- Bits 11:7. -/
def fieldRd (w : BitVec 32) : RegNum := w.extractLsb' 7 5
/-- Bits 14:12. -/
def fieldFunct3 (w : BitVec 32) : BitVec 3 := w.extractLsb' 12 3
/-- Bits 19:15: rs1, or the CSR immediate. -/
def fieldRs1 (w : BitVec 32) : RegNum := w.extractLsb' 15 5
/-- Bits 24:20. -/
def fieldRs2 (w : BitVec 32) : RegNum := w.extractLsb' 20 5
/-- Bits 31:25. -/
def fieldFunct7 (w : BitVec 32) : BitVec 7 := w.extractLsb' 25 7
/-- Bits 31:20: the CSR number, funct12, or a load's offset. -/
def fieldHigh12 (w : BitVec 32) : BitVec 12 := w.extractLsb' 20 12
/-- A store's offset, bits 31:25 then 11:7 (30 R79). -/
def fieldStoreImm (w : BitVec 32) : Imm12 := w.extractLsb' 25 7 ++ w.extractLsb' 7 5

/-- Opcode 0000011 (30 R78). -/
def decodeLoad (w : BitVec 32) : Option Instr :=
  match (fieldFunct3 w).toNat with
  | 0 => some (.lb (fieldRd w) (fieldRs1 w) (fieldHigh12 w))
  | 1 => some (.lh (fieldRd w) (fieldRs1 w) (fieldHigh12 w))
  | 2 => some (.lw (fieldRd w) (fieldRs1 w) (fieldHigh12 w))
  | 3 => some (.ld (fieldRd w) (fieldRs1 w) (fieldHigh12 w))
  | 4 => some (.lbu (fieldRd w) (fieldRs1 w) (fieldHigh12 w))
  | 5 => some (.lhu (fieldRd w) (fieldRs1 w) (fieldHigh12 w))
  | 6 => some (.lwu (fieldRd w) (fieldRs1 w) (fieldHigh12 w))
  | _ => none

/-- Opcode 0100011 (30 R78). -/
def decodeStore (w : BitVec 32) : Option Instr :=
  match (fieldFunct3 w).toNat with
  | 0 => some (.sb (fieldRs2 w) (fieldRs1 w) (fieldStoreImm w))
  | 1 => some (.sh (fieldRs2 w) (fieldRs1 w) (fieldStoreImm w))
  | 2 => some (.sw (fieldRs2 w) (fieldRs1 w) (fieldStoreImm w))
  | 3 => some (.sd (fieldRs2 w) (fieldRs1 w) (fieldStoreImm w))
  | _ => none

/-- The SYSTEM privileged form, funct3 000 with rs1 = rd = 0 (30 R77). -/
def decodePrivileged (w : BitVec 32) : Option Instr :=
  if fieldRd w = 0 ∧ fieldRs1 w = 0 then
    if fieldHigh12 w = 0x000 then some .ecall
    else if fieldHigh12 w = 0x001 then some .ebreak
    else if fieldHigh12 w = 0x102 then some .sret
    else if fieldHigh12 w = 0x302 then some .mret
    else if fieldHigh12 w = 0x702 then some .mnret
    else none
  else none

/-- The hypervisor loads, by bits 31:20 (funct7 and sel, 30 R77). -/
def decodeHypervisorLoad (w : BitVec 32) : Option Instr :=
  if fieldHigh12 w = 0b011000000000 then some (.hlvb (fieldRd w) (fieldRs1 w))
  else if fieldHigh12 w = 0b011000000001 then some (.hlvbu (fieldRd w) (fieldRs1 w))
  else if fieldHigh12 w = 0b011001000000 then some (.hlvh (fieldRd w) (fieldRs1 w))
  else if fieldHigh12 w = 0b011001000001 then some (.hlvhu (fieldRd w) (fieldRs1 w))
  else if fieldHigh12 w = 0b011001000011 then some (.hlvxhu (fieldRd w) (fieldRs1 w))
  else if fieldHigh12 w = 0b011010000000 then some (.hlvw (fieldRd w) (fieldRs1 w))
  else if fieldHigh12 w = 0b011010000011 then some (.hlvxwu (fieldRd w) (fieldRs1 w))
  else if fieldHigh12 w = 0b011010000001 then some (.hlvwu (fieldRd w) (fieldRs1 w))
  else if fieldHigh12 w = 0b011011000000 then some (.hlvd (fieldRd w) (fieldRs1 w))
  else none

/-- The hypervisor stores, by funct7, with rd = 0 (30 R77). -/
def decodeHypervisorStore (w : BitVec 32) : Option Instr :=
  if fieldRd w = 0 then
    if fieldFunct7 w = 0b0110001 then some (.hsvb (fieldRs2 w) (fieldRs1 w))
    else if fieldFunct7 w = 0b0110011 then some (.hsvh (fieldRs2 w) (fieldRs1 w))
    else if fieldFunct7 w = 0b0110101 then some (.hsvw (fieldRs2 w) (fieldRs1 w))
    else if fieldFunct7 w = 0b0110111 then some (.hsvd (fieldRs2 w) (fieldRs1 w))
    else none
  else none

/-- Opcode 1110011 (30 R77). Hypervisor loads have funct7 even and stores odd, so the two never overlap. -/
def decodeSystem (w : BitVec 32) : Option Instr :=
  match (fieldFunct3 w).toNat with
  | 0 => decodePrivileged w
  | 1 => some (.csrrw (fieldRd w) (fieldHigh12 w) (fieldRs1 w))
  | 2 => some (.csrrs (fieldRd w) (fieldHigh12 w) (fieldRs1 w))
  | 3 => some (.csrrc (fieldRd w) (fieldHigh12 w) (fieldRs1 w))
  | 4 =>
    match decodeHypervisorLoad w with
    | some i => some i
    | none => decodeHypervisorStore w
  | 5 => some (.csrrwi (fieldRd w) (fieldHigh12 w) (fieldRs1 w))
  | 6 => some (.csrrsi (fieldRd w) (fieldHigh12 w) (fieldRs1 w))
  | 7 => some (.csrrci (fieldRd w) (fieldHigh12 w) (fieldRs1 w))
  | _ => none

/-- The instruction of a 32-bit word, if it is one of the table's. -/
def decodeWord32 (w : BitVec 32) : Option Instr :=
  if w.extractLsb' 0 7 = 0b0000011 then decodeLoad w
  else if w.extractLsb' 0 7 = 0b0100011 then decodeStore w
  else if w.extractLsb' 0 7 = 0b1110011 then decodeSystem w
  else none

/-- The opcodes of memory instructions outside the table: LOAD-FP, STORE-FP, AMO and MISC-MEM (42 R195). -/
def isOtherMemory (w : BitVec 32) : Bool :=
  w.extractLsb' 0 7 == 0b0000111 || w.extractLsb' 0 7 == 0b0100111 ||
    w.extractLsb' 0 7 == 0b0101111 || w.extractLsb' 0 7 == 0b0001111

/-- The name under which a 32-bit word outside the table is rejected. -/
def rejectWord32 (w : BitVec 32) : DecodeError :=
  if isOtherMemory w then .otherMemory w else .notInTable w

/-- Bits 1:0 = 11 mark a 32-bit instruction (30 R80), told from the first byte. -/
def isWide (b0 : Byte) : Bool := b0.extractLsb' 0 2 == 0b11

/-- A halfword from its bytes, the less significant first. -/
def halfOf (b0 b1 : Byte) : BitVec 16 := b1 ++ b0

/-- A word from its bytes, least significant first. -/
def wordOf (b0 b1 b2 b3 : Byte) : BitVec 32 := b3 ++ b2 ++ b1 ++ b0

/-- Decode the instruction at the head of a byte list; the answer holds the bytes after it. -/
def decode (bytes : List Byte) : Except DecodeError (Instr × List Byte) :=
  match bytes with
  | b0 :: b1 :: rest =>
    if isWide b0 then
      match rest with
      | b2 :: b3 :: rest' =>
        match decodeWord32 (wordOf b0 b1 b2 b3) with
        | some i => .ok (i, rest')
        | none => .error (rejectWord32 (wordOf b0 b1 b2 b3))
      | _ => .error .truncated
    else if halfOf b0 b1 = 0x9002 then .ok (.cebreak, rest)
    else .error (.compressed (halfOf b0 b1))
  | _ => .error .truncated

/-- The `n` bytes of the number `w`, least significant first. -/
def bytesOfNat : Nat → Nat → List Byte
  | 0, _ => []
  | n + 1, w => BitVec.ofNat 8 w :: bytesOfNat n (w / 256)

/-- The instruction this decoder reads from an instruction whose bits are `w`: its bytes as the hardware stores them,
bits above `nbits` zero. -/
def decodeTableWord (nbits w : Nat) : Option Instr :=
  match decode (bytesOfNat 4 (w % 2 ^ nbits)) with
  | .ok (i, _) => some i
  | .error _ => none

/-! The encoder. -/

/-- The CSR, load and privileged formats: high 12 bits, rs1, funct3, rd, opcode. -/
def wordI (high : BitVec 12) (rs1 : BitVec 5) (f3 : BitVec 3) (rd : BitVec 5) (op : BitVec 7) : BitVec 32 :=
  high ++ rs1 ++ f3 ++ rd ++ op

/-- The hypervisor store format: funct7, rs2, rs1, funct3, rd, opcode. -/
def wordR (f7 : BitVec 7) (rs2 rs1 : BitVec 5) (f3 : BitVec 3) (rd : BitVec 5) (op : BitVec 7) : BitVec 32 :=
  f7 ++ rs2 ++ rs1 ++ f3 ++ rd ++ op

/-- The store format: the offset's bits 11:5, rs2, rs1, funct3, the offset's bits 4:0, opcode. -/
def wordS (imm : Imm12) (rs2 rs1 : BitVec 5) (f3 : BitVec 3) : BitVec 32 :=
  wordR (imm.extractLsb' 5 7) rs2 rs1 f3 (imm.extractLsb' 0 5) 0b0100011

/-- The CSR form with its opcode. -/
def wordCsr (csr : CsrNum) (src : BitVec 5) (f3 : BitVec 3) (rd : RegNum) : BitVec 32 :=
  wordI csr src f3 rd 0b1110011

/-- The load form with its opcode. -/
def wordLoad (imm : Imm12) (rs1 : RegNum) (f3 : BitVec 3) (rd : RegNum) : BitVec 32 :=
  wordI imm rs1 f3 rd 0b0000011

/-- The privileged form. -/
def wordPriv (f12 : BitVec 12) : BitVec 32 := wordI f12 0 0 0 0b1110011

/-- The hypervisor load form. -/
def wordHlv (f12 : BitVec 12) (rs1 rd : RegNum) : BitVec 32 := wordI f12 rs1 0b100 rd 0b1110011

/-- The hypervisor store form. -/
def wordHsv (f7 : BitVec 7) (rs2 rs1 : RegNum) : BitVec 32 := wordR f7 rs2 rs1 0b100 0 0b1110011

/-- The instruction's bits; a 16-bit instruction in the low half. -/
def encodeWord : Instr → BitVec 32
  | .csrrw rd csr rs1 => wordCsr csr rs1 0b001 rd
  | .csrrs rd csr rs1 => wordCsr csr rs1 0b010 rd
  | .csrrc rd csr rs1 => wordCsr csr rs1 0b011 rd
  | .csrrwi rd csr uimm => wordCsr csr uimm 0b101 rd
  | .csrrsi rd csr uimm => wordCsr csr uimm 0b110 rd
  | .csrrci rd csr uimm => wordCsr csr uimm 0b111 rd
  | .ebreak => wordPriv 0x001
  | .cebreak => 0x9002
  | .ecall => wordPriv 0x000
  | .mret => wordPriv 0x302
  | .sret => wordPriv 0x102
  | .mnret => wordPriv 0x702
  | .lb rd rs1 imm => wordLoad imm rs1 0b000 rd
  | .lh rd rs1 imm => wordLoad imm rs1 0b001 rd
  | .lw rd rs1 imm => wordLoad imm rs1 0b010 rd
  | .lbu rd rs1 imm => wordLoad imm rs1 0b100 rd
  | .lhu rd rs1 imm => wordLoad imm rs1 0b101 rd
  | .lwu rd rs1 imm => wordLoad imm rs1 0b110 rd
  | .ld rd rs1 imm => wordLoad imm rs1 0b011 rd
  | .sb rs2 rs1 imm => wordS imm rs2 rs1 0b000
  | .sh rs2 rs1 imm => wordS imm rs2 rs1 0b001
  | .sw rs2 rs1 imm => wordS imm rs2 rs1 0b010
  | .sd rs2 rs1 imm => wordS imm rs2 rs1 0b011
  | .hlvb rd rs1 => wordHlv 0b011000000000 rs1 rd
  | .hlvbu rd rs1 => wordHlv 0b011000000001 rs1 rd
  | .hlvh rd rs1 => wordHlv 0b011001000000 rs1 rd
  | .hlvhu rd rs1 => wordHlv 0b011001000001 rs1 rd
  | .hlvxhu rd rs1 => wordHlv 0b011001000011 rs1 rd
  | .hlvw rd rs1 => wordHlv 0b011010000000 rs1 rd
  | .hlvxwu rd rs1 => wordHlv 0b011010000011 rs1 rd
  | .hlvwu rd rs1 => wordHlv 0b011010000001 rs1 rd
  | .hlvd rd rs1 => wordHlv 0b011011000000 rs1 rd
  | .hsvb rs2 rs1 => wordHsv 0b0110001 rs2 rs1
  | .hsvh rs2 rs1 => wordHsv 0b0110011 rs2 rs1
  | .hsvw rs2 rs1 => wordHsv 0b0110101 rs2 rs1
  | .hsvd rs2 rs1 => wordHsv 0b0110111 rs2 rs1

/-- The instruction's length in bytes (10 R37). -/
def Instr.size : Instr → Nat
  | .cebreak => 2
  | _ => 4

/-- The four bytes of a word, least significant first. -/
def wordBytes (w : BitVec 32) : List Byte :=
  [w.extractLsb' 0 8, w.extractLsb' 8 8, w.extractLsb' 16 8, w.extractLsb' 24 8]

/-- The instruction's bytes as the hardware stores them. -/
def encode (i : Instr) : List Byte := (wordBytes (encodeWord i)).take i.size

end Sys2Proof
end

