-- ==== Sys2Proof/Machine/State.lean ====
section
/-! DEFINITION. The state of the hart and of what stands around it, as plain data; the faults and refusals; reset.
Every field cites the rule that names it; INVENTORY.md lists them with their reset values. -/

namespace Sys2Proof.Machine

/-- The five modes of the hart (60 R235). On a hart without the hypervisor extension `hs` is S-mode. -/
inductive Mode where
  | m
  | hs
  | vs
  | u
  | vu
deriving DecidableEq, Repr

/-- The debug access privilege, or a level a register requires (00 section 5): `none` is the source's None. -/
inductive Level where
  | none
  | u
  | vs
  | hs
  | m
deriving DecidableEq, Repr

/-- The kind of an access, for translation and protection (20 R51): `execData` is a data read that needs execute
permission (HLVX, 42 R181). -/
inductive Access where
  | fetch
  | load
  | execData
  | store
deriving DecidableEq, Repr

/-- Why an access does not go through (20 R58, 60 R256). -/
inductive MemFaultKind where
  | misaligned
  | access
  | page
  | guestPage
deriving DecidableEq, Repr

/-- A failed access: its kind and the address reported. -/
structure MemFault where
  kind : MemFaultKind
  addr : Word
deriving DecidableEq, Repr

/-- The synchronous exceptions (60 R256, 42 R181). -/
inductive Exc where
  | illegal (bits : BitVec 32)
  | virtualInstruction (bits : BitVec 32)
  | breakpoint
  | envCall
  | mem (acc : Access) (f : MemFault)
deriving DecidableEq, Repr

/-- Why Debug Mode is entered (60 R236, R237). -/
inductive DebugCause where
  | ebreak
  | trigger
  | haltreq
  | step
  | resethaltreq
  | group
deriving DecidableEq, Repr

/-- The trap, status and delegation CSRs of the privileged architecture that the rules read or write (10 R31,
60 R249, R250; layouts of the family, log 1). `sstatus`, `sie`, `sip`, `vsie`, `vsip` are views and have no field. -/
structure Csrs where
  mstatus : Word
  medeleg : Word
  mideleg : Word
  mie : Word
  mip : Word
  mtvec : Word
  mepc : Word
  mcause : Word
  mtval : Word
  stvec : Word
  sepc : Word
  scause : Word
  stval : Word
  hstatus : Word
  hedeleg : Word
  hideleg : Word
  vsstatus : Word
  vstvec : Word
  vsepc : Word
  vscause : Word
  vstval : Word
  /-- Status of resumable non-maskable interrupts (42 R167). -/
  mnstatus : Word
  mnepc : Word
  mncause : Word
deriving DecidableEq, Repr

/-- The debug registers: `dcsr` (10 R25), `dpc` (10 R26), `dscratch0`, `dscratch1` (10 R27), and the only storage
Sdsec's views add, `sdcsr.DMPRV` (10 R19). -/
structure DebugRegs where
  dcsr : BitVec 32
  dpc : Word
  dscratch0 : Word
  dscratch1 : Word
  dmprv : Bool
deriving DecidableEq, Repr

/-- One trigger (10 R28): its two data registers, whether it has fired (hit), and whether M-mode has delegated it
to S/HS-mode (44 R229). -/
structure Trigger where
  tdata1 : Word
  tdata2 : Word
  hit : Bool
  delegated : Bool
deriving DecidableEq, Repr

/-- The trigger module (44). -/
structure TriggerModule where
  tselect : Word
  triggers : List Trigger
  /-- The model's own input (log 13): numbers of the triggers whose base match condition holds at the next
  boundary. -/
  matched : List Nat
  /-- External trigger inputs asserted and not acknowledged (10 R33). -/
  extIn : BitVec 16
  /-- External trigger outputs asserted by the last hart step: bit 0 by ACTION 8, bit 1 by ACTION 9 (44 R223). -/
  extOut : BitVec 2
deriving DecidableEq, Repr

/-- What the rules use of the Debug Module: CMDERR (10 R29), the Program Buffer and its execution (40 R106), the
value an abstract command hands to the debugger, and whether a Quick Access is in progress (40 R105). -/
structure DebugModule where
  cmderr : BitVec 3
  data : Word
  progBuf : List Byte
  pbPc : Nat
  pbRun : Bool
  quick : Bool
deriving DecidableEq, Repr

/-- One page of the translation data (20 R64, log 9): for the address space with V = 0 or V = 1, a virtual page
number, the physical page number, the page's permissions, and the second stage's permissions (used when V = 1). -/
structure Page where
  virt : Bool
  vpn : BitVec 52
  ppn : BitVec 52
  r : Bool
  w : Bool
  x : Bool
  u : Bool
  gr : Bool
  gw : Bool
  gx : Bool
deriving DecidableEq, Repr

/-- Physical protection of one page (20 R51, R64, log 9): permissions of accesses below M, and whether they bind
M-mode too. A page with no guard allows everything. -/
structure Guard where
  ppn : BitVec 52
  r : Bool
  w : Bool
  x : Bool
  bindsM : Bool
deriving DecidableEq, Repr

/-- The translation and protection data (20 R64, log 9): whether the address space with V = 0 is translated (`on0`), the
first stage (`on1`) and the second stage (`onG`) of the one with V = 1; the pages, the guards. -/
structure Translation where
  on0 : Bool
  on1 : Bool
  onG : Bool
  pages : List Page
  guards : List Guard
deriving DecidableEq, Repr

/-- Memory: the bytes that differ from what an unlisted address reads as, addresses strictly rising
(`Memory.wf`, Machine/Memory.lean). -/
abbrev Memory := List Host.Cell

/-- The register an Access Register command names (40 R103). -/
inductive AbsReg where
  | gpr (r : RegNum)
  | csr (n : CsrNum)
deriving DecidableEq, Repr

/-- The size of an Access Memory command (40 R104). -/
inductive AbsSize where
  | b1
  | b2
  | b4
  | b8
deriving DecidableEq, Repr

/-- What an agent does between two steps of the hart (60 R255). `hart` lets the hart take one step. -/
inductive Event where
  | hart
  /-- The controlling entity drives `mdbgen` (10 R10, 70 R273). -/
  | setMdbgen (b : Bool)
  /-- The controlling entity drives `mtrcen` (10 R11, 43 R216). -/
  | setMtrcen (b : Bool)
  /-- The debugger requests a halt (40 R102). -/
  | haltRequest
  /-- A reset-halt request (60 R237). -/
  | resetHaltRequest
  /-- A halt request of a halt group (60 R237). -/
  | groupHaltRequest
  /-- The debugger resumes the hart (60 R241). -/
  | resume
  /-- Access Register (40 R103): a read, or a write of the value given. -/
  | accessRegister (r : AbsReg) (write : Option Word)
  /-- Access Memory (40 R104): a read, or a write of the value given. -/
  | accessMemory (addr : Word) (size : AbsSize) (write : Option Word)
  /-- Quick Access (40 R105). -/
  | quickAccess
  /-- The debugger fills the Program Buffer. -/
  | writeProgBuf (bytes : List Byte)
  /-- The debugger starts the Program Buffer (40 R106). -/
  | runProgBuf
  /-- The debugger clears CMDERR (10 R29, 70 R279). -/
  | clearCmderr
  /-- The interrupt lines: bits of `mip` under the mask take the values given (60 R247). -/
  | setInterrupts (mask value : Word)
  /-- A non-maskable interrupt arrives or is withdrawn (60 R246). -/
  | setNmi (b : Bool)
  /-- An initiator asserts an external trigger input (44 R224), or withdraws it, acknowledged or not: DESIGN CHOICE
  (log 15). -/
  | setExtIn (i : BitVec 4) (b : Bool)
  /-- The base match conditions that hold at the next boundary (log 13). -/
  | setMatched (ts : List Nat)
  /-- M-mode's delegation of a trigger, by a mechanism not in the source (44 R229). -/
  | delegateTrigger (i : Nat) (b : Bool)
  /-- The result of translation and protection changes (20 R64, log 9). -/
  | setTranslation (x : Translation)
deriving DecidableEq, Repr

/-- The whole state. -/
structure State where
  /-- The implementation's parameters (00 section 4). No step changes them. -/
  p : Params
  /-- The general registers (10 R36). Entry 0 is never read. -/
  regs : Vector Word 32
  /-- The program counter (10 R37). -/
  pc : Word
  /-- The hart's mode (10 R30); in Debug Mode it keeps the mode of entry and is not consulted. -/
  cur : Mode
  /-- `in_debug_mode` (10 R30). -/
  inDebug : Bool
  csr : Csrs
  dbg : DebugRegs
  /-- `msdcfg` (10 R12 to R18, 30 R75). -/
  msdcfg : Word
  /-- The M-mode debug control (10 R10). -/
  mdbgen : Bool
  /-- The M-mode trace control (10 R11). -/
  mtrcen : Bool
  trig : TriggerModule
  /-- A pending halt request (10 R32). -/
  haltPending : Bool
  /-- A pending reset-halt request (60 R237). -/
  resetHaltPending : Bool
  /-- A pending halt-group request (60 R237). -/
  groupHaltPending : Bool
  /-- A single step owes a re-entry (10 R35). -/
  stepArmed : Bool
  /-- A pending non-maskable interrupt (60 R246). -/
  nmiPending : Bool
  dm : DebugModule
  /-- The hart-trace interface after the last hart step: the address of the retired instruction, or nothing
  (43 R215). -/
  hti : Option Word
  xlat : Translation
  mem : Memory
  /-- The agents' next actions, in order (log 10). Empty: the hart steps. -/
  inputs : List Event
deriving DecidableEq, Repr

/-- Why the machine stops with a fault. -/
inductive Fault where
  /-- A resume with `dcsr.PRV` and `dcsr.V` naming no mode of the hart (60 R241). 40 R101 keeps the pair legal, so no
  run reaches it. Raised by `resume`. Safe. -/
  | resumeTargetUnsupported
deriving DecidableEq, Repr

/-- Why the machine gives a run no meaning. -/
inductive Refusal where
  /-- An instruction without a meaning yet, by its mnemonic. Raised by `exec`'s arms. Safe. -/
  | notModelled (mnemonic : String)
  /-- The parameters are not a row of the table of valid combinations or collide (00 R3, 30 R71, R75). Raised by
  `step`. Safe. -/
  | invalidConfiguration
  /-- The bytes fetched are none of the 36 instructions (00 section 3, 42 R195). Raised by the hart's step. Safe. -/
  | undecodable (e : DecodeError)
  /-- `mdbgen` falls while the hart is in Debug Mode (70 R273, 93 U1). Raised by `Event.setMdbgen`. Safe. -/
  | mdbgenLoweredInDebugMode
  /-- A resume while the hart is not in Debug Mode (60 R241 requires `in_debug_mode`). Safe. -/
  | resumeWhileRunning
  /-- A debugger command against a hart running in a debug-disallowed mode, CMDERR_NOT_ALLOWED unset (40 R107). Safe. -/
  | commandNotAllowed
  /-- A debugger command against a hart running in a debug-allowed mode: not in the source (log 19). Safe. -/
  | commandWhileRunning
  /-- A debugger command while the Program Buffer executes: not in the source (log 19). Safe. -/
  | commandWhileBusy
  /-- A Quick Access to a halted hart: not in the source (log 18). Safe. -/
  | quickAccessWhileHalted
  /-- An 8-byte Access Memory where XLEN = 32: not in the source (log 19). Safe. -/
  | accessSizeUnsupported
deriving DecidableEq, Repr

/-- The trap and status CSRs at reset: all zero (the family's values where it gives one, log 1; else log 6), but that
the saved-privilege fields MPP and MNPP hold the lowest privilege the hart has: 3 on a hart with M-mode only. -/
def Csrs.reset (p : Params) : Csrs where
  mstatus := if p.hasU then 0 else 0x1800
  medeleg := 0
  mideleg := 0
  mie := 0
  mip := 0
  mtvec := 0
  mepc := 0
  mcause := 0
  mtval := 0
  stvec := 0
  sepc := 0
  scause := 0
  stval := 0
  hstatus := 0
  hedeleg := 0
  hideleg := 0
  vsstatus := 0
  vstvec := 0
  vsepc := 0
  vscause := 0
  vstval := 0
  mnstatus := if p.hasU then 0 else 0x1800
  mnepc := 0
  mncause := 0

/-- The debug registers at reset: DMPRV 0 (70 R271); `dcsr` with DEBUGVER 4 and PRV 3, the family's (log 1). -/
def DebugRegs.reset : DebugRegs where
  dcsr := 0x40000003
  dpc := 0
  dscratch0 := 0
  dscratch1 := 0
  dmprv := false

/-- Four triggers, none configured, none hit and none delegated: DESIGN CHOICE, the spec gives neither the number nor the
reset value of the hit and delegated bits (log 13, log 33). No match input, no external input and no output is asserted:
DESIGN CHOICE (log 13, log 15). -/
def TriggerModule.reset : TriggerModule where
  tselect := 0
  triggers := List.replicate 4 ⟨0, 0, false, false⟩
  matched := []
  extIn := 0
  extOut := 0

/-- The Debug Module at reset: CMDERR 0 (the family's, log 1). The spec gives no value for the rest, and the model's are
DESIGN CHOICE: the data of abstract commands is 0 (log 19), the Program Buffer is empty and does not execute, its offset 0
(log 17), no Quick Access is in progress (log 18). -/
def DebugModule.reset : DebugModule where
  cmderr := 0
  data := 0
  progBuf := []
  pbPc := 0
  pbRun := false
  quick := false

/-- The hart right after reset under given parameters and with the two controls driven as given (10 R39, 70 R270 to
R272, R278). That no address space is translated and no page is guarded out of reset is the model's DESIGN CHOICE: the
spec gives no value (20 R64; log 9). -/
def State.resetWith (p : Params) (mdbgen mtrcen : Bool) : State where
  p := p
  regs := Vector.replicate 32 0
  pc := p.resetVector
  cur := .m
  inDebug := false
  csr := Csrs.reset p
  dbg := DebugRegs.reset
  msdcfg := p.msdcfgReset
  mdbgen := mdbgen
  mtrcen := mtrcen
  trig := TriggerModule.reset
  haltPending := false
  resetHaltPending := false
  groupHaltPending := false
  stepArmed := false
  nmiPending := false
  dm := DebugModule.reset
  hti := none
  xlat := ⟨false, false, false, [], []⟩
  mem := []
  inputs := []

/-- The machine right after reset: the full configuration, `mdbgen` = `mtrcen` = 0 (log 2, log 5). -/
def State.reset : State := State.resetWith Params.full false false

end Sys2Proof.Machine
end

