-- ==== Sys2Proof/Machine/Bits.lean ====
section
/-! DEFINITION. Bit-field and width helpers. -/

namespace Sys2Proof

/-- Keep a value within XLEN bits (10 R37: values wrap modulo 2^XLEN). -/
def Params.toXlen (p : Params) (v : Word) : Word :=
  if p.xlen64 then v else v &&& 0xFFFFFFFF

/-- XLEN in bits. -/
def Params.xlen (p : Params) : Nat := if p.xlen64 then 64 else 32

end Sys2Proof

namespace Sys2Proof.Machine

/-- The mask with one bit set. -/
def bitMask (n i : Nat) : BitVec n := BitVec.ofNat n (2 ^ i)

/-- Replace one bit. -/
def setBit {n : Nat} (v : BitVec n) (i : Nat) (b : Bool) : BitVec n :=
  if b then v ||| bitMask n i else v &&& ~~~ (bitMask n i)

/-- Replace the bits under a mask by those of another value. -/
def merge {n : Nat} (mask old new : BitVec n) : BitVec n := (old &&& ~~~mask) ||| (new &&& mask)

/-- Replace a two-bit field. -/
def setBits2 {n : Nat} (v : BitVec n) (lo : Nat) (x : BitVec 2) : BitVec n :=
  setBit (setBit v lo (x.getLsbD 0)) (lo + 1) (x.getLsbD 1)

/-- The `n` low bytes of a value, least significant first (20 R60; `State.inOrder` puts them in memory's order). -/
def splitBytes : Nat → Word → List Byte
  | 0, _ => []
  | n + 1, v => v.extractLsb' 0 8 :: splitBytes n (v >>> 8)

/-- The value whose bytes are given, least significant first (20 R60; `State.inOrder`). -/
def joinBytes : List Byte → Word
  | [] => 0
  | b :: bs => b.setWidth 64 ||| (joinBytes bs <<< 8)

/-- Extend the low `n` bytes of a value to 64 bits, with sign or with zeros (42 R168). -/
def extendBytes (n : Nat) (signed : Bool) (v : Word) : Word :=
  if signed then (v.setWidth (8 * n)).signExtend 64 else (v.setWidth (8 * n)).setWidth 64

end Sys2Proof.Machine
end

