-- ==== Sys2Proof/Machine/Memory.lean ====
section
/-! DEFINITION. Memory: byte reads and writes over the canonical list (20 R50). An address that is not listed reads
`Memory.unlisted` (DESIGN CHOICE, log 8). -/

namespace Sys2Proof.Machine

/-- What a byte that nothing has written reads as (log 8). -/
def Memory.unlisted : Byte := 0

/-- Read one byte. -/
def Memory.read : Memory → Nat → Byte
  | [], _ => Memory.unlisted
  | (a, b) :: m, k => if a = k then b else Memory.read m k

/-- Remove an address. -/
def Memory.erase : Memory → Nat → Memory
  | [], _ => []
  | (a, b) :: m, k => if a = k then Memory.erase m k else (a, b) :: Memory.erase m k

/-- Insert a cell before the first greater address. -/
def Memory.insert : Memory → Nat → Byte → Memory
  | [], k, v => [(k, v)]
  | (a, b) :: m, k, v => if k < a then (k, v) :: (a, b) :: m else (a, b) :: Memory.insert m k v

/-- Write one byte; writing what an unlisted address reads as removes the entry. -/
def Memory.write (m : Memory) (k : Nat) (v : Byte) : Memory :=
  if v = Memory.unlisted then Memory.erase m k else Memory.insert (Memory.erase m k) k v

/-- Write a list of bytes at a list of addresses, in order. -/
def Memory.writeAll : Memory → List Nat → List Byte → Memory
  | m, k :: ks, v :: vs => Memory.writeAll (Memory.write m k v) ks vs
  | m, _, _ => m

/-- The canonical form: no entry equal to the unlisted byte, addresses strictly rising. -/
def Memory.wf : Memory → Bool
  | [] => true
  | [(_, b)] => b != Memory.unlisted
  | (a, b) :: (a', b') :: m => b != Memory.unlisted && decide (a < a') && Memory.wf ((a', b') :: m)

end Sys2Proof.Machine
end

