-- ==== Sys2Proof/Machine/Flags.lean ====
section
/-! DEFINITION. The fields of the status registers. The architecture has no condition codes (10 R38): no instruction
computes a flag; what stands here are the named bits of `dcsr`, `msdcfg`, `mstatus`, `hstatus`, `vsstatus`,
`mnstatus` and `tdata1`. Positions: `dcsr` 30 R76, `msdcfg` 30 R75, the others the family's (log 1). -/

namespace Sys2Proof.Machine

/-! ### Modes and levels -/

/-- The privilege encoding of a mode (60 R235). -/
def Mode.prv : Mode → BitVec 2
  | .m => 3
  | .hs | .vs => 1
  | .u | .vu => 0

/-- The virtualization mode of a mode (60 R235). -/
def Mode.virt : Mode → Bool
  | .vs | .vu => true
  | .m | .hs | .u => false

/-- `lvl` (00 section 5). -/
def Mode.lvl : Mode → Level
  | .m => .m
  | .hs => .hs
  | .vs => .vs
  | .u | .vu => .u

/-- The order of levels: None below 0 below 1 below 2 below 3 (00 section 5). -/
def Level.rank : Level → Nat
  | .none => 0
  | .u => 1
  | .vs => 2
  | .hs => 3
  | .m => 4

/-- The mode a pair (privilege, virtualization) names; `none` for privilege 2 and for (3, 1) (40 R101). -/
def Mode.ofPair (prv : BitVec 2) (v : Bool) : Option Mode :=
  match prv.toNat, v with
  | 3, false => some .m
  | 1, false => some .hs
  | 1, true => some .vs
  | 0, false => some .u
  | 0, true => some .vu
  | _, _ => none

/-- The mode a trap return goes to, from a saved privilege and a saved virtualization mode: the saved virtualization
mode counts below M only (60 R249; the reserved privilege 2 is never stored). -/
def Mode.ofSaved (prv : BitVec 2) (v : Bool) : Mode :=
  match prv.toNat, v with
  | 3, _ => .m
  | 1, false => .hs
  | 1, true => .vs
  | _, false => .u
  | _, true => .vu

/-- The modes the hart has (60 R235). -/
def supportedMode (p : Params) : Mode → Bool
  | .m => true
  | .hs => p.hasS
  | .u => p.hasU
  | .vs | .vu => p.hasH

/-- A privilege some mode of the hart has. -/
def supportedPrv (p : Params) (prv : BitVec 2) : Bool :=
  match prv.toNat with
  | 3 => true
  | 1 => p.hasS
  | 0 => p.hasU
  | _ => false

/-- The lowest privilege of the hart, which a trap return leaves in xPP (60 R249). -/
def lowestPrv (p : Params) : BitVec 2 := if p.hasU then 0 else 3

/-! ### `dcsr` (30 R76) -/

def DebugRegs.prv (d : DebugRegs) : BitVec 2 := d.dcsr.extractLsb' 0 2
def DebugRegs.step (d : DebugRegs) : Bool := d.dcsr.getLsbD 2
def DebugRegs.mprven (d : DebugRegs) : Bool := d.dcsr.getLsbD 4
def DebugRegs.v (d : DebugRegs) : Bool := d.dcsr.getLsbD 5
def DebugRegs.cause (d : DebugRegs) : BitVec 3 := d.dcsr.extractLsb' 6 3
def DebugRegs.stepie (d : DebugRegs) : Bool := d.dcsr.getLsbD 11
def DebugRegs.ebreaku (d : DebugRegs) : Bool := d.dcsr.getLsbD 12
def DebugRegs.ebreaks (d : DebugRegs) : Bool := d.dcsr.getLsbD 13
def DebugRegs.ebreakm (d : DebugRegs) : Bool := d.dcsr.getLsbD 15
def DebugRegs.ebreakvu (d : DebugRegs) : Bool := d.dcsr.getLsbD 16
def DebugRegs.ebreakvs (d : DebugRegs) : Bool := d.dcsr.getLsbD 17

/-- `ebreak_bit` (42 R160). -/
def ebreakBit (d : DebugRegs) : Mode → Bool
  | .m => d.ebreakm
  | .hs => d.ebreaks
  | .u => d.ebreaku
  | .vs => d.ebreakvs
  | .vu => d.ebreakvu

/-- `dcsr` with PRV and V replaced. -/
def setPrvV (dcsr : BitVec 32) (prv : BitVec 2) (v : Bool) : BitVec 32 := setBit (setBits2 dcsr 0 prv) 5 v

/-- The codes of `dcsr.CAUSE` (93 part 2, item 4). -/
def DebugCause.code : DebugCause → BitVec 3
  | .ebreak => 1
  | .trigger => 2
  | .haltreq => 3
  | .step => 4
  | .resethaltreq => 5
  | .group => 6

/-- `dcsr` with CAUSE replaced. -/
def setCause (dcsr : BitVec 32) (c : DebugCause) : BitVec 32 :=
  merge 0x1C0 dcsr (c.code.setWidth 32 <<< 6)

/-! ### `mstatus`, `hstatus`, `vsstatus`, `mnstatus` (the family's positions, log 1) -/

def Csrs.sie (c : Csrs) : Bool := c.mstatus.getLsbD 1
def Csrs.mie_ (c : Csrs) : Bool := c.mstatus.getLsbD 3
def Csrs.spie (c : Csrs) : Bool := c.mstatus.getLsbD 5
def Csrs.mpie (c : Csrs) : Bool := c.mstatus.getLsbD 7
def Csrs.spp (c : Csrs) : Bool := c.mstatus.getLsbD 8
def Csrs.mpp (c : Csrs) : BitVec 2 := c.mstatus.extractLsb' 11 2
def Csrs.mprv (c : Csrs) : Bool := c.mstatus.getLsbD 17
def Csrs.sum (c : Csrs) : Bool := c.mstatus.getLsbD 18
def Csrs.mxr (c : Csrs) : Bool := c.mstatus.getLsbD 19
def Csrs.tsr (c : Csrs) : Bool := c.mstatus.getLsbD 22
def Csrs.mpv (c : Csrs) : Bool := c.mstatus.getLsbD 39
def Csrs.ube (c : Csrs) : Bool := c.mstatus.getLsbD 6
def Csrs.sbe (c : Csrs) : Bool := c.mstatus.getLsbD 36
def Csrs.mbe (c : Csrs) : Bool := c.mstatus.getLsbD 37
def Csrs.vsbe (c : Csrs) : Bool := c.hstatus.getLsbD 5
def Csrs.spv (c : Csrs) : Bool := c.hstatus.getLsbD 7
def Csrs.spvp (c : Csrs) : Bool := c.hstatus.getLsbD 8
def Csrs.hu (c : Csrs) : Bool := c.hstatus.getLsbD 9
def Csrs.vtsr (c : Csrs) : Bool := c.hstatus.getLsbD 22
def Csrs.vsube (c : Csrs) : Bool := c.vsstatus.getLsbD 6
def Csrs.vssie (c : Csrs) : Bool := c.vsstatus.getLsbD 1
def Csrs.vsspie (c : Csrs) : Bool := c.vsstatus.getLsbD 5
def Csrs.vsspp (c : Csrs) : Bool := c.vsstatus.getLsbD 8
def Csrs.vssum (c : Csrs) : Bool := c.vsstatus.getLsbD 18
def Csrs.vsmxr (c : Csrs) : Bool := c.vsstatus.getLsbD 19
def Csrs.nmie (c : Csrs) : Bool := c.mnstatus.getLsbD 3
def Csrs.mnpv (c : Csrs) : Bool := c.mnstatus.getLsbD 7
def Csrs.mnpp (c : Csrs) : BitVec 2 := c.mnstatus.extractLsb' 11 2

/-- The privilege 0 or 1 a one-bit previous-privilege field names. -/
def prvOfSpp (b : Bool) : BitVec 2 := if b then 1 else 0

/-- The one-bit previous-privilege field for a mode below M. -/
def Mode.sppBit (mode : Mode) : Bool := mode.prv == 1

/-! ### `tdata1` (the family's positions, log 13) -/

/-- The trigger's type, bits XLEN-1 to XLEN-4. -/
def Trigger.ttype (p : Params) (t : Trigger) : BitVec 4 := t.tdata1.extractLsb' (p.xlen - 4) 4

/-- DMODE, bit XLEN-5 (10 R28). -/
def Trigger.dmode (p : Params) (t : Trigger) : Bool := t.tdata1.getLsbD (p.xlen - 5)

/-- The trigger is of type `tmexttrigger` (44 R224). -/
def Trigger.isExt (p : Params) (t : Trigger) : Bool := t.ttype p == 7

/-- The trigger exists and is enabled as a trigger of another type. -/
def Trigger.isBase (p : Params) (t : Trigger) : Bool := t.ttype p != 0 && t.ttype p != 15 && t.ttype p != 7

/-- The external inputs a `tmexttrigger` trigger selects. -/
def Trigger.select (t : Trigger) : BitVec 16 := t.tdata1.extractLsb' 6 16

/-- ACTION (10 R28): bits 15:12 of the match types 2 and 6, bits 5:0 of the others. -/
def Trigger.action (p : Params) (t : Trigger) : BitVec 6 :=
  if t.ttype p = 2 ∨ t.ttype p = 6 then (t.tdata1.extractLsb' 12 4).setWidth 6 else t.tdata1.extractLsb' 0 6

end Sys2Proof.Machine
end

