-- ==== Sys2Proof/Machine/Access.lean ====
section
/-! DEFINITION. The privilege ladder: valid configurations, the debug and trace configurations, `dbg_allowed`, the
debug access privilege, legal resume pairs, `mem_priv`, `trace_allowed`. -/

namespace Sys2Proof

/-! ### Valid configurations -/

/-- The table of valid implementation combinations (00 R3). -/
def Params.validCombination (p : Params) : Bool :=
  match p.hasS, p.hasU, p.hasH with
  | false, false, false => !p.hasSmsdedbg && !p.hasSmvsdedbg && !p.hasSmudedbg
  | false, true, false => !p.hasSmsdedbg && !p.hasSmvsdedbg
  | true, true, false => !p.hasSmvsdedbg && (p.hasSmsdedbg || !p.hasSmudedbg)
  | true, true, true => (p.hasSmsdedbg || !p.hasSmvsdedbg) && (p.hasSmvsdedbg || !p.hasSmudedbg)
  | _, _, _ => false

/-- The CSR numbers of the registers the spec gives numbers to (30 R71) and of the family's (log 1). -/
def Machine.allocatedCsrNumbers : List CsrNum :=
  [0x100, 0x104, 0x105, 0x141, 0x142, 0x143, 0x144,
   0x200, 0x204, 0x205, 0x241, 0x242, 0x243, 0x244,
   0x300, 0x302, 0x303, 0x304, 0x305, 0x310, 0x341, 0x342, 0x343, 0x344,
   0x600, 0x602, 0x603, 0x741, 0x742, 0x744,
   0x7a0, 0x7a1, 0x7a2, 0x7b0, 0x7b1, 0x7b2, 0x7b3]

/-- The five open CSR numbers (30 R71). -/
def Params.openCsrNumbers (p : Params) : List CsrNum :=
  [p.sdcsrAddr, p.sdpcAddr, p.udcsrAddr, p.udpcAddr, p.msdcfgAddr]

/-- No number stands twice. -/
def Machine.allDistinct : List CsrNum → Bool
  | [] => true
  | n :: ns => !ns.contains n && Machine.allDistinct ns

/-- The open CSR numbers are pairwise distinct, distinct from the allocated ones, and not the placeholder `0xaaa`
(30 R71). -/
def Params.validCsrNumbers (p : Params) : Bool :=
  Machine.allDistinct p.openCsrNumbers &&
    p.openCsrNumbers.all fun n => !Machine.allocatedCsrNumbers.contains n && n != 0xaaa

/-- The trace bit positions differ from each other and from 7, 8, 9 (00 section 4, 90 C1). That they lie within XLEN is the
model's own condition, DESIGN CHOICE: the spec does not give the width of `msdcfg` (10 R12, 91 N2), and the model makes it
XLEN bits (log 4). -/
def Params.validTraceBits (p : Params) : Bool :=
  p.sdetrcBit != p.vsetrcBit && p.sdetrcBit != p.usetrcBit && p.vsetrcBit != p.usetrcBit &&
    [p.sdetrcBit, p.vsetrcBit, p.usetrcBit].all fun b =>
      b != 7 && b != 8 && b != 9 && decide (b.toNat < p.xlen)

/-- The configurations the model gives a meaning (00 R3, 30 R71, R75). -/
def Params.valid (p : Params) : Bool :=
  Params.validCombination p && Params.validCsrNumbers p && Params.validTraceBits p

end Sys2Proof

namespace Sys2Proof.Machine

/-! ### The debug and trace configurations -/

/-- The debug configuration `cfg` (10 R16). -/
structure Cfg where
  mdbgen : Bool
  sde : Bool
  vse : Bool
  usd : Bool
deriving DecidableEq, Repr

/-- The trace configuration `tcfg` (43 R210). -/
structure TraceCfg where
  mtrcen : Bool
  sdt : Bool
  vst : Bool
  ust : Bool
deriving DecidableEq, Repr

/-- `cfg` of a state: an absent sub-extension's control reads 0 (00 R4, 10 R16). -/
def State.cfg (s : State) : Cfg where
  mdbgen := s.mdbgen
  sde := s.p.hasSmsdedbg && s.msdcfg.getLsbD 7
  vse := s.p.hasSmvsdedbg && s.msdcfg.getLsbD 8
  usd := s.p.hasSmudedbg && s.msdcfg.getLsbD 9

/-- `tcfg` of a state: a field exists iff its sub-extension is implemented and the hart has trace (10 R17, R18). -/
def State.tcfg (s : State) : TraceCfg where
  mtrcen := s.mtrcen
  sdt := s.p.hasSmsdedbg && s.p.hasTrace && s.msdcfg.getLsbD s.p.sdetrcBit.toNat
  vst := s.p.hasSmvsdedbg && s.p.hasTrace && s.msdcfg.getLsbD s.p.vsetrcBit.toNat
  ust := s.p.hasSmudedbg && s.p.hasTrace && s.msdcfg.getLsbD s.p.usetrcBit.toNat

/-- `dbg_allowed` (40 R92). -/
def dbgAllowed (uFollowsVs : Bool) (c : Cfg) : Mode → Bool
  | .m => c.mdbgen
  | .hs => c.mdbgen || c.sde
  | .vs => c.mdbgen || c.sde || c.vse
  | .vu => c.mdbgen || c.sde || c.vse || c.usd
  | .u => c.mdbgen || c.sde || c.usd || (uFollowsVs && c.vse)

/-- `trace_allowed` (43 R210). -/
def traceAllowed (uFollowsVs : Bool) (c : TraceCfg) : Mode → Bool
  | .m => c.mtrcen
  | .hs => c.mtrcen || c.sdt
  | .vs => c.mtrcen || c.sdt || c.vst
  | .vu => c.mtrcen || c.sdt || c.vst || c.ust
  | .u => c.mtrcen || c.sdt || c.ust || (uFollowsVs && c.vst)

/-- `dbg_allowed(cfg, m)` for the state's own configuration. -/
def State.allowedIn (s : State) (mode : Mode) : Bool := dbgAllowed s.p.uFollowsVs s.cfg mode

/-- `dbg_allowed(cfg, cur)`. -/
def State.allowed (s : State) : Bool := s.allowedIn s.cur

/-- The debug access privilege `dap` (40 R98). -/
def dap (c : Cfg) : Level :=
  if c.mdbgen then .m else if c.sde then .hs else if c.vse then .vs else if c.usd then .u else .none

/-- `dap(cfg)` of a state. -/
def State.dap (s : State) : Level := Machine.dap s.cfg

/-! ### PRV and V (40 R101) -/

/-- A legal resume pair: a mode of the hart, not above `max_resume(cfg)` = `dap(cfg)` (40 R100, R101). -/
def legalPair (p : Params) (c : Cfg) (prv : BitVec 2) (v : Bool) : Bool :=
  match Mode.ofPair prv v with
  | some mode => supportedMode p mode && decide (mode.lvl.rank ≤ (dap c).rank)
  | none => false

/-- `cfg` as four bits, `mdbgen` most significant. -/
def Cfg.bits (c : Cfg) : BitVec 4 :=
  BitVec.ofBool c.mdbgen ++ BitVec.ofBool c.sde ++ BitVec.ofBool c.vse ++ BitVec.ofBool c.usd

/-- The pair kept after an illegal write: the old one, or the implementation's choice where it is legal (40 R101,
93 U6, log 11). -/
def legalizePrvV (p : Params) (c : Cfg) (old new : BitVec 2 × Bool) : BitVec 2 × Bool :=
  match p.legalize with
  | .keep => old
  | .implementation =>
    let q := Config.legalPrvV c.bits (BitVec.ofBool old.2 ++ old.1) (BitVec.ofBool new.2 ++ new.1)
    if legalPair p c (q.extractLsb' 0 2) (q.getLsbD 2) then (q.extractLsb' 0 2, q.getLsbD 2) else old

/-- Write PRV and V of `dcsr` (40 R101). -/
def writePrvV (p : Params) (c : Cfg) (dcsr : BitVec 32) (prv : BitVec 2) (v : Bool) : BitVec 32 :=
  if legalPair p c prv v then setPrvV dcsr prv v
  else
    let q := legalizePrvV p c (dcsr.extractLsb' 0 2, dcsr.getLsbD 5) (prv, v)
    setPrvV dcsr q.1 q.2

/-! ### The privilege of memory accesses -/

/-- `mem_priv` (20 R52 to R57): the pair (privilege, virtualization) of a load or store in Debug Mode. -/
def State.memPriv (s : State) : Option (BitVec 2 × Bool) :=
  match s.dap with
  | .m => some (3, false)
  | .hs =>
    if s.dbg.dmprv then
      match s.p.hasH, s.p.dmprvSource with
      | false, _ => some (prvOfSpp s.csr.spp, false)
      | true, .spp => some (prvOfSpp s.csr.spp, s.csr.spv)
      | true, .spvp => some (prvOfSpp (if s.csr.spv then s.csr.spvp else s.csr.spp), s.csr.spv)
    else some (1, false)
  | .vs => if s.dbg.dmprv then some (prvOfSpp s.csr.vsspp, true) else some (1, true)
  | .u => some (0, s.dbg.v)
  | .none => none

/-- The pair MPP and MPV name, for MPRV. -/
def State.mprvPair (s : State) : BitVec 2 × Bool := (s.csr.mpp, s.csr.mpv && s.csr.mpp != 3)

/-- The pair of a load or store in Debug Mode: `mem_priv`, and at M level the family's `dcsr.MPRVEN` with
`mstatus.MPRV` (20 R55, 91 N26, 93 part 2 item 3; log 23). -/
def State.debugDataPriv (s : State) : Option (BitVec 2 × Bool) :=
  if s.dap = .m ∧ s.dbg.mprven ∧ s.csr.mprv then some s.mprvPair else s.memPriv

/-- The pair of a load or store outside Debug Mode: the mode's own, in M-mode under MPRV the saved one (log 23). -/
def State.runDataPriv (s : State) : BitVec 2 × Bool :=
  if s.cur = .m ∧ s.csr.mprv then s.mprvPair else (s.cur.prv, s.cur.virt)

/-- The pair of an explicit load or store (42 R168, R176). -/
def State.dataPriv (s : State) : Option (BitVec 2 × Bool) :=
  if s.inDebug then s.debugDataPriv else some s.runDataPriv

/-- HLV, HLVX and HSV are permitted (42 R181): in Debug Mode by the debug access privilege, otherwise by the mode; at
U level only with `hstatus.HU`. -/
def State.hlvPermitted (s : State) : Bool :=
  if s.inDebug then
    match s.dap with
    | .m | .hs => true
    | .u => !s.dbg.v && s.csr.hu
    | .vs | .none => false
  else
    match s.cur with
    | .m | .hs => true
    | .u => s.csr.hu
    | .vs | .vu => false

end Sys2Proof.Machine
end

