-- ==== Sys2Proof/Machine/Operands.lean ====
section
/-! DEFINITION. The operand forms: general registers, the offsets and immediates of 30 R79, effective addresses, and
the translation and protection of an address for a pair (privilege, virtualization). -/

namespace Sys2Proof.Machine

/-! ### General registers and immediates -/

/-- Read `x[i]`; `x[0]` reads 0 (10 R36). -/
def State.x (s : State) (i : RegNum) : Word := if i = 0 then 0 else s.regs[i.toNat]'(i.isLt)

/-- Write `x[i]`, kept within XLEN bits; a write to `x[0]` is discarded (10 R36). -/
def State.setX (s : State) (i : RegNum) (v : Word) : State :=
  if i = 0 then s else { s with regs := s.regs.set i.toNat (s.p.toXlen v) i.isLt }

/-- The address of a load or a store: `(x[rs1] + sext(imm)) mod 2^XLEN` (30 R79, 42 R168, R176). -/
def State.offsetAddr (s : State) (rs1 : RegNum) (imm : Imm12) : Word := s.p.toXlen (s.x rs1 + imm.signExtend 64)

/-- The address of HLV, HLVX, HSV: `x[rs1]`, no immediate (30 R79, 42 R181). -/
def State.plainAddr (s : State) (rs1 : RegNum) : Word := s.p.toXlen (s.x rs1)

/-- The CSR immediate, zero-extended (30 R79). -/
def csrImm (uimm : BitVec 5) : Word := uimm.setWidth 64

/-! ### Translation and protection (20 R51, R64; log 9) -/

/-- The page of the translation data that holds a virtual page number. -/
def Translation.page (x : Translation) (virt : Bool) (vpn : BitVec 52) : Option Page :=
  x.pages.find? fun g => g.virt == virt && g.vpn == vpn

/-- The guard of a physical page. -/
def Translation.guardOf (x : Translation) (ppn : BitVec 52) : Option Guard := x.guards.find? fun g => g.ppn == ppn

/-- A first-stage page permits the access: the user bit against the privilege, SUM, MXR (the family's, log 9). -/
def pagePermits (g : Page) (acc : Access) (prv : BitVec 2) (sum mxr : Bool) : Bool :=
  (if prv = 0 then g.u else !g.u || (sum && acc != .fetch)) &&
    match acc with
    | .fetch | .execData => g.x
    | .load => g.r || (mxr && g.x)
    | .store => g.w

/-- A second-stage mapping permits the access. -/
def guestPermits (g : Page) (acc : Access) (mxr : Bool) : Bool :=
  match acc with
  | .fetch | .execData => g.gx
  | .load => g.gr || (mxr && g.gx)
  | .store => g.gw

/-- A guard permits the access; HLVX needs both read and execute of physical memory (the family's, log 9). -/
def guardPermits (g : Guard) (acc : Access) (prv : BitVec 2) : Bool :=
  (prv == 3 && !g.bindsM) ||
    match acc with
    | .fetch => g.x
    | .execData => g.x && g.r
    | .load => g.r
    | .store => g.w

/-- The physical page number and the 12-bit offset as an address. -/
def physAddr (ppn : BitVec 52) (va : Word) : Nat := (ppn ++ va.extractLsb' 0 12 : Word).toNat

/-- Translate one address to a physical page number, for a pair (privilege, virtualization): no translation for
M-mode or for an address space none of whose stages is on; otherwise the permissions of the page for each stage that is on
decide, first stage before second, and a missing page is the fault of the first stage that is on (20 R51, R64; log 9). -/
def State.translatePage (s : State) (acc : Access) (prv : BitVec 2) (virt : Bool) (va : Word) :
    Except MemFaultKind (BitVec 52) :=
  let first := if virt then s.xlat.on1 else s.xlat.on0
  let second := virt && s.xlat.onG
  if (prv = 3 ∧ virt = false) ∨ (first || second) = false then .ok (va.extractLsb' 12 52)
  else
    match s.xlat.page virt (va.extractLsb' 12 52) with
    | none => .error (if first then .page else .guestPage)
    | some g =>
      let sum := if virt then s.csr.vssum else s.csr.sum
      let mxr := s.csr.mxr || (virt && s.csr.vsmxr)
      if first = true ∧ pagePermits g acc prv sum mxr = false then .error .page
      else if second = true ∧ guestPermits g acc s.csr.mxr = false then .error .guestPage
      else .ok g.ppn

/-- Translate one address and check physical protection: the physical address, or the fault. -/
def State.translate (s : State) (acc : Access) (prv : BitVec 2) (virt : Bool) (va : Word) : Except MemFault Nat :=
  match s.translatePage acc prv virt va with
  | .error k => .error ⟨k, va⟩
  | .ok ppn =>
    match s.xlat.guardOf ppn with
    | none => .ok (physAddr ppn va)
    | some g => if guardPermits g acc prv then .ok (physAddr ppn va) else .error ⟨.access, va⟩

/-- The `n` byte addresses from an address on, wrapping modulo 2^XLEN (42 R168). -/
def byteAddrs (p : Params) : Nat → Word → List Word
  | 0, _ => []
  | n + 1, a => a :: byteAddrs p n (p.toXlen (a + 1))

/-- Translate a list of addresses; the first fault counts. -/
def State.translateAll (s : State) (acc : Access) (prv : BitVec 2) (virt : Bool) : List Word → Except MemFault (List Nat)
  | [] => .ok []
  | a :: as =>
    match s.translate acc prv virt a with
    | .error f => .error f
    | .ok k =>
      match State.translateAll s acc prv virt as with
      | .error f => .error f
      | .ok ks => .ok (k :: ks)

/-- The physical addresses of an `n`-byte access, byte by byte; a misaligned data access faults first where
MISALIGNED_ACCESS is `trap` (20 R61, log 24). -/
def State.accessAddrs (s : State) (acc : Access) (prv : BitVec 2) (virt : Bool) (va : Word) (n : Nat) :
    Except MemFault (List Nat) :=
  if s.p.misaligned = .trap ∧ va.toNat % n ≠ 0 then .error ⟨.misaligned, va⟩
  else s.translateAll acc prv virt (byteAddrs s.p n va)

/-- Data accesses of a pair (privilege, virtualization) are big-endian: the base architecture's controls for the
effective privilege, MBE in M, SBE in HS, UBE in U, VSBE in VS, the UBE of `vsstatus` in VU (20 R60, 92 D19; positions
log 35). -/
def State.bigEndian (s : State) (prv : BitVec 2) (virt : Bool) : Bool :=
  s.p.hasEndianControls &&
    match Mode.ofPair prv virt with
    | some .m => s.csr.mbe
    | some .hs => s.csr.sbe
    | some .u => s.csr.ube
    | some .vs => s.csr.vsbe
    | some .vu => s.csr.vsube
    | none => false

/-- The bytes of a datum, least significant first, in the order of a pair's data accesses, lowest address first; and
back (20 R60). -/
def State.inOrder (s : State) (prv : BitVec 2) (virt : Bool) (bytes : List Byte) : List Byte :=
  if s.bigEndian prv virt then bytes.reverse else bytes

/-- `MemRead` (00 section 5): the `n`-byte value, in the byte order of the pair (20 R60). -/
def State.memRead (s : State) (acc : Access) (prv : BitVec 2) (virt : Bool) (va : Word) (n : Nat) : Except MemFault Word :=
  match s.accessAddrs acc prv virt va n with
  | .error f => .error f
  | .ok ks => .ok (joinBytes (s.inOrder prv virt (ks.map s.mem.read)))

/-- `MemWrite` (00 section 5): all `n` bytes, in the byte order of the pair (20 R60), or, on a fault, none (20 R58). -/
def State.memWrite (s : State) (prv : BitVec 2) (virt : Bool) (va : Word) (n : Nat) (v : Word) : Except MemFault State :=
  match s.accessAddrs .store prv virt va n with
  | .error f => .error f
  | .ok ks => .ok { s with mem := s.mem.writeAll ks (s.inOrder prv virt (splitBytes n v)) }

end Sys2Proof.Machine
end

