-- ==== Sys2Proof/Machine/Ops.lean ====
section
/-! DEFINITION. The shared operations: the pc's advance, the failure of an access from Debug Mode, taking an exception
and returning from one, entering Debug Mode and resuming, loads and stores. -/

namespace Sys2Proof.Machine

/-! ### Outcomes and the pc -/

/-- Go on with a function where an outcome is a next state. -/
def andThen (o : Host.Outcome State Fault Refusal) (f : State → Host.Outcome State Fault Refusal) :
    Host.Outcome State Fault Refusal :=
  match o with
  | .next s => f s
  | .fault r => .fault r
  | .refused r => .refused r

/-- Change the next state of an outcome. -/
def onNext (o : Host.Outcome State Fault Refusal) (f : State → State) : Host.Outcome State Fault Refusal :=
  andThen o fun s => .next (f s)

/-- Move past an instruction of `n` bytes: the pc modulo 2^XLEN (10 R37), in Debug Mode the place in the Program
Buffer. -/
def State.advance (s : State) (n : Nat) : State :=
  if s.inDebug then { s with dm := { s.dm with pbPc := s.dm.pbPc + n } }
  else { s with pc := s.p.toXlen (s.pc + BitVec.ofNat 64 n) }

/-! ### Failing in Debug Mode -/

/-- CMDERR takes an error code unless it already holds one (10 R29). -/
def DebugModule.setErr (d : DebugModule) (v : BitVec 3) : DebugModule :=
  if d.cmderr = 0 then { d with cmderr := v } else d

/-- `debug_fail()` (60 R240): the Program Buffer stops, the hart stays halted, CMDERR becomes 3 if it was 0; nothing
else changes. -/
def State.debugFail (s : State) : State :=
  { s with dm := { s.dm.setErr 3 with pbRun := false, quick := false } }

/-! ### Traps (60 R249, R250, R256) -/

/-- A program counter as `xepc`, `dpc` hold it: within XLEN bits, bit 0 clear, bit 1 clear without compressed
instructions (30 R74, 93 part 2 item 14). -/
def pcMask (p : Params) (v : Word) : Word := p.toXlen v &&& (if p.hasC then ~~~1 else ~~~3)

/-- The exception code (60 R256). The family's (log 1, PRESUMED): the codes of instruction fetch faults and of the
virtual-instruction exception, and 8 for an environment call from VU-mode, which R256 does not list. -/
def excCode (cur : Mode) : Exc → Nat
  | .illegal _ => 2
  | .virtualInstruction _ => 22
  | .breakpoint => 3
  | .envCall =>
    match cur with
    | .u | .vu => 8
    | .hs => 9
    | .vs => 10
    | .m => 11
  | .mem acc f =>
    match acc, f.kind with
    | .fetch, .misaligned => 0
    | .fetch, .access => 1
    | .fetch, .page => 12
    | .fetch, .guestPage => 20
    | .store, .misaligned => 6
    | .store, .access => 7
    | .store, .page => 15
    | .store, .guestPage => 23
    | _, .misaligned => 4
    | _, .access => 5
    | _, .page => 13
    | _, .guestPage => 21

/-- The value recorded in `xtval` (60 R238, R256). -/
def excTval (s : State) : Exc → Word
  | .illegal w | .virtualInstruction w => if s.p.illegalTvalBits then w.setWidth 64 else 0
  | .breakpoint => if s.p.breakpointTvalPc then s.pc else 0
  | .envCall => 0
  | .mem _ f => f.addr

/-- `mideleg` as it reads: the VS-level interrupts are always delegated to HS where the hypervisor extension is
present (the family's, log 25). -/
def midelegRead (p : Params) (c : Csrs) : Word := (c.mideleg &&& 0x222) ||| (if p.hasH then 0x444 else 0)

/-- The mode that takes an exception (60 R250): M-mode unless delegated, never below the current mode. -/
def State.exceptionDest (s : State) (code : Nat) : Mode :=
  if s.cur = .m ∨ s.p.hasS = false ∨ s.csr.medeleg.getLsbD code = false then .m
  else if s.cur.virt ∧ s.csr.hedeleg.getLsbD code then .vs
  else .hs

/-- The handler's address from `xtvec`: vectored mode adds four times the cause of an interrupt (60 R249; the
family's `xtvec` layout, log 1). -/
def handlerAddr (p : Params) (tvec : Word) (intr : Bool) (code : Nat) : Word :=
  p.toXlen ((tvec &&& ~~~3) + (if intr && tvec.getLsbD 0 then BitVec.ofNat 64 (4 * code) else 0))

/-- The value of `xcause`: bit XLEN-1 marks an interrupt (95 P4). -/
def causeValue (p : Params) (intr : Bool) (code : Nat) : Word :=
  BitVec.ofNat 64 code ||| (if intr then BitVec.ofNat 64 (2 ^ (p.xlen - 1)) else 0)

/-- `mstatus` on a trap to M-mode: MPP and MPV take the mode, MPIE takes MIE, MIE clears (60 R249). -/
def trapMstatus (s : State) : Word :=
  setBit (setBit (setBit (setBits2 s.csr.mstatus 11 s.cur.prv) 39 s.cur.virt) 7 s.csr.mie_) 3 false

/-- `mstatus` on a trap to HS-mode: SPP takes the mode, SPIE takes SIE, SIE clears (60 R249). -/
def trapSstatus (s : State) : Word :=
  setBit (setBit (setBit s.csr.mstatus 8 s.cur.sppBit) 5 s.csr.sie) 1 false

/-- `hstatus` on a trap to HS-mode: SPV takes the virtualization mode, and SPVP the privilege where that is 1
(60 R249). -/
def trapHstatus (s : State) : Word :=
  setBit (if s.cur.virt then setBit s.csr.hstatus 8 s.cur.sppBit else s.csr.hstatus) 7 s.cur.virt

/-- `vsstatus` on a trap to VS-mode (60 R249). -/
def trapVsstatus (s : State) : Word :=
  setBit (setBit (setBit s.csr.vsstatus 8 s.cur.sppBit) 5 s.csr.vssie) 1 false

/-- Trap to a mode (60 R249): save the pc, the cause and the value, save the mode and the interrupt enable in the
mode's status, clear the enable, go to the handler. No instruction retires (43 R215). -/
def State.trapTo (s : State) (dest : Mode) (intr : Bool) (code : Nat) (tval : Word) : State :=
  match dest with
  | .vs =>
    { s with
      csr := { s.csr with
        vsepc := pcMask s.p s.pc, vscause := causeValue s.p intr code, vstval := s.p.toXlen tval,
        vsstatus := trapVsstatus s }
      cur := .vs
      pc := handlerAddr s.p s.csr.vstvec intr code
      hti := none }
  | .hs =>
    { s with
      csr := { s.csr with
        sepc := pcMask s.p s.pc, scause := causeValue s.p intr code, stval := s.p.toXlen tval,
        mstatus := trapSstatus s, hstatus := trapHstatus s }
      cur := .hs
      pc := handlerAddr s.p s.csr.stvec intr code
      hti := none }
  | .m | .u | .vu =>
    { s with
      csr := { s.csr with
        mepc := pcMask s.p s.pc, mcause := causeValue s.p intr code, mtval := s.p.toXlen tval,
        mstatus := trapMstatus s }
      cur := .m
      pc := handlerAddr s.p s.csr.mtvec intr code
      hti := none }

/-- TAKE AN EXCEPTION: in Debug Mode `debug_fail()` (60 R256), outside it a trap to the mode delegation selects
(60 R249, R250). -/
def State.takeException (s : State) (e : Exc) : State :=
  if s.inDebug then s.debugFail
  else s.trapTo (s.exceptionDest (excCode s.cur e)) false (excCode s.cur e) (excTval s e)

/-! ### Returns from a trap (60 R249) -/

/-- `mstatus` after MRET: MIE takes MPIE, MPIE sets, MPP takes the lowest mode, MPV clears, and MPRV clears on a
return below M-mode. -/
def mretMstatus (s : State) (dst : Mode) : Word :=
  let st := setBits2 (setBit (setBit (setBit s.csr.mstatus 3 s.csr.mpie) 7 true) 39 false) 11 (lowestPrv s.p)
  if dst = .m then st else setBit st 17 false

/-- The return of MRET in M-mode (42 R165, 60 R249). -/
def State.mretOp (s : State) : State :=
  let dst := Mode.ofSaved s.csr.mpp s.csr.mpv
  { s with csr := { s.csr with mstatus := mretMstatus s dst }, cur := dst, pc := pcMask s.p s.csr.mepc }

/-- `mstatus` after SRET from M- or HS-mode: SIE takes SPIE, SPIE sets, SPP clears, MPRV clears (the mode returned to
is below M). -/
def sretMstatus (s : State) : Word :=
  setBit (setBit (setBit (setBit s.csr.mstatus 1 s.csr.spie) 5 true) 8 false) 17 false

/-- The return of SRET in M- or HS-mode (42 R166, 60 R249). -/
def State.sretOp (s : State) : State :=
  { s with
    csr := { s.csr with mstatus := sretMstatus s, hstatus := setBit s.csr.hstatus 7 false }
    cur := Mode.ofSaved (prvOfSpp s.csr.spp) (s.p.hasH && s.csr.spv)
    pc := pcMask s.p s.csr.sepc }

/-- `vsstatus` after SRET in VS-mode. -/
def vsretVsstatus (s : State) : Word :=
  setBit (setBit (setBit s.csr.vsstatus 1 s.csr.vsspie) 5 true) 8 false

/-- The return of SRET in VS-mode (42 R166, 60 R249). It leaves `mstatus.MPRV` as it is: PRESUMED, the family's, the spec
does not say (log 40). -/
def State.vsretOp (s : State) : State :=
  { s with
    csr := { s.csr with vsstatus := vsretVsstatus s }
    cur := Mode.ofSaved (prvOfSpp s.csr.vsspp) true
    pc := pcMask s.p s.csr.vsepc }

/-- The return of MNRET in M-mode: the mode in MNPP and MNPV, NMIE sets, MPRV clears on a return below M-mode
(42 R167; the family's, log 26). -/
def State.mnretOp (s : State) : State :=
  let dst := Mode.ofSaved s.csr.mnpp s.csr.mnpv
  { s with
    csr := { s.csr with
      mnstatus := setBit s.csr.mnstatus 3 true
      mstatus := if dst = .m then s.csr.mstatus else setBit s.csr.mstatus 17 false }
    cur := dst
    pc := pcMask s.p s.csr.mnepc }

/-! ### Entering and leaving Debug Mode -/

/-- `enter_debug(cause)` (60 R236): PRV, V and CAUSE of `dcsr` and `dpc` are written, the step is paid, the request
that caused it is served; no trap register is written. The callers check its precondition. -/
def State.enterDebug (s : State) (cause : DebugCause) : State :=
  { s with
    dbg := { s.dbg with
      dcsr := setCause (setPrvV s.dbg.dcsr s.cur.prv s.cur.virt) cause
      dpc := pcMask s.p s.pc }
    inDebug := true
    stepArmed := false
    haltPending := if cause = .haltreq then false else s.haltPending
    resetHaltPending := if cause = .resethaltreq then false else s.resetHaltPending
    groupHaltPending := if cause = .group then false else s.groupHaltPending
    dm := { s.dm with pbRun := false, quick := false } }

/-- `resume()` (60 R241): the mode in `dcsr.PRV` and `dcsr.V`, the pc in `dpc`, and an armed step if STEP is 1. -/
def State.resume (s : State) : Host.Outcome State Fault Refusal :=
  match Mode.ofPair s.dbg.prv s.dbg.v with
  | some mode =>
    if supportedMode s.p mode then
      .next { s with
        cur := mode
        pc := s.dbg.dpc
        inDebug := false
        stepArmed := s.dbg.step || s.stepArmed
        dm := { s.dm with pbRun := false, quick := false } }
    else .fault .resumeTargetUnsupported
  | none => .fault .resumeTargetUnsupported

/-! ### Instruction-level operations -/

/-- Run an instruction's effect if the hart has the instruction (`Instr.wellFormed`); otherwise it is illegal. -/
def State.ifPresent (s : State) (i : Instr) (f : State → State) : State :=
  if i.wellFormed s.p then f s else s.takeException (.illegal (encodeWord i))

/-- A load made with a pair (privilege, virtualization): on a fault the exception, otherwise the extended value in
`rd` (42 R168, R181). -/
def State.loadWith (s : State) (acc : Access) (pair : BitVec 2 × Bool) (addr : Word) (n : Nat) (signed : Bool)
    (rd : RegNum) : State :=
  match s.memRead acc pair.1 pair.2 addr n with
  | .error f => s.takeException (.mem acc f)
  | .ok d => (s.setX rd (extendBytes n signed d)).advance 4

/-- A store made with a pair: on a fault the exception and no byte written (42 R176, R181). -/
def State.storeWith (s : State) (pair : BitVec 2 × Bool) (addr : Word) (n : Nat) (v : Word) : State :=
  match s.memWrite pair.1 pair.2 addr n v with
  | .error f => s.takeException (.mem .store f)
  | .ok t => t.advance 4

/-- The common load rule (42 R168). With no debug access privilege the access fails (40 R99). -/
def State.loadOp (s : State) (rd rs1 : RegNum) (imm : Imm12) (n : Nat) (signed : Bool) : State :=
  match s.dataPriv with
  | none => s.debugFail
  | some pair => s.loadWith .load pair (s.offsetAddr rs1 imm) n signed rd

/-- The common store rule (42 R176). -/
def State.storeOp (s : State) (rs2 rs1 : RegNum) (imm : Imm12) (n : Nat) : State :=
  match s.dataPriv with
  | none => s.debugFail
  | some pair => s.storeWith pair (s.offsetAddr rs1 imm) n (s.x rs2)

/-- The pair of HLV, HLVX, HSV: privilege `hstatus.SPVP` with V = 1; DMPRV is not consulted (20 R56, 42 R181). -/
def State.hlvPair (s : State) : BitVec 2 × Bool := (prvOfSpp s.csr.spvp, true)

/-- The exception of HLV, HLVX, HSV where they are not permitted: virtual instruction in VS and VU, illegal
instruction in U (42 R181). In Debug Mode either is `debug_fail()`. -/
def State.hlvDenied (s : State) (i : Instr) : State :=
  s.takeException (if s.cur.virt then .virtualInstruction (encodeWord i) else .illegal (encodeWord i))

/-- The common rule of the hypervisor loads (42 R181). -/
def State.hlvOp (s : State) (i : Instr) (acc : Access) (rd rs1 : RegNum) (n : Nat) (signed : Bool) : State :=
  if s.hlvPermitted then s.loadWith acc s.hlvPair (s.plainAddr rs1) n signed rd else s.hlvDenied i

/-- The common rule of the hypervisor stores (42 R181). -/
def State.hsvOp (s : State) (i : Instr) (rs2 rs1 : RegNum) (n : Nat) : State :=
  if s.hlvPermitted then s.storeWith s.hlvPair (s.plainAddr rs1) n (s.x rs2) else s.hlvDenied i

end Sys2Proof.Machine
end

