-- ==== Sys2Proof/Machine/Triggers.lean ====
section
/-! DEFINITION. The trigger module (44): which triggers fire, what firing does, the trigger registers. Base match
conditions are inputs (log 13). -/

namespace Sys2Proof.Machine

/-- ACTION 1 enters Debug Mode; 8 and 9 drive the external trigger outputs: the actions Sdsec gates (44 R220, R223). -/
def isDebugAction (a : BitVec 6) : Bool := a == 1 || a == 8 || a == 9

/-- The hart is in a debug-allowed state (00 glossary). -/
def State.debugAllowedState (s : State) : Bool := s.inDebug || s.allowed

/-- The trigger fires now. A `tmexttrigger` trigger fires when a selected input is asserted and the hart is in a
debug-allowed state (44 R224). Another trigger fires outside Debug Mode when its base condition holds and, for the
gated actions, debug is allowed in the current mode (44 R220, R223, R226). -/
def State.triggerFires (s : State) (k : Nat) (t : Trigger) : Bool :=
  s.p.hasSdtrig &&
    (if t.isExt s.p then decide (t.select &&& s.trig.extIn ≠ 0) && s.debugAllowedState
     else t.isBase s.p && !s.inDebug && s.trig.matched.contains k && (!isDebugAction (t.action s.p) || s.allowed))

/-- The triggers that fire and satisfy a selection, from number `k` on. -/
def State.firingFrom (s : State) (sel : Trigger → Bool) : Nat → List Trigger → List Trigger
  | _, [] => []
  | k, t :: ts =>
    if sel t && s.triggerFires k t then t :: State.firingFrom s sel (k + 1) ts
    else State.firingFrom s sel (k + 1) ts

/-- The triggers that fire and satisfy a selection. -/
def State.firing (s : State) (sel : Trigger → Bool) : List Trigger := s.firingFrom sel 0 s.trig.triggers

/-- Set the hit bits of the triggers that fire and satisfy a selection. -/
def State.markHits (s : State) (sel : Trigger → Bool) : Nat → List Trigger → List Trigger
  | _, [] => []
  | k, t :: ts =>
    (if sel t && s.triggerFires k t then { t with hit := true } else t) :: State.markHits s sel (k + 1) ts

/-- The external inputs that the firing `tmexttrigger` triggers acknowledge. -/
def acknowledged (p : Params) : List Trigger → BitVec 16
  | [] => 0
  | t :: ts => (if t.isExt p then t.select else 0) ||| acknowledged p ts

/-- The external outputs that firing triggers assert: ACTION 8 bit 0, ACTION 9 bit 1 (44 R223). -/
def outputs (p : Params) : List Trigger → BitVec 2
  | [] => 0
  | t :: ts => (if t.action p = 8 then 1 else if t.action p = 9 then 2 else 0) ||| outputs p ts

/-- Fire: set hit bits, acknowledge inputs (an acknowledged input is no longer asserted, log 15), assert outputs. -/
def State.fireTriggers (s : State) (sel : Trigger → Bool) : State :=
  { s with trig := { s.trig with
      triggers := s.markHits sel 0 s.trig.triggers
      extIn := s.trig.extIn &&& ~~~(acknowledged s.p (s.firing sel))
      extOut := s.trig.extOut ||| outputs s.p (s.firing sel) } }

/-- Every trigger. -/
def anyTrigger : Trigger → Bool := fun _ => true

/-- External trigger inputs that enter Debug Mode (60 R248 item 1). -/
def extHalt (p : Params) : Trigger → Bool := fun t => t.isExt p && t.action p == 1

/-- External trigger inputs that raise a breakpoint exception (44 R224). -/
def extBreak (p : Params) : Trigger → Bool := fun t => t.isExt p && t.action p == 0

/-- Triggers that raise a breakpoint exception (44 R226). -/
def breakTrigger (p : Params) : Trigger → Bool := fun t => t.action p == 0

/-- Triggers that enter Debug Mode. -/
def debugTrigger (p : Params) : Trigger → Bool := fun t => t.action p == 1

/-- The firing `tmexttrigger` triggers with ACTION 0 raise their breakpoint exception (44 R224). -/
def State.extBreakRaised (s : State) (sel : Trigger → Bool) (t : State) : State :=
  if (s.firing sel).any (extBreak s.p) then t.takeException .breakpoint else t

/-- Triggers that fire and enter Debug Mode (44 R220, R224). The entry goes first; the breakpoint exception of a
`tmexttrigger` trigger that fires with it is then one in Debug Mode (60 R256; DESIGN CHOICE, log 14). -/
def State.enterByTrigger (s : State) (sel : Trigger → Bool) : State :=
  s.extBreakRaised sel ((s.fireTriggers sel).enterDebug .trigger)

/-! ### The trigger registers -/

/-- The trigger `tselect` selects. -/
def State.selected (s : State) : Option Trigger := s.trig.triggers[s.trig.tselect.toNat]?

/-- Replace the selected trigger. -/
def State.setSelected (s : State) (t : Trigger) : State :=
  { s with trig := { s.trig with triggers := s.trig.triggers.set s.trig.tselect.toNat t } }

/-- The writer may write DMODE and triggers with DMODE = 1: Debug Mode always, M-mode while `mdbgen` is 0
(44 R222). -/
def State.mayWriteDmode (s : State) : Bool := s.inDebug || !s.mdbgen

/-- The writer may select trigger `k`: one that exists, and for a debugger below M level a delegated one (44 R229;
log 33). -/
def State.maySelect (s : State) (k : Nat) : Bool :=
  match s.trig.triggers[k]? with
  | none => false
  | some t => !s.inDebug || s.dap == .m || t.delegated

/-- Write `tselect`: a number of a trigger that the writer may not select is not taken (WARL, log 13; 44 R229). -/
def State.writeTselect (s : State) (w : Word) : State :=
  if s.maySelect w.toNat then { s with trig := { s.trig with tselect := w } } else s

/-- Write `tdata1` of the selected trigger (44 R222): without the right to DMODE the write leaves DMODE unchanged and
is ignored where DMODE is 1. -/
def State.writeTdata1 (s : State) (w : Word) : State :=
  match s.selected with
  | none => s
  | some t =>
    if s.mayWriteDmode then s.setSelected { t with tdata1 := w }
    else if t.dmode s.p then s
    else s.setSelected { t with tdata1 := setBit w (s.p.xlen - 5) false }

/-- Write `tdata2` of the selected trigger (44 R222). -/
def State.writeTdata2 (s : State) (w : Word) : State :=
  match s.selected with
  | none => s
  | some t => if s.mayWriteDmode || !t.dmode s.p then s.setSelected { t with tdata2 := w } else s

end Sys2Proof.Machine
end

