-- ==== Sys2Proof/Machine/Csr.lean ====
section
/-! DEFINITION. The CSRs: numbers, which exist, who may access them, the register-specific reads and writes (41). -/

namespace Sys2Proof.Machine

/-- The CSRs of the hart (41 section 3; those of the privileged architecture log 1, log 21). -/
inductive Csr where
  | dcsr | dpc | dscratch0 | dscratch1
  | sdcsr | sdpc | udcsr | udpc
  | msdcfg
  | tselect | tdata1 | tdata2
  | mstatus | mstatush | medeleg | mideleg | mie | mip | mtvec | mepc | mcause | mtval
  | mnstatus | mnepc | mncause
  | sstatus | sie | sip | stvec | sepc | scause | stval
  | hstatus | hedeleg | hideleg
  | vsstatus | vsie | vsip | vstvec | vsepc | vscause | vstval
deriving DecidableEq, Repr

/-- The CSR numbers that are not parameters (30 R71 for the debug registers; the family's, log 1). -/
def csrTable : List (CsrNum × Csr) :=
  [(0x7b0, .dcsr), (0x7b1, .dpc), (0x7b2, .dscratch0), (0x7b3, .dscratch1),
   (0x7a0, .tselect), (0x7a1, .tdata1), (0x7a2, .tdata2),
   (0x300, .mstatus), (0x310, .mstatush), (0x302, .medeleg), (0x303, .mideleg), (0x304, .mie), (0x344, .mip),
   (0x305, .mtvec), (0x341, .mepc), (0x342, .mcause), (0x343, .mtval),
   (0x744, .mnstatus), (0x741, .mnepc), (0x742, .mncause),
   (0x100, .sstatus), (0x104, .sie), (0x144, .sip), (0x105, .stvec), (0x141, .sepc), (0x142, .scause), (0x143, .stval),
   (0x600, .hstatus), (0x602, .hedeleg), (0x603, .hideleg),
   (0x200, .vsstatus), (0x204, .vsie), (0x244, .vsip), (0x205, .vstvec), (0x241, .vsepc), (0x242, .vscause),
   (0x243, .vstval)]

/-- The register a CSR number names: the open numbers first (30 R71), then the table. -/
def csrNamed (p : Params) (n : CsrNum) : Option Csr :=
  if n = p.sdcsrAddr then some .sdcsr
  else if n = p.sdpcAddr then some .sdpc
  else if n = p.udcsrAddr then some .udcsr
  else if n = p.udpcAddr then some .udpc
  else if n = p.msdcfgAddr then some .msdcfg
  else csrTable.lookup n

/-- The register exists on the hart (41 R130, R131, R137; R120 `implemented`). `msdcfg` does on every hart: 10 R12 and 41
R141 set no condition, and the fields of an absent sub-extension read 0 and ignore writes (30 R75). -/
def csrImplemented (p : Params) : Csr → Bool
  | .dcsr | .dpc | .dscratch0 => true
  | .dscratch1 => p.hasDscratch1
  | .sdcsr | .sdpc => p.hasSmsdedbg
  | .udcsr | .udpc => p.hasSmudedbg
  | .msdcfg => true
  | .tselect | .tdata1 | .tdata2 => p.hasSdtrig
  | .mstatus | .mie | .mip | .mtvec | .mepc | .mcause | .mtval => true
  | .mstatush => !p.xlen64
  | .medeleg | .mideleg => p.hasS
  | .mnstatus | .mnepc | .mncause => p.hasRnmi
  | .sstatus | .sie | .sip | .stvec | .sepc | .scause | .stval => p.hasS
  | .hstatus | .hedeleg | .hideleg => p.hasH
  | .vsstatus | .vsie | .vsip | .vstvec | .vsepc | .vscause | .vstval => p.hasH

/-- A register of the hart, by number. -/
def csrLookup (p : Params) (n : CsrNum) : Option Csr :=
  match csrNamed p n with
  | some c => if csrImplemented p c then some c else none
  | none => none

/-- Supervisor CSRs, which VS-mode reaches as their VS copies. -/
def Csr.vsCopy : Csr → Csr
  | .sstatus => .vsstatus
  | .sie => .vsie
  | .sip => .vsip
  | .stvec => .vstvec
  | .sepc => .vsepc
  | .scause => .vscause
  | .stval => .vstval
  | c => c

/-- The register is one of the eight debug registers, accessible in Debug Mode only (41 R144). -/
def Csr.debugOnly : Csr → Bool
  | .dcsr | .dpc | .dscratch0 | .dscratch1 | .sdcsr | .sdpc | .udcsr | .udpc => true
  | _ => false

/-- The register is one of the trigger registers. -/
def Csr.isTrigger : Csr → Bool
  | .tselect | .tdata1 | .tdata2 => true
  | _ => false

/-- `required_level` (40 R99): 3 for machine-level CSRs, 2 for hypervisor CSRs, 1 for supervisor CSRs, which a VS-level
debugger sees as their VS copies, and for `sdcsr`, `sdpc` (41 R131); 0 for `udcsr`, `udpc` (41 R137). A trigger's data
registers fall to 2 where the trigger is delegated, and `tselect` where some trigger is (41 R142, 44 R229; log 33). -/
def State.requiredLevel (s : State) : Csr → Level
  | .udcsr | .udpc => .u
  | .sdcsr | .sdpc => .vs
  | .sstatus | .sie | .sip | .stvec | .sepc | .scause | .stval => .vs
  | .hstatus | .hedeleg | .hideleg => .hs
  | .vsstatus | .vsie | .vsip | .vstvec | .vsepc | .vscause | .vstval => .hs
  | .tselect => if s.trig.triggers.any Trigger.delegated then .hs else .m
  | .tdata1 | .tdata2 =>
    match s.selected with
    | some t => if t.delegated then .hs else .m
    | none => .m
  | _ => .m

/-- `debug_accessible` (41 R127 to R130, R131, R137, R141): the register rules beside the required level. -/
def State.debugAccessible (s : State) : Csr → Bool
  | .dcsr | .dpc | .dscratch0 | .dscratch1 => s.mdbgen
  | .sdcsr | .sdpc => decide (Level.vs.rank ≤ s.dap.rank)
  | .udcsr | .udpc => decide (Level.u.rank ≤ s.dap.rank)
  | _ => true

/-- `read_only`: bits 11:10 of the number are 11, for the numbers of the base architecture; the open numbers carry no
such meaning (30 R84). -/
def csrReadOnly (p : Params) (n : CsrNum) : Bool :=
  !(Params.openCsrNumbers p).contains n && n.extractLsb' 10 2 == 3

/-- What the access check answers: the register that is accessed, or the exception. -/
inductive CsrVerdict where
  | ok (c : Csr)
  | illegal
  | virtualInstruction
deriving DecidableEq, Repr

/-- `csr_check` in Debug Mode (41 R120); every denial is `debug_fail()`. -/
def State.csrCheckDebug (s : State) (n : CsrNum) (writes : Bool) : CsrVerdict :=
  match csrLookup s.p n with
  | none => .illegal
  | some c =>
    if (s.requiredLevel c).rank > s.dap.rank then .illegal
    else if s.debugAccessible c = false then .illegal
    else if writes && csrReadOnly s.p n then .illegal
    else .ok (if s.dap = .vs then c.vsCopy else c)

/-- The check outside Debug Mode: the debug registers are illegal in every mode (41 R144); for the rest the base
architecture's, by mode (41 R120; the virtual-instruction cases the family's, log 27). -/
def State.csrCheckRun (s : State) (n : CsrNum) (writes : Bool) : CsrVerdict :=
  match csrLookup s.p n with
  | none => .illegal
  | some c =>
    if c.debugOnly then .illegal
    else if writes && csrReadOnly s.p n then .illegal
    else
      match s.cur, (s.requiredLevel c) with
      | .m, _ => .ok c
      | .hs, .vs => .ok c
      | .hs, .hs => if c.isTrigger then .illegal else .ok c
      | .vs, .vs => .ok c.vsCopy
      | .vs, .hs => if c.isTrigger then .illegal else .virtualInstruction
      | .vu, .vs => .virtualInstruction
      | .vu, .hs => if c.isTrigger then .illegal else .virtualInstruction
      | _, _ => .illegal

/-- The access check (41 R120). -/
def State.csrCheck (s : State) (n : CsrNum) (writes : Bool) : CsrVerdict :=
  if s.inDebug then s.csrCheckDebug n writes else s.csrCheckRun n writes

/-! ### Reads -/

/-- `dcsr` as the base specification reads it: NMIP shows a pending non-maskable interrupt (41 R127, log 29). -/
def State.dcsrRead (s : State) : BitVec 32 := setBit s.dbg.dcsr 3 s.nmiPending

/-- DMPRV as `sdcsr` bit 4 reads it (41 R145). -/
def State.dmprvRead (s : State) : Bool := !s.mdbgen && s.dbg.dmprv

/-- Bit 4 of `sdcsr`. -/
def dmprvBit (b : Bool) : BitVec 32 := if b then 0x10 else 0

/-- A bit at a position of a 32-bit register. -/
def bitAt (i : Nat) (b : Bool) : BitVec 32 := if b then bitMask 32 i else 0

/-- `sdcsr` read, S/HS view (41 R132). -/
def State.sdcsrReadS (s : State) : BitVec 32 := (s.dbg.dcsr &&& 0xF70339E5) ||| dmprvBit s.dmprvRead

/-- `sdcsr` read, VS view (41 R134). -/
def State.sdcsrReadVs (s : State) : BitVec 32 :=
  (s.dbg.dcsr &&& 0xF70009E5) ||| bitAt 12 s.dbg.ebreakvu ||| bitAt 13 s.dbg.ebreakvs ||| dmprvBit s.dmprvRead

/-- `sdcsr` read: the VS view at level 1, else the S/HS view (41 R131). -/
def State.sdcsrRead (s : State) : BitVec 32 := if s.dap = .vs then s.sdcsrReadVs else s.sdcsrReadS

/-- `udcsr` read (41 R138). -/
def State.udcsrRead (s : State) : BitVec 32 :=
  (s.dbg.dcsr &&& 0xF70009E4) ||| bitAt 12 (if s.dbg.v then s.dbg.ebreakvu else s.dbg.ebreaku)

/-- The implemented fields of `msdcfg` (30 R75, 10 R13 to R18). -/
def msdcfgMask (p : Params) : Word :=
  (if p.hasSmsdedbg then bitMask 64 7 else 0) ||| (if p.hasSmvsdedbg then bitMask 64 8 else 0) |||
    (if p.hasSmudedbg then bitMask 64 9 else 0) |||
    (if p.hasTrace then
      (if p.hasSmsdedbg then bitMask 64 p.sdetrcBit.toNat else 0) |||
        (if p.hasSmvsdedbg then bitMask 64 p.vsetrcBit.toNat else 0) |||
        (if p.hasSmudedbg then bitMask 64 p.usetrcBit.toNat else 0)
     else 0)

/-- The six fields' positions, implemented or not. -/
def msdcfgFieldMask (p : Params) : Word :=
  0x380 ||| bitMask 64 p.sdetrcBit.toNat ||| bitMask 64 p.vsetrcBit.toNat ||| bitMask 64 p.usetrcBit.toNat

/-- `msdcfg` read: an unimplemented field reads 0 (30 R75, 41 R141). That the register is XLEN bits wide is DESIGN CHOICE:
its width is not in the source (10 R12, 91 N2; log 4). -/
def State.msdcfgRead (s : State) : Word :=
  s.msdcfg &&& ~~~(msdcfgFieldMask s.p &&& ~~~(msdcfgMask s.p))

/-- UBE, in `mstatus`, `sstatus` and `vsstatus` (log 35). -/
def ubeMask (p : Params) : Word := if p.hasEndianControls && p.hasU then 0x40 else 0

/-- The fields of `mstatus` that `sstatus` shows (the family's, log 1): SIE, SPIE, SPP, SUM, MXR, UBE. -/
def sstatusMask (p : Params) : Word := 0xC0122 ||| ubeMask p

/-- The writable fields of `mstatus` beside MPP (log 1). -/
def mstatusMask (p : Params) : Word :=
  0x88 ||| (if p.hasU then 0x20000 else 0) ||| (if p.hasS then 0x4C0122 else 0) |||
    (if p.hasH then bitMask 64 39 else 0) ||| ubeMask p |||
    (if p.hasEndianControls then bitMask 64 37 ||| (if p.hasS then bitMask 64 36 else 0) else 0)

/-- The writable fields of `hstatus`: SPV, SPVP, HU, VTSR, VSBE. -/
def hstatusMask (p : Params) : Word := 0x400380 ||| (if p.hasEndianControls then 0x20 else 0)

/-- The fields of `vsstatus`. -/
def vsstatusMask (p : Params) : Word := 0xC0122 ||| ubeMask p

/-- The interrupts of the hart (log 25): supervisor 1, 5, 9; machine 3, 7, 11; VS-level 2, 6, 10. -/
def interruptMask (p : Params) : Word :=
  0x888 ||| (if p.hasS then 0x222 else 0) ||| (if p.hasH then 0x444 else 0)

/-- The supervisor interrupts delegated to HS-mode, which `sie` and `sip` show. -/
def sieMask (c : Csrs) : Word := c.mideleg &&& 0x222

/-- The VS-level interrupts delegated to VS-mode, which `vsie` and `vsip` show one place lower. -/
def vsieMask (c : Csrs) : Word := c.hideleg &&& 0x444

/-- `R(c)`: the register-specific read, zero-extended to the word and kept within XLEN bits (41 section 3). -/
def State.csrRead (s : State) (c : Csr) : Word :=
  s.p.toXlen <|
    match c with
    | .dcsr => s.dcsrRead.setWidth 64
    | .dpc | .sdpc | .udpc => s.dbg.dpc
    | .dscratch0 => s.dbg.dscratch0
    | .dscratch1 => s.dbg.dscratch1
    | .sdcsr => s.sdcsrRead.setWidth 64
    | .udcsr => s.udcsrRead.setWidth 64
    | .msdcfg => s.msdcfgRead
    | .tselect => s.trig.tselect
    | .tdata1 => (s.selected.map Trigger.tdata1).getD 0
    | .tdata2 => (s.selected.map Trigger.tdata2).getD 0
    | .mstatus => s.csr.mstatus
    | .mstatush => s.csr.mstatus >>> 32
    | .medeleg => s.csr.medeleg
    | .mideleg => midelegRead s.p s.csr
    | .mie => s.csr.mie
    | .mip => s.csr.mip
    | .mtvec => s.csr.mtvec
    | .mepc => s.csr.mepc
    | .mcause => s.csr.mcause
    | .mtval => s.csr.mtval
    | .mnstatus => s.csr.mnstatus
    | .mnepc => s.csr.mnepc
    | .mncause => s.csr.mncause
    | .sstatus => s.csr.mstatus &&& sstatusMask s.p
    | .sie => s.csr.mie &&& sieMask s.csr
    | .sip => s.csr.mip &&& sieMask s.csr
    | .stvec => s.csr.stvec
    | .sepc => s.csr.sepc
    | .scause => s.csr.scause
    | .stval => s.csr.stval
    | .hstatus => s.csr.hstatus
    | .hedeleg => s.csr.hedeleg
    | .hideleg => s.csr.hideleg
    | .vsstatus => s.csr.vsstatus
    | .vsie => (s.csr.mie &&& vsieMask s.csr) >>> 1
    | .vsip => (s.csr.mip &&& vsieMask s.csr) >>> 1
    | .vstvec => s.csr.vstvec
    | .vsepc => s.csr.vsepc
    | .vscause => s.csr.vscause
    | .vstval => s.csr.vstval

/-! ### Writes -/

/-- The writable fields of `dcsr` beside PRV and V (30 R76; 93 part 2 item 2): STEP, MPRVEN, STOPTIME, STOPCOUNT,
STEPIE, EBREAKM, CETRIG, and the EBREAK bits of the modes the hart has. -/
def dcsrMask (p : Params) : BitVec 32 :=
  0x88E14 ||| (if p.hasU then 0x1000 else 0) ||| (if p.hasS then 0x2000 else 0) ||| (if p.hasH then 0x30000 else 0)

/-- `dcsr` write of the base specification, PRV and V by 40 R101 (41 R127). -/
def State.writeDcsr (s : State) (w : BitVec 32) : State :=
  { s with dbg := { s.dbg with
      dcsr := writePrvV s.p s.cfg (merge (dcsrMask s.p) s.dbg.dcsr w) (w.extractLsb' 0 2) (w.getLsbD 5) } }

/-- DMPRV after a write of `sdcsr` (41 R145, 93 U9). -/
def State.dmprvWritten (s : State) (w : BitVec 32) : Bool :=
  if s.mdbgen then s.dbg.dmprv else s.p.dmprvWritable && w.getLsbD 4

/-- The bits of `dcsr` other than PRV and V that a write through the S/HS view changes (41 R133). -/
def sdcsrMask (p : Params) : BitVec 32 := 0x3804 ||| (if p.hasH then 0x30000 else 0)

/-- `sdcsr` write, S/HS view (41 R133). -/
def State.writeSdcsrS (s : State) (w : BitVec 32) : State :=
  { s with dbg := { s.dbg with
      dcsr := writePrvV s.p s.cfg (merge (sdcsrMask s.p) s.dbg.dcsr w)
        ((w.extractLsb' 0 1).setWidth 2) (w.getLsbD 5)
      dmprv := s.dmprvWritten w } }

/-- `sdcsr` write, VS view (41 R135): bits 12 and 13 go to EBREAKVU and EBREAKVS, bits 16 and 17 are discarded. -/
def State.writeSdcsrVs (s : State) (w : BitVec 32) : State :=
  { s with dbg := { s.dbg with
      dcsr := writePrvV s.p s.cfg
        (setBit (setBit (merge 0x804 s.dbg.dcsr w) 16 (w.getLsbD 12)) 17 (w.getLsbD 13))
        ((w.extractLsb' 0 1).setWidth 2) (w.getLsbD 5)
      dmprv := s.dmprvWritten w } }

/-- `sdcsr` write (41 R131). -/
def State.writeSdcsr (s : State) (w : BitVec 32) : State :=
  if s.dap = .vs then s.writeSdcsrVs w else s.writeSdcsrS w

/-- `udcsr` write (41 R139): bit 12 goes to EBREAKVU where the old V is 1, else to EBREAKU; PRV is not writable. -/
def State.writeUdcsr (s : State) (w : BitVec 32) : State :=
  { s with dbg := { s.dbg with
      dcsr := writePrvV s.p s.cfg
        (setBit (merge 0x804 s.dbg.dcsr w) (if s.dbg.v then 16 else 12) (w.getLsbD 12))
        s.dbg.prv (w.getLsbD 5) } }

/-- `dpc` write, through any of its three names (41 R128, R136, R140). -/
def State.writeDpc (s : State) (w : Word) : State := { s with dbg := { s.dbg with dpc := pcMask s.p w } }

/-- `msdcfg` write: only implemented fields take the value, other bits are preserved (30 R75, 41 R141). -/
def State.writeMsdcfg (s : State) (w : Word) : State := { s with msdcfg := merge (msdcfgMask s.p) s.msdcfg w }

/-- `mstatus` after a write of the bits under a mask: MPP takes supported privileges only (WARL, log 1). -/
def mstatusWritten (p : Params) (old w mask : Word) : Word :=
  let st := merge (mstatusMask p &&& mask) old w
  if mask.getLsbD 11 && supportedPrv p (w.extractLsb' 11 2) then setBits2 st 11 (w.extractLsb' 11 2) else st

/-- `xtvec` as written: mode 0 (direct) or 1 (vectored). -/
def tvecMask (v : Word) : Word := v &&& ~~~2

/-- `mnstatus` as written: NMIE can be set and not cleared, MNPP takes supported privileges, MNPV needs the hypervisor
extension (the family's, log 26). -/
def mnstatusWritten (p : Params) (old w : Word) : Word :=
  let st := merge (if p.hasH then 0x80 else 0) (old ||| (w &&& 8)) w
  if supportedPrv p (w.extractLsb' 11 2) then setBits2 st 11 (w.extractLsb' 11 2) else st

/-- The exceptions M-mode can delegate: not the environment call from M-mode (the family's, log 1). -/
def medelegMask : Word := 0xF0B7FF

/-- The exceptions HS-mode can delegate further (the family's, log 1). -/
def hedelegMask : Word := 0xB1FF

/-- Replace the privileged-architecture CSRs. -/
def State.setCsr (s : State) (c : Csrs) : State := { s with csr := c }

/-- `W(c, v)`: the register-specific write (41 section 3; WARL fields of the family log 1, log 25). -/
def State.csrWrite (s : State) (c : Csr) (v : Word) : State :=
  let w := s.p.toXlen v
  match c with
  | .dcsr => s.writeDcsr (w.setWidth 32)
  | .dpc | .sdpc | .udpc => s.writeDpc w
  | .dscratch0 => { s with dbg := { s.dbg with dscratch0 := w } }
  | .dscratch1 => { s with dbg := { s.dbg with dscratch1 := w } }
  | .sdcsr => s.writeSdcsr (w.setWidth 32)
  | .udcsr => s.writeUdcsr (w.setWidth 32)
  | .msdcfg => s.writeMsdcfg w
  | .tselect => s.writeTselect w
  | .tdata1 => s.writeTdata1 w
  | .tdata2 => s.writeTdata2 w
  | .mstatus =>
    s.setCsr { s.csr with
      mstatus := mstatusWritten s.p s.csr.mstatus w (if s.p.xlen64 then ~~~0 else 0xFFFFFFFF) }
  | .mstatush => s.setCsr { s.csr with mstatus := mstatusWritten s.p s.csr.mstatus (w <<< 32) (~~~0xFFFFFFFF) }
  | .medeleg => s.setCsr { s.csr with medeleg := w &&& medelegMask }
  | .mideleg => s.setCsr { s.csr with mideleg := w &&& 0x222 }
  | .mie => s.setCsr { s.csr with mie := w &&& interruptMask s.p }
  | .mip => s.setCsr { s.csr with mip := merge (interruptMask s.p &&& 0x226) s.csr.mip w }
  | .mtvec => s.setCsr { s.csr with mtvec := tvecMask w }
  | .mepc => s.setCsr { s.csr with mepc := pcMask s.p w }
  | .mcause => s.setCsr { s.csr with mcause := w }
  | .mtval => s.setCsr { s.csr with mtval := w }
  | .mnstatus => s.setCsr { s.csr with mnstatus := mnstatusWritten s.p s.csr.mnstatus w }
  | .mnepc => s.setCsr { s.csr with mnepc := pcMask s.p w }
  | .mncause => s.setCsr { s.csr with mncause := w }
  | .sstatus => s.setCsr { s.csr with mstatus := merge (sstatusMask s.p) s.csr.mstatus w }
  | .sie => s.setCsr { s.csr with mie := merge (sieMask s.csr) s.csr.mie w }
  | .sip => s.setCsr { s.csr with mip := merge (sieMask s.csr &&& 2) s.csr.mip w }
  | .stvec => s.setCsr { s.csr with stvec := tvecMask w }
  | .sepc => s.setCsr { s.csr with sepc := pcMask s.p w }
  | .scause => s.setCsr { s.csr with scause := w }
  | .stval => s.setCsr { s.csr with stval := w }
  | .hstatus => s.setCsr { s.csr with hstatus := w &&& hstatusMask s.p }
  | .hedeleg => s.setCsr { s.csr with hedeleg := w &&& hedelegMask }
  | .hideleg => s.setCsr { s.csr with hideleg := w &&& 0x444 }
  | .vsstatus => s.setCsr { s.csr with vsstatus := w &&& vsstatusMask s.p }
  | .vsie => s.setCsr { s.csr with mie := merge (vsieMask s.csr) s.csr.mie (w <<< 1) }
  | .vsip => s.setCsr { s.csr with mip := merge (vsieMask s.csr &&& 4) s.csr.mip (w <<< 1) }
  | .vstvec => s.setCsr { s.csr with vstvec := tvecMask w }
  | .vsepc => s.setCsr { s.csr with vsepc := pcMask s.p w }
  | .vscause => s.setCsr { s.csr with vscause := w }
  | .vstval => s.setCsr { s.csr with vstval := w }

/-! ### The read-modify-write of the six instructions -/

/-- An access denied: the exception, or `debug_fail()` in Debug Mode (41 R120, R121). -/
def State.csrDenied (s : State) (i : Instr) (v : CsrVerdict) : State :=
  s.takeException (if v = .virtualInstruction then .virtualInstruction (encodeWord i) else .illegal (encodeWord i))

/-- Write a register, then `rd`, then move on (41 R121 to R126). -/
def State.csrFinish (s : State) (c : Csr) (rd : RegNum) (new : Option Word) : State :=
  let t := s.csrRead c
  ((match new with
    | some v => s.csrWrite c v
    | none => s).setX rd t).advance 4

/-- CSRRW and CSRRWI with source value `v` (41 R121, R124). A read has no side effect, so none is left out for
`rd` = x0. -/
def State.csrSwap (s : State) (i : Instr) (rd : RegNum) (n : CsrNum) (v : Word) : State :=
  match s.csrCheck n true with
  | .ok c => s.csrFinish c rd (some v)
  | verdict => s.csrDenied i verdict

/-- CSRRS and CSRRSI with source value `v`; `writes` says whether the register number or immediate is not 0
(41 R122, R125). -/
def State.csrSet (s : State) (i : Instr) (rd : RegNum) (n : CsrNum) (v : Word) (writes : Bool) : State :=
  match s.csrCheck n writes with
  | .ok c => s.csrFinish c rd (if writes then some (s.csrRead c ||| v) else none)
  | verdict => s.csrDenied i verdict

/-- CSRRC and CSRRCI (41 R123, R126). -/
def State.csrClear (s : State) (i : Instr) (rd : RegNum) (n : CsrNum) (v : Word) (writes : Bool) : State :=
  match s.csrCheck n writes with
  | .ok c => s.csrFinish c rd (if writes then some (s.csrRead c &&& ~~~v) else none)
  | verdict => s.csrDenied i verdict

end Sys2Proof.Machine
end

