-- ==== Sys2Proof/Machine/CsrInstr.lean ====
section
/-! DEFINITION. The six CSR instructions (41 R121 to R126). -/

namespace Sys2Proof.Machine

/-- CSRRW (41 R121). -/
def execCsrrw (rd : RegNum) (csr : CsrNum) (rs1 : RegNum) (s : State) : Host.Outcome State Fault Refusal :=
  .next (s.csrSwap (.csrrw rd csr rs1) rd csr (s.x rs1))

/-- CSRRS (41 R122): it writes iff the register number `rs1` is not 0. -/
def execCsrrs (rd : RegNum) (csr : CsrNum) (rs1 : RegNum) (s : State) : Host.Outcome State Fault Refusal :=
  .next (s.csrSet (.csrrs rd csr rs1) rd csr (s.x rs1) (rs1 != 0))

/-- CSRRC (41 R123). -/
def execCsrrc (rd : RegNum) (csr : CsrNum) (rs1 : RegNum) (s : State) : Host.Outcome State Fault Refusal :=
  .next (s.csrClear (.csrrc rd csr rs1) rd csr (s.x rs1) (rs1 != 0))

/-- CSRRWI (41 R124). -/
def execCsrrwi (rd : RegNum) (csr : CsrNum) (uimm : BitVec 5) (s : State) : Host.Outcome State Fault Refusal :=
  .next (s.csrSwap (.csrrwi rd csr uimm) rd csr (csrImm uimm))

/-- CSRRSI (41 R125): it writes iff the immediate is not 0. -/
def execCsrrsi (rd : RegNum) (csr : CsrNum) (uimm : BitVec 5) (s : State) : Host.Outcome State Fault Refusal :=
  .next (s.csrSet (.csrrsi rd csr uimm) rd csr (csrImm uimm) (uimm != 0))

/-- CSRRCI (41 R126). -/
def execCsrrci (rd : RegNum) (csr : CsrNum) (uimm : BitVec 5) (s : State) : Host.Outcome State Fault Refusal :=
  .next (s.csrClear (.csrrci rd csr uimm) rd csr (csrImm uimm) (uimm != 0))

end Sys2Proof.Machine
end

