-- ==== Sys2Proof/Machine/Hypervisor.lean ====
section
/-! DEFINITION. The hypervisor virtual-machine loads and stores (42 R181 to R194). -/

namespace Sys2Proof.Machine

/-- HLV.B (42 R182): 1 byte, sign-extended. -/
def execHlvb (rd rs1 : RegNum) (s : State) : Host.Outcome State Fault Refusal :=
  .next (s.ifPresent (.hlvb rd rs1) fun s => s.hlvOp (.hlvb rd rs1) .load rd rs1 1 true)

/-- HLV.BU (42 R183): 1 byte, zero-extended. -/
def execHlvbu (rd rs1 : RegNum) (s : State) : Host.Outcome State Fault Refusal :=
  .next (s.ifPresent (.hlvbu rd rs1) fun s => s.hlvOp (.hlvbu rd rs1) .load rd rs1 1 false)

/-- HLV.H (42 R184): 2 bytes, sign-extended. -/
def execHlvh (rd rs1 : RegNum) (s : State) : Host.Outcome State Fault Refusal :=
  .next (s.ifPresent (.hlvh rd rs1) fun s => s.hlvOp (.hlvh rd rs1) .load rd rs1 2 true)

/-- HLV.HU (42 R185): 2 bytes, zero-extended. -/
def execHlvhu (rd rs1 : RegNum) (s : State) : Host.Outcome State Fault Refusal :=
  .next (s.ifPresent (.hlvhu rd rs1) fun s => s.hlvOp (.hlvhu rd rs1) .load rd rs1 2 false)

/-- HLVX.HU (42 R186): 2 bytes, zero-extended, execute permission in place of read. -/
def execHlvxhu (rd rs1 : RegNum) (s : State) : Host.Outcome State Fault Refusal :=
  .next (s.ifPresent (.hlvxhu rd rs1) fun s => s.hlvOp (.hlvxhu rd rs1) .execData rd rs1 2 false)

/-- HLV.W (42 R187): 4 bytes, sign-extended. -/
def execHlvw (rd rs1 : RegNum) (s : State) : Host.Outcome State Fault Refusal :=
  .next (s.ifPresent (.hlvw rd rs1) fun s => s.hlvOp (.hlvw rd rs1) .load rd rs1 4 true)

/-- HLVX.WU (42 R188): 4 bytes, zero-extended, execute permission in place of read. -/
def execHlvxwu (rd rs1 : RegNum) (s : State) : Host.Outcome State Fault Refusal :=
  .next (s.ifPresent (.hlvxwu rd rs1) fun s => s.hlvOp (.hlvxwu rd rs1) .execData rd rs1 4 false)

/-- HLV.WU (42 R189): 4 bytes, zero-extended. -/
def execHlvwu (rd rs1 : RegNum) (s : State) : Host.Outcome State Fault Refusal :=
  .next (s.ifPresent (.hlvwu rd rs1) fun s => s.hlvOp (.hlvwu rd rs1) .load rd rs1 4 false)

/-- HLV.D (42 R190): 8 bytes. -/
def execHlvd (rd rs1 : RegNum) (s : State) : Host.Outcome State Fault Refusal :=
  .next (s.ifPresent (.hlvd rd rs1) fun s => s.hlvOp (.hlvd rd rs1) .load rd rs1 8 true)

/-- HSV.B (42 R191): the low 1 byte of `rs2`. -/
def execHsvb (rs2 rs1 : RegNum) (s : State) : Host.Outcome State Fault Refusal :=
  .next (s.ifPresent (.hsvb rs2 rs1) fun s => s.hsvOp (.hsvb rs2 rs1) rs2 rs1 1)

/-- HSV.H (42 R192): the low 2 bytes of `rs2`. -/
def execHsvh (rs2 rs1 : RegNum) (s : State) : Host.Outcome State Fault Refusal :=
  .next (s.ifPresent (.hsvh rs2 rs1) fun s => s.hsvOp (.hsvh rs2 rs1) rs2 rs1 2)

/-- HSV.W (42 R193): the low 4 bytes of `rs2`. -/
def execHsvw (rs2 rs1 : RegNum) (s : State) : Host.Outcome State Fault Refusal :=
  .next (s.ifPresent (.hsvw rs2 rs1) fun s => s.hsvOp (.hsvw rs2 rs1) rs2 rs1 4)

/-- HSV.D (42 R194): the low 8 bytes of `rs2`. -/
def execHsvd (rs2 rs1 : RegNum) (s : State) : Host.Outcome State Fault Refusal :=
  .next (s.ifPresent (.hsvd rs2 rs1) fun s => s.hsvOp (.hsvd rs2 rs1) rs2 rs1 8)

end Sys2Proof.Machine
end

