-- ==== Sys2Proof/Machine/Loads.lean ====
section
/-! DEFINITION. The loads (42 R168 to R175). -/

namespace Sys2Proof.Machine

/-- LB (42 R169): 1 byte, sign-extended. -/
def execLb (rd rs1 : RegNum) (imm : Imm12) (s : State) : Host.Outcome State Fault Refusal :=
  .next (s.loadOp rd rs1 imm 1 true)

/-- LH (42 R170): 2 bytes, sign-extended. -/
def execLh (rd rs1 : RegNum) (imm : Imm12) (s : State) : Host.Outcome State Fault Refusal :=
  .next (s.loadOp rd rs1 imm 2 true)

/-- LW (42 R171): 4 bytes, sign-extended. -/
def execLw (rd rs1 : RegNum) (imm : Imm12) (s : State) : Host.Outcome State Fault Refusal :=
  .next (s.loadOp rd rs1 imm 4 true)

/-- LBU (42 R172): 1 byte, zero-extended. -/
def execLbu (rd rs1 : RegNum) (imm : Imm12) (s : State) : Host.Outcome State Fault Refusal :=
  .next (s.loadOp rd rs1 imm 1 false)

/-- LHU (42 R173): 2 bytes, zero-extended. -/
def execLhu (rd rs1 : RegNum) (imm : Imm12) (s : State) : Host.Outcome State Fault Refusal :=
  .next (s.loadOp rd rs1 imm 2 false)

/-- LWU (42 R174): 4 bytes, zero-extended; XLEN = 64 only. -/
def execLwu (rd rs1 : RegNum) (imm : Imm12) (s : State) : Host.Outcome State Fault Refusal :=
  .next (s.ifPresent (.lwu rd rs1 imm) fun s => s.loadOp rd rs1 imm 4 false)

/-- LD (42 R175): 8 bytes; XLEN = 64 only. -/
def execLd (rd rs1 : RegNum) (imm : Imm12) (s : State) : Host.Outcome State Fault Refusal :=
  .next (s.ifPresent (.ld rd rs1 imm) fun s => s.loadOp rd rs1 imm 8 true)

end Sys2Proof.Machine
end

