-- ==== Sys2Proof/Machine/Stores.lean ====
section
/-! DEFINITION. The stores (42 R176 to R180). -/

namespace Sys2Proof.Machine

/-- SB (42 R177): the low 1 byte of `rs2`. -/
def execSb (rs2 rs1 : RegNum) (imm : Imm12) (s : State) : Host.Outcome State Fault Refusal :=
  .next (s.storeOp rs2 rs1 imm 1)

/-- SH (42 R178): the low 2 bytes of `rs2`. -/
def execSh (rs2 rs1 : RegNum) (imm : Imm12) (s : State) : Host.Outcome State Fault Refusal :=
  .next (s.storeOp rs2 rs1 imm 2)

/-- SW (42 R179): the low 4 bytes of `rs2`. -/
def execSw (rs2 rs1 : RegNum) (imm : Imm12) (s : State) : Host.Outcome State Fault Refusal :=
  .next (s.storeOp rs2 rs1 imm 4)

/-- SD (42 R180): the low 8 bytes of `rs2`; XLEN = 64 only. -/
def execSd (rs2 rs1 : RegNum) (imm : Imm12) (s : State) : Host.Outcome State Fault Refusal :=
  .next (s.ifPresent (.sd rs2 rs1 imm) fun s => s.storeOp rs2 rs1 imm 8)

end Sys2Proof.Machine
end

