-- ==== Sys2Proof/Machine/System.lean ====
section
/-! DEFINITION. EBREAK, C.EBREAK and the privilege-changing instructions (42 R161 to R167). -/

namespace Sys2Proof.Machine

/-- EBREAK's operation (42 R161, 60 R239): in Debug Mode it ends the Program Buffer; in a debug-allowed mode whose
EBREAK bit is set it enters Debug Mode with `dpc` at the instruction; otherwise it is a breakpoint exception. -/
def State.ebreakOp (s : State) : State :=
  if s.inDebug then { s with dm := { s.dm with pbRun := false } }
  else if s.allowed && ebreakBit s.dbg s.cur then { s.enterDebug .ebreak with hti := none }
  else s.takeException .breakpoint

/-- A privilege-changing instruction in the Program Buffer (42 R163): a NOP or `debug_fail()`. -/
def State.privChangeInDebug (s : State) : State :=
  match s.p.privChange with
  | .nop => s.advance 4
  | .exception => s.debugFail

/-- EBREAK (42 R161). -/
def execEbreak (s : State) : Host.Outcome State Fault Refusal := .next s.ebreakOp

/-- C.EBREAK (42 R162). -/
def execCebreak (s : State) : Host.Outcome State Fault Refusal := .next (s.ifPresent .cebreak State.ebreakOp)

/-- ECALL (42 R164): the environment call of the current mode. -/
def execEcall (s : State) : Host.Outcome State Fault Refusal :=
  .next (if s.inDebug then s.privChangeInDebug else s.takeException .envCall)

/-- MRET (42 R165): an illegal instruction below M-mode. -/
def execMret (s : State) : Host.Outcome State Fault Refusal :=
  .next (if s.inDebug then s.privChangeInDebug
    else if s.cur = .m then s.mretOp
    else s.takeException (.illegal (encodeWord .mret)))

/-- SRET outside Debug Mode, by mode (42 R166; TSR, VTSR and the virtual-instruction case the family's, log 40). -/
def State.sretRun (s : State) : State :=
  match s.cur with
  | .m => s.sretOp
  | .hs => if s.csr.tsr then s.takeException (.illegal (encodeWord .sret)) else s.sretOp
  | .vs => if s.csr.vtsr then s.takeException (.virtualInstruction (encodeWord .sret)) else s.vsretOp
  | .vu => s.takeException (.virtualInstruction (encodeWord .sret))
  | .u => s.takeException (.illegal (encodeWord .sret))

/-- SRET (42 R166). -/
def execSret (s : State) : Host.Outcome State Fault Refusal :=
  .next (s.ifPresent .sret fun s => if s.inDebug then s.privChangeInDebug else s.sretRun)

/-- MNRET (42 R167): an illegal instruction below M-mode. -/
def execMnret (s : State) : Host.Outcome State Fault Refusal :=
  .next (s.ifPresent .mnret fun s =>
    if s.inDebug then s.privChangeInDebug
    else if s.cur = .m then s.mnretOp
    else s.takeException (.illegal (encodeWord .mnret)))

end Sys2Proof.Machine
end

