-- ==== Sys2Proof/Machine/Dispatch.lean ====
section
/-! DEFINITION. One arm per instruction, in the table's order. -/

namespace Sys2Proof.Machine

def exec (i : Instr) (s : State) : Host.Outcome State Fault Refusal :=
  match i with
  | .csrrw rd csr rs1 => Sys2Proof.Machine.execCsrrw rd csr rs1 s
  | .csrrs rd csr rs1 => Sys2Proof.Machine.execCsrrs rd csr rs1 s
  | .csrrc rd csr rs1 => Sys2Proof.Machine.execCsrrc rd csr rs1 s
  | .csrrwi rd csr uimm => Sys2Proof.Machine.execCsrrwi rd csr uimm s
  | .csrrsi rd csr uimm => Sys2Proof.Machine.execCsrrsi rd csr uimm s
  | .csrrci rd csr uimm => Sys2Proof.Machine.execCsrrci rd csr uimm s
  | .ebreak => Sys2Proof.Machine.execEbreak s
  | .cebreak => Sys2Proof.Machine.execCebreak s
  | .ecall => Sys2Proof.Machine.execEcall s
  | .mret => Sys2Proof.Machine.execMret s
  | .sret => Sys2Proof.Machine.execSret s
  | .mnret => Sys2Proof.Machine.execMnret s
  | .lb rd rs1 imm => Sys2Proof.Machine.execLb rd rs1 imm s
  | .lh rd rs1 imm => Sys2Proof.Machine.execLh rd rs1 imm s
  | .lw rd rs1 imm => Sys2Proof.Machine.execLw rd rs1 imm s
  | .lbu rd rs1 imm => Sys2Proof.Machine.execLbu rd rs1 imm s
  | .lhu rd rs1 imm => Sys2Proof.Machine.execLhu rd rs1 imm s
  | .lwu rd rs1 imm => Sys2Proof.Machine.execLwu rd rs1 imm s
  | .ld rd rs1 imm => Sys2Proof.Machine.execLd rd rs1 imm s
  | .sb rs2 rs1 imm => Sys2Proof.Machine.execSb rs2 rs1 imm s
  | .sh rs2 rs1 imm => Sys2Proof.Machine.execSh rs2 rs1 imm s
  | .sw rs2 rs1 imm => Sys2Proof.Machine.execSw rs2 rs1 imm s
  | .sd rs2 rs1 imm => Sys2Proof.Machine.execSd rs2 rs1 imm s
  | .hlvb rd rs1 => Sys2Proof.Machine.execHlvb rd rs1 s
  | .hlvbu rd rs1 => Sys2Proof.Machine.execHlvbu rd rs1 s
  | .hlvh rd rs1 => Sys2Proof.Machine.execHlvh rd rs1 s
  | .hlvhu rd rs1 => Sys2Proof.Machine.execHlvhu rd rs1 s
  | .hlvxhu rd rs1 => Sys2Proof.Machine.execHlvxhu rd rs1 s
  | .hlvw rd rs1 => Sys2Proof.Machine.execHlvw rd rs1 s
  | .hlvxwu rd rs1 => Sys2Proof.Machine.execHlvxwu rd rs1 s
  | .hlvwu rd rs1 => Sys2Proof.Machine.execHlvwu rd rs1 s
  | .hlvd rd rs1 => Sys2Proof.Machine.execHlvd rd rs1 s
  | .hsvb rs2 rs1 => Sys2Proof.Machine.execHsvb rs2 rs1 s
  | .hsvh rs2 rs1 => Sys2Proof.Machine.execHsvh rs2 rs1 s
  | .hsvw rs2 rs1 => Sys2Proof.Machine.execHsvw rs2 rs1 s
  | .hsvd rs2 rs1 => Sys2Proof.Machine.execHsvd rs2 rs1 s

end Sys2Proof.Machine
end

