-- ==== Sys2Proof/Machine/Fetch.lean ====
section
/-! DEFINITION. Where the next instruction comes from: memory at the pc outside Debug Mode, the Program Buffer inside;
and placing an instruction there. -/

namespace Sys2Proof.Machine

/-- What a fetch answers. -/
inductive Fetched where
  | instr (i : Instr)
  | memFault (f : MemFault)
  | bad (e : DecodeError)
deriving DecidableEq, Repr

/-- The bytes of memory at `n` addresses from a virtual address on, fetched in the current mode (20 R59: a fetch is no
load; 20 R60: a fetch is little-endian whatever the endianness controls say). -/
def State.fetchBytes (s : State) (va : Word) (n : Nat) : Except MemFault (List Byte) :=
  match s.translateAll .fetch s.cur.prv s.cur.virt (byteAddrs s.p n va) with
  | .error f => .error f
  | .ok ks => .ok (ks.map s.mem.read)

/-- The decoder's answer as a fetch's. -/
def fetchedOf (bytes : List Byte) : Fetched :=
  match decode bytes with
  | .ok (i, _) => .instr i
  | .error e => .bad e

/-- Fetch at the pc: the first halfword, and the second where the first says 32 bits (30 R80). -/
def State.fetch (s : State) : Fetched :=
  match s.fetchBytes s.pc 2 with
  | .error f => .memFault f
  | .ok bytes =>
    if (bytes.head?.map isWide).getD false then
      match s.fetchBytes (s.p.toXlen (s.pc + 2)) 2 with
      | .error f => .memFault f
      | .ok more => fetchedOf (bytes ++ more)
    else fetchedOf bytes

/-- The instruction at the Program Buffer's place (40 R106). -/
def State.fetchProgBuf (s : State) : Fetched := fetchedOf (s.dm.progBuf.drop s.dm.pbPc)

/-- The physical addresses of the four bytes at the pc; an address that does not translate stands for itself. -/
def State.fetchAddrs (s : State) : List Nat :=
  (byteAddrs s.p 4 s.pc).map fun va =>
    match s.translate .fetch s.cur.prv s.cur.virt va with
    | .ok k => k
    | .error _ => va.toNat

/-- Put bytes at an offset of the Program Buffer. -/
def placeBytes (buf : List Byte) (at_ : Nat) (bytes : List Byte) : List Byte :=
  (buf ++ List.replicate (at_ - buf.length) 0).take at_ ++ bytes ++ buf.drop (at_ + bytes.length)

/-- Place four bytes where the next instruction is fetched: in the Program Buffer, set running, in Debug Mode; in
memory at the pc otherwise. -/
def State.placeFetch (s : State) (bytes : List Byte) : State :=
  if s.inDebug then
    { s with dm := { s.dm with progBuf := placeBytes s.dm.progBuf s.dm.pbPc bytes, pbRun := true } }
  else { s with mem := s.mem.writeAll s.fetchAddrs bytes }

end Sys2Proof.Machine
end

