-- ==== Sys2Proof/Machine/Interrupts.lean ====
section
/-! DEFINITION. Interrupts (60 R246 to R250): which is taken at a boundary, and taking it. The sources, their enables
and their priority are the family's (log 25); what Sdsec adds is `stepMasks`. -/

namespace Sys2Proof.Machine

/-- The interrupt codes in falling priority: machine external, software, timer; supervisor; VS-level (log 25). -/
def interruptOrder : List Nat := [11, 3, 7, 9, 1, 5, 10, 2, 6]

/-- `dest(i)` (60 R250): the mode an interrupt is taken in. -/
def State.interruptDest (s : State) (code : Nat) : Mode :=
  if s.p.hasS = false ∨ (midelegRead s.p s.csr).getLsbD code = false then .m
  else if s.p.hasH ∧ s.csr.hideleg.getLsbD code ∧ (code = 2 ∨ code = 6 ∨ code = 10) then .vs
  else .hs

/-- The base architecture lets an interrupt bound for a mode through: always below that mode, in the mode by its enable
bit, never above it (60 R250, 95 P4; log 25). -/
def State.interruptEnabled (s : State) (dest : Mode) : Bool :=
  match dest with
  | .m | .u | .vu => s.cur != .m || s.csr.mie_
  | .hs =>
    match s.cur with
    | .m => false
    | .hs => s.csr.sie
    | .vs | .u | .vu => true
  | .vs =>
    match s.cur with
    | .m | .hs | .u => false
    | .vs => s.csr.vssie
    | .vu => true

/-- `step_masks(i)` (60 R246): an armed step in a debug-allowed mode with STEPIE = 0 masks an interrupt whose handler's
mode is debug-allowed. -/
def State.stepMasks (s : State) (dest : Mode) : Bool :=
  s.stepArmed && s.allowed && !s.dbg.stepie && s.allowedIn dest

/-- Resumable NMIs hold back every interrupt while NMIE is 0 (the family's, log 26). -/
def State.nmieOpen (s : State) : Bool := !s.p.hasRnmi || s.csr.nmie

/-- Interrupt `code` is pending, enabled and not masked by a step (60 R246, R247). -/
def State.interruptReady (s : State) (code : Nat) : Bool :=
  s.csr.mip.getLsbD code && s.csr.mie.getLsbD code && s.nmieOpen &&
    s.interruptEnabled (s.interruptDest code) && !s.stepMasks (s.interruptDest code)

/-- What is taken at a boundary. -/
inductive Taken where
  | nmi
  | interrupt (code : Nat)
deriving DecidableEq, Repr

/-- The first ready interrupt bound for a mode. -/
def State.firstReady (s : State) (dest : Mode) : Option Nat :=
  interruptOrder.find? fun code => s.interruptReady code && s.interruptDest code == dest

/-- A pending non-maskable interrupt is not held back by NMIE nor by the step's mask: it goes to M-mode (60 R246). -/
def State.nmiReady (s : State) : Bool := s.nmiPending && s.nmieOpen && !s.stepMasks .m

/-- The interrupt taken at this boundary: a non-maskable one first, then those bound for M, for HS, for VS (log 25). -/
def State.pickInterrupt (s : State) : Option Taken :=
  if s.nmiReady then some .nmi
  else
    match s.firstReady .m with
    | some c => some (.interrupt c)
    | none =>
      match s.firstReady .hs with
      | some c => some (.interrupt c)
      | none => (s.firstReady .vs).map .interrupt

/-- The mode that takes it (60 R246, R250). -/
def State.takenDest (s : State) : Taken → Mode
  | .nmi => .m
  | .interrupt code => s.interruptDest code

/-- The code `xcause` reports: a VS-level interrupt taken in VS-mode shows as the supervisor one (log 25). -/
def reportedCode (dest : Mode) (code : Nat) : Nat := if dest = .vs then code - 1 else code

/-- Enter the handler of a non-maskable interrupt: with resumable NMIs the saved state is MNPP, MNPV, `mnepc`, `mncause`
and NMIE clears; without them it is a trap to M-mode at the NMI vector (the family's, log 26). -/
def State.takeNmi (s : State) : State :=
  if s.p.hasRnmi then
    { s with
      csr := { s.csr with
        mnepc := pcMask s.p s.pc
        mncause := causeValue s.p true 0
        mnstatus := setBit (setBit (setBits2 s.csr.mnstatus 11 s.cur.prv) 7 s.cur.virt) 3 false }
      cur := .m
      pc := pcMask s.p s.p.nmiVector
      nmiPending := false
      hti := none }
  else { s.trapTo .m true 0 0 with pc := pcMask s.p s.p.nmiVector, nmiPending := false }

/-- Take an interrupt: the trap of 60 R249 to its destination. The value written to `xtval` is 0, the family's: the rule
gives none for interrupts (PRESUMED, log 25). -/
def State.takeInterrupt (s : State) : Taken → State
  | .nmi => s.takeNmi
  | .interrupt code => s.trapTo (s.interruptDest code) true (reportedCode (s.interruptDest code) code) 0

end Sys2Proof.Machine
end

