-- ==== Sys2Proof/Machine/Hart.lean ====
section
/-! DEFINITION. One step of the hart (60 R248), outside and inside Debug Mode. -/

namespace Sys2Proof.Machine

/-- The pending request that halts the hart now, in this order (40 R102, 60 R237, log 30). -/
def State.haltRequestCause (s : State) : Option DebugCause :=
  if s.resetHaltPending then some .resethaltreq
  else if s.groupHaltPending then some .group
  else if s.haltPending then some .haltreq
  else none

/-- Item 1 of 60 R248: a pending request or an external trigger input with ACTION = 1, where debug is allowed. Every
`tmexttrigger` trigger whose input is asserted fires then, whatever its ACTION (44 R224). -/
def State.haltAtBoundary (s : State) : Option State :=
  if s.allowed then
    match s.haltRequestCause with
    | some c => some (s.enterDebug c)
    | none =>
      if s.firing (extHalt s.p) ≠ [] then some (s.enterByTrigger (Trigger.isExt s.p)) else none
  else none

/-- Item 3 of 60 R248: the step check (60 R242). -/
def State.stepCheck (s : State) : State :=
  if !s.inDebug && s.stepArmed && s.allowed then s.enterDebug .step else s

/-- What the hart-trace interface will show if the instruction at the pc retires: its address, iff the hart has trace
and trace is allowed in the current mode (43 R210, R215; log 16). -/
def State.traceStart (s : State) : State :=
  { s with hti := if s.p.hasTrace && traceAllowed s.p.uFollowsVs s.tcfg s.cur then some s.pc else none }

/-- Fetch and execute one instruction at the pc. -/
def State.runInstr (s : State) : Host.Outcome State Fault Refusal :=
  match s.fetch with
  | .memFault f => .next (s.takeException (.mem .fetch f))
  | .bad e => .refused (.undecodable e)
  | .instr i => exec i s.traceStart

/-- The triggers of the instruction at the pc (44 R220 to R226), then the instruction: entry to Debug Mode first, then a
breakpoint exception for ACTION = 0 (log 14). A trigger with an ACTION other than 0, 1, 8 and 9 sets its hit bit and has
no other effect: DESIGN CHOICE, the spec gives none (44 R226, 91 N22; log 13). -/
def State.triggersThenInstr (s : State) : Host.Outcome State Fault Refusal :=
  let fired := s.firing anyTrigger
  let s' := s.fireTriggers anyTrigger
  if fired.any (debugTrigger s.p) then .next (s.enterByTrigger anyTrigger)
  else if fired.any (breakTrigger s.p) then .next (s'.takeException .breakpoint)
  else s'.runInstr

/-- A trigger that enters Debug Mode goes before the interrupt that is taken: only where that is bound for a
debug-disallowed mode and the implementation chooses so (44 R221, 93 U7). -/
def State.triggerGoesFirst (s : State) (t : Taken) : Bool :=
  s.p.triggerFirst && !s.allowedIn (s.takenDest t) && (s.firing anyTrigger).any (debugTrigger s.p)

/-- Item 2 of 60 R248: an interrupt, or the instruction with its triggers. -/
def State.interruptOrInstr (s : State) : Host.Outcome State Fault Refusal :=
  match s.pickInterrupt with
  | some t => if s.triggerGoesFirst t then s.triggersThenInstr else .next (s.takeInterrupt t)
  | none => s.triggersThenInstr

/-- The base match input serves one boundary only (log 13). -/
def State.dropMatched (s : State) : State := { s with trig := { s.trig with matched := [] } }

/-- A step outside Debug Mode (60 R248). -/
def State.runStep (s : State) : Host.Outcome State Fault Refusal :=
  match s.haltAtBoundary with
  | some t => .next t.dropMatched
  | none => onNext s.interruptOrInstr fun t => t.stepCheck.dropMatched

/-- The end of a Quick Access: the hart resumes once the Program Buffer has ended at its EBREAK (40 R105, log 18). -/
def State.finishQuick (s : State) : Host.Outcome State Fault Refusal :=
  if s.inDebug && s.dm.quick && !s.dm.pbRun then s.resume else .next s

/-- A step in Debug Mode: external trigger inputs are acknowledged and fire (44 R224), with ACTION 0 a breakpoint exception
in Debug Mode (60 R256); a running Program Buffer executes one instruction (40 R106), and running past its end fails
(log 17); a halted hart waits. -/
def State.debugStep (s : State) : Host.Outcome State Fault Refusal :=
  let s' := (s.fireTriggers anyTrigger).dropMatched
  if (s.firing anyTrigger).any (extBreak s.p) then .next (s'.takeException .breakpoint)
  else if s'.dm.pbRun then
    match s'.fetchProgBuf with
    | .instr i => andThen (exec i s') State.finishQuick
    | .bad .truncated => .next s'.debugFail
    | .bad e => .refused (.undecodable e)
    | .memFault f => .next (s'.takeException (.mem .fetch f))
  else .next s'

/-- What the last step showed on the trace interface and the trigger outputs is withdrawn. -/
def State.beginStep (s : State) : State := { s with hti := none, trig := { s.trig with extOut := 0 } }

/-- One step of the hart. -/
def State.hartStep (s : State) : Host.Outcome State Fault Refusal :=
  if s.inDebug then s.beginStep.debugStep else s.beginStep.runStep

end Sys2Proof.Machine
end

