-- ==== Sys2Proof/Machine/Debugger.lean ====
section
/-! DEFINITION. What the agents outside the hart do (60 R255): the external debugger (40 R102 to R109), the controlling
entity (70 R273), initiators of signals. -/

namespace Sys2Proof.Machine

/-- The controlling entity drives `mdbgen`: it must not fall in Debug Mode (70 R273); DMPRV is forced to 0 while it is 1
(20 R55). -/
def State.driveMdbgen (s : State) (b : Bool) : Host.Outcome State Fault Refusal :=
  if s.inDebug && s.mdbgen && !b then .refused .mdbgenLoweredInDebugMode
  else .next { s with mdbgen := b, dbg := { s.dbg with dmprv := s.dbg.dmprv && !b } }

/-- An abstract command against a hart that is not in Debug Mode (40 R107, log 19). -/
def State.commandOnRunning (s : State) : Host.Outcome State Fault Refusal :=
  if s.allowed then .refused .commandWhileRunning
  else
    match s.p.cmderrNotAllowed with
    | none => .refused .commandNotAllowed
    | some v => .next { s with dm := s.dm.setErr v }

/-- Serve a command on a halted hart. -/
def State.whenHalted (s : State) (f : State → Host.Outcome State Fault Refusal) : Host.Outcome State Fault Refusal :=
  if s.inDebug = false then s.commandOnRunning
  else if s.dm.pbRun then .refused .commandWhileBusy
  else f s

/-- Hand a value to the debugger. -/
def State.setData (s : State) (v : Word) : State := { s with dm := { s.dm with data := v } }

/-- Access Register (40 R103): a general register at any debug access privilege, a CSR by the rules of 41 with the
outcome the CSR instruction would have. -/
def State.accessRegister (s : State) (r : AbsReg) (write : Option Word) : State :=
  match r with
  | .gpr i =>
    if s.dap = .none then s.debugFail
    else
      match write with
      | none => s.setData (s.x i)
      | some v => s.setX i v
  | .csr n =>
    match s.csrCheckDebug n write.isSome with
    | .ok c =>
      match write with
      | none => s.setData (s.csrRead c)
      | some v => s.csrWrite c v
    | _ => s.debugFail

/-- The bytes of an Access Memory. -/
def AbsSize.bytes : AbsSize → Nat
  | .b1 => 1
  | .b2 => 2
  | .b4 => 4
  | .b8 => 8

/-- Access Memory (40 R104): with the pair of a load or store in Debug Mode; a fault is `debug_fail()`. That at M level
`dcsr.MPRVEN` with `mstatus.MPRV` selects MPP and MPV here as for a load or store is the model's choice (DEDUCED, log 23):
the spec does not say it for Access Memory. -/
def State.accessMemory (s : State) (addr : Word) (n : Nat) (write : Option Word) : State :=
  match s.debugDataPriv with
  | none => s.debugFail
  | some pair =>
    match write with
    | none =>
      match s.memRead .load pair.1 pair.2 (s.p.toXlen addr) n with
      | .error _ => s.debugFail
      | .ok d => s.setData d
    | some v =>
      match s.memWrite pair.1 pair.2 (s.p.toXlen addr) n v with
      | .error _ => s.debugFail
      | .ok t => t

/-- Access Memory with a size; 8 bytes need XLEN = 64 (log 19). -/
def State.accessMemorySized (s : State) (addr : Word) (size : AbsSize) (write : Option Word) :
    Host.Outcome State Fault Refusal :=
  if size = .b8 ∧ s.p.xlen64 = false then .refused .accessSizeUnsupported
  else .next (s.accessMemory addr size.bytes write)

/-- Start the Program Buffer (40 R106). -/
def State.startProgBuf (s : State) : State := { s with dm := { s.dm with pbRun := true, pbPc := 0 } }

/-- Quick Access (40 R105): a halt of 40 R102, then the Program Buffer, then a resume (`finishQuick`). The entry has the
cause haltreq, so it serves a halt request that was pending (60 R236; log 18). -/
def State.quickAccess (s : State) : Host.Outcome State Fault Refusal :=
  if s.inDebug then .refused .quickAccessWhileHalted
  else if s.allowed then
    let t := (s.enterDebug .haltreq).startProgBuf
    .next { t with dm := { t.dm with quick := true } }
  else s.commandOnRunning

/-- Fill the Program Buffer; not while it executes. -/
def State.fillProgBuf (s : State) (bytes : List Byte) : Host.Outcome State Fault Refusal :=
  if s.dm.pbRun then .refused .commandWhileBusy else .next { s with dm := { s.dm with progBuf := bytes } }

/-- A resume request: the hart must be in Debug Mode (40 R109, 60 R241). That a Program Buffer that executes ends there is
DESIGN CHOICE: the spec is silent (log 17). -/
def State.resumeRequest (s : State) : Host.Outcome State Fault Refusal :=
  if s.inDebug then s.resume else .refused .resumeWhileRunning

/-- The initiator drives one external trigger input (44 R224). The hart keeps an input asserted until it acknowledges it
(10 R33); that its initiator may also withdraw it before that, so that nothing fires, is DESIGN CHOICE (log 15). -/
def State.driveExtIn (s : State) (i : BitVec 4) (b : Bool) : State :=
  { s with trig := { s.trig with extIn := setBit s.trig.extIn i.toNat b } }

/-- Delegate a trigger or take it back (44 R229). -/
def State.delegateTrigger (s : State) (i : Nat) (b : Bool) : State :=
  match s.trig.triggers[i]? with
  | none => s
  | some t => { s with trig := { s.trig with triggers := s.trig.triggers.set i { t with delegated := b } } }

/-- One action of an agent. -/
def State.act (s : State) : Event → Host.Outcome State Fault Refusal
  | .hart => s.hartStep
  | .setMdbgen b => s.driveMdbgen b
  | .setMtrcen b => .next { s with mtrcen := b }
  | .haltRequest => .next { s with haltPending := true }
  | .resetHaltRequest => .next { s with resetHaltPending := true }
  | .groupHaltRequest => .next { s with groupHaltPending := true }
  | .resume => s.resumeRequest
  | .accessRegister r write => s.whenHalted fun t => .next (t.accessRegister r write)
  | .accessMemory addr size write => s.whenHalted fun t => t.accessMemorySized addr size write
  | .quickAccess => s.quickAccess
  | .writeProgBuf bytes => s.fillProgBuf bytes
  | .runProgBuf => s.whenHalted fun t => .next t.startProgBuf
  | .clearCmderr => .next { s with dm := { s.dm with cmderr := 0 } }
  | .setInterrupts mask value =>
    .next (s.setCsr { s.csr with mip := merge (mask &&& interruptMask s.p) s.csr.mip value })
  | .setNmi b => .next { s with nmiPending := b }
  | .setExtIn i b => .next (s.driveExtIn i b)
  | .setMatched ts => .next { s with trig := { s.trig with matched := ts } }
  | .delegateTrigger i b => .next (s.delegateTrigger i b)
  | .setTranslation x => .next { s with xlat := x }

/-- The next action: the head of `inputs`, or a step of the hart (log 10). -/
def State.advanceInputs (s : State) : Host.Outcome State Fault Refusal :=
  match s.inputs with
  | [] => s.hartStep
  | e :: rest => State.act { s with inputs := rest } e

/-- One step of the model: a configuration that is no row of the table is refused (00 R3). -/
def State.stepValid (s : State) : Host.Outcome State Fault Refusal :=
  if s.p.valid then s.advanceInputs else .refused .invalidConfiguration

end Sys2Proof.Machine
end

