-- ==== Sys2Proof/Machine/Step.lean ====
section
/-! DEFINITION. The step, and placing an instruction where the step fetches. -/

namespace Sys2Proof.Machine

/-- One step (`State.stepValid`, Machine/Debugger.lean). -/
def step (s : State) : Host.Outcome State Fault Refusal := s.stepValid

/-- The state with an instruction stored where the next one is fetched (log 10). -/
def State.withFetchWord (s : State) (nbits w : Nat) : State := s.placeFetch (bytesOfNat 4 (w % 2 ^ nbits))

end Sys2Proof.Machine
end

