-- ==== Sys2Proof/Safety.lean ====
section
/-! DEFINITION. What counts as a good state and a safe step, in the terms the statements use: the invariants of the
model, and the frames (what an operation leaves unchanged). -/

namespace Sys2Proof.Machine

/-! ### Invariants -/

/-- The modes the state names are modes of the hart: the current one and those saved by a trap. -/
def State.modesLegal (s : State) : Prop :=
  supportedMode s.p s.cur = true ∧
    supportedPrv s.p s.csr.mpp = true ∧ (s.csr.mpv = true → s.p.hasH = true) ∧
    (s.csr.spv = true → s.p.hasH = true) ∧
    supportedPrv s.p s.csr.mnpp = true ∧ (s.csr.mnpv = true → s.p.hasH = true)

/-- In Debug Mode there is a debug access privilege, and PRV and V hold a legal resume pair (40 R101, R109). -/
def State.debugLegal (s : State) : Prop :=
  s.inDebug = true → s.dap ≠ .none ∧ legalPair s.p s.cfg s.dbg.prv s.dbg.v = true

/-- DMPRV is 0 while `mdbgen` is 1 (20 R55, 41 R145). -/
def State.dmprvForced (s : State) : Prop := s.mdbgen = true → s.dbg.dmprv = false

/-- The pc and `dpc` lie within XLEN bits and on an instruction boundary (10 R37, 30 R74). -/
def State.pcsAligned (s : State) : Prop := pcMask s.p s.pc = s.pc ∧ pcMask s.p s.dbg.dpc = s.dbg.dpc

/-- The general registers lie within XLEN bits, and x0 reads 0 (10 R36). -/
def State.regsWithinXlen (s : State) : Prop := s.x 0 = 0 ∧ ∀ r : RegNum, s.p.toXlen (s.x r) = s.x r

/-- The Program Buffer executes in Debug Mode only (00 glossary, 40 R106). -/
def State.bufferHalted (s : State) : Prop := s.dm.pbRun = true → s.inDebug = true

/-- The next action is a step of the hart. -/
def State.hartTurn (s : State) : Prop := s.inputs = [] ∨ s.inputs.head? = some .hart

/-- The inputs left once the next action is taken. -/
def State.restInputs (s : State) : List Event := s.inputs.tail

/-- The state with the next action taken from the inputs. -/
def State.popInput (s : State) : State := { s with inputs := s.inputs.tail }

/-! ### Frames -/

/-- Nothing but the general registers and the pc (the Program Buffer's place in Debug Mode) differs. -/
def onlyRegsPc (s t : State) : Prop :=
  t = { s with regs := t.regs, pc := t.pc, dm := { s.dm with pbPc := t.dm.pbPc } }

/-- Nothing but memory and the pc (the Program Buffer's place in Debug Mode) differs. -/
def onlyMemPc (s t : State) : Prop :=
  t = { s with mem := t.mem, pc := t.pc, dm := { s.dm with pbPc := t.dm.pbPc } }

/-- Nothing but what a trap writes differs: the trap registers, the mode, the pc, and the trace interface, which shows
nothing. -/
def onlyTrap (s t : State) : Prop := t = { s with csr := t.csr, cur := t.cur, pc := t.pc, hti := none }

/-- Nothing but a return's effects differs: the trap registers, the mode and the pc. -/
def onlyReturn (s t : State) : Prop := t = { s with csr := t.csr, cur := t.cur, pc := t.pc }

/-- Every register but one reads as before. -/
def regsBut (s t : State) (rd : RegNum) : Prop := ∀ r : RegNum, r ≠ rd → t.x r = s.x r

/-- Every byte of memory reads as before. -/
def memSame (s t : State) : Prop := ∀ a : Nat, t.mem.read a = s.mem.read a

/-- The pc moved past an instruction of `n` bytes: in Debug Mode the pc stays and the Program Buffer's place moves. -/
def movedPast (s t : State) (n : Nat) : Prop :=
  if s.inDebug then t.pc = s.pc ∧ t.dm.pbPc = s.dm.pbPc + n
  else t.pc = s.p.toXlen (s.pc + BitVec.ofNat 64 n) ∧ t.dm.pbPc = s.dm.pbPc

/-- A CSR write touches nothing but where the register is stored: a view touches the register it shows, and `sdcsr`
its own bit DMPRV as well (10 R20 to R24, 41 R143). -/
def onlyHome (s t : State) : Csr → Prop
  | .dcsr | .udcsr => t = { s with dbg := { s.dbg with dcsr := t.dbg.dcsr } }
  | .sdcsr => t = { s with dbg := { s.dbg with dcsr := t.dbg.dcsr, dmprv := t.dbg.dmprv } }
  | .dpc | .sdpc | .udpc => t = { s with dbg := { s.dbg with dpc := t.dbg.dpc } }
  | .dscratch0 => t = { s with dbg := { s.dbg with dscratch0 := t.dbg.dscratch0 } }
  | .dscratch1 => t = { s with dbg := { s.dbg with dscratch1 := t.dbg.dscratch1 } }
  | .msdcfg => t = { s with msdcfg := t.msdcfg }
  | .tselect => t = { s with trig := { s.trig with tselect := t.trig.tselect } }
  | .tdata1 | .tdata2 => t = { s with trig := { s.trig with triggers := t.trig.triggers } }
  | .mstatus | .mstatush | .sstatus => t = s.setCsr { s.csr with mstatus := t.csr.mstatus }
  | .medeleg => t = s.setCsr { s.csr with medeleg := t.csr.medeleg }
  | .mideleg => t = s.setCsr { s.csr with mideleg := t.csr.mideleg }
  | .mie | .sie | .vsie => t = s.setCsr { s.csr with mie := t.csr.mie }
  | .mip | .sip | .vsip => t = s.setCsr { s.csr with mip := t.csr.mip }
  | .mtvec => t = s.setCsr { s.csr with mtvec := t.csr.mtvec }
  | .mepc => t = s.setCsr { s.csr with mepc := t.csr.mepc }
  | .mcause => t = s.setCsr { s.csr with mcause := t.csr.mcause }
  | .mtval => t = s.setCsr { s.csr with mtval := t.csr.mtval }
  | .mnstatus => t = s.setCsr { s.csr with mnstatus := t.csr.mnstatus }
  | .mnepc => t = s.setCsr { s.csr with mnepc := t.csr.mnepc }
  | .mncause => t = s.setCsr { s.csr with mncause := t.csr.mncause }
  | .stvec => t = s.setCsr { s.csr with stvec := t.csr.stvec }
  | .sepc => t = s.setCsr { s.csr with sepc := t.csr.sepc }
  | .scause => t = s.setCsr { s.csr with scause := t.csr.scause }
  | .stval => t = s.setCsr { s.csr with stval := t.csr.stval }
  | .hstatus => t = s.setCsr { s.csr with hstatus := t.csr.hstatus }
  | .hedeleg => t = s.setCsr { s.csr with hedeleg := t.csr.hedeleg }
  | .hideleg => t = s.setCsr { s.csr with hideleg := t.csr.hideleg }
  | .vsstatus => t = s.setCsr { s.csr with vsstatus := t.csr.vsstatus }
  | .vstvec => t = s.setCsr { s.csr with vstvec := t.csr.vstvec }
  | .vsepc => t = s.setCsr { s.csr with vsepc := t.csr.vsepc }
  | .vscause => t = s.setCsr { s.csr with vscause := t.csr.vscause }
  | .vstval => t = s.setCsr { s.csr with vstval := t.csr.vstval }

/-! ### Families of instructions -/

/-- The six CSR instructions on a CSR number; the last operand is `rs1` or the immediate. -/
def csrForms (rd : RegNum) (n : CsrNum) (x : BitVec 5) : List Instr :=
  [.csrrw rd n x, .csrrs rd n x, .csrrc rd n x, .csrrwi rd n x, .csrrsi rd n x, .csrrci rd n x]

/-- The CSR instruction writes its register: CSRRW and CSRRWI always, the others where the register number or the
immediate is not 0 (41 R121 to R126). -/
def writesCsr : Instr → Bool
  | .csrrw _ _ _ | .csrrwi _ _ _ => true
  | .csrrs _ _ x | .csrrc _ _ x | .csrrsi _ _ x | .csrrci _ _ x => x != 0
  | _ => false

/-- The loads with the number of bytes and whether the value is sign-extended (42 R169 to R175). -/
def loadForms (rd rs1 : RegNum) (imm : Imm12) : List (Instr × Nat × Bool) :=
  [(.lb rd rs1 imm, 1, true), (.lh rd rs1 imm, 2, true), (.lw rd rs1 imm, 4, true), (.lbu rd rs1 imm, 1, false),
   (.lhu rd rs1 imm, 2, false), (.lwu rd rs1 imm, 4, false), (.ld rd rs1 imm, 8, true)]

/-- The stores with the number of bytes (42 R177 to R180). -/
def storeForms (rs2 rs1 : RegNum) (imm : Imm12) : List (Instr × Nat) :=
  [(.sb rs2 rs1 imm, 1), (.sh rs2 rs1 imm, 2), (.sw rs2 rs1 imm, 4), (.sd rs2 rs1 imm, 8)]

/-- The hypervisor loads with the permission they need, the number of bytes and the extension (42 R182 to R190). -/
def hlvForms (rd rs1 : RegNum) : List (Instr × Access × Nat × Bool) :=
  [(.hlvb rd rs1, .load, 1, true), (.hlvbu rd rs1, .load, 1, false), (.hlvh rd rs1, .load, 2, true),
   (.hlvhu rd rs1, .load, 2, false), (.hlvxhu rd rs1, .execData, 2, false), (.hlvw rd rs1, .load, 4, true),
   (.hlvxwu rd rs1, .execData, 4, false), (.hlvwu rd rs1, .load, 4, false), (.hlvd rd rs1, .load, 8, true)]

/-- The hypervisor stores with the number of bytes (42 R191 to R194). -/
def hsvForms (rs2 rs1 : RegNum) : List (Instr × Nat) :=
  [(.hsvb rs2 rs1, 1), (.hsvh rs2 rs1, 2), (.hsvw rs2 rs1, 4), (.hsvd rs2 rs1, 8)]

/-- The hypervisor loads and stores as instructions. -/
def virtualMachineForms (r rs1 : RegNum) : List Instr :=
  (hlvForms r rs1).map Prod.fst ++ (hsvForms r rs1).map Prod.fst

/-- The privilege-changing instructions other than EBREAK (42 R163). -/
def privilegeChangers : List Instr := [.ecall, .mret, .sret, .mnret]

/-- The state with DMPRV replaced. -/
def State.withDmprv (s : State) (b : Bool) : State := { s with dbg := { s.dbg with dmprv := b } }

/-- The state with `dcsr` replaced. -/
def State.withDcsr (s : State) (w : BitVec 32) : State := { s with dbg := { s.dbg with dcsr := w } }

/-! ### Quiet boundaries -/

/-- Outside Debug Mode, with the hart to move, nothing competes with the instruction: no request, no interrupt, no
trigger. -/
def State.quiet (s : State) : Prop :=
  s.p.valid = true ∧ s.hartTurn ∧ s.inDebug = false ∧ s.haltPending = false ∧ s.resetHaltPending = false ∧
    s.groupHaltPending = false ∧ s.firing anyTrigger = [] ∧ s.pickInterrupt = none

/-- The state in which an instruction executes at a quiet boundary. -/
def State.atInstr (s : State) : State := s.popInput.beginStep.traceStart

end Sys2Proof.Machine
end

