-- ==== Sys2Proof/Certificates/Slice0/Obligations.lean ====
section
/-! DEFINITION. The statements. Frames: `onlyRegsPc`, `onlyMemPc`, `onlyHome`, `regsBut`, `memSame`, `movedPast` and the
families of instructions stand in Sys2Proof/Safety.lean. -/

open Sys2Proof Sys2Proof.Machine

/-! ### Encoding -/

/-- Decoding an encoded instruction, whatever bytes follow, gives it back with those bytes left (30 R77 to R80). -/
def Obligations.DecodeOfEncode : Prop :=
  ∀ (i : Instr) (rest : List Byte), decode (encode i ++ rest) = .ok (i, rest)

/-- A 32-bit word that decodes to an instruction is that instruction's encoding: no bit of the word is ignored and no
two words decode to one instruction (30 R77 to R79). -/
def Obligations.EncodeOfDecodedWord : Prop :=
  ∀ (w : BitVec 32) (i : Instr), decodeWord32 w = some i → encodeWord i = w

/-- Words written out from the encodings of 30 R77 to R80 decode to their instructions, one of each family. -/
def Obligations.DecodeSampleWords : Prop :=
  decodeWord32 0b01111011010000110001001010010000#32 = none ∧
    decodeWord32 0b01111011010000110001001011110011#32 = some (.csrrw 5 0x7b4 6) ∧
    decodeWord32 0b01111011010011111101000001110011#32 = some (.csrrwi 0 0x7b4 31) ∧
    decodeWord32 0b00000000000100000000000001110011#32 = some .ebreak ∧
    decodeWord32 0b00110000001000000000000001110011#32 = some .mret ∧
    decodeWord32 0b11111111110001010010010110000011#32 = some (.lw 11 10 (-4)) ∧
    decodeWord32 0b11111110101101010010111000100011#32 = some (.sw 11 10 (-4)) ∧
    decodeWord32 0b01101000001101010100010111110011#32 = some (.hlvxwu 11 10) ∧
    decodeWord32 0b01101010101101010100000001110011#32 = some (.hsvw 11 10) ∧
    decode [0x02, 0x90, 0x55] = .ok (.cebreak, [0x55])

/-! ### The step -/

/-- At a quiet boundary the step runs the instruction whose bytes stand at the pc: `exec` of it on the state with the
trace interface prepared, then the single-step check (60 R248); the base match input is dropped (log 13). -/
def Obligations.StepRunsDecodedInstruction : Prop :=
  ∀ (s : State) (i : Instr) (bytes : List Byte),
    s.quiet → s.fetchBytes s.pc i.size = .ok bytes → decode bytes = .ok (i, []) →
      step s = onNext (exec i s.atInstr) fun t => t.stepCheck.dropMatched

/-- In Debug Mode a running Program Buffer executes the instruction at its place (40 R106); a Quick Access that has
ended resumes the hart (log 18). -/
def Obligations.StepRunsProgramBuffer : Prop :=
  ∀ (s : State) (i : Instr) (rest : List Byte),
    s.p.valid = true → s.hartTurn → s.inDebug = true → s.dm.pbRun = true → s.firing anyTrigger = [] →
    decode (s.dm.progBuf.drop s.dm.pbPc) = .ok (i, rest) →
      step s = andThen (exec i s.popInput.beginStep.dropMatched) State.finishQuick

/-- A combination of modes and sub-extensions is valid exactly where it is a row of the table of 00 R3 (written as
S, U, H, Smsdedbg, Smvsdedbg, Smudedbg), and a hart with a combination that is no row is refused. -/
def Obligations.InvalidCombinationRefused : Prop :=
  (∀ p : Params, p.validCombination = true ↔
    (p.hasS, p.hasU, p.hasH, p.hasSmsdedbg, p.hasSmvsdedbg, p.hasSmudedbg) ∈
      [(false, false, false, false, false, false),
       (false, true, false, false, false, false), (false, true, false, false, false, true),
       (true, true, false, false, false, false), (true, true, false, true, false, false),
       (true, true, false, true, false, true),
       (true, true, true, false, false, false), (true, true, true, true, false, false),
       (true, true, true, true, true, false), (true, true, true, true, true, true)]) ∧
    ∀ s : State, s.p.validCombination = false → step s = .refused .invalidConfiguration

/-! ### Reset -/

/-- `sdcsr.DMPRV` resets to 0, and out of reset the effective privilege of a load or store in Debug Mode is the debug
access privilege itself (70 R271). -/
def Obligations.ResetClearsDmprv : Prop :=
  ∀ (p : Params) (mdbgen mtrcen : Bool),
    (State.resetWith p mdbgen mtrcen).dbg.dmprv = false ∧
      (State.resetWith p mdbgen mtrcen).memPriv =
        match (State.resetWith p mdbgen mtrcen).dap with
        | .m => some (3, false)
        | .hs => some (1, false)
        | .vs => some (1, true)
        | .u => some (0, (State.resetWith p mdbgen mtrcen).dbg.v)
        | .none => none

/-- The hart leaves reset in M-mode with no halt request and no step pending (10 R39). The model's own choices: it is not in
Debug Mode (log 6, DEDUCED), no reset-halt or group request (log 30), no non-maskable interrupt (log 25) and no external
trigger input (log 15) is pending, the trace interface shows nothing (log 16). The invariants of the model hold there. -/
def Obligations.ResetMeetsInvariants : Prop :=
  State.reset.cur = .m ∧ State.reset.haltPending = false ∧ State.reset.stepArmed = false ∧
    State.reset.inDebug = false ∧ State.reset.resetHaltPending = false ∧ State.reset.groupHaltPending = false ∧
    State.reset.nmiPending = false ∧ State.reset.csr.mip = 0 ∧ State.reset.trig.extIn = 0 ∧ State.reset.hti = none ∧
    Memory.wf State.reset.mem = true ∧ State.reset.modesLegal ∧ State.reset.debugLegal ∧ State.reset.dmprvForced ∧
    State.reset.pcsAligned ∧ State.reset.regsWithinXlen ∧ State.reset.bufferHalted ∧ State.reset.p.valid = true

/-! ### The ladder of controls -/

/-- Which modes M-, S/HS-, VS- and the U-level control allow, and that none of them allows no mode (40 R93 to R96). -/
def Obligations.DebugAllowedLadder : Prop :=
  ∀ (f : Bool) (c : Cfg),
    dbgAllowed f c .m = c.mdbgen ∧ (c.mdbgen = true → ∀ mode : Mode, dbgAllowed f c mode = true) ∧
      dbgAllowed f c .hs = (c.mdbgen || c.sde) ∧
      (c.sde = true → dbgAllowed f c .vs = true ∧ dbgAllowed f c .vu = true ∧ dbgAllowed f c .u = true) ∧
      dbgAllowed f c .vs = (c.mdbgen || c.sde || c.vse) ∧
      dbgAllowed f c .vu = (c.mdbgen || c.sde || c.vse || c.usd) ∧
      (c.usd = true → dbgAllowed f c .u = true) ∧
      (c.mdbgen = false → c.sde = false → c.vse = false → c.usd = false → ∀ mode : Mode, dbgAllowed f c mode = false)

/-- The debug access privilege and the modes the debugger may resume to follow the two tables of 40 R98 and R100, row by
row: a supported mode is a legal resume target exactly where its level is at or below the row's. -/
def Obligations.ResumePrivilegeTable : Prop :=
  ∀ (p : Params) (c : Cfg) (prv : BitVec 2) (v : Bool) (mode : Mode),
    Mode.ofPair prv v = some mode → supportedMode p mode = true →
      (c.mdbgen = true → dap c = .m ∧ legalPair p c prv v = true) ∧
      (c.mdbgen = false → c.sde = true → dap c = .hs ∧ (legalPair p c prv v = true ↔ mode ≠ .m)) ∧
      (c.mdbgen = false → c.sde = false → c.vse = true →
        dap c = .vs ∧ (legalPair p c prv v = true ↔ mode ≠ .m ∧ mode ≠ .hs)) ∧
      (c.mdbgen = false → c.sde = false → c.vse = false → c.usd = true →
        dap c = .u ∧ (legalPair p c prv v = true ↔ mode = .u ∨ mode = .vu)) ∧
      (c.mdbgen = false → c.sde = false → c.vse = false → c.usd = false →
        dap c = .none ∧ legalPair p c prv v = false)

/-- The effective privilege of an explicit load or store in Debug Mode: the table of 20 R52, at VS level R54; at S/HS level
with DMPRV one of the source's two readings (90 C7), which the spec's decision D11 takes (parameter `dmprvSource`); at U
level the spec's decision D4. That it names a mode at or below the debug access privilege is derived in 95 section 2.9.
That with `mdbgen` = 0 it is the pair a load or a store uses is log 23 (DEDUCED; 91 N26). -/
def Obligations.EffectivePrivilegeWithinDap : Prop :=
  ∀ s : State,
    (s.dap = .m → s.memPriv = some (3, false)) ∧
      (s.dap = .hs → s.p.dmprvSource = .spp →
        s.memPriv = some (if s.dbg.dmprv then (prvOfSpp s.csr.spp, s.p.hasH && s.csr.spv) else (1, false))) ∧
      (s.dap = .vs → s.memPriv = some (if s.dbg.dmprv then prvOfSpp s.csr.vsspp else 1, true)) ∧
      (s.dap = .u → s.memPriv = some (0, s.dbg.v)) ∧ (s.memPriv = none ↔ s.dap = .none) ∧
      (∀ pair, s.memPriv = some pair → ∃ mode, Mode.ofPair pair.1 pair.2 = some mode ∧ mode.lvl.rank ≤ s.dap.rank) ∧
      (s.inDebug = true → s.mdbgen = false → s.dataPriv = s.memPriv)

/-- In a debug-disallowed mode `dcsr` has no effect and is not changed (40 R108): a step of the hart from the same state
with another `dcsr` gives the same state but for `dcsr`. -/
def Obligations.DcsrIgnoredWhereDisallowed : Prop :=
  ∀ (s t : State) (w : BitVec 32), s.hartTurn → s.inDebug = false → s.allowed = false → step s = .next t →
    (t.inDebug = false → t.dbg.dcsr = s.dbg.dcsr) ∧
      ∃ u, step (s.withDcsr w) = .next u ∧ u = t.withDcsr u.dbg.dcsr ∧ (t.inDebug = false → u.dbg.dcsr = w)

/-! ### CSR access -/

/-- CSRRW and CSRRWI where the access check passes (41 R121, R124): the old value of the register goes to `rd`, the source
value is written, nothing else changes. -/
def Obligations.CsrSwapCompletes : Prop :=
  ∀ (s : State) (rd : RegNum) (n : CsrNum) (x : BitVec 5) (c : Csr) (i : Instr) (v : Word),
    s.csrCheck n true = .ok c → (i, v) ∈ [(Instr.csrrw rd n x, s.x x), (.csrrwi rd n x, x.setWidth 64)] →
      ∃ t, exec i s = .next t ∧ t.x rd = (if rd = 0 then 0 else s.csrRead c) ∧ regsBut s t rd ∧ memSame s t ∧
        movedPast s t 4 ∧ onlyHome s (s.csrWrite c v) c ∧
        t = { s.csrWrite c v with regs := t.regs, pc := t.pc, dm := { s.dm with pbPc := t.dm.pbPc } }

/-- CSRRS, CSRRC, CSRRSI and CSRRCI where the access check passes (41 R122, R123, R125, R126): the old value goes to `rd`,
and unless the register number or immediate is 0 the bits of the source are set or cleared; nothing else changes. -/
def Obligations.CsrSetClearCompletes : Prop :=
  ∀ (s : State) (rd : RegNum) (n : CsrNum) (x : BitVec 5) (c : Csr) (i : Instr) (v : Word),
    s.csrCheck n (x != 0) = .ok c →
    (i, v) ∈ [(Instr.csrrs rd n x, s.csrRead c ||| s.x x), (.csrrc rd n x, s.csrRead c &&& ~~~(s.x x)),
      (.csrrsi rd n x, s.csrRead c ||| x.setWidth 64), (.csrrci rd n x, s.csrRead c &&& ~~~(x.setWidth 64))] →
      ∃ t u, exec i s = .next t ∧ u = (if x = 0 then s else s.csrWrite c v) ∧
        t.x rd = (if rd = 0 then 0 else s.csrRead c) ∧ regsBut s t rd ∧ memSame s t ∧ movedPast s t 4 ∧
        onlyHome s u c ∧ t = { u with regs := t.regs, pc := t.pc, dm := { s.dm with pbPc := t.dm.pbPc } }

/-- In Debug Mode a CSR instruction whose register is not implemented, requires a level above the debug access privilege,
or is not debug-accessible, fails without effect (41 R120, 40 R99; no register of the model is read-only). -/
def Obligations.CsrDeniedInDebugMode : Prop :=
  ∀ (s : State) (rd : RegNum) (n : CsrNum) (x : BitVec 5) (i : Instr),
    s.inDebug = true → i ∈ csrForms rd n x →
    (csrLookup s.p n = none ∨ ∃ c, csrLookup s.p n = some c ∧
      (s.dap.rank < (s.requiredLevel c).rank ∨ s.debugAccessible c = false)) →
      exec i s = .next s.debugFail

/-- `dcsr`, `dpc`, `dscratch0`, `dscratch1` in Debug Mode: with `mdbgen` = 0 every access fails, with `mdbgen` = 1 it
passes the check; the scratch registers have no other number, and an absent `dscratch1` always fails (41 R129, R130). -/
def Obligations.DebugRegistersNeedMdbgen : Prop :=
  ∀ (s : State) (rd : RegNum) (x : BitVec 5) (n : CsrNum) (c : Csr),
    s.p.valid = true → s.inDebug = true →
    (n, c) ∈ [((0x7b0 : CsrNum), Csr.dcsr), (0x7b1, .dpc), (0x7b2, .dscratch0), (0x7b3, .dscratch1)] →
      (s.mdbgen = false → (∀ i ∈ csrForms rd n x, exec i s = .next s.debugFail) ∧
        ∀ write, s.accessRegister (.csr n) write = s.debugFail) ∧
      (s.mdbgen = true → csrImplemented s.p c = true → ∀ writes, s.csrCheck n writes = .ok c) ∧
      (csrImplemented s.p c = false → (∀ i ∈ csrForms rd n x, exec i s = .next s.debugFail) ∧
        ∀ write, s.accessRegister (.csr n) write = s.debugFail) ∧
      ((c = .dscratch0 ∨ c = .dscratch1) → ∀ k, csrLookup s.p k = some c → k = n)

/-- The eight debug registers outside Debug Mode: every CSR instruction on them is an illegal-instruction exception, in
every mode (41 R144; that it does so is the spec's own decision D8). -/
def Obligations.DebugRegistersIllegalOutside : Prop :=
  ∀ (s : State) (rd : RegNum) (n : CsrNum) (x : BitVec 5) (c : Csr) (i : Instr),
    s.inDebug = false → csrNamed s.p n = some c → c.debugOnly = true → i ∈ csrForms rd n x →
      exec i s = .next (s.trapTo (s.exceptionDest 2) false 2
        (if s.p.illegalTvalBits then (encodeWord i).setWidth 64 else 0))

/-- What `sdcsr` reads as: the S/HS view and the VS view (41 R132, R134). -/
def Obligations.SdcsrReadViews : Prop :=
  ∀ s : State,
    (s.dap ≠ .vs →
      s.csrRead .sdcsr = ((s.dbg.dcsr &&& 0xF70339E5#32) |||
        ((BitVec.ofBool (!s.mdbgen && s.dbg.dmprv)).setWidth 32 <<< 4)).setWidth 64) ∧
    (s.dap = .vs →
      s.csrRead .sdcsr = ((s.dbg.dcsr &&& 0xF70009E5#32) ||| ((BitVec.ofBool s.dbg.ebreakvu).setWidth 32 <<< 12) |||
        ((BitVec.ofBool s.dbg.ebreakvs).setWidth 32 <<< 13) |||
        ((BitVec.ofBool s.dbg.dmprv).setWidth 32 <<< 4)).setWidth 64)

/-- A write of `sdcsr` through the S/HS view (41 R133), field by field. DMPRV takes the value where the implementation
lets it be written (parameter `dmprvWritable`, log 37). -/
def Obligations.SdcsrWriteSupervisorView : Prop :=
  ∀ (s t : State) (w : Word), s.dap ≠ .vs → t = s.csrWrite .sdcsr w →
    t.dbg.step = w.getLsbD 2 ∧ t.dbg.stepie = w.getLsbD 11 ∧ t.dbg.ebreaku = w.getLsbD 12 ∧
      t.dbg.ebreaks = w.getLsbD 13 ∧
      (s.p.hasH = true → t.dbg.ebreakvu = w.getLsbD 16 ∧ t.dbg.ebreakvs = w.getLsbD 17) ∧
      (s.p.hasH = false → t.dbg.ebreakvu = s.dbg.ebreakvu ∧ t.dbg.ebreakvs = s.dbg.ebreakvs) ∧
      (t.dbg.prv, t.dbg.v) =
        (if legalPair s.p s.cfg ((w.extractLsb' 0 1).setWidth 2) (w.getLsbD 5) then
          ((w.extractLsb' 0 1).setWidth 2, w.getLsbD 5)
        else legalizePrvV s.p s.cfg (s.dbg.prv, s.dbg.v) ((w.extractLsb' 0 1).setWidth 2, w.getLsbD 5)) ∧
      (s.p.dmprvWritable = true → t.dbg.dmprv = if s.mdbgen then s.dbg.dmprv else w.getLsbD 4) ∧
      (∀ j, j ∉ [0, 1, 2, 5, 11, 12, 13, 16, 17] → t.dbg.dcsr.getLsbD j = s.dbg.dcsr.getLsbD j) ∧
      onlyHome s t .sdcsr

/-- A write of `sdcsr` through the VS view (41 R135), field by field. -/
def Obligations.SdcsrWriteVirtualView : Prop :=
  ∀ (s t : State) (w : Word), s.dap = .vs → t = s.csrWrite .sdcsr w →
    t.dbg.step = w.getLsbD 2 ∧ t.dbg.stepie = w.getLsbD 11 ∧ t.dbg.ebreakvu = w.getLsbD 12 ∧
      t.dbg.ebreakvs = w.getLsbD 13 ∧ t.dbg.ebreaku = s.dbg.ebreaku ∧ t.dbg.ebreaks = s.dbg.ebreaks ∧
      (t.dbg.prv, t.dbg.v) =
        (if legalPair s.p s.cfg ((w.extractLsb' 0 1).setWidth 2) (w.getLsbD 5) then
          ((w.extractLsb' 0 1).setWidth 2, w.getLsbD 5)
        else legalizePrvV s.p s.cfg (s.dbg.prv, s.dbg.v) ((w.extractLsb' 0 1).setWidth 2, w.getLsbD 5)) ∧
      (s.p.dmprvWritable = true → t.dbg.dmprv = w.getLsbD 4) ∧
      (∀ j, j ∉ [0, 1, 2, 5, 11, 16, 17] → t.dbg.dcsr.getLsbD j = s.dbg.dcsr.getLsbD j) ∧ onlyHome s t .sdcsr

/-- What `udcsr` reads as and what a write of it changes: bit 12 shows and sets EBREAKVU where the V of before the write is
1, else EBREAKU; PRV is not written (41 R138, R139; the V meant is the spec's decision D10). -/
def Obligations.UdcsrReadAndWrite : Prop :=
  ∀ (s t : State) (w : Word), t = s.csrWrite .udcsr w →
    s.csrRead .udcsr = ((s.dbg.dcsr &&& 0xF70009E4#32) |||
        ((BitVec.ofBool (if s.dbg.v then s.dbg.ebreakvu else s.dbg.ebreaku)).setWidth 32 <<< 12)).setWidth 64 ∧
      t.dbg.step = w.getLsbD 2 ∧ t.dbg.stepie = w.getLsbD 11 ∧
      t.dbg.ebreakvu = (if s.dbg.v then w.getLsbD 12 else s.dbg.ebreakvu) ∧
      t.dbg.ebreaku = (if s.dbg.v then s.dbg.ebreaku else w.getLsbD 12) ∧
      (t.dbg.prv, t.dbg.v) =
        (if legalPair s.p s.cfg s.dbg.prv (w.getLsbD 5) then (s.dbg.prv, w.getLsbD 5)
        else legalizePrvV s.p s.cfg (s.dbg.prv, s.dbg.v) (s.dbg.prv, w.getLsbD 5)) ∧
      (∀ j, j ∉ [0, 1, 2, 5, 11, 12, 16] → t.dbg.dcsr.getLsbD j = s.dbg.dcsr.getLsbD j) ∧ onlyHome s t .udcsr

/-- `sdpc` and `udpc` are `dpc`, read and written, each accessible exactly where `sdcsr`, `udcsr` is (41 R136, R140): in
Debug Mode `sdcsr` where Smsdedbg is implemented and the debug access privilege is at least VS (R131), `udcsr` where
Smudedbg is implemented and there is a debug access privilege (R137; who else reaches it is the spec's decision D7). -/
def Obligations.DpcViews : Prop :=
  ∀ (s : State) (v : Word) (writes : Bool),
    s.csrRead .sdpc = s.p.toXlen s.dbg.dpc ∧ s.csrRead .udpc = s.p.toXlen s.dbg.dpc ∧
      s.csrWrite .sdpc v = s.csrWrite .dpc v ∧ s.csrWrite .udpc v = s.csrWrite .dpc v ∧
      (s.p.valid = true →
        (s.csrCheck s.p.sdpcAddr writes = .ok .sdpc ↔ s.csrCheck s.p.sdcsrAddr writes = .ok .sdcsr) ∧
        (s.csrCheck s.p.udpcAddr writes = .ok .udpc ↔ s.csrCheck s.p.udcsrAddr writes = .ok .udcsr) ∧
        (s.inDebug = true →
          (s.csrCheck s.p.sdcsrAddr writes = .ok .sdcsr ↔
            s.p.hasSmsdedbg = true ∧ (s.dap = .vs ∨ s.dap = .hs ∨ s.dap = .m)) ∧
          (s.csrCheck s.p.udcsrAddr writes = .ok .udcsr ↔ s.p.hasSmudedbg = true ∧ s.dap ≠ .none)))

/-- `msdcfg`, on every hart: from Debug Mode without `mdbgen` every access fails and with it the check passes; in M-mode
CSRRW writes exactly the implemented fields; below M-mode it is illegal; an unimplemented field reads 0 (41 R141, derived
there from 40 R99; 30 R75). -/
def Obligations.MsdcfgAccess : Prop :=
  ∀ (s : State) (rd : RegNum) (x : BitVec 5), s.p.valid = true →
    (s.inDebug = true → s.mdbgen = false → ∀ i ∈ csrForms rd s.p.msdcfgAddr x, exec i s = .next s.debugFail) ∧
    (s.inDebug = true → s.mdbgen = true → ∀ writes, s.csrCheck s.p.msdcfgAddr writes = .ok .msdcfg) ∧
    (s.inDebug = false → s.cur ≠ .m → ∀ i ∈ csrForms rd s.p.msdcfgAddr x,
      exec i s = .next (s.takeException (.illegal (encodeWord i)))) ∧
    (s.inDebug = false → s.cur = .m →
      ∃ t, exec (.csrrw rd s.p.msdcfgAddr x) s = .next t ∧
        ∀ j, t.msdcfg.getLsbD j = if (msdcfgMask s.p).getLsbD j then (s.x x).getLsbD j else s.msdcfg.getLsbD j) ∧
    ∀ j, (msdcfgFieldMask s.p).getLsbD j = true → (msdcfgMask s.p).getLsbD j = false →
      (s.csrRead .msdcfg).getLsbD j = false

/-! ### The trigger registers -/

/-- A write of `tdata1` changes DMODE of the selected trigger in M-mode only while `mdbgen` is 0 and in Debug Mode always,
and in no other mode (44 R222). A debugger at S/HS level reaches the data registers of exactly the delegated triggers, and
selects no other (44 R229, 41 R142). The model's: that below M-mode every CSR instruction on a trigger register is an illegal
instruction, a delegated trigger or not (log 27, DESIGN CHOICE), that a debugger below M level may write DMODE of a trigger
it reaches (log 32, DEDUCED), that DMODE is bit XLEN-5 (log 13, PRESUMED), the numbers of the registers (log 1, PRESUMED),
the delegated bit and the rules of `tselect` (log 33, DESIGN CHOICE). -/
def Obligations.TriggerRegisterRights : Prop :=
  ∀ (s : State) (v : Word),
    (∀ a, s.selected = some a →
      (∃ b, (s.csrWrite .tdata1 v).selected = some b ∧
        b.dmode s.p =
          if s.inDebug || !s.mdbgen then (s.p.toXlen v).getLsbD (s.p.xlen - 5) else a.dmode s.p) ∧
      (s.p.valid = true → s.p.hasSdtrig = true → s.inDebug = true → s.dap = .hs → ∀ writes,
        (s.csrCheck 0x7a1 writes = .ok .tdata1 ↔ a.delegated = true) ∧
        (s.csrCheck 0x7a2 writes = .ok .tdata2 ↔ a.delegated = true))) ∧
    (s.p.valid = true → s.inDebug = false → s.cur ≠ .m → ∀ n ∈ [(0x7a0 : CsrNum), 0x7a1, 0x7a2], ∀ (rd : RegNum) (x : BitVec 5),
      ∀ i ∈ csrForms rd n x, exec i s = .next (s.takeException (.illegal (encodeWord i)))) ∧
    (s.p.valid = true → s.p.hasSdtrig = true → s.inDebug = true → s.dap = .hs →
      (∀ writes, s.csrCheck 0x7a0 writes = .ok .tselect ↔ ∃ a ∈ s.trig.triggers, a.delegated = true) ∧
      ∀ (k : Nat) (a : Trigger), k = (s.p.toXlen v).toNat → s.trig.triggers[k]? = some a →
        (s.csrWrite .tselect v).trig.tselect = if a.delegated then s.p.toXlen v else s.trig.tselect)

/-- A step of the hart that starts in a debug-disallowed mode acknowledges no external trigger input, asserts no external
trigger output and sets no hit bit of a trigger that is gated: an external one or one with ACTION 1, 8 or 9
(44 R220, R223, R224). Where debug is allowed and no request goes first, a firing external trigger with ACTION 1 enters
Debug Mode; there, and while the hart stays halted, the asserted inputs of every external trigger are acknowledged and the
trigger fires, whatever its ACTION (R224; that firing sets the hit bit and how inputs are stored: log 13, log 15). -/
def Obligations.GatedTriggersInert : Prop :=
  ∀ s t : State, s.hartTurn → step s = .next t →
    (s.inDebug = false → s.allowed = false →
      t.trig.extIn = s.trig.extIn ∧ t.trig.extOut = 0 ∧
        ∀ (k : Nat) (a b : Trigger), s.trig.triggers[k]? = some a → t.trig.triggers[k]? = some b →
          (a.isExt s.p = true ∨ isDebugAction (a.action s.p) = true) → b.hit = a.hit) ∧
    (s.p.hasSdtrig = true →
      (s.inDebug = true ∧ s.dm.pbRun = false ∨
        s.inDebug = false ∧ s.allowed = true ∧ s.haltRequestCause = none ∧
          ∃ e ∈ s.trig.triggers, extHalt s.p e = true ∧ e.select &&& s.trig.extIn ≠ 0) →
      t.inDebug = true ∧
        ∀ (k : Nat) (a : Trigger), s.trig.triggers[k]? = some a → a.isExt s.p = true →
          a.select &&& s.trig.extIn ≠ 0 →
            a.select &&& t.trig.extIn = 0 ∧ t.trig.triggers[k]? = some { a with hit := true } ∧
              (a.action s.p = 8 → t.trig.extOut.getLsbD 0 = true) ∧ (a.action s.p = 9 → t.trig.extOut.getLsbD 1 = true))

/-! ### Trace -/

/-- Trace in M-mode, in the supervisor domain, and with every control 0 (43 R211, R212, R213). -/
def Obligations.TraceAllowedLadder : Prop :=
  ∀ (f : Bool) (c : TraceCfg),
    traceAllowed f c .m = c.mtrcen ∧ (c.mtrcen = true → ∀ mode, traceAllowed f c mode = true) ∧
      ((c.mtrcen || c.sdt) = true → ∀ mode ∈ [Mode.hs, .vs, .vu, .u], traceAllowed f c mode = true) ∧
      (c.mtrcen = false → c.sdt = false → c.vst = false → c.ust = false → ∀ mode, traceAllowed f c mode = false)

/-- After a step of the hart the trace interface shows something only where the step began in a mode in which trace is
allowed (43 R210, R215). That it shows the pc of the instruction that retired, and nothing of Debug Mode (43 R217: not in
the source), is the model's choice (log 16, DESIGN CHOICE). -/
def Obligations.TraceShownOnlyWhereAllowed : Prop :=
  ∀ (s t : State) (a : Word), s.hartTurn → step s = .next t → t.hti = some a →
    s.inDebug = false ∧ s.p.hasTrace = true ∧ traceAllowed s.p.uFollowsVs s.tcfg s.cur = true ∧ a = s.pc

/-! ### EBREAK, traps and returns -/

/-- EBREAK's three arms (42 R161), the second with the effects of the entry (60 R236, R238). The model's: every bit of `dcsr`
but PRV, V and CAUSE is kept, EXTCAUSE too (log 29, DESIGN CHOICE), and `pc` and `cur` are kept in Debug Mode (log 39,
DESIGN CHOICE). -/
def Obligations.EbreakOutcome : Prop :=
  ∀ s : State,
    (s.inDebug = true → exec .ebreak s = .next { s with dm := { s.dm with pbRun := false } }) ∧
    (s.inDebug = false → s.allowed = true → ebreakBit s.dbg s.cur = true →
      ∃ t, exec .ebreak s = .next t ∧ t.inDebug = true ∧ t.dbg.dpc = pcMask s.p s.pc ∧
        (s.pcsAligned → t.dbg.dpc = s.pc) ∧ t.dbg.prv = s.cur.prv ∧ t.dbg.v = s.cur.virt ∧ t.dbg.cause = 1 ∧
        (∀ j, j ∉ [0, 1, 5, 6, 7, 8] → t.dbg.dcsr.getLsbD j = s.dbg.dcsr.getLsbD j) ∧
        t.stepArmed = false ∧ t.haltPending = s.haltPending ∧ t.csr = s.csr ∧ t.regs = s.regs ∧ t.mem = s.mem ∧
        t.pc = s.pc ∧ t.cur = s.cur) ∧
    (s.inDebug = false → (s.allowed && ebreakBit s.dbg s.cur) = false →
      exec .ebreak s = .next (s.trapTo (s.exceptionDest 3) false 3 (if s.p.breakpointTvalPc then s.pc else 0)))

/-- C.EBREAK is EBREAK at the address of the 16-bit instruction: it enters Debug Mode in a debug-allowed mode whose EBREAK
bit is set, and traps in every other case (42 R162, derived there from R161). -/
def Obligations.CebreakOutcome : Prop :=
  ∀ s : State, s.p.hasC = true →
    ∃ t, exec .cebreak s = .next t ∧ exec .ebreak s = .next t ∧
      (s.inDebug = false → s.allowed = true → ebreakBit s.dbg s.cur = true →
        t.inDebug = true ∧ t.dbg.dpc = pcMask s.p s.pc ∧ t.dbg.cause = 1 ∧ t.csr = s.csr ∧ t.regs = s.regs ∧
        t.mem = s.mem) ∧
      (s.inDebug = false → (s.allowed && ebreakBit s.dbg s.cur) = false →
        t = s.trapTo (s.exceptionDest 3) false 3 (if s.p.breakpointTvalPc then s.pc else 0))

/-- What a trap to each mode saves and where it goes: the pc, cause and value, the mode and the interrupt enable; the enable
clears; every other bit of the status and every other register is unchanged (60 R249). The model's: the positions of the
fields and that SPVP is written only where V was 1 (log 1, PRESUMED), the handler's address (log 40, PRESUMED), and that the
trace interface shows nothing (log 16, DESIGN CHOICE). -/
def Obligations.TrapEntrySaves : Prop :=
  ∀ (s : State) (intr : Bool) (code : Nat) (tval : Word),
    (∃ t, s.trapTo .m intr code tval = t ∧ onlyTrap s t ∧ t.cur = .m ∧ t.pc = handlerAddr s.p s.csr.mtvec intr code ∧
      t.csr.mepc = pcMask s.p s.pc ∧ t.csr.mcause = causeValue s.p intr code ∧ t.csr.mtval = s.p.toXlen tval ∧
      t.csr.mpp = s.cur.prv ∧ t.csr.mpv = s.cur.virt ∧ t.csr.mpie = s.csr.mie_ ∧ t.csr.mie_ = false ∧
      (∀ j, j ∉ [3, 7, 11, 12, 39] → t.csr.mstatus.getLsbD j = s.csr.mstatus.getLsbD j) ∧
      t.csr = { s.csr with
        mepc := t.csr.mepc, mcause := t.csr.mcause, mtval := t.csr.mtval, mstatus := t.csr.mstatus }) ∧
    (∃ t, s.trapTo .hs intr code tval = t ∧ onlyTrap s t ∧ t.cur = .hs ∧ t.pc = handlerAddr s.p s.csr.stvec intr code ∧
      t.csr.sepc = pcMask s.p s.pc ∧ t.csr.scause = causeValue s.p intr code ∧ t.csr.stval = s.p.toXlen tval ∧
      t.csr.spp = s.cur.sppBit ∧ t.csr.spv = s.cur.virt ∧ t.csr.spie = s.csr.sie ∧ t.csr.sie = false ∧
      t.csr.spvp = (if s.cur.virt then s.cur.sppBit else s.csr.spvp) ∧
      (∀ j, j ∉ [7, 8] → t.csr.hstatus.getLsbD j = s.csr.hstatus.getLsbD j) ∧
      (∀ j, j ∉ [1, 5, 8] → t.csr.mstatus.getLsbD j = s.csr.mstatus.getLsbD j) ∧
      t.csr = { s.csr with
        sepc := t.csr.sepc, scause := t.csr.scause, stval := t.csr.stval, mstatus := t.csr.mstatus,
        hstatus := t.csr.hstatus }) ∧
    (∃ t, s.trapTo .vs intr code tval = t ∧ onlyTrap s t ∧ t.cur = .vs ∧ t.pc = handlerAddr s.p s.csr.vstvec intr code ∧
      t.csr.vsepc = pcMask s.p s.pc ∧ t.csr.vscause = causeValue s.p intr code ∧ t.csr.vstval = s.p.toXlen tval ∧
      t.csr.vsspp = s.cur.sppBit ∧ t.csr.vsspie = s.csr.vssie ∧ t.csr.vssie = false ∧
      (∀ j, j ∉ [1, 5, 8] → t.csr.vsstatus.getLsbD j = s.csr.vsstatus.getLsbD j) ∧
      t.csr = { s.csr with
        vsepc := t.csr.vsepc, vscause := t.csr.vscause, vstval := t.csr.vstval, vsstatus := t.csr.vsstatus })

/-- ECALL outside Debug Mode takes the environment call of the current mode: code 8 from U, 9 from HS, 10 from VS, 11
from M, with value 0 (42 R164, 60 R256), in M-mode unless delegated and never in a mode below the current one (60 R250).
The family's: code 8 from VU (log 1, PRESUMED), which R256 does not list. -/
def Obligations.EcallTraps : Prop :=
  ∀ (s : State) (code : Nat), s.inDebug = false →
    (s.cur, code) ∈ [(Mode.u, 8), (.vu, 8), (.hs, 9), (.vs, 10), (.m, 11)] →
      exec .ecall s = .next (s.trapTo (s.exceptionDest code) false code 0) ∧
        s.cur.lvl.rank ≤ (s.exceptionDest code).lvl.rank ∧
        (s.csr.medeleg.getLsbD code = false → s.exceptionDest code = .m)

/-- MRET in M-mode: the mode in MPP and MPV, the pc in `mepc`; MIE takes MPIE, MPIE sets, MPP takes the lowest mode; nothing
else changes but MPV and MPRV (42 R165, 60 R249). The family's: MPV clears, and MPRV clears on a return below M (log 40,
PRESUMED); the positions of the fields (log 1). -/
def Obligations.MretReturns : Prop :=
  ∀ s : State, s.inDebug = false → s.cur = .m →
    ∃ t, exec .mret s = .next t ∧ onlyReturn s t ∧ t.cur = Mode.ofSaved s.csr.mpp s.csr.mpv ∧
      t.pc = pcMask s.p s.csr.mepc ∧ t.csr = { s.csr with mstatus := t.csr.mstatus } ∧
      t.csr.mie_ = s.csr.mpie ∧ t.csr.mpie = true ∧ t.csr.mpp = lowestPrv s.p ∧ t.csr.mpv = false ∧
      t.csr.mprv = (s.csr.mprv && decide (t.cur = .m)) ∧
      ∀ j, j ∉ [3, 7, 11, 12, 17, 39] → t.csr.mstatus.getLsbD j = s.csr.mstatus.getLsbD j

/-- SRET in M- and HS-mode returns by `sstatus`, `hstatus.SPV` and `sepc`, in VS-mode by `vsstatus` and `vsepc`
(42 R166, 60 R249). The family's: that TSR and VTSR must be clear, that SPV clears, that MPRV clears on the return from M
or HS and is kept on the return from VS (log 40, PRESUMED); the positions of the fields (log 1). -/
def Obligations.SretReturns : Prop :=
  ∀ s : State, s.p.hasS = true → s.inDebug = false →
    ((s.cur = .m ∨ s.cur = .hs ∧ s.csr.tsr = false) →
      ∃ t, exec .sret s = .next t ∧ onlyReturn s t ∧
        t.cur = Mode.ofSaved (prvOfSpp s.csr.spp) (s.p.hasH && s.csr.spv) ∧ t.pc = pcMask s.p s.csr.sepc ∧
        t.csr = { s.csr with mstatus := t.csr.mstatus, hstatus := t.csr.hstatus } ∧
        t.csr.sie = s.csr.spie ∧ t.csr.spie = true ∧ t.csr.spp = false ∧ t.csr.spv = false ∧ t.csr.mprv = false ∧
        (∀ j, j ∉ [1, 5, 8, 17] → t.csr.mstatus.getLsbD j = s.csr.mstatus.getLsbD j) ∧
        ∀ j, j ≠ 7 → t.csr.hstatus.getLsbD j = s.csr.hstatus.getLsbD j) ∧
    (s.cur = .vs → s.csr.vtsr = false →
      ∃ t, exec .sret s = .next t ∧ onlyReturn s t ∧ t.cur = Mode.ofSaved (prvOfSpp s.csr.vsspp) true ∧
        t.pc = pcMask s.p s.csr.vsepc ∧ t.csr = { s.csr with vsstatus := t.csr.vsstatus } ∧
        t.csr.vssie = s.csr.vsspie ∧ t.csr.vsspie = true ∧ t.csr.vsspp = false ∧
        ∀ j, j ∉ [1, 5, 8] → t.csr.vsstatus.getLsbD j = s.csr.vsstatus.getLsbD j)

/-- MNRET in M-mode returns by MNPP, MNPV and `mnepc` and sets NMIE (42 R167; the fields are the family's, log 26). -/
def Obligations.MnretReturns : Prop :=
  ∀ s : State, s.p.hasRnmi = true → s.inDebug = false → s.cur = .m →
    ∃ t, exec .mnret s = .next t ∧ onlyReturn s t ∧ t.cur = Mode.ofSaved s.csr.mnpp s.csr.mnpv ∧
      t.pc = pcMask s.p s.csr.mnepc ∧ t.csr = { s.csr with mnstatus := t.csr.mnstatus, mstatus := t.csr.mstatus } ∧
      t.csr.nmie = true ∧ (∀ j, j ≠ 3 → t.csr.mnstatus.getLsbD j = s.csr.mnstatus.getLsbD j) ∧
      t.csr.mprv = (s.csr.mprv && decide (t.cur = .m)) ∧
      ∀ j, j ≠ 17 → t.csr.mstatus.getLsbD j = s.csr.mstatus.getLsbD j

/-- A return below the mode it needs is an illegal instruction (60 R256). The family's (log 40, PRESUMED): SRET in HS-mode
with TSR set is an illegal instruction, and SRET in VS-mode with VTSR set and in VU-mode a virtual-instruction exception. -/
def Obligations.ReturnsBelowTheirMode : Prop :=
  ∀ s : State, s.inDebug = false →
    (s.cur ≠ .m → exec .mret s = .next (s.takeException (.illegal 0x30200073))) ∧
    (s.cur ≠ .m → exec .mnret s = .next (s.takeException (.illegal 0x70200073))) ∧
    (s.cur = .u → exec .sret s = .next (s.takeException (.illegal 0x10200073))) ∧
    (s.p.hasS = true → s.cur = .hs → s.csr.tsr = true →
      exec .sret s = .next (s.takeException (.illegal 0x10200073))) ∧
    (s.p.hasS = true → (s.cur = .vu ∨ s.cur = .vs ∧ s.csr.vtsr = true) →
      exec .sret s = .next (s.takeException (.virtualInstruction 0x10200073)))

/-- ECALL, MRET, SRET, MNRET in the Program Buffer: a NOP or a quiet failure, by the implementation's choice; nothing but
the Program Buffer's place, or what `debugFail` changes, differs (42 R163; which instructions: the spec's decision D6). -/
def Obligations.PrivilegeChangeInProgramBuffer : Prop :=
  ∀ (s : State) (i : Instr), i ∈ privilegeChangers → i.wellFormed s.p = true → s.inDebug = true →
    (s.p.privChange = .nop →
      exec i s = .next { s with dm := { s.dm with pbPc := s.dm.pbPc + 4 } }) ∧
    (s.p.privChange = .exception → exec i s = .next s.debugFail)

/-- `debug_fail()` (60 R240): the Program Buffer stops, CMDERR becomes 3 if it was 0, nothing else but the Quick Access in
progress changes. -/
def Obligations.DebugFailEffect : Prop :=
  ∀ s : State,
    s.debugFail = { s with dm := { s.dm with cmderr := s.debugFail.dm.cmderr, pbRun := false, quick := false } } ∧
      s.debugFail.dm.cmderr = (if s.dm.cmderr = 0 then 3 else s.dm.cmderr)

/-! ### Loads and stores -/

/-- A load whose access is permitted (42 R168 to R175): the value of the bytes, extended, goes to `rd`; no other register and
no byte of memory changes. The bytes are little-endian unless the endianness control of the pair the access is made with
says otherwise (20 R60; the controls and their places are the family's, log 35). -/
def Obligations.LoadsComplete : Prop :=
  ∀ (s : State) (rd rs1 : RegNum) (imm : Imm12) (i : Instr) (n : Nat) (signed : Bool) (pair : BitVec 2 × Bool)
    (ks : List Nat),
    (i, n, signed) ∈ loadForms rd rs1 imm → i.wellFormed s.p = true → s.dataPriv = some pair →
    s.accessAddrs .load pair.1 pair.2 (s.offsetAddr rs1 imm) n = .ok ks →
      ∃ t, exec i s = .next t ∧ ks.length = n ∧
        t.x rd = (if rd = 0 then 0 else s.p.toXlen (extendBytes n signed
          (joinBytes (s.inOrder pair.1 pair.2 (ks.map s.mem.read))))) ∧
        regsBut s t rd ∧ memSame s t ∧ onlyRegsPc s t ∧ movedPast s t 4 ∧
        ∀ big bytes,
          (pair, big) ∈ [(((3, false) : BitVec 2 × Bool), s.csr.mstatus.getLsbD 37),
            ((1, false), s.csr.mstatus.getLsbD 36), ((0, false), s.csr.mstatus.getLsbD 6),
            ((1, true), s.csr.hstatus.getLsbD 5), ((0, true), s.csr.vsstatus.getLsbD 6)] →
          s.inOrder pair.1 pair.2 bytes = if s.p.hasEndianControls && big then bytes.reverse else bytes

/-- A store whose access is permitted (42 R176 to R180): the low bytes of `rs2`, the least significant first or, where the
pair's accesses are big-endian, last (20 R60; `State.inOrder`, which `Obligations.LoadsComplete` says whole), go to the
addresses of the access, and every other byte and every register is unchanged. -/
def Obligations.StoresComplete : Prop :=
  ∀ (s : State) (rs2 rs1 : RegNum) (imm : Imm12) (i : Instr) (n : Nat) (pair : BitVec 2 × Bool) (ks : List Nat),
    (i, n) ∈ storeForms rs2 rs1 imm → i.wellFormed s.p = true → s.dataPriv = some pair →
    s.accessAddrs .store pair.1 pair.2 (s.offsetAddr rs1 imm) n = .ok ks →
      ∃ t, exec i s = .next t ∧ ks.length = n ∧ onlyMemPc s t ∧ movedPast s t 4 ∧
        (ks.Nodup → ks.map t.mem.read = s.inOrder pair.1 pair.2 (splitBytes n (s.x rs2))) ∧
        ∀ a, a ∉ ks → t.mem.read a = s.mem.read a

/-- A hypervisor load that is permitted (42 R181 to R190): made from `rs1` with privilege hstatus.SPVP and V = 1; HLVX asks
for execute permission. -/
def Obligations.HypervisorLoadsComplete : Prop :=
  ∀ (s : State) (rd rs1 : RegNum) (i : Instr) (acc : Access) (n : Nat) (signed : Bool) (ks : List Nat),
    (i, acc, n, signed) ∈ hlvForms rd rs1 → i.wellFormed s.p = true → s.hlvPermitted = true →
    s.accessAddrs acc (if s.csr.spvp then 1 else 0) true (s.plainAddr rs1) n = .ok ks →
      ∃ t, exec i s = .next t ∧ ks.length = n ∧
        t.x rd = (if rd = 0 then 0 else s.p.toXlen (extendBytes n signed
          (joinBytes (s.inOrder (if s.csr.spvp then 1 else 0) true (ks.map s.mem.read))))) ∧
        regsBut s t rd ∧ memSame s t ∧ onlyRegsPc s t ∧ movedPast s t 4

/-- A hypervisor store that is permitted (42 R181, R191 to R194). -/
def Obligations.HypervisorStoresComplete : Prop :=
  ∀ (s : State) (rs2 rs1 : RegNum) (i : Instr) (n : Nat) (ks : List Nat),
    (i, n) ∈ hsvForms rs2 rs1 → i.wellFormed s.p = true → s.hlvPermitted = true →
    s.accessAddrs .store (if s.csr.spvp then 1 else 0) true (s.plainAddr rs1) n = .ok ks →
      ∃ t, exec i s = .next t ∧ ks.length = n ∧ onlyMemPc s t ∧ movedPast s t 4 ∧
        (ks.Nodup → ks.map t.mem.read = s.inOrder (if s.csr.spvp then 1 else 0) true (splitBytes n (s.x rs2))) ∧
        ∀ a, a ∉ ks → t.mem.read a = s.mem.read a

/-- An access that faults: in Debug Mode a quiet failure, so that no register and no byte is written; outside it the
exception, with the faulting address as its value (20 R58, 60 R256; codes the family's, log 1). -/
def Obligations.MemoryFaultOutcome : Prop :=
  ∀ (s : State) (r rs1 : RegNum) (imm : Imm12) (i : Instr) (n : Nat) (f : MemFault),
    i.wellFormed s.p = true →
    (∀ (signed : Bool) (pair : BitVec 2 × Bool) (code : Nat),
      (f.kind, code) ∈ [(MemFaultKind.misaligned, 4), (.access, 5), (.page, 13), (.guestPage, 21)] →
      ((i, n, signed) ∈ loadForms r rs1 imm ∧ s.dataPriv = some pair ∧
          s.accessAddrs .load pair.1 pair.2 (s.offsetAddr rs1 imm) n = .error f ∨
        ∃ acc, (i, acc, n, signed) ∈ hlvForms r rs1 ∧ s.hlvPermitted = true ∧
          s.accessAddrs acc (if s.csr.spvp then 1 else 0) true (s.plainAddr rs1) n = .error f) →
        exec i s = .next (if s.inDebug then s.debugFail else s.trapTo (s.exceptionDest code) false code f.addr)) ∧
    (∀ (pair : BitVec 2 × Bool) (code : Nat),
      (f.kind, code) ∈ [(MemFaultKind.misaligned, 6), (.access, 7), (.page, 15), (.guestPage, 23)] →
      ((i, n) ∈ storeForms r rs1 imm ∧ s.dataPriv = some pair ∧
          s.accessAddrs .store pair.1 pair.2 (s.offsetAddr rs1 imm) n = .error f ∨
        (i, n) ∈ hsvForms r rs1 ∧ s.hlvPermitted = true ∧
          s.accessAddrs .store (if s.csr.spvp then 1 else 0) true (s.plainAddr rs1) n = .error f) →
        exec i s = .next (if s.inDebug then s.debugFail else s.trapTo (s.exceptionDest code) false code f.addr))

/-- DMPRV does not affect HLV, HLVX and HSV: changing it beforehand changes nothing but itself. In Debug Mode at S/HS level
they write the registers and the memory that they would write in HS-mode (20 R56). -/
def Obligations.DmprvLeavesHypervisorAccesses : Prop :=
  ∀ (s : State) (r rs1 : RegNum) (i : Instr), i ∈ virtualMachineForms r rs1 →
    (∀ b, ∃ t, exec i s = .next t ∧ exec i (s.withDmprv b) = .next (t.withDmprv b)) ∧
    (s.inDebug = true → s.dap = .hs →
      ∃ t u, exec i s = .next t ∧ exec i { s.withDmprv false with inDebug := false, cur := .hs } = .next u ∧
        t.regs = u.regs ∧ t.mem = u.mem)

/-- HLV, HLVX and HSV where they are not permitted: at VS level in Debug Mode, and at U level without hstatus.HU, a quiet
failure; in VS and VU a virtual-instruction exception, in U without HU an illegal one (42 R181; the family's table). -/
def Obligations.HypervisorAccessDenied : Prop :=
  ∀ (s : State) (r rs1 : RegNum) (i : Instr), i ∈ virtualMachineForms r rs1 → i.wellFormed s.p = true →
    (s.inDebug = true → (s.dap = .vs ∨ s.dap = .u ∧ (s.csr.hu = false ∨ s.dbg.v = true)) →
      exec i s = .next s.debugFail) ∧
    (s.inDebug = false → (s.cur = .vs ∨ s.cur = .vu) →
      exec i s = .next (s.takeException (.virtualInstruction (encodeWord i)))) ∧
    (s.inDebug = false → s.cur = .u → s.csr.hu = false →
      exec i s = .next (s.takeException (.illegal (encodeWord i))))

/-! ### Halting, stepping, interrupts -/

/-- A pending halt request halts the hart at the boundary if debug is allowed in the current mode, and stays pending if it
is not (40 R102). The reset-halt and halt-group requests of 60 R237 are taken first (log 30), so they are absent here. -/
def Obligations.HaltRequestServedOrPending : Prop :=
  ∀ s t : State, s.p.valid = true → s.hartTurn → s.inDebug = false → s.haltPending = true → step s = .next t →
    (s.allowed = true → s.resetHaltPending = false → s.groupHaltPending = false →
      t.inDebug = true ∧ t.haltPending = false ∧ t.dbg.cause = 3 ∧ t.dbg.prv = s.cur.prv ∧ t.dbg.v = s.cur.virt ∧
        t.dbg.dpc = pcMask s.p s.pc ∧ t.csr = s.csr ∧ t.regs = s.regs ∧ t.mem = s.mem) ∧
    (s.allowed = false → t.haltPending = true)

/-- Whatever the cause, Debug Mode is entered only in a debug-allowed mode, and the mode and the pc saved are those of one
state: `dcsr.PRV`, `dcsr.V` name the mode, `dpc` holds the pc (60 R236, R237, 44 R221). -/
def Obligations.DebugEntryOnlyWhereAllowed : Prop :=
  ∀ s t : State, s.inDebug = false → step s = .next t → t.inDebug = true →
    t.allowed = true ∧ t.dbg.prv = t.cur.prv ∧ t.dbg.v = t.cur.virt ∧ t.dbg.dpc = pcMask t.p t.pc ∧
      t.stepArmed = false

/-- During a stay in Debug Mode nothing but the controlling entity changes the debug access privilege (40 R110). -/
def Obligations.DapConstantInDebugMode : Prop :=
  ∀ s t : State, s.inDebug = true → (∀ b, s.inputs.head? ≠ some (.setMdbgen b)) → step s = .next t → t.dap = s.dap

/-- The hart leaves Debug Mode only to a mode it has, at or below the debug access privilege (40 R109). A resume request in
Debug Mode goes to the mode `dcsr.PRV` and `dcsr.V` name, with the pc in `dpc`, and STEP = 1 arms the step; no other
register and no byte of memory changes (60 R241; that it also ends a Program Buffer that executes is log 17). The pair PRV
and V is legal in Debug Mode, which every step keeps (`Obligations.ResumePairStaysLegal`). -/
def Obligations.ResumeBoundedByDap : Prop :=
  ∀ s : State, s.debugLegal → s.inDebug = true →
    (∀ t, step s = .next t → t.inDebug = false →
      supportedMode s.p t.cur = true ∧ t.cur.lvl.rank ≤ s.dap.rank ∧ t.pc = t.dbg.dpc ∧
        Mode.ofPair t.dbg.prv t.dbg.v = some t.cur ∧ (t.dbg.step = true → t.stepArmed = true)) ∧
    (s.p.valid = true → s.inputs.head? = some .resume →
      ∃ t, step s = .next t ∧ t.inDebug = false ∧ Mode.ofPair s.dbg.prv s.dbg.v = some t.cur ∧ t.pc = s.dbg.dpc ∧
        t.stepArmed = (s.dbg.step || s.stepArmed) ∧
        t = { s.popInput with
          cur := t.cur, pc := t.pc, inDebug := false, stepArmed := t.stepArmed,
          dm := { s.dm with pbRun := false, quick := false } })

/-- An armed single step: after a step of the hart either it is in Debug Mode with the step paid, or the step is still armed
in a debug-disallowed mode (60 R242, R243). The source says only where a step cannot stop; that it stays armed through the
disallowed modes and ends at the first allowed boundary is the spec's own decision D16 and log 38 (DEDUCED). -/
def Obligations.ArmedStepStopsWhereAllowed : Prop :=
  ∀ s t : State, s.hartTurn → s.inDebug = false → s.stepArmed = true → step s = .next t →
    (t.inDebug = true ∧ t.stepArmed = false) ∨ (t.inDebug = false ∧ t.stepArmed = true ∧ t.allowed = false)

/-- MRET under an armed step: the hart enters Debug Mode at the return address, before the instruction there, if the mode
returned to is debug-allowed (60 R244), and does not if it is not (R245). That the step is then still armed is the spec's own
choice, its decision D16, and log 38 (DEDUCED): the source does not say what becomes of it. -/
def Obligations.MretUnderSingleStep : Prop :=
  ∀ (s : State) (bytes : List Byte) (dst : Mode), s.quiet → s.cur = .m → s.stepArmed = true →
    s.fetchBytes s.pc 4 = .ok bytes → decode bytes = .ok (.mret, []) → dst = Mode.ofSaved s.csr.mpp s.csr.mpv →
      ∃ t, step s = .next t ∧
        (s.allowedIn dst = true → t.inDebug = true ∧ t.stepArmed = false ∧ t.dbg.dpc = pcMask s.p s.csr.mepc ∧
          t.dbg.prv = dst.prv ∧ t.dbg.v = dst.virt ∧ t.dbg.cause = 4) ∧
        (s.allowedIn dst = false → t.inDebug = false ∧ t.stepArmed = true ∧ t.cur = dst ∧
          t.pc = pcMask s.p s.csr.mepc)

/-- STEPIE = 0 masks an interrupt during a step in a debug-allowed mode exactly where its handler's mode is debug-allowed:
one bound for a debug-disallowed mode is ready whatever STEPIE says (60 R246). An interrupt is ready exactly where it is
pending, enabled and let through by the base architecture and not so masked, a non-maskable one likewise with M-mode's
handler; what is ready is taken, a non-maskable one first (which sources, enables and order the base has is log 25, its
NMIE log 26). -/
def Obligations.StepieMasksOnlyAllowedHandlers : Prop :=
  ∀ (s : State) (code : Nat),
    (s.interruptReady code = true ↔
      (s.csr.mip.getLsbD code = true ∧ s.csr.mie.getLsbD code = true ∧ s.nmieOpen = true ∧
        s.interruptEnabled (s.interruptDest code) = true) ∧
      ¬(s.stepArmed = true ∧ s.allowed = true ∧ s.dbg.stepie = false ∧ s.allowedIn (s.interruptDest code) = true)) ∧
    (s.pickInterrupt = some .nmi ↔
      s.nmiPending = true ∧ s.nmieOpen = true ∧
        ¬(s.stepArmed = true ∧ s.allowed = true ∧ s.dbg.stepie = false ∧ s.allowedIn .m = true)) ∧
    (s.pickInterrupt ≠ some .nmi → code ∈ [11, 3, 7, 9, 1, 5, 10, 2, 6] → s.interruptReady code = true →
      ∃ c, s.pickInterrupt = some (.interrupt c) ∧ s.interruptReady c = true) ∧
    (s.pickInterrupt = some (.interrupt code) → s.interruptReady code = true) ∧
    (s.allowedIn (s.interruptDest code) = false → ∀ w : BitVec 32,
      { s with dbg := { s.dbg with dcsr := w } }.interruptReady code = s.interruptReady code) ∧
    (s.allowed = false → ∀ w : BitVec 32,
      { s with dbg := { s.dbg with dcsr := w } }.interruptReady code = s.interruptReady code) ∧
    (s.stepArmed = true → s.allowed = true → s.dbg.stepie = false → s.allowedIn (s.interruptDest code) = true →
      s.interruptReady code = false)

/-- A ready interrupt is taken at a boundary at which nothing halts the hart: the trap to its destination (60 R248 to R250).
Against a trigger the order is not the source's, which asks only that the two do not mix (44 R221): that an interrupt to a
debug-allowed mode goes before any trigger is the spec's own order D32, and that for one to a disallowed mode the parameter
`triggerFirst` decides is the model's (log 14, DESIGN CHOICE). The family's: the code of the supervisor interrupt where
VS-mode takes it and the value 0 (log 25); what a non-maskable interrupt saves and where it goes (log 26). -/
def Obligations.InterruptTaken : Prop :=
  ∀ (s : State) (k : Taken), s.p.valid = true → s.hartTurn → s.inDebug = false → s.haltAtBoundary = none →
    s.pickInterrupt = some k →
    (s.p.triggerFirst = false ∨ s.allowedIn (s.takenDest k) = true ∨ s.firing anyTrigger = []) →
    (∀ code, k = .interrupt code →
      s.takenDest k = s.interruptDest code ∧
      step s = .next (s.popInput.beginStep.trapTo (s.interruptDest code) true
        (if s.interruptDest code = .vs then code - 1 else code) 0).stepCheck.dropMatched) ∧
    (k = .nmi → s.takenDest k = .m ∧ ∃ u : State, step s = .next u.stepCheck.dropMatched ∧ u.cur = .m ∧
      u.pc = pcMask s.p s.p.nmiVector ∧ u.nmiPending = false ∧ u.hti = none ∧
      u = { s.popInput.beginStep with csr := u.csr, cur := u.cur, pc := u.pc, nmiPending := false, hti := none } ∧
      (s.p.hasRnmi = true →
        u.csr = { s.csr with mnepc := pcMask s.p s.pc, mncause := causeValue s.p true 0, mnstatus := u.csr.mnstatus } ∧
          u.csr.mnpp = s.cur.prv ∧ u.csr.mnpv = s.cur.virt ∧ u.csr.nmie = false ∧
          ∀ j, j ∉ [3, 7, 11, 12] → u.csr.mnstatus.getLsbD j = s.csr.mnstatus.getLsbD j) ∧
      (s.p.hasRnmi = false → u.csr = (s.trapTo .m true 0 0).csr))

/-! ### The agents outside the hart -/

/-- The controlling entity drives `mdbgen`: it may rise at any time and fall while the hart runs; a fall in Debug Mode has no
meaning and is refused. `mtrcen` may change at any time (70 R273). That a rise also clears DMPRV, which 20 R55 forces to 0
while `mdbgen` is 1, is the spec's decision D13 and the model's log 20 (DEDUCED). -/
def Obligations.MdbgenDriven : Prop :=
  ∀ (s : State) (b : Bool) (rest : List Event), s.p.valid = true →
    (s.inputs = .setMdbgen b :: rest →
      (s.inDebug = true → s.mdbgen = true → b = false → step s = .refused .mdbgenLoweredInDebugMode) ∧
      ((s.inDebug = false ∨ s.mdbgen = false ∨ b = true) →
        step s = .next { s with inputs := rest, mdbgen := b, dbg := { s.dbg with dmprv := s.dbg.dmprv && !b } })) ∧
    (s.inputs = .setMtrcen b :: rest → step s = .next { s with inputs := rest, mtrcen := b })

/-- Access Register has the outcome of the CSR instruction in the Program Buffer, and general registers always succeed where
there is a debug access privilege (40 R103). Access Memory is made with the pair of a load or a store in Debug Mode and is
a quiet failure where that faults or there is none (40 R104, 20 R59, R58); with `mdbgen` = 0 that pair is the effective
privilege of 20 R52, and at M level MPRVEN and MPRV may replace it (log 23, DEDUCED). -/
def Obligations.AccessRegisterAsCsrInstruction : Prop :=
  ∀ (s : State) (n : CsrNum) (rd rs1 : RegNum) (c : Csr) (v : Word), s.inDebug = true →
    (∀ (addr : Word) (size : AbsSize) (write : Option Word),
      (s.debugDataPriv = none → s.accessMemory addr size.bytes write = s.debugFail) ∧
      (∀ pair f, s.debugDataPriv = some pair →
        s.accessAddrs (if write = none then .load else .store) pair.1 pair.2 (s.p.toXlen addr) size.bytes = .error f →
          s.accessMemory addr size.bytes write = s.debugFail) ∧
      (∀ pair ks, s.debugDataPriv = some pair →
        s.accessAddrs (if write = none then .load else .store) pair.1 pair.2 (s.p.toXlen addr) size.bytes = .ok ks →
          s.accessMemory addr size.bytes write =
            match write with
            | none => { s with dm := { s.dm with data := joinBytes (s.inOrder pair.1 pair.2 (ks.map s.mem.read)) } }
            | some w => { s with mem := s.mem.writeAll ks (s.inOrder pair.1 pair.2 (splitBytes size.bytes w)) })) ∧
    (s.dataPriv = s.debugDataPriv ∧ (s.mdbgen = false → s.debugDataPriv = s.memPriv)) ∧
    (s.dap ≠ .none → s.accessRegister (.gpr rd) none = s.setData (s.x rd) ∧
      s.accessRegister (.gpr rd) (some v) = s.setX rd v) ∧
    (s.csrCheck n false = .ok c → s.accessRegister (.csr n) none = s.setData (s.csrRead c) ∧
      exec (.csrrs rd n 0) s = .next ((s.setX rd (s.csrRead c)).advance 4)) ∧
    ((∀ d, s.csrCheck n false ≠ .ok d) → s.accessRegister (.csr n) none = s.debugFail ∧
      exec (.csrrs rd n 0) s = .next s.debugFail) ∧
    (s.csrCheck n true = .ok c →
      exec (.csrrw 0 n rs1) s = .next ((s.accessRegister (.csr n) (some (s.x rs1))).advance 4)) ∧
    ((∀ d, s.csrCheck n true ≠ .ok d) → s.accessRegister (.csr n) (some v) = s.debugFail ∧
      exec (.csrrw 0 n rs1) s = .next s.debugFail)

/-- A debugger command against a hart running in a debug-disallowed mode never succeeds: it is refused or, where the
implementation says so, reports an error and has no other effect (40 R107; the report is the spec's decision D15). -/
def Obligations.CommandsFailWhileDisallowed : Prop :=
  ∀ (s t : State) (e : Event) (rest : List Event), s.inDebug = false → s.allowed = false → s.inputs = e :: rest →
    (e = .quickAccess ∨ e = .runProgBuf ∨ (∃ r w, e = .accessRegister r w) ∨ ∃ a z w, e = .accessMemory a z w) →
    step s = .next t →
      ∃ v, s.p.cmderrNotAllowed = some v ∧ t = { s with inputs := rest, dm := s.dm.setErr v }

/-! ### Invariants that every step keeps -/

/-- Memory stays in its canonical form. -/
def Obligations.MemoryStaysCanonical : Prop :=
  ∀ s t : State, Memory.wf s.mem = true → step s = .next t → Memory.wf t.mem = true

/-- The general registers stay within XLEN bits with x0 reading 0, and the pc and `dpc` stay within XLEN bits and on an
instruction boundary (10 R36, R37, 30 R74). -/
def Obligations.RegistersAndPcsStayLegal : Prop :=
  ∀ s t : State, s.regsWithinXlen → s.pcsAligned → step s = .next t → t.regsWithinXlen ∧ t.pcsAligned

/-- The current mode and the saved modes stay modes of the hart (60 R235). -/
def Obligations.ModesStayLegal : Prop := ∀ s t : State, s.modesLegal → step s = .next t → t.modesLegal

/-- In Debug Mode there stays a debug access privilege, and PRV and V stay a legal resume pair (40 R101, R109, 60 R236). -/
def Obligations.ResumePairStaysLegal : Prop :=
  ∀ s t : State, s.modesLegal → s.debugLegal → step s = .next t → t.debugLegal

/-- The Program Buffer executes in Debug Mode only (40 R106). The stored DMPRV stays 0 while `mdbgen` is 1: 20 R55 and 41
R145 make it read 0 then, and that the bit itself is forced to 0 is the spec's own decision D13 and log 20 (DEDUCED). -/
def Obligations.DmprvAndBufferStayLegal : Prop :=
  ∀ s t : State, s.dmprvForced → s.bufferHalted → step s = .next t → t.dmprvForced ∧ t.bufferHalted
end

