-- ==== Sys2Proof/Laws/Encoding.lean ====
section
/-! SUPPORT. The fields of an encoded word, and the bytes of a word. -/

namespace Sys2Proof

/-- A field of a word, bit by bit. -/
theorem extract_eq {n k lo : Nat} (w : BitVec n) (x : BitVec k) (h : ∀ j, j < k → w.getLsbD (lo + j) = x.getLsbD j) :
    w.extractLsb' lo k = x := by
  apply BitVec.eq_of_getLsbD_eq
  intro j hj
  rw [BitVec.getLsbD_extractLsb', decide_eq_true hj, Bool.true_and, h j hj]

/-- The fields of the format with a 12-bit high field. -/
theorem wordI_fields (high : BitVec 12) (rs1 : BitVec 5) (f3 : BitVec 3) (rd : BitVec 5) (op : BitVec 7) :
    (wordI high rs1 f3 rd op).extractLsb' 0 7 = op ∧ fieldRd (wordI high rs1 f3 rd op) = rd ∧
      fieldFunct3 (wordI high rs1 f3 rd op) = f3 ∧ fieldRs1 (wordI high rs1 f3 rd op) = rs1 ∧
      fieldHigh12 (wordI high rs1 f3 rd op) = high := by
  refine ⟨extract_eq _ _ fun j hj => ?_, extract_eq _ _ fun j hj => ?_, extract_eq _ _ fun j hj => ?_,
    extract_eq _ _ fun j hj => ?_, extract_eq _ _ fun j hj => ?_⟩
  all_goals
    simp only [wordI, BitVec.getLsbD_append]
    repeat' split
  all_goals first
    | (exfalso; omega)
    | (congr 1; omega)

/-- The fields of the format with funct7 and rs2. -/
theorem wordR_fields (f7 : BitVec 7) (rs2 rs1 : BitVec 5) (f3 : BitVec 3) (rd : BitVec 5) (op : BitVec 7) :
    (wordR f7 rs2 rs1 f3 rd op).extractLsb' 0 7 = op ∧ fieldRd (wordR f7 rs2 rs1 f3 rd op) = rd ∧
      fieldFunct3 (wordR f7 rs2 rs1 f3 rd op) = f3 ∧ fieldRs1 (wordR f7 rs2 rs1 f3 rd op) = rs1 ∧
      fieldRs2 (wordR f7 rs2 rs1 f3 rd op) = rs2 ∧ fieldFunct7 (wordR f7 rs2 rs1 f3 rd op) = f7 := by
  refine ⟨extract_eq _ _ fun j hj => ?_, extract_eq _ _ fun j hj => ?_, extract_eq _ _ fun j hj => ?_,
    extract_eq _ _ fun j hj => ?_, extract_eq _ _ fun j hj => ?_, extract_eq _ _ fun j hj => ?_⟩
  all_goals
    simp only [wordR, BitVec.getLsbD_append]
    repeat' split
  all_goals first
    | (exfalso; omega)
    | (congr 1; omega)

/-- The two parts of a store's offset make the offset. -/
theorem storeImm_join (imm : Imm12) : imm.extractLsb' 5 7 ++ imm.extractLsb' 0 5 = imm := by
  apply BitVec.eq_of_getLsbD_eq
  intro j hj
  rw [BitVec.getLsbD_append]
  split
  · rename_i h
    rw [BitVec.getLsbD_extractLsb', Nat.zero_add, decide_eq_true (by simpa using h), Bool.true_and]
  · rename_i h
    rw [BitVec.getLsbD_extractLsb', show 5 + (j - 5) = j by omega, decide_eq_true (show j - 5 < 7 by omega),
      Bool.true_and]

/-- The offset field of a store's word. -/
theorem wordS_imm (imm : Imm12) (rs2 rs1 : BitVec 5) (f3 : BitVec 3) :
    fieldStoreImm (wordS imm rs2 rs1 f3) = imm := by
  obtain ⟨_, hrd, _, _, _, hf7⟩ :=
    wordR_fields (imm.extractLsb' 5 7) rs2 rs1 f3 (imm.extractLsb' 0 5) 0b0100011
  unfold fieldRd at hrd
  unfold fieldFunct7 at hf7
  unfold fieldStoreImm wordS
  rw [hrd, hf7, storeImm_join]

/-- A word from its bytes is the word. -/
theorem wordOf_bytes (w : BitVec 32) :
    wordOf (w.extractLsb' 0 8) (w.extractLsb' 8 8) (w.extractLsb' 16 8) (w.extractLsb' 24 8) = w := by
  apply BitVec.eq_of_getLsbD_eq
  intro j hj
  simp only [wordOf, BitVec.getLsbD_append, BitVec.getLsbD_extractLsb']
  repeat' split
  all_goals
    rw [decide_eq_true (by omega), Bool.true_and]
    congr 1
    omega

/-- The two lowest bits of the formats are those of the opcode (30 R80). -/
theorem wordI_low2 (high : BitVec 12) (rs1 : BitVec 5) (f3 : BitVec 3) (rd : BitVec 5) (op : BitVec 7) :
    (wordI high rs1 f3 rd op).extractLsb' 0 2 = op.extractLsb' 0 2 := by
  refine extract_eq _ _ fun j hj => ?_
  simp only [wordI, BitVec.getLsbD_append, BitVec.getLsbD_extractLsb', Nat.zero_add]
  rw [if_pos (by omega), decide_eq_true hj, Bool.true_and]

theorem wordR_low2 (f7 : BitVec 7) (rs2 rs1 : BitVec 5) (f3 : BitVec 3) (rd : BitVec 5) (op : BitVec 7) :
    (wordR f7 rs2 rs1 f3 rd op).extractLsb' 0 2 = op.extractLsb' 0 2 := by
  refine extract_eq _ _ fun j hj => ?_
  simp only [wordR, BitVec.getLsbD_append, BitVec.getLsbD_extractLsb', Nat.zero_add]
  rw [if_pos (by omega), decide_eq_true hj, Bool.true_and]

/-- The decoder reads a 32-bit word from its bytes. -/
theorem decode_wordBytes (w : BitVec 32) (rest : List Byte) (h : w.extractLsb' 0 2 = 3) :
    decode (wordBytes w ++ rest) =
      match decodeWord32 w with
      | some i => .ok (i, rest)
      | none => .error (rejectWord32 w) := by
  show decode (w.extractLsb' 0 8 :: w.extractLsb' 8 8 :: w.extractLsb' 16 8 :: w.extractLsb' 24 8 :: rest) = _
  have hw : isWide (w.extractLsb' 0 8) = true := by
    unfold isWide
    have : (w.extractLsb' 0 8).extractLsb' 0 2 = w.extractLsb' 0 2 := by
      apply extract_eq
      intro j hj
      rw [BitVec.getLsbD_extractLsb', BitVec.getLsbD_extractLsb', decide_eq_true (by omega), decide_eq_true hj]
      simp
    rw [this, h]
    rfl
  unfold decode
  dsimp only
  rw [hw, if_pos rfl, wordOf_bytes]
  all_goals (cases decodeWord32 w <;> rfl)

/-- What decodes without bytes left has its instruction's length, which its first byte tells (30 R80). -/
theorem decode_size {bytes : List Byte} {i : Instr} (h : decode bytes = .ok (i, [])) (hl : bytes.length = i.size) :
    (i.size = 2 ∧ (bytes.head?.map isWide).getD false = false) ∨
      (i.size = 4 ∧ (bytes.head?.map isWide).getD false = true) := by
  unfold decode at h
  split at h
  · split at h
    · rename_i hw
      split at h
      · split at h
        · cases h; exact .inr ⟨by simpa using hl.symm, by simpa using hw⟩
        · cases h
      · cases h
    · rename_i hw
      split at h
      · cases h; exact .inl ⟨rfl, by simpa using hw⟩
      · cases h
  · cases h

/-- A word has four bytes. -/
@[simp] theorem wordBytes_length (w : BitVec 32) : (wordBytes w).length = 4 := rfl

end Sys2Proof
end

