-- ==== Sys2Proof/Laws/State.lean ====
section
/-! SUPPORT. One lemma per field per update of the state, so that no proof unfolds a record update. -/

namespace Sys2Proof.Machine

/-! ### debugFail -/

@[simp] theorem State.debugFail_p (s : State) : (s.debugFail).p = s.p := rfl
@[simp] theorem State.debugFail_regs (s : State) : (s.debugFail).regs = s.regs := rfl
@[simp] theorem State.debugFail_pc (s : State) : (s.debugFail).pc = s.pc := rfl
@[simp] theorem State.debugFail_cur (s : State) : (s.debugFail).cur = s.cur := rfl
@[simp] theorem State.debugFail_inDebug (s : State) : (s.debugFail).inDebug = s.inDebug := rfl
@[simp] theorem State.debugFail_csr (s : State) : (s.debugFail).csr = s.csr := rfl
@[simp] theorem State.debugFail_dbg (s : State) : (s.debugFail).dbg = s.dbg := rfl
@[simp] theorem State.debugFail_msdcfg (s : State) : (s.debugFail).msdcfg = s.msdcfg := rfl
@[simp] theorem State.debugFail_mdbgen (s : State) : (s.debugFail).mdbgen = s.mdbgen := rfl
@[simp] theorem State.debugFail_mtrcen (s : State) : (s.debugFail).mtrcen = s.mtrcen := rfl
@[simp] theorem State.debugFail_trig (s : State) : (s.debugFail).trig = s.trig := rfl
@[simp] theorem State.debugFail_haltPending (s : State) : (s.debugFail).haltPending = s.haltPending := rfl
@[simp] theorem State.debugFail_resetHaltPending (s : State) : (s.debugFail).resetHaltPending = s.resetHaltPending := rfl
@[simp] theorem State.debugFail_groupHaltPending (s : State) : (s.debugFail).groupHaltPending = s.groupHaltPending := rfl
@[simp] theorem State.debugFail_stepArmed (s : State) : (s.debugFail).stepArmed = s.stepArmed := rfl
@[simp] theorem State.debugFail_nmiPending (s : State) : (s.debugFail).nmiPending = s.nmiPending := rfl
@[simp] theorem State.debugFail_hti (s : State) : (s.debugFail).hti = s.hti := rfl
@[simp] theorem State.debugFail_xlat (s : State) : (s.debugFail).xlat = s.xlat := rfl
@[simp] theorem State.debugFail_mem (s : State) : (s.debugFail).mem = s.mem := rfl
@[simp] theorem State.debugFail_inputs (s : State) : (s.debugFail).inputs = s.inputs := rfl
@[simp] theorem State.debugFail_dm (s : State) : (s.debugFail).dm = { s.dm.setErr 3 with pbRun := false, quick := false } := rfl

/-! ### setCsr -/

@[simp] theorem State.setCsr_p (s : State) (c : Csrs) : (s.setCsr c).p = s.p := rfl
@[simp] theorem State.setCsr_regs (s : State) (c : Csrs) : (s.setCsr c).regs = s.regs := rfl
@[simp] theorem State.setCsr_pc (s : State) (c : Csrs) : (s.setCsr c).pc = s.pc := rfl
@[simp] theorem State.setCsr_cur (s : State) (c : Csrs) : (s.setCsr c).cur = s.cur := rfl
@[simp] theorem State.setCsr_inDebug (s : State) (c : Csrs) : (s.setCsr c).inDebug = s.inDebug := rfl
@[simp] theorem State.setCsr_dbg (s : State) (c : Csrs) : (s.setCsr c).dbg = s.dbg := rfl
@[simp] theorem State.setCsr_msdcfg (s : State) (c : Csrs) : (s.setCsr c).msdcfg = s.msdcfg := rfl
@[simp] theorem State.setCsr_mdbgen (s : State) (c : Csrs) : (s.setCsr c).mdbgen = s.mdbgen := rfl
@[simp] theorem State.setCsr_mtrcen (s : State) (c : Csrs) : (s.setCsr c).mtrcen = s.mtrcen := rfl
@[simp] theorem State.setCsr_trig (s : State) (c : Csrs) : (s.setCsr c).trig = s.trig := rfl
@[simp] theorem State.setCsr_haltPending (s : State) (c : Csrs) : (s.setCsr c).haltPending = s.haltPending := rfl
@[simp] theorem State.setCsr_resetHaltPending (s : State) (c : Csrs) : (s.setCsr c).resetHaltPending = s.resetHaltPending := rfl
@[simp] theorem State.setCsr_groupHaltPending (s : State) (c : Csrs) : (s.setCsr c).groupHaltPending = s.groupHaltPending := rfl
@[simp] theorem State.setCsr_stepArmed (s : State) (c : Csrs) : (s.setCsr c).stepArmed = s.stepArmed := rfl
@[simp] theorem State.setCsr_nmiPending (s : State) (c : Csrs) : (s.setCsr c).nmiPending = s.nmiPending := rfl
@[simp] theorem State.setCsr_dm (s : State) (c : Csrs) : (s.setCsr c).dm = s.dm := rfl
@[simp] theorem State.setCsr_hti (s : State) (c : Csrs) : (s.setCsr c).hti = s.hti := rfl
@[simp] theorem State.setCsr_xlat (s : State) (c : Csrs) : (s.setCsr c).xlat = s.xlat := rfl
@[simp] theorem State.setCsr_mem (s : State) (c : Csrs) : (s.setCsr c).mem = s.mem := rfl
@[simp] theorem State.setCsr_inputs (s : State) (c : Csrs) : (s.setCsr c).inputs = s.inputs := rfl
@[simp] theorem State.setCsr_csr (s : State) (c : Csrs) : (s.setCsr c).csr = c := rfl

/-! ### setData -/

@[simp] theorem State.setData_p (s : State) (v : Word) : (s.setData v).p = s.p := rfl
@[simp] theorem State.setData_regs (s : State) (v : Word) : (s.setData v).regs = s.regs := rfl
@[simp] theorem State.setData_pc (s : State) (v : Word) : (s.setData v).pc = s.pc := rfl
@[simp] theorem State.setData_cur (s : State) (v : Word) : (s.setData v).cur = s.cur := rfl
@[simp] theorem State.setData_inDebug (s : State) (v : Word) : (s.setData v).inDebug = s.inDebug := rfl
@[simp] theorem State.setData_csr (s : State) (v : Word) : (s.setData v).csr = s.csr := rfl
@[simp] theorem State.setData_dbg (s : State) (v : Word) : (s.setData v).dbg = s.dbg := rfl
@[simp] theorem State.setData_msdcfg (s : State) (v : Word) : (s.setData v).msdcfg = s.msdcfg := rfl
@[simp] theorem State.setData_mdbgen (s : State) (v : Word) : (s.setData v).mdbgen = s.mdbgen := rfl
@[simp] theorem State.setData_mtrcen (s : State) (v : Word) : (s.setData v).mtrcen = s.mtrcen := rfl
@[simp] theorem State.setData_trig (s : State) (v : Word) : (s.setData v).trig = s.trig := rfl
@[simp] theorem State.setData_haltPending (s : State) (v : Word) : (s.setData v).haltPending = s.haltPending := rfl
@[simp] theorem State.setData_resetHaltPending (s : State) (v : Word) : (s.setData v).resetHaltPending = s.resetHaltPending := rfl
@[simp] theorem State.setData_groupHaltPending (s : State) (v : Word) : (s.setData v).groupHaltPending = s.groupHaltPending := rfl
@[simp] theorem State.setData_stepArmed (s : State) (v : Word) : (s.setData v).stepArmed = s.stepArmed := rfl
@[simp] theorem State.setData_nmiPending (s : State) (v : Word) : (s.setData v).nmiPending = s.nmiPending := rfl
@[simp] theorem State.setData_hti (s : State) (v : Word) : (s.setData v).hti = s.hti := rfl
@[simp] theorem State.setData_xlat (s : State) (v : Word) : (s.setData v).xlat = s.xlat := rfl
@[simp] theorem State.setData_mem (s : State) (v : Word) : (s.setData v).mem = s.mem := rfl
@[simp] theorem State.setData_inputs (s : State) (v : Word) : (s.setData v).inputs = s.inputs := rfl
@[simp] theorem State.setData_dm (s : State) (v : Word) : (s.setData v).dm = { s.dm with data := v } := rfl

/-! ### startProgBuf -/

@[simp] theorem State.startProgBuf_p (s : State) : (s.startProgBuf).p = s.p := rfl
@[simp] theorem State.startProgBuf_regs (s : State) : (s.startProgBuf).regs = s.regs := rfl
@[simp] theorem State.startProgBuf_pc (s : State) : (s.startProgBuf).pc = s.pc := rfl
@[simp] theorem State.startProgBuf_cur (s : State) : (s.startProgBuf).cur = s.cur := rfl
@[simp] theorem State.startProgBuf_inDebug (s : State) : (s.startProgBuf).inDebug = s.inDebug := rfl
@[simp] theorem State.startProgBuf_csr (s : State) : (s.startProgBuf).csr = s.csr := rfl
@[simp] theorem State.startProgBuf_dbg (s : State) : (s.startProgBuf).dbg = s.dbg := rfl
@[simp] theorem State.startProgBuf_msdcfg (s : State) : (s.startProgBuf).msdcfg = s.msdcfg := rfl
@[simp] theorem State.startProgBuf_mdbgen (s : State) : (s.startProgBuf).mdbgen = s.mdbgen := rfl
@[simp] theorem State.startProgBuf_mtrcen (s : State) : (s.startProgBuf).mtrcen = s.mtrcen := rfl
@[simp] theorem State.startProgBuf_trig (s : State) : (s.startProgBuf).trig = s.trig := rfl
@[simp] theorem State.startProgBuf_haltPending (s : State) : (s.startProgBuf).haltPending = s.haltPending := rfl
@[simp] theorem State.startProgBuf_resetHaltPending (s : State) : (s.startProgBuf).resetHaltPending = s.resetHaltPending := rfl
@[simp] theorem State.startProgBuf_groupHaltPending (s : State) : (s.startProgBuf).groupHaltPending = s.groupHaltPending := rfl
@[simp] theorem State.startProgBuf_stepArmed (s : State) : (s.startProgBuf).stepArmed = s.stepArmed := rfl
@[simp] theorem State.startProgBuf_nmiPending (s : State) : (s.startProgBuf).nmiPending = s.nmiPending := rfl
@[simp] theorem State.startProgBuf_hti (s : State) : (s.startProgBuf).hti = s.hti := rfl
@[simp] theorem State.startProgBuf_xlat (s : State) : (s.startProgBuf).xlat = s.xlat := rfl
@[simp] theorem State.startProgBuf_mem (s : State) : (s.startProgBuf).mem = s.mem := rfl
@[simp] theorem State.startProgBuf_inputs (s : State) : (s.startProgBuf).inputs = s.inputs := rfl
@[simp] theorem State.startProgBuf_dm (s : State) : (s.startProgBuf).dm = { s.dm with pbRun := true, pbPc := 0 } := rfl

/-! ### writeDcsr -/

@[simp] theorem State.writeDcsr_p (s : State) (w : BitVec 32) : (s.writeDcsr w).p = s.p := rfl
@[simp] theorem State.writeDcsr_regs (s : State) (w : BitVec 32) : (s.writeDcsr w).regs = s.regs := rfl
@[simp] theorem State.writeDcsr_pc (s : State) (w : BitVec 32) : (s.writeDcsr w).pc = s.pc := rfl
@[simp] theorem State.writeDcsr_cur (s : State) (w : BitVec 32) : (s.writeDcsr w).cur = s.cur := rfl
@[simp] theorem State.writeDcsr_inDebug (s : State) (w : BitVec 32) : (s.writeDcsr w).inDebug = s.inDebug := rfl
@[simp] theorem State.writeDcsr_csr (s : State) (w : BitVec 32) : (s.writeDcsr w).csr = s.csr := rfl
@[simp] theorem State.writeDcsr_msdcfg (s : State) (w : BitVec 32) : (s.writeDcsr w).msdcfg = s.msdcfg := rfl
@[simp] theorem State.writeDcsr_mdbgen (s : State) (w : BitVec 32) : (s.writeDcsr w).mdbgen = s.mdbgen := rfl
@[simp] theorem State.writeDcsr_mtrcen (s : State) (w : BitVec 32) : (s.writeDcsr w).mtrcen = s.mtrcen := rfl
@[simp] theorem State.writeDcsr_trig (s : State) (w : BitVec 32) : (s.writeDcsr w).trig = s.trig := rfl
@[simp] theorem State.writeDcsr_haltPending (s : State) (w : BitVec 32) : (s.writeDcsr w).haltPending = s.haltPending := rfl
@[simp] theorem State.writeDcsr_resetHaltPending (s : State) (w : BitVec 32) : (s.writeDcsr w).resetHaltPending = s.resetHaltPending := rfl
@[simp] theorem State.writeDcsr_groupHaltPending (s : State) (w : BitVec 32) : (s.writeDcsr w).groupHaltPending = s.groupHaltPending := rfl
@[simp] theorem State.writeDcsr_stepArmed (s : State) (w : BitVec 32) : (s.writeDcsr w).stepArmed = s.stepArmed := rfl
@[simp] theorem State.writeDcsr_nmiPending (s : State) (w : BitVec 32) : (s.writeDcsr w).nmiPending = s.nmiPending := rfl
@[simp] theorem State.writeDcsr_dm (s : State) (w : BitVec 32) : (s.writeDcsr w).dm = s.dm := rfl
@[simp] theorem State.writeDcsr_hti (s : State) (w : BitVec 32) : (s.writeDcsr w).hti = s.hti := rfl
@[simp] theorem State.writeDcsr_xlat (s : State) (w : BitVec 32) : (s.writeDcsr w).xlat = s.xlat := rfl
@[simp] theorem State.writeDcsr_mem (s : State) (w : BitVec 32) : (s.writeDcsr w).mem = s.mem := rfl
@[simp] theorem State.writeDcsr_inputs (s : State) (w : BitVec 32) : (s.writeDcsr w).inputs = s.inputs := rfl
@[simp] theorem State.writeDcsr_dpc (s : State) (w : BitVec 32) : (s.writeDcsr w).dbg.dpc = s.dbg.dpc := rfl
@[simp] theorem State.writeDcsr_dmprv (s : State) (w : BitVec 32) : (s.writeDcsr w).dbg.dmprv = s.dbg.dmprv := rfl
@[simp] theorem State.writeDcsr_dscratch0 (s : State) (w : BitVec 32) : (s.writeDcsr w).dbg.dscratch0 = s.dbg.dscratch0 := rfl
@[simp] theorem State.writeDcsr_dscratch1 (s : State) (w : BitVec 32) : (s.writeDcsr w).dbg.dscratch1 = s.dbg.dscratch1 := rfl

/-! ### writeSdcsrS -/

@[simp] theorem State.writeSdcsrS_p (s : State) (w : BitVec 32) : (s.writeSdcsrS w).p = s.p := rfl
@[simp] theorem State.writeSdcsrS_regs (s : State) (w : BitVec 32) : (s.writeSdcsrS w).regs = s.regs := rfl
@[simp] theorem State.writeSdcsrS_pc (s : State) (w : BitVec 32) : (s.writeSdcsrS w).pc = s.pc := rfl
@[simp] theorem State.writeSdcsrS_cur (s : State) (w : BitVec 32) : (s.writeSdcsrS w).cur = s.cur := rfl
@[simp] theorem State.writeSdcsrS_inDebug (s : State) (w : BitVec 32) : (s.writeSdcsrS w).inDebug = s.inDebug := rfl
@[simp] theorem State.writeSdcsrS_csr (s : State) (w : BitVec 32) : (s.writeSdcsrS w).csr = s.csr := rfl
@[simp] theorem State.writeSdcsrS_msdcfg (s : State) (w : BitVec 32) : (s.writeSdcsrS w).msdcfg = s.msdcfg := rfl
@[simp] theorem State.writeSdcsrS_mdbgen (s : State) (w : BitVec 32) : (s.writeSdcsrS w).mdbgen = s.mdbgen := rfl
@[simp] theorem State.writeSdcsrS_mtrcen (s : State) (w : BitVec 32) : (s.writeSdcsrS w).mtrcen = s.mtrcen := rfl
@[simp] theorem State.writeSdcsrS_trig (s : State) (w : BitVec 32) : (s.writeSdcsrS w).trig = s.trig := rfl
@[simp] theorem State.writeSdcsrS_haltPending (s : State) (w : BitVec 32) : (s.writeSdcsrS w).haltPending = s.haltPending := rfl
@[simp] theorem State.writeSdcsrS_resetHaltPending (s : State) (w : BitVec 32) : (s.writeSdcsrS w).resetHaltPending = s.resetHaltPending := rfl
@[simp] theorem State.writeSdcsrS_groupHaltPending (s : State) (w : BitVec 32) : (s.writeSdcsrS w).groupHaltPending = s.groupHaltPending := rfl
@[simp] theorem State.writeSdcsrS_stepArmed (s : State) (w : BitVec 32) : (s.writeSdcsrS w).stepArmed = s.stepArmed := rfl
@[simp] theorem State.writeSdcsrS_nmiPending (s : State) (w : BitVec 32) : (s.writeSdcsrS w).nmiPending = s.nmiPending := rfl
@[simp] theorem State.writeSdcsrS_dm (s : State) (w : BitVec 32) : (s.writeSdcsrS w).dm = s.dm := rfl
@[simp] theorem State.writeSdcsrS_hti (s : State) (w : BitVec 32) : (s.writeSdcsrS w).hti = s.hti := rfl
@[simp] theorem State.writeSdcsrS_xlat (s : State) (w : BitVec 32) : (s.writeSdcsrS w).xlat = s.xlat := rfl
@[simp] theorem State.writeSdcsrS_mem (s : State) (w : BitVec 32) : (s.writeSdcsrS w).mem = s.mem := rfl
@[simp] theorem State.writeSdcsrS_inputs (s : State) (w : BitVec 32) : (s.writeSdcsrS w).inputs = s.inputs := rfl
@[simp] theorem State.writeSdcsrS_dpc (s : State) (w : BitVec 32) : (s.writeSdcsrS w).dbg.dpc = s.dbg.dpc := rfl
@[simp] theorem State.writeSdcsrS_dmprv (s : State) (w : BitVec 32) : (s.writeSdcsrS w).dbg.dmprv = s.dmprvWritten w := rfl
@[simp] theorem State.writeSdcsrS_dscratch0 (s : State) (w : BitVec 32) : (s.writeSdcsrS w).dbg.dscratch0 = s.dbg.dscratch0 := rfl
@[simp] theorem State.writeSdcsrS_dscratch1 (s : State) (w : BitVec 32) : (s.writeSdcsrS w).dbg.dscratch1 = s.dbg.dscratch1 := rfl

/-! ### writeSdcsrVs -/

@[simp] theorem State.writeSdcsrVs_p (s : State) (w : BitVec 32) : (s.writeSdcsrVs w).p = s.p := rfl
@[simp] theorem State.writeSdcsrVs_regs (s : State) (w : BitVec 32) : (s.writeSdcsrVs w).regs = s.regs := rfl
@[simp] theorem State.writeSdcsrVs_pc (s : State) (w : BitVec 32) : (s.writeSdcsrVs w).pc = s.pc := rfl
@[simp] theorem State.writeSdcsrVs_cur (s : State) (w : BitVec 32) : (s.writeSdcsrVs w).cur = s.cur := rfl
@[simp] theorem State.writeSdcsrVs_inDebug (s : State) (w : BitVec 32) : (s.writeSdcsrVs w).inDebug = s.inDebug := rfl
@[simp] theorem State.writeSdcsrVs_csr (s : State) (w : BitVec 32) : (s.writeSdcsrVs w).csr = s.csr := rfl
@[simp] theorem State.writeSdcsrVs_msdcfg (s : State) (w : BitVec 32) : (s.writeSdcsrVs w).msdcfg = s.msdcfg := rfl
@[simp] theorem State.writeSdcsrVs_mdbgen (s : State) (w : BitVec 32) : (s.writeSdcsrVs w).mdbgen = s.mdbgen := rfl
@[simp] theorem State.writeSdcsrVs_mtrcen (s : State) (w : BitVec 32) : (s.writeSdcsrVs w).mtrcen = s.mtrcen := rfl
@[simp] theorem State.writeSdcsrVs_trig (s : State) (w : BitVec 32) : (s.writeSdcsrVs w).trig = s.trig := rfl
@[simp] theorem State.writeSdcsrVs_haltPending (s : State) (w : BitVec 32) : (s.writeSdcsrVs w).haltPending = s.haltPending := rfl
@[simp] theorem State.writeSdcsrVs_resetHaltPending (s : State) (w : BitVec 32) : (s.writeSdcsrVs w).resetHaltPending = s.resetHaltPending := rfl
@[simp] theorem State.writeSdcsrVs_groupHaltPending (s : State) (w : BitVec 32) : (s.writeSdcsrVs w).groupHaltPending = s.groupHaltPending := rfl
@[simp] theorem State.writeSdcsrVs_stepArmed (s : State) (w : BitVec 32) : (s.writeSdcsrVs w).stepArmed = s.stepArmed := rfl
@[simp] theorem State.writeSdcsrVs_nmiPending (s : State) (w : BitVec 32) : (s.writeSdcsrVs w).nmiPending = s.nmiPending := rfl
@[simp] theorem State.writeSdcsrVs_dm (s : State) (w : BitVec 32) : (s.writeSdcsrVs w).dm = s.dm := rfl
@[simp] theorem State.writeSdcsrVs_hti (s : State) (w : BitVec 32) : (s.writeSdcsrVs w).hti = s.hti := rfl
@[simp] theorem State.writeSdcsrVs_xlat (s : State) (w : BitVec 32) : (s.writeSdcsrVs w).xlat = s.xlat := rfl
@[simp] theorem State.writeSdcsrVs_mem (s : State) (w : BitVec 32) : (s.writeSdcsrVs w).mem = s.mem := rfl
@[simp] theorem State.writeSdcsrVs_inputs (s : State) (w : BitVec 32) : (s.writeSdcsrVs w).inputs = s.inputs := rfl
@[simp] theorem State.writeSdcsrVs_dpc (s : State) (w : BitVec 32) : (s.writeSdcsrVs w).dbg.dpc = s.dbg.dpc := rfl
@[simp] theorem State.writeSdcsrVs_dmprv (s : State) (w : BitVec 32) : (s.writeSdcsrVs w).dbg.dmprv = s.dmprvWritten w := rfl
@[simp] theorem State.writeSdcsrVs_dscratch0 (s : State) (w : BitVec 32) : (s.writeSdcsrVs w).dbg.dscratch0 = s.dbg.dscratch0 := rfl
@[simp] theorem State.writeSdcsrVs_dscratch1 (s : State) (w : BitVec 32) : (s.writeSdcsrVs w).dbg.dscratch1 = s.dbg.dscratch1 := rfl

/-! ### writeUdcsr -/

@[simp] theorem State.writeUdcsr_p (s : State) (w : BitVec 32) : (s.writeUdcsr w).p = s.p := rfl
@[simp] theorem State.writeUdcsr_regs (s : State) (w : BitVec 32) : (s.writeUdcsr w).regs = s.regs := rfl
@[simp] theorem State.writeUdcsr_pc (s : State) (w : BitVec 32) : (s.writeUdcsr w).pc = s.pc := rfl
@[simp] theorem State.writeUdcsr_cur (s : State) (w : BitVec 32) : (s.writeUdcsr w).cur = s.cur := rfl
@[simp] theorem State.writeUdcsr_inDebug (s : State) (w : BitVec 32) : (s.writeUdcsr w).inDebug = s.inDebug := rfl
@[simp] theorem State.writeUdcsr_csr (s : State) (w : BitVec 32) : (s.writeUdcsr w).csr = s.csr := rfl
@[simp] theorem State.writeUdcsr_msdcfg (s : State) (w : BitVec 32) : (s.writeUdcsr w).msdcfg = s.msdcfg := rfl
@[simp] theorem State.writeUdcsr_mdbgen (s : State) (w : BitVec 32) : (s.writeUdcsr w).mdbgen = s.mdbgen := rfl
@[simp] theorem State.writeUdcsr_mtrcen (s : State) (w : BitVec 32) : (s.writeUdcsr w).mtrcen = s.mtrcen := rfl
@[simp] theorem State.writeUdcsr_trig (s : State) (w : BitVec 32) : (s.writeUdcsr w).trig = s.trig := rfl
@[simp] theorem State.writeUdcsr_haltPending (s : State) (w : BitVec 32) : (s.writeUdcsr w).haltPending = s.haltPending := rfl
@[simp] theorem State.writeUdcsr_resetHaltPending (s : State) (w : BitVec 32) : (s.writeUdcsr w).resetHaltPending = s.resetHaltPending := rfl
@[simp] theorem State.writeUdcsr_groupHaltPending (s : State) (w : BitVec 32) : (s.writeUdcsr w).groupHaltPending = s.groupHaltPending := rfl
@[simp] theorem State.writeUdcsr_stepArmed (s : State) (w : BitVec 32) : (s.writeUdcsr w).stepArmed = s.stepArmed := rfl
@[simp] theorem State.writeUdcsr_nmiPending (s : State) (w : BitVec 32) : (s.writeUdcsr w).nmiPending = s.nmiPending := rfl
@[simp] theorem State.writeUdcsr_dm (s : State) (w : BitVec 32) : (s.writeUdcsr w).dm = s.dm := rfl
@[simp] theorem State.writeUdcsr_hti (s : State) (w : BitVec 32) : (s.writeUdcsr w).hti = s.hti := rfl
@[simp] theorem State.writeUdcsr_xlat (s : State) (w : BitVec 32) : (s.writeUdcsr w).xlat = s.xlat := rfl
@[simp] theorem State.writeUdcsr_mem (s : State) (w : BitVec 32) : (s.writeUdcsr w).mem = s.mem := rfl
@[simp] theorem State.writeUdcsr_inputs (s : State) (w : BitVec 32) : (s.writeUdcsr w).inputs = s.inputs := rfl
@[simp] theorem State.writeUdcsr_dpc (s : State) (w : BitVec 32) : (s.writeUdcsr w).dbg.dpc = s.dbg.dpc := rfl
@[simp] theorem State.writeUdcsr_dmprv (s : State) (w : BitVec 32) : (s.writeUdcsr w).dbg.dmprv = s.dbg.dmprv := rfl
@[simp] theorem State.writeUdcsr_dscratch0 (s : State) (w : BitVec 32) : (s.writeUdcsr w).dbg.dscratch0 = s.dbg.dscratch0 := rfl
@[simp] theorem State.writeUdcsr_dscratch1 (s : State) (w : BitVec 32) : (s.writeUdcsr w).dbg.dscratch1 = s.dbg.dscratch1 := rfl

/-! ### writeDpc -/

@[simp] theorem State.writeDpc_p (s : State) (w : Word) : (s.writeDpc w).p = s.p := rfl
@[simp] theorem State.writeDpc_regs (s : State) (w : Word) : (s.writeDpc w).regs = s.regs := rfl
@[simp] theorem State.writeDpc_pc (s : State) (w : Word) : (s.writeDpc w).pc = s.pc := rfl
@[simp] theorem State.writeDpc_cur (s : State) (w : Word) : (s.writeDpc w).cur = s.cur := rfl
@[simp] theorem State.writeDpc_inDebug (s : State) (w : Word) : (s.writeDpc w).inDebug = s.inDebug := rfl
@[simp] theorem State.writeDpc_csr (s : State) (w : Word) : (s.writeDpc w).csr = s.csr := rfl
@[simp] theorem State.writeDpc_msdcfg (s : State) (w : Word) : (s.writeDpc w).msdcfg = s.msdcfg := rfl
@[simp] theorem State.writeDpc_mdbgen (s : State) (w : Word) : (s.writeDpc w).mdbgen = s.mdbgen := rfl
@[simp] theorem State.writeDpc_mtrcen (s : State) (w : Word) : (s.writeDpc w).mtrcen = s.mtrcen := rfl
@[simp] theorem State.writeDpc_trig (s : State) (w : Word) : (s.writeDpc w).trig = s.trig := rfl
@[simp] theorem State.writeDpc_haltPending (s : State) (w : Word) : (s.writeDpc w).haltPending = s.haltPending := rfl
@[simp] theorem State.writeDpc_resetHaltPending (s : State) (w : Word) : (s.writeDpc w).resetHaltPending = s.resetHaltPending := rfl
@[simp] theorem State.writeDpc_groupHaltPending (s : State) (w : Word) : (s.writeDpc w).groupHaltPending = s.groupHaltPending := rfl
@[simp] theorem State.writeDpc_stepArmed (s : State) (w : Word) : (s.writeDpc w).stepArmed = s.stepArmed := rfl
@[simp] theorem State.writeDpc_nmiPending (s : State) (w : Word) : (s.writeDpc w).nmiPending = s.nmiPending := rfl
@[simp] theorem State.writeDpc_dm (s : State) (w : Word) : (s.writeDpc w).dm = s.dm := rfl
@[simp] theorem State.writeDpc_hti (s : State) (w : Word) : (s.writeDpc w).hti = s.hti := rfl
@[simp] theorem State.writeDpc_xlat (s : State) (w : Word) : (s.writeDpc w).xlat = s.xlat := rfl
@[simp] theorem State.writeDpc_mem (s : State) (w : Word) : (s.writeDpc w).mem = s.mem := rfl
@[simp] theorem State.writeDpc_inputs (s : State) (w : Word) : (s.writeDpc w).inputs = s.inputs := rfl
@[simp] theorem State.writeDpc_dcsr (s : State) (w : Word) : (s.writeDpc w).dbg.dcsr = s.dbg.dcsr := rfl
@[simp] theorem State.writeDpc_dpc (s : State) (w : Word) : (s.writeDpc w).dbg.dpc = pcMask s.p w := rfl
@[simp] theorem State.writeDpc_dmprv (s : State) (w : Word) : (s.writeDpc w).dbg.dmprv = s.dbg.dmprv := rfl
@[simp] theorem State.writeDpc_dscratch0 (s : State) (w : Word) : (s.writeDpc w).dbg.dscratch0 = s.dbg.dscratch0 := rfl
@[simp] theorem State.writeDpc_dscratch1 (s : State) (w : Word) : (s.writeDpc w).dbg.dscratch1 = s.dbg.dscratch1 := rfl

/-! ### writeMsdcfg -/

@[simp] theorem State.writeMsdcfg_p (s : State) (w : Word) : (s.writeMsdcfg w).p = s.p := rfl
@[simp] theorem State.writeMsdcfg_regs (s : State) (w : Word) : (s.writeMsdcfg w).regs = s.regs := rfl
@[simp] theorem State.writeMsdcfg_pc (s : State) (w : Word) : (s.writeMsdcfg w).pc = s.pc := rfl
@[simp] theorem State.writeMsdcfg_cur (s : State) (w : Word) : (s.writeMsdcfg w).cur = s.cur := rfl
@[simp] theorem State.writeMsdcfg_inDebug (s : State) (w : Word) : (s.writeMsdcfg w).inDebug = s.inDebug := rfl
@[simp] theorem State.writeMsdcfg_csr (s : State) (w : Word) : (s.writeMsdcfg w).csr = s.csr := rfl
@[simp] theorem State.writeMsdcfg_dbg (s : State) (w : Word) : (s.writeMsdcfg w).dbg = s.dbg := rfl
@[simp] theorem State.writeMsdcfg_mdbgen (s : State) (w : Word) : (s.writeMsdcfg w).mdbgen = s.mdbgen := rfl
@[simp] theorem State.writeMsdcfg_mtrcen (s : State) (w : Word) : (s.writeMsdcfg w).mtrcen = s.mtrcen := rfl
@[simp] theorem State.writeMsdcfg_trig (s : State) (w : Word) : (s.writeMsdcfg w).trig = s.trig := rfl
@[simp] theorem State.writeMsdcfg_haltPending (s : State) (w : Word) : (s.writeMsdcfg w).haltPending = s.haltPending := rfl
@[simp] theorem State.writeMsdcfg_resetHaltPending (s : State) (w : Word) : (s.writeMsdcfg w).resetHaltPending = s.resetHaltPending := rfl
@[simp] theorem State.writeMsdcfg_groupHaltPending (s : State) (w : Word) : (s.writeMsdcfg w).groupHaltPending = s.groupHaltPending := rfl
@[simp] theorem State.writeMsdcfg_stepArmed (s : State) (w : Word) : (s.writeMsdcfg w).stepArmed = s.stepArmed := rfl
@[simp] theorem State.writeMsdcfg_nmiPending (s : State) (w : Word) : (s.writeMsdcfg w).nmiPending = s.nmiPending := rfl
@[simp] theorem State.writeMsdcfg_dm (s : State) (w : Word) : (s.writeMsdcfg w).dm = s.dm := rfl
@[simp] theorem State.writeMsdcfg_hti (s : State) (w : Word) : (s.writeMsdcfg w).hti = s.hti := rfl
@[simp] theorem State.writeMsdcfg_xlat (s : State) (w : Word) : (s.writeMsdcfg w).xlat = s.xlat := rfl
@[simp] theorem State.writeMsdcfg_mem (s : State) (w : Word) : (s.writeMsdcfg w).mem = s.mem := rfl
@[simp] theorem State.writeMsdcfg_inputs (s : State) (w : Word) : (s.writeMsdcfg w).inputs = s.inputs := rfl
@[simp] theorem State.writeMsdcfg_msdcfg (s : State) (w : Word) : (s.writeMsdcfg w).msdcfg = merge (msdcfgMask s.p) s.msdcfg w := rfl

/-! ### setSelected -/

@[simp] theorem State.setSelected_p (s : State) (t : Trigger) : (s.setSelected t).p = s.p := rfl
@[simp] theorem State.setSelected_regs (s : State) (t : Trigger) : (s.setSelected t).regs = s.regs := rfl
@[simp] theorem State.setSelected_pc (s : State) (t : Trigger) : (s.setSelected t).pc = s.pc := rfl
@[simp] theorem State.setSelected_cur (s : State) (t : Trigger) : (s.setSelected t).cur = s.cur := rfl
@[simp] theorem State.setSelected_inDebug (s : State) (t : Trigger) : (s.setSelected t).inDebug = s.inDebug := rfl
@[simp] theorem State.setSelected_csr (s : State) (t : Trigger) : (s.setSelected t).csr = s.csr := rfl
@[simp] theorem State.setSelected_dbg (s : State) (t : Trigger) : (s.setSelected t).dbg = s.dbg := rfl
@[simp] theorem State.setSelected_msdcfg (s : State) (t : Trigger) : (s.setSelected t).msdcfg = s.msdcfg := rfl
@[simp] theorem State.setSelected_mdbgen (s : State) (t : Trigger) : (s.setSelected t).mdbgen = s.mdbgen := rfl
@[simp] theorem State.setSelected_mtrcen (s : State) (t : Trigger) : (s.setSelected t).mtrcen = s.mtrcen := rfl
@[simp] theorem State.setSelected_haltPending (s : State) (t : Trigger) : (s.setSelected t).haltPending = s.haltPending := rfl
@[simp] theorem State.setSelected_resetHaltPending (s : State) (t : Trigger) : (s.setSelected t).resetHaltPending = s.resetHaltPending := rfl
@[simp] theorem State.setSelected_groupHaltPending (s : State) (t : Trigger) : (s.setSelected t).groupHaltPending = s.groupHaltPending := rfl
@[simp] theorem State.setSelected_stepArmed (s : State) (t : Trigger) : (s.setSelected t).stepArmed = s.stepArmed := rfl
@[simp] theorem State.setSelected_nmiPending (s : State) (t : Trigger) : (s.setSelected t).nmiPending = s.nmiPending := rfl
@[simp] theorem State.setSelected_dm (s : State) (t : Trigger) : (s.setSelected t).dm = s.dm := rfl
@[simp] theorem State.setSelected_hti (s : State) (t : Trigger) : (s.setSelected t).hti = s.hti := rfl
@[simp] theorem State.setSelected_xlat (s : State) (t : Trigger) : (s.setSelected t).xlat = s.xlat := rfl
@[simp] theorem State.setSelected_mem (s : State) (t : Trigger) : (s.setSelected t).mem = s.mem := rfl
@[simp] theorem State.setSelected_inputs (s : State) (t : Trigger) : (s.setSelected t).inputs = s.inputs := rfl

/-! ### fireTriggers -/

@[simp] theorem State.fireTriggers_p (s : State) (sel : Trigger → Bool) : (s.fireTriggers sel).p = s.p := rfl
@[simp] theorem State.fireTriggers_regs (s : State) (sel : Trigger → Bool) : (s.fireTriggers sel).regs = s.regs := rfl
@[simp] theorem State.fireTriggers_pc (s : State) (sel : Trigger → Bool) : (s.fireTriggers sel).pc = s.pc := rfl
@[simp] theorem State.fireTriggers_cur (s : State) (sel : Trigger → Bool) : (s.fireTriggers sel).cur = s.cur := rfl
@[simp] theorem State.fireTriggers_inDebug (s : State) (sel : Trigger → Bool) : (s.fireTriggers sel).inDebug = s.inDebug := rfl
@[simp] theorem State.fireTriggers_csr (s : State) (sel : Trigger → Bool) : (s.fireTriggers sel).csr = s.csr := rfl
@[simp] theorem State.fireTriggers_dbg (s : State) (sel : Trigger → Bool) : (s.fireTriggers sel).dbg = s.dbg := rfl
@[simp] theorem State.fireTriggers_msdcfg (s : State) (sel : Trigger → Bool) : (s.fireTriggers sel).msdcfg = s.msdcfg := rfl
@[simp] theorem State.fireTriggers_mdbgen (s : State) (sel : Trigger → Bool) : (s.fireTriggers sel).mdbgen = s.mdbgen := rfl
@[simp] theorem State.fireTriggers_mtrcen (s : State) (sel : Trigger → Bool) : (s.fireTriggers sel).mtrcen = s.mtrcen := rfl
@[simp] theorem State.fireTriggers_haltPending (s : State) (sel : Trigger → Bool) : (s.fireTriggers sel).haltPending = s.haltPending := rfl
@[simp] theorem State.fireTriggers_resetHaltPending (s : State) (sel : Trigger → Bool) : (s.fireTriggers sel).resetHaltPending = s.resetHaltPending := rfl
@[simp] theorem State.fireTriggers_groupHaltPending (s : State) (sel : Trigger → Bool) : (s.fireTriggers sel).groupHaltPending = s.groupHaltPending := rfl
@[simp] theorem State.fireTriggers_stepArmed (s : State) (sel : Trigger → Bool) : (s.fireTriggers sel).stepArmed = s.stepArmed := rfl
@[simp] theorem State.fireTriggers_nmiPending (s : State) (sel : Trigger → Bool) : (s.fireTriggers sel).nmiPending = s.nmiPending := rfl
@[simp] theorem State.fireTriggers_dm (s : State) (sel : Trigger → Bool) : (s.fireTriggers sel).dm = s.dm := rfl
@[simp] theorem State.fireTriggers_hti (s : State) (sel : Trigger → Bool) : (s.fireTriggers sel).hti = s.hti := rfl
@[simp] theorem State.fireTriggers_xlat (s : State) (sel : Trigger → Bool) : (s.fireTriggers sel).xlat = s.xlat := rfl
@[simp] theorem State.fireTriggers_mem (s : State) (sel : Trigger → Bool) : (s.fireTriggers sel).mem = s.mem := rfl
@[simp] theorem State.fireTriggers_inputs (s : State) (sel : Trigger → Bool) : (s.fireTriggers sel).inputs = s.inputs := rfl

/-! ### dropMatched -/

@[simp] theorem State.dropMatched_p (s : State) : (s.dropMatched).p = s.p := rfl
@[simp] theorem State.dropMatched_regs (s : State) : (s.dropMatched).regs = s.regs := rfl
@[simp] theorem State.dropMatched_pc (s : State) : (s.dropMatched).pc = s.pc := rfl
@[simp] theorem State.dropMatched_cur (s : State) : (s.dropMatched).cur = s.cur := rfl
@[simp] theorem State.dropMatched_inDebug (s : State) : (s.dropMatched).inDebug = s.inDebug := rfl
@[simp] theorem State.dropMatched_csr (s : State) : (s.dropMatched).csr = s.csr := rfl
@[simp] theorem State.dropMatched_dbg (s : State) : (s.dropMatched).dbg = s.dbg := rfl
@[simp] theorem State.dropMatched_msdcfg (s : State) : (s.dropMatched).msdcfg = s.msdcfg := rfl
@[simp] theorem State.dropMatched_mdbgen (s : State) : (s.dropMatched).mdbgen = s.mdbgen := rfl
@[simp] theorem State.dropMatched_mtrcen (s : State) : (s.dropMatched).mtrcen = s.mtrcen := rfl
@[simp] theorem State.dropMatched_haltPending (s : State) : (s.dropMatched).haltPending = s.haltPending := rfl
@[simp] theorem State.dropMatched_resetHaltPending (s : State) : (s.dropMatched).resetHaltPending = s.resetHaltPending := rfl
@[simp] theorem State.dropMatched_groupHaltPending (s : State) : (s.dropMatched).groupHaltPending = s.groupHaltPending := rfl
@[simp] theorem State.dropMatched_stepArmed (s : State) : (s.dropMatched).stepArmed = s.stepArmed := rfl
@[simp] theorem State.dropMatched_nmiPending (s : State) : (s.dropMatched).nmiPending = s.nmiPending := rfl
@[simp] theorem State.dropMatched_dm (s : State) : (s.dropMatched).dm = s.dm := rfl
@[simp] theorem State.dropMatched_hti (s : State) : (s.dropMatched).hti = s.hti := rfl
@[simp] theorem State.dropMatched_xlat (s : State) : (s.dropMatched).xlat = s.xlat := rfl
@[simp] theorem State.dropMatched_mem (s : State) : (s.dropMatched).mem = s.mem := rfl
@[simp] theorem State.dropMatched_inputs (s : State) : (s.dropMatched).inputs = s.inputs := rfl
@[simp] theorem State.dropMatched_triggers (s : State) : (s.dropMatched).trig.triggers = s.trig.triggers := rfl
@[simp] theorem State.dropMatched_matched (s : State) : (s.dropMatched).trig.matched = [] := rfl
@[simp] theorem State.dropMatched_extIn (s : State) : (s.dropMatched).trig.extIn = s.trig.extIn := rfl
@[simp] theorem State.dropMatched_extOut (s : State) : (s.dropMatched).trig.extOut = s.trig.extOut := rfl

/-! ### beginStep -/

@[simp] theorem State.beginStep_p (s : State) : (s.beginStep).p = s.p := rfl
@[simp] theorem State.beginStep_regs (s : State) : (s.beginStep).regs = s.regs := rfl
@[simp] theorem State.beginStep_pc (s : State) : (s.beginStep).pc = s.pc := rfl
@[simp] theorem State.beginStep_cur (s : State) : (s.beginStep).cur = s.cur := rfl
@[simp] theorem State.beginStep_inDebug (s : State) : (s.beginStep).inDebug = s.inDebug := rfl
@[simp] theorem State.beginStep_csr (s : State) : (s.beginStep).csr = s.csr := rfl
@[simp] theorem State.beginStep_dbg (s : State) : (s.beginStep).dbg = s.dbg := rfl
@[simp] theorem State.beginStep_msdcfg (s : State) : (s.beginStep).msdcfg = s.msdcfg := rfl
@[simp] theorem State.beginStep_mdbgen (s : State) : (s.beginStep).mdbgen = s.mdbgen := rfl
@[simp] theorem State.beginStep_mtrcen (s : State) : (s.beginStep).mtrcen = s.mtrcen := rfl
@[simp] theorem State.beginStep_haltPending (s : State) : (s.beginStep).haltPending = s.haltPending := rfl
@[simp] theorem State.beginStep_resetHaltPending (s : State) : (s.beginStep).resetHaltPending = s.resetHaltPending := rfl
@[simp] theorem State.beginStep_groupHaltPending (s : State) : (s.beginStep).groupHaltPending = s.groupHaltPending := rfl
@[simp] theorem State.beginStep_stepArmed (s : State) : (s.beginStep).stepArmed = s.stepArmed := rfl
@[simp] theorem State.beginStep_nmiPending (s : State) : (s.beginStep).nmiPending = s.nmiPending := rfl
@[simp] theorem State.beginStep_dm (s : State) : (s.beginStep).dm = s.dm := rfl
@[simp] theorem State.beginStep_xlat (s : State) : (s.beginStep).xlat = s.xlat := rfl
@[simp] theorem State.beginStep_mem (s : State) : (s.beginStep).mem = s.mem := rfl
@[simp] theorem State.beginStep_inputs (s : State) : (s.beginStep).inputs = s.inputs := rfl
@[simp] theorem State.beginStep_hti (s : State) : (s.beginStep).hti = none := rfl
@[simp] theorem State.beginStep_triggers (s : State) : (s.beginStep).trig.triggers = s.trig.triggers := rfl
@[simp] theorem State.beginStep_matched (s : State) : (s.beginStep).trig.matched = s.trig.matched := rfl
@[simp] theorem State.beginStep_extIn (s : State) : (s.beginStep).trig.extIn = s.trig.extIn := rfl
@[simp] theorem State.beginStep_extOut (s : State) : (s.beginStep).trig.extOut = 0 := rfl

/-! ### traceStart -/

@[simp] theorem State.traceStart_p (s : State) : (s.traceStart).p = s.p := rfl
@[simp] theorem State.traceStart_regs (s : State) : (s.traceStart).regs = s.regs := rfl
@[simp] theorem State.traceStart_pc (s : State) : (s.traceStart).pc = s.pc := rfl
@[simp] theorem State.traceStart_cur (s : State) : (s.traceStart).cur = s.cur := rfl
@[simp] theorem State.traceStart_inDebug (s : State) : (s.traceStart).inDebug = s.inDebug := rfl
@[simp] theorem State.traceStart_csr (s : State) : (s.traceStart).csr = s.csr := rfl
@[simp] theorem State.traceStart_dbg (s : State) : (s.traceStart).dbg = s.dbg := rfl
@[simp] theorem State.traceStart_msdcfg (s : State) : (s.traceStart).msdcfg = s.msdcfg := rfl
@[simp] theorem State.traceStart_mdbgen (s : State) : (s.traceStart).mdbgen = s.mdbgen := rfl
@[simp] theorem State.traceStart_mtrcen (s : State) : (s.traceStart).mtrcen = s.mtrcen := rfl
@[simp] theorem State.traceStart_trig (s : State) : (s.traceStart).trig = s.trig := rfl
@[simp] theorem State.traceStart_haltPending (s : State) : (s.traceStart).haltPending = s.haltPending := rfl
@[simp] theorem State.traceStart_resetHaltPending (s : State) : (s.traceStart).resetHaltPending = s.resetHaltPending := rfl
@[simp] theorem State.traceStart_groupHaltPending (s : State) : (s.traceStart).groupHaltPending = s.groupHaltPending := rfl
@[simp] theorem State.traceStart_stepArmed (s : State) : (s.traceStart).stepArmed = s.stepArmed := rfl
@[simp] theorem State.traceStart_nmiPending (s : State) : (s.traceStart).nmiPending = s.nmiPending := rfl
@[simp] theorem State.traceStart_dm (s : State) : (s.traceStart).dm = s.dm := rfl
@[simp] theorem State.traceStart_xlat (s : State) : (s.traceStart).xlat = s.xlat := rfl
@[simp] theorem State.traceStart_mem (s : State) : (s.traceStart).mem = s.mem := rfl
@[simp] theorem State.traceStart_inputs (s : State) : (s.traceStart).inputs = s.inputs := rfl

/-! ### popInput -/

@[simp] theorem State.popInput_p (s : State) : (s.popInput).p = s.p := rfl
@[simp] theorem State.popInput_regs (s : State) : (s.popInput).regs = s.regs := rfl
@[simp] theorem State.popInput_pc (s : State) : (s.popInput).pc = s.pc := rfl
@[simp] theorem State.popInput_cur (s : State) : (s.popInput).cur = s.cur := rfl
@[simp] theorem State.popInput_inDebug (s : State) : (s.popInput).inDebug = s.inDebug := rfl
@[simp] theorem State.popInput_csr (s : State) : (s.popInput).csr = s.csr := rfl
@[simp] theorem State.popInput_dbg (s : State) : (s.popInput).dbg = s.dbg := rfl
@[simp] theorem State.popInput_msdcfg (s : State) : (s.popInput).msdcfg = s.msdcfg := rfl
@[simp] theorem State.popInput_mdbgen (s : State) : (s.popInput).mdbgen = s.mdbgen := rfl
@[simp] theorem State.popInput_mtrcen (s : State) : (s.popInput).mtrcen = s.mtrcen := rfl
@[simp] theorem State.popInput_trig (s : State) : (s.popInput).trig = s.trig := rfl
@[simp] theorem State.popInput_haltPending (s : State) : (s.popInput).haltPending = s.haltPending := rfl
@[simp] theorem State.popInput_resetHaltPending (s : State) : (s.popInput).resetHaltPending = s.resetHaltPending := rfl
@[simp] theorem State.popInput_groupHaltPending (s : State) : (s.popInput).groupHaltPending = s.groupHaltPending := rfl
@[simp] theorem State.popInput_stepArmed (s : State) : (s.popInput).stepArmed = s.stepArmed := rfl
@[simp] theorem State.popInput_nmiPending (s : State) : (s.popInput).nmiPending = s.nmiPending := rfl
@[simp] theorem State.popInput_dm (s : State) : (s.popInput).dm = s.dm := rfl
@[simp] theorem State.popInput_hti (s : State) : (s.popInput).hti = s.hti := rfl
@[simp] theorem State.popInput_xlat (s : State) : (s.popInput).xlat = s.xlat := rfl
@[simp] theorem State.popInput_mem (s : State) : (s.popInput).mem = s.mem := rfl
@[simp] theorem State.popInput_inputs (s : State) : (s.popInput).inputs = s.inputs.tail := rfl

/-! ### enterDebug -/

@[simp] theorem State.enterDebug_p (s : State) (c : DebugCause) : (s.enterDebug c).p = s.p := rfl
@[simp] theorem State.enterDebug_regs (s : State) (c : DebugCause) : (s.enterDebug c).regs = s.regs := rfl
@[simp] theorem State.enterDebug_pc (s : State) (c : DebugCause) : (s.enterDebug c).pc = s.pc := rfl
@[simp] theorem State.enterDebug_cur (s : State) (c : DebugCause) : (s.enterDebug c).cur = s.cur := rfl
@[simp] theorem State.enterDebug_csr (s : State) (c : DebugCause) : (s.enterDebug c).csr = s.csr := rfl
@[simp] theorem State.enterDebug_msdcfg (s : State) (c : DebugCause) : (s.enterDebug c).msdcfg = s.msdcfg := rfl
@[simp] theorem State.enterDebug_mdbgen (s : State) (c : DebugCause) : (s.enterDebug c).mdbgen = s.mdbgen := rfl
@[simp] theorem State.enterDebug_mtrcen (s : State) (c : DebugCause) : (s.enterDebug c).mtrcen = s.mtrcen := rfl
@[simp] theorem State.enterDebug_trig (s : State) (c : DebugCause) : (s.enterDebug c).trig = s.trig := rfl
@[simp] theorem State.enterDebug_nmiPending (s : State) (c : DebugCause) : (s.enterDebug c).nmiPending = s.nmiPending := rfl
@[simp] theorem State.enterDebug_hti (s : State) (c : DebugCause) : (s.enterDebug c).hti = s.hti := rfl
@[simp] theorem State.enterDebug_xlat (s : State) (c : DebugCause) : (s.enterDebug c).xlat = s.xlat := rfl
@[simp] theorem State.enterDebug_mem (s : State) (c : DebugCause) : (s.enterDebug c).mem = s.mem := rfl
@[simp] theorem State.enterDebug_inputs (s : State) (c : DebugCause) : (s.enterDebug c).inputs = s.inputs := rfl
@[simp] theorem State.enterDebug_inDebug (s : State) (c : DebugCause) : (s.enterDebug c).inDebug = true := rfl
@[simp] theorem State.enterDebug_stepArmed (s : State) (c : DebugCause) : (s.enterDebug c).stepArmed = false := rfl
@[simp] theorem State.enterDebug_dpc (s : State) (c : DebugCause) : (s.enterDebug c).dbg.dpc = pcMask s.p s.pc := rfl
@[simp] theorem State.enterDebug_dcsr (s : State) (c : DebugCause) : (s.enterDebug c).dbg.dcsr = setCause (setPrvV s.dbg.dcsr s.cur.prv s.cur.virt) c := rfl
@[simp] theorem State.enterDebug_dmprv (s : State) (c : DebugCause) : (s.enterDebug c).dbg.dmprv = s.dbg.dmprv := rfl
@[simp] theorem State.enterDebug_dscratch0 (s : State) (c : DebugCause) : (s.enterDebug c).dbg.dscratch0 = s.dbg.dscratch0 := rfl
@[simp] theorem State.enterDebug_dscratch1 (s : State) (c : DebugCause) : (s.enterDebug c).dbg.dscratch1 = s.dbg.dscratch1 := rfl
@[simp] theorem State.enterDebug_dm (s : State) (c : DebugCause) : (s.enterDebug c).dm = { s.dm with pbRun := false, quick := false } := rfl
@[simp] theorem State.enterDebug_haltPending (s : State) (c : DebugCause) : (s.enterDebug c).haltPending = (if c = .haltreq then false else s.haltPending) := rfl

/-! ### mretOp -/

@[simp] theorem State.mretOp_p (s : State) : (s.mretOp).p = s.p := rfl
@[simp] theorem State.mretOp_regs (s : State) : (s.mretOp).regs = s.regs := rfl
@[simp] theorem State.mretOp_inDebug (s : State) : (s.mretOp).inDebug = s.inDebug := rfl
@[simp] theorem State.mretOp_dbg (s : State) : (s.mretOp).dbg = s.dbg := rfl
@[simp] theorem State.mretOp_msdcfg (s : State) : (s.mretOp).msdcfg = s.msdcfg := rfl
@[simp] theorem State.mretOp_mdbgen (s : State) : (s.mretOp).mdbgen = s.mdbgen := rfl
@[simp] theorem State.mretOp_mtrcen (s : State) : (s.mretOp).mtrcen = s.mtrcen := rfl
@[simp] theorem State.mretOp_trig (s : State) : (s.mretOp).trig = s.trig := rfl
@[simp] theorem State.mretOp_haltPending (s : State) : (s.mretOp).haltPending = s.haltPending := rfl
@[simp] theorem State.mretOp_resetHaltPending (s : State) : (s.mretOp).resetHaltPending = s.resetHaltPending := rfl
@[simp] theorem State.mretOp_groupHaltPending (s : State) : (s.mretOp).groupHaltPending = s.groupHaltPending := rfl
@[simp] theorem State.mretOp_stepArmed (s : State) : (s.mretOp).stepArmed = s.stepArmed := rfl
@[simp] theorem State.mretOp_nmiPending (s : State) : (s.mretOp).nmiPending = s.nmiPending := rfl
@[simp] theorem State.mretOp_dm (s : State) : (s.mretOp).dm = s.dm := rfl
@[simp] theorem State.mretOp_hti (s : State) : (s.mretOp).hti = s.hti := rfl
@[simp] theorem State.mretOp_xlat (s : State) : (s.mretOp).xlat = s.xlat := rfl
@[simp] theorem State.mretOp_mem (s : State) : (s.mretOp).mem = s.mem := rfl
@[simp] theorem State.mretOp_inputs (s : State) : (s.mretOp).inputs = s.inputs := rfl
@[simp] theorem State.mretOp_pc (s : State) : (s.mretOp).pc = pcMask s.p s.csr.mepc := rfl
@[simp] theorem State.mretOp_cur (s : State) : (s.mretOp).cur = Mode.ofSaved s.csr.mpp s.csr.mpv := rfl
@[simp] theorem State.mretOp_mstatus (s : State) : (s.mretOp).csr.mstatus = mretMstatus s (Mode.ofSaved s.csr.mpp s.csr.mpv) := rfl

/-! ### sretOp -/

@[simp] theorem State.sretOp_p (s : State) : (s.sretOp).p = s.p := rfl
@[simp] theorem State.sretOp_regs (s : State) : (s.sretOp).regs = s.regs := rfl
@[simp] theorem State.sretOp_inDebug (s : State) : (s.sretOp).inDebug = s.inDebug := rfl
@[simp] theorem State.sretOp_dbg (s : State) : (s.sretOp).dbg = s.dbg := rfl
@[simp] theorem State.sretOp_msdcfg (s : State) : (s.sretOp).msdcfg = s.msdcfg := rfl
@[simp] theorem State.sretOp_mdbgen (s : State) : (s.sretOp).mdbgen = s.mdbgen := rfl
@[simp] theorem State.sretOp_mtrcen (s : State) : (s.sretOp).mtrcen = s.mtrcen := rfl
@[simp] theorem State.sretOp_trig (s : State) : (s.sretOp).trig = s.trig := rfl
@[simp] theorem State.sretOp_haltPending (s : State) : (s.sretOp).haltPending = s.haltPending := rfl
@[simp] theorem State.sretOp_resetHaltPending (s : State) : (s.sretOp).resetHaltPending = s.resetHaltPending := rfl
@[simp] theorem State.sretOp_groupHaltPending (s : State) : (s.sretOp).groupHaltPending = s.groupHaltPending := rfl
@[simp] theorem State.sretOp_stepArmed (s : State) : (s.sretOp).stepArmed = s.stepArmed := rfl
@[simp] theorem State.sretOp_nmiPending (s : State) : (s.sretOp).nmiPending = s.nmiPending := rfl
@[simp] theorem State.sretOp_dm (s : State) : (s.sretOp).dm = s.dm := rfl
@[simp] theorem State.sretOp_hti (s : State) : (s.sretOp).hti = s.hti := rfl
@[simp] theorem State.sretOp_xlat (s : State) : (s.sretOp).xlat = s.xlat := rfl
@[simp] theorem State.sretOp_mem (s : State) : (s.sretOp).mem = s.mem := rfl
@[simp] theorem State.sretOp_inputs (s : State) : (s.sretOp).inputs = s.inputs := rfl
@[simp] theorem State.sretOp_pc (s : State) : (s.sretOp).pc = pcMask s.p s.csr.sepc := rfl
@[simp] theorem State.sretOp_cur (s : State) : (s.sretOp).cur = Mode.ofSaved (prvOfSpp s.csr.spp) (s.p.hasH && s.csr.spv) := rfl
@[simp] theorem State.sretOp_mstatus (s : State) : (s.sretOp).csr.mstatus = sretMstatus s := rfl

/-! ### vsretOp -/

@[simp] theorem State.vsretOp_p (s : State) : (s.vsretOp).p = s.p := rfl
@[simp] theorem State.vsretOp_regs (s : State) : (s.vsretOp).regs = s.regs := rfl
@[simp] theorem State.vsretOp_inDebug (s : State) : (s.vsretOp).inDebug = s.inDebug := rfl
@[simp] theorem State.vsretOp_dbg (s : State) : (s.vsretOp).dbg = s.dbg := rfl
@[simp] theorem State.vsretOp_msdcfg (s : State) : (s.vsretOp).msdcfg = s.msdcfg := rfl
@[simp] theorem State.vsretOp_mdbgen (s : State) : (s.vsretOp).mdbgen = s.mdbgen := rfl
@[simp] theorem State.vsretOp_mtrcen (s : State) : (s.vsretOp).mtrcen = s.mtrcen := rfl
@[simp] theorem State.vsretOp_trig (s : State) : (s.vsretOp).trig = s.trig := rfl
@[simp] theorem State.vsretOp_haltPending (s : State) : (s.vsretOp).haltPending = s.haltPending := rfl
@[simp] theorem State.vsretOp_resetHaltPending (s : State) : (s.vsretOp).resetHaltPending = s.resetHaltPending := rfl
@[simp] theorem State.vsretOp_groupHaltPending (s : State) : (s.vsretOp).groupHaltPending = s.groupHaltPending := rfl
@[simp] theorem State.vsretOp_stepArmed (s : State) : (s.vsretOp).stepArmed = s.stepArmed := rfl
@[simp] theorem State.vsretOp_nmiPending (s : State) : (s.vsretOp).nmiPending = s.nmiPending := rfl
@[simp] theorem State.vsretOp_dm (s : State) : (s.vsretOp).dm = s.dm := rfl
@[simp] theorem State.vsretOp_hti (s : State) : (s.vsretOp).hti = s.hti := rfl
@[simp] theorem State.vsretOp_xlat (s : State) : (s.vsretOp).xlat = s.xlat := rfl
@[simp] theorem State.vsretOp_mem (s : State) : (s.vsretOp).mem = s.mem := rfl
@[simp] theorem State.vsretOp_inputs (s : State) : (s.vsretOp).inputs = s.inputs := rfl
@[simp] theorem State.vsretOp_pc (s : State) : (s.vsretOp).pc = pcMask s.p s.csr.vsepc := rfl
@[simp] theorem State.vsretOp_cur (s : State) : (s.vsretOp).cur = Mode.ofSaved (prvOfSpp s.csr.vsspp) true := rfl
@[simp] theorem State.vsretOp_vsstatus (s : State) : (s.vsretOp).csr.vsstatus = vsretVsstatus s := rfl

/-! ### mnretOp -/

@[simp] theorem State.mnretOp_p (s : State) : (s.mnretOp).p = s.p := rfl
@[simp] theorem State.mnretOp_regs (s : State) : (s.mnretOp).regs = s.regs := rfl
@[simp] theorem State.mnretOp_inDebug (s : State) : (s.mnretOp).inDebug = s.inDebug := rfl
@[simp] theorem State.mnretOp_dbg (s : State) : (s.mnretOp).dbg = s.dbg := rfl
@[simp] theorem State.mnretOp_msdcfg (s : State) : (s.mnretOp).msdcfg = s.msdcfg := rfl
@[simp] theorem State.mnretOp_mdbgen (s : State) : (s.mnretOp).mdbgen = s.mdbgen := rfl
@[simp] theorem State.mnretOp_mtrcen (s : State) : (s.mnretOp).mtrcen = s.mtrcen := rfl
@[simp] theorem State.mnretOp_trig (s : State) : (s.mnretOp).trig = s.trig := rfl
@[simp] theorem State.mnretOp_haltPending (s : State) : (s.mnretOp).haltPending = s.haltPending := rfl
@[simp] theorem State.mnretOp_resetHaltPending (s : State) : (s.mnretOp).resetHaltPending = s.resetHaltPending := rfl
@[simp] theorem State.mnretOp_groupHaltPending (s : State) : (s.mnretOp).groupHaltPending = s.groupHaltPending := rfl
@[simp] theorem State.mnretOp_stepArmed (s : State) : (s.mnretOp).stepArmed = s.stepArmed := rfl
@[simp] theorem State.mnretOp_nmiPending (s : State) : (s.mnretOp).nmiPending = s.nmiPending := rfl
@[simp] theorem State.mnretOp_dm (s : State) : (s.mnretOp).dm = s.dm := rfl
@[simp] theorem State.mnretOp_hti (s : State) : (s.mnretOp).hti = s.hti := rfl
@[simp] theorem State.mnretOp_xlat (s : State) : (s.mnretOp).xlat = s.xlat := rfl
@[simp] theorem State.mnretOp_mem (s : State) : (s.mnretOp).mem = s.mem := rfl
@[simp] theorem State.mnretOp_inputs (s : State) : (s.mnretOp).inputs = s.inputs := rfl
@[simp] theorem State.mnretOp_pc (s : State) : (s.mnretOp).pc = pcMask s.p s.csr.mnepc := rfl
@[simp] theorem State.mnretOp_cur (s : State) : (s.mnretOp).cur = Mode.ofSaved s.csr.mnpp s.csr.mnpv := rfl
@[simp] theorem State.mnretOp_mnstatus (s : State) : (s.mnretOp).csr.mnstatus = setBit s.csr.mnstatus 3 true := rfl

/-! ### setX -/

@[simp] theorem State.setX_p (s : State) (i : RegNum) (v : Word) : (s.setX i v).p = s.p := by
  unfold State.setX; split <;> rfl
@[simp] theorem State.setX_pc (s : State) (i : RegNum) (v : Word) : (s.setX i v).pc = s.pc := by
  unfold State.setX; split <;> rfl
@[simp] theorem State.setX_cur (s : State) (i : RegNum) (v : Word) : (s.setX i v).cur = s.cur := by
  unfold State.setX; split <;> rfl
@[simp] theorem State.setX_inDebug (s : State) (i : RegNum) (v : Word) : (s.setX i v).inDebug = s.inDebug := by
  unfold State.setX; split <;> rfl
@[simp] theorem State.setX_csr (s : State) (i : RegNum) (v : Word) : (s.setX i v).csr = s.csr := by
  unfold State.setX; split <;> rfl
@[simp] theorem State.setX_dbg (s : State) (i : RegNum) (v : Word) : (s.setX i v).dbg = s.dbg := by
  unfold State.setX; split <;> rfl
@[simp] theorem State.setX_msdcfg (s : State) (i : RegNum) (v : Word) : (s.setX i v).msdcfg = s.msdcfg := by
  unfold State.setX; split <;> rfl
@[simp] theorem State.setX_mdbgen (s : State) (i : RegNum) (v : Word) : (s.setX i v).mdbgen = s.mdbgen := by
  unfold State.setX; split <;> rfl
@[simp] theorem State.setX_mtrcen (s : State) (i : RegNum) (v : Word) : (s.setX i v).mtrcen = s.mtrcen := by
  unfold State.setX; split <;> rfl
@[simp] theorem State.setX_trig (s : State) (i : RegNum) (v : Word) : (s.setX i v).trig = s.trig := by
  unfold State.setX; split <;> rfl
@[simp] theorem State.setX_haltPending (s : State) (i : RegNum) (v : Word) : (s.setX i v).haltPending = s.haltPending := by
  unfold State.setX; split <;> rfl
@[simp] theorem State.setX_resetHaltPending (s : State) (i : RegNum) (v : Word) : (s.setX i v).resetHaltPending = s.resetHaltPending := by
  unfold State.setX; split <;> rfl
@[simp] theorem State.setX_groupHaltPending (s : State) (i : RegNum) (v : Word) : (s.setX i v).groupHaltPending = s.groupHaltPending := by
  unfold State.setX; split <;> rfl
@[simp] theorem State.setX_stepArmed (s : State) (i : RegNum) (v : Word) : (s.setX i v).stepArmed = s.stepArmed := by
  unfold State.setX; split <;> rfl
@[simp] theorem State.setX_nmiPending (s : State) (i : RegNum) (v : Word) : (s.setX i v).nmiPending = s.nmiPending := by
  unfold State.setX; split <;> rfl
@[simp] theorem State.setX_dm (s : State) (i : RegNum) (v : Word) : (s.setX i v).dm = s.dm := by
  unfold State.setX; split <;> rfl
@[simp] theorem State.setX_hti (s : State) (i : RegNum) (v : Word) : (s.setX i v).hti = s.hti := by
  unfold State.setX; split <;> rfl
@[simp] theorem State.setX_xlat (s : State) (i : RegNum) (v : Word) : (s.setX i v).xlat = s.xlat := by
  unfold State.setX; split <;> rfl
@[simp] theorem State.setX_mem (s : State) (i : RegNum) (v : Word) : (s.setX i v).mem = s.mem := by
  unfold State.setX; split <;> rfl
@[simp] theorem State.setX_inputs (s : State) (i : RegNum) (v : Word) : (s.setX i v).inputs = s.inputs := by
  unfold State.setX; split <;> rfl

/-! ### advance -/

@[simp] theorem State.advance_p (s : State) (n : Nat) : (s.advance n).p = s.p := by
  unfold State.advance; split <;> rfl
@[simp] theorem State.advance_regs (s : State) (n : Nat) : (s.advance n).regs = s.regs := by
  unfold State.advance; split <;> rfl
@[simp] theorem State.advance_cur (s : State) (n : Nat) : (s.advance n).cur = s.cur := by
  unfold State.advance; split <;> rfl
@[simp] theorem State.advance_inDebug (s : State) (n : Nat) : (s.advance n).inDebug = s.inDebug := by
  unfold State.advance; split <;> rfl
@[simp] theorem State.advance_csr (s : State) (n : Nat) : (s.advance n).csr = s.csr := by
  unfold State.advance; split <;> rfl
@[simp] theorem State.advance_dbg (s : State) (n : Nat) : (s.advance n).dbg = s.dbg := by
  unfold State.advance; split <;> rfl
@[simp] theorem State.advance_msdcfg (s : State) (n : Nat) : (s.advance n).msdcfg = s.msdcfg := by
  unfold State.advance; split <;> rfl
@[simp] theorem State.advance_mdbgen (s : State) (n : Nat) : (s.advance n).mdbgen = s.mdbgen := by
  unfold State.advance; split <;> rfl
@[simp] theorem State.advance_mtrcen (s : State) (n : Nat) : (s.advance n).mtrcen = s.mtrcen := by
  unfold State.advance; split <;> rfl
@[simp] theorem State.advance_trig (s : State) (n : Nat) : (s.advance n).trig = s.trig := by
  unfold State.advance; split <;> rfl
@[simp] theorem State.advance_haltPending (s : State) (n : Nat) : (s.advance n).haltPending = s.haltPending := by
  unfold State.advance; split <;> rfl
@[simp] theorem State.advance_resetHaltPending (s : State) (n : Nat) : (s.advance n).resetHaltPending = s.resetHaltPending := by
  unfold State.advance; split <;> rfl
@[simp] theorem State.advance_groupHaltPending (s : State) (n : Nat) : (s.advance n).groupHaltPending = s.groupHaltPending := by
  unfold State.advance; split <;> rfl
@[simp] theorem State.advance_stepArmed (s : State) (n : Nat) : (s.advance n).stepArmed = s.stepArmed := by
  unfold State.advance; split <;> rfl
@[simp] theorem State.advance_nmiPending (s : State) (n : Nat) : (s.advance n).nmiPending = s.nmiPending := by
  unfold State.advance; split <;> rfl
@[simp] theorem State.advance_hti (s : State) (n : Nat) : (s.advance n).hti = s.hti := by
  unfold State.advance; split <;> rfl
@[simp] theorem State.advance_xlat (s : State) (n : Nat) : (s.advance n).xlat = s.xlat := by
  unfold State.advance; split <;> rfl
@[simp] theorem State.advance_mem (s : State) (n : Nat) : (s.advance n).mem = s.mem := by
  unfold State.advance; split <;> rfl
@[simp] theorem State.advance_inputs (s : State) (n : Nat) : (s.advance n).inputs = s.inputs := by
  unfold State.advance; split <;> rfl

/-! ### trapTo -/

@[simp] theorem State.trapTo_p (s : State) (dest : Mode) (intr : Bool) (code : Nat) (tval : Word) : (s.trapTo dest intr code tval).p = s.p := by
  cases dest <;> rfl
@[simp] theorem State.trapTo_regs (s : State) (dest : Mode) (intr : Bool) (code : Nat) (tval : Word) : (s.trapTo dest intr code tval).regs = s.regs := by
  cases dest <;> rfl
@[simp] theorem State.trapTo_inDebug (s : State) (dest : Mode) (intr : Bool) (code : Nat) (tval : Word) : (s.trapTo dest intr code tval).inDebug = s.inDebug := by
  cases dest <;> rfl
@[simp] theorem State.trapTo_dbg (s : State) (dest : Mode) (intr : Bool) (code : Nat) (tval : Word) : (s.trapTo dest intr code tval).dbg = s.dbg := by
  cases dest <;> rfl
@[simp] theorem State.trapTo_msdcfg (s : State) (dest : Mode) (intr : Bool) (code : Nat) (tval : Word) : (s.trapTo dest intr code tval).msdcfg = s.msdcfg := by
  cases dest <;> rfl
@[simp] theorem State.trapTo_mdbgen (s : State) (dest : Mode) (intr : Bool) (code : Nat) (tval : Word) : (s.trapTo dest intr code tval).mdbgen = s.mdbgen := by
  cases dest <;> rfl
@[simp] theorem State.trapTo_mtrcen (s : State) (dest : Mode) (intr : Bool) (code : Nat) (tval : Word) : (s.trapTo dest intr code tval).mtrcen = s.mtrcen := by
  cases dest <;> rfl
@[simp] theorem State.trapTo_trig (s : State) (dest : Mode) (intr : Bool) (code : Nat) (tval : Word) : (s.trapTo dest intr code tval).trig = s.trig := by
  cases dest <;> rfl
@[simp] theorem State.trapTo_haltPending (s : State) (dest : Mode) (intr : Bool) (code : Nat) (tval : Word) : (s.trapTo dest intr code tval).haltPending = s.haltPending := by
  cases dest <;> rfl
@[simp] theorem State.trapTo_resetHaltPending (s : State) (dest : Mode) (intr : Bool) (code : Nat) (tval : Word) : (s.trapTo dest intr code tval).resetHaltPending = s.resetHaltPending := by
  cases dest <;> rfl
@[simp] theorem State.trapTo_groupHaltPending (s : State) (dest : Mode) (intr : Bool) (code : Nat) (tval : Word) : (s.trapTo dest intr code tval).groupHaltPending = s.groupHaltPending := by
  cases dest <;> rfl
@[simp] theorem State.trapTo_stepArmed (s : State) (dest : Mode) (intr : Bool) (code : Nat) (tval : Word) : (s.trapTo dest intr code tval).stepArmed = s.stepArmed := by
  cases dest <;> rfl
@[simp] theorem State.trapTo_nmiPending (s : State) (dest : Mode) (intr : Bool) (code : Nat) (tval : Word) : (s.trapTo dest intr code tval).nmiPending = s.nmiPending := by
  cases dest <;> rfl
@[simp] theorem State.trapTo_dm (s : State) (dest : Mode) (intr : Bool) (code : Nat) (tval : Word) : (s.trapTo dest intr code tval).dm = s.dm := by
  cases dest <;> rfl
@[simp] theorem State.trapTo_xlat (s : State) (dest : Mode) (intr : Bool) (code : Nat) (tval : Word) : (s.trapTo dest intr code tval).xlat = s.xlat := by
  cases dest <;> rfl
@[simp] theorem State.trapTo_mem (s : State) (dest : Mode) (intr : Bool) (code : Nat) (tval : Word) : (s.trapTo dest intr code tval).mem = s.mem := by
  cases dest <;> rfl
@[simp] theorem State.trapTo_inputs (s : State) (dest : Mode) (intr : Bool) (code : Nat) (tval : Word) : (s.trapTo dest intr code tval).inputs = s.inputs := by
  cases dest <;> rfl

@[simp] theorem State.trapTo_hti (s : State) (dest : Mode) (intr : Bool) (code : Nat) (tval : Word) :
    (s.trapTo dest intr code tval).hti = none := by
  cases dest <;> rfl

/-! ### takeException -/

@[simp] theorem State.takeException_p (s : State) (e : Exc) : (s.takeException e).p = s.p := by
  unfold State.takeException; split <;> simp
@[simp] theorem State.takeException_regs (s : State) (e : Exc) : (s.takeException e).regs = s.regs := by
  unfold State.takeException; split <;> simp
@[simp] theorem State.takeException_inDebug (s : State) (e : Exc) : (s.takeException e).inDebug = s.inDebug := by
  unfold State.takeException; split <;> simp
@[simp] theorem State.takeException_dbg (s : State) (e : Exc) : (s.takeException e).dbg = s.dbg := by
  unfold State.takeException; split <;> simp
@[simp] theorem State.takeException_msdcfg (s : State) (e : Exc) : (s.takeException e).msdcfg = s.msdcfg := by
  unfold State.takeException; split <;> simp
@[simp] theorem State.takeException_mdbgen (s : State) (e : Exc) : (s.takeException e).mdbgen = s.mdbgen := by
  unfold State.takeException; split <;> simp
@[simp] theorem State.takeException_mtrcen (s : State) (e : Exc) : (s.takeException e).mtrcen = s.mtrcen := by
  unfold State.takeException; split <;> simp
@[simp] theorem State.takeException_trig (s : State) (e : Exc) : (s.takeException e).trig = s.trig := by
  unfold State.takeException; split <;> simp
@[simp] theorem State.takeException_haltPending (s : State) (e : Exc) : (s.takeException e).haltPending = s.haltPending := by
  unfold State.takeException; split <;> simp
@[simp] theorem State.takeException_resetHaltPending (s : State) (e : Exc) : (s.takeException e).resetHaltPending = s.resetHaltPending := by
  unfold State.takeException; split <;> simp
@[simp] theorem State.takeException_groupHaltPending (s : State) (e : Exc) : (s.takeException e).groupHaltPending = s.groupHaltPending := by
  unfold State.takeException; split <;> simp
@[simp] theorem State.takeException_stepArmed (s : State) (e : Exc) : (s.takeException e).stepArmed = s.stepArmed := by
  unfold State.takeException; split <;> simp
@[simp] theorem State.takeException_nmiPending (s : State) (e : Exc) : (s.takeException e).nmiPending = s.nmiPending := by
  unfold State.takeException; split <;> simp
@[simp] theorem State.takeException_xlat (s : State) (e : Exc) : (s.takeException e).xlat = s.xlat := by
  unfold State.takeException; split <;> simp
@[simp] theorem State.takeException_mem (s : State) (e : Exc) : (s.takeException e).mem = s.mem := by
  unfold State.takeException; split <;> simp
@[simp] theorem State.takeException_inputs (s : State) (e : Exc) : (s.takeException e).inputs = s.inputs := by
  unfold State.takeException; split <;> simp

/-! ### takeNmi and takeInterrupt -/

@[simp] theorem State.takeNmi_p (s : State) : (s.takeNmi).p = s.p := by
  unfold State.takeNmi; split <;> simp
@[simp] theorem State.takeNmi_regs (s : State) : (s.takeNmi).regs = s.regs := by
  unfold State.takeNmi; split <;> simp
@[simp] theorem State.takeNmi_inDebug (s : State) : (s.takeNmi).inDebug = s.inDebug := by
  unfold State.takeNmi; split <;> simp
@[simp] theorem State.takeNmi_dbg (s : State) : (s.takeNmi).dbg = s.dbg := by
  unfold State.takeNmi; split <;> simp
@[simp] theorem State.takeNmi_msdcfg (s : State) : (s.takeNmi).msdcfg = s.msdcfg := by
  unfold State.takeNmi; split <;> simp
@[simp] theorem State.takeNmi_mdbgen (s : State) : (s.takeNmi).mdbgen = s.mdbgen := by
  unfold State.takeNmi; split <;> simp
@[simp] theorem State.takeNmi_mtrcen (s : State) : (s.takeNmi).mtrcen = s.mtrcen := by
  unfold State.takeNmi; split <;> simp
@[simp] theorem State.takeNmi_trig (s : State) : (s.takeNmi).trig = s.trig := by
  unfold State.takeNmi; split <;> simp
@[simp] theorem State.takeNmi_haltPending (s : State) : (s.takeNmi).haltPending = s.haltPending := by
  unfold State.takeNmi; split <;> simp
@[simp] theorem State.takeNmi_resetHaltPending (s : State) : (s.takeNmi).resetHaltPending = s.resetHaltPending := by
  unfold State.takeNmi; split <;> simp
@[simp] theorem State.takeNmi_groupHaltPending (s : State) : (s.takeNmi).groupHaltPending = s.groupHaltPending := by
  unfold State.takeNmi; split <;> simp
@[simp] theorem State.takeNmi_stepArmed (s : State) : (s.takeNmi).stepArmed = s.stepArmed := by
  unfold State.takeNmi; split <;> simp
@[simp] theorem State.takeNmi_dm (s : State) : (s.takeNmi).dm = s.dm := by
  unfold State.takeNmi; split <;> simp
@[simp] theorem State.takeNmi_xlat (s : State) : (s.takeNmi).xlat = s.xlat := by
  unfold State.takeNmi; split <;> simp
@[simp] theorem State.takeNmi_mem (s : State) : (s.takeNmi).mem = s.mem := by
  unfold State.takeNmi; split <;> simp
@[simp] theorem State.takeNmi_inputs (s : State) : (s.takeNmi).inputs = s.inputs := by
  unfold State.takeNmi; split <;> simp

/-! ### takeInterrupt -/

@[simp] theorem State.takeInterrupt_p (s : State) (t : Taken) : (s.takeInterrupt t).p = s.p := by
  cases t <;> simp [State.takeInterrupt]
@[simp] theorem State.takeInterrupt_regs (s : State) (t : Taken) : (s.takeInterrupt t).regs = s.regs := by
  cases t <;> simp [State.takeInterrupt]
@[simp] theorem State.takeInterrupt_inDebug (s : State) (t : Taken) : (s.takeInterrupt t).inDebug = s.inDebug := by
  cases t <;> simp [State.takeInterrupt]
@[simp] theorem State.takeInterrupt_dbg (s : State) (t : Taken) : (s.takeInterrupt t).dbg = s.dbg := by
  cases t <;> simp [State.takeInterrupt]
@[simp] theorem State.takeInterrupt_msdcfg (s : State) (t : Taken) : (s.takeInterrupt t).msdcfg = s.msdcfg := by
  cases t <;> simp [State.takeInterrupt]
@[simp] theorem State.takeInterrupt_mdbgen (s : State) (t : Taken) : (s.takeInterrupt t).mdbgen = s.mdbgen := by
  cases t <;> simp [State.takeInterrupt]
@[simp] theorem State.takeInterrupt_mtrcen (s : State) (t : Taken) : (s.takeInterrupt t).mtrcen = s.mtrcen := by
  cases t <;> simp [State.takeInterrupt]
@[simp] theorem State.takeInterrupt_trig (s : State) (t : Taken) : (s.takeInterrupt t).trig = s.trig := by
  cases t <;> simp [State.takeInterrupt]
@[simp] theorem State.takeInterrupt_haltPending (s : State) (t : Taken) : (s.takeInterrupt t).haltPending = s.haltPending := by
  cases t <;> simp [State.takeInterrupt]
@[simp] theorem State.takeInterrupt_resetHaltPending (s : State) (t : Taken) : (s.takeInterrupt t).resetHaltPending = s.resetHaltPending := by
  cases t <;> simp [State.takeInterrupt]
@[simp] theorem State.takeInterrupt_groupHaltPending (s : State) (t : Taken) : (s.takeInterrupt t).groupHaltPending = s.groupHaltPending := by
  cases t <;> simp [State.takeInterrupt]
@[simp] theorem State.takeInterrupt_stepArmed (s : State) (t : Taken) : (s.takeInterrupt t).stepArmed = s.stepArmed := by
  cases t <;> simp [State.takeInterrupt]
@[simp] theorem State.takeInterrupt_dm (s : State) (t : Taken) : (s.takeInterrupt t).dm = s.dm := by
  cases t <;> simp [State.takeInterrupt]
@[simp] theorem State.takeInterrupt_xlat (s : State) (t : Taken) : (s.takeInterrupt t).xlat = s.xlat := by
  cases t <;> simp [State.takeInterrupt]
@[simp] theorem State.takeInterrupt_mem (s : State) (t : Taken) : (s.takeInterrupt t).mem = s.mem := by
  cases t <;> simp [State.takeInterrupt]
@[simp] theorem State.takeInterrupt_inputs (s : State) (t : Taken) : (s.takeInterrupt t).inputs = s.inputs := by
  cases t <;> simp [State.takeInterrupt]

/-! ### writeTselect -/

@[simp] theorem State.writeTselect_p (s : State) (w : Word) : (s.writeTselect w).p = s.p := by
  unfold State.writeTselect; split <;> rfl
@[simp] theorem State.writeTselect_regs (s : State) (w : Word) : (s.writeTselect w).regs = s.regs := by
  unfold State.writeTselect; split <;> rfl
@[simp] theorem State.writeTselect_pc (s : State) (w : Word) : (s.writeTselect w).pc = s.pc := by
  unfold State.writeTselect; split <;> rfl
@[simp] theorem State.writeTselect_cur (s : State) (w : Word) : (s.writeTselect w).cur = s.cur := by
  unfold State.writeTselect; split <;> rfl
@[simp] theorem State.writeTselect_inDebug (s : State) (w : Word) : (s.writeTselect w).inDebug = s.inDebug := by
  unfold State.writeTselect; split <;> rfl
@[simp] theorem State.writeTselect_csr (s : State) (w : Word) : (s.writeTselect w).csr = s.csr := by
  unfold State.writeTselect; split <;> rfl
@[simp] theorem State.writeTselect_dbg (s : State) (w : Word) : (s.writeTselect w).dbg = s.dbg := by
  unfold State.writeTselect; split <;> rfl
@[simp] theorem State.writeTselect_msdcfg (s : State) (w : Word) : (s.writeTselect w).msdcfg = s.msdcfg := by
  unfold State.writeTselect; split <;> rfl
@[simp] theorem State.writeTselect_mdbgen (s : State) (w : Word) : (s.writeTselect w).mdbgen = s.mdbgen := by
  unfold State.writeTselect; split <;> rfl
@[simp] theorem State.writeTselect_mtrcen (s : State) (w : Word) : (s.writeTselect w).mtrcen = s.mtrcen := by
  unfold State.writeTselect; split <;> rfl
@[simp] theorem State.writeTselect_haltPending (s : State) (w : Word) : (s.writeTselect w).haltPending = s.haltPending := by
  unfold State.writeTselect; split <;> rfl
@[simp] theorem State.writeTselect_resetHaltPending (s : State) (w : Word) : (s.writeTselect w).resetHaltPending = s.resetHaltPending := by
  unfold State.writeTselect; split <;> rfl
@[simp] theorem State.writeTselect_groupHaltPending (s : State) (w : Word) : (s.writeTselect w).groupHaltPending = s.groupHaltPending := by
  unfold State.writeTselect; split <;> rfl
@[simp] theorem State.writeTselect_stepArmed (s : State) (w : Word) : (s.writeTselect w).stepArmed = s.stepArmed := by
  unfold State.writeTselect; split <;> rfl
@[simp] theorem State.writeTselect_nmiPending (s : State) (w : Word) : (s.writeTselect w).nmiPending = s.nmiPending := by
  unfold State.writeTselect; split <;> rfl
@[simp] theorem State.writeTselect_dm (s : State) (w : Word) : (s.writeTselect w).dm = s.dm := by
  unfold State.writeTselect; split <;> rfl
@[simp] theorem State.writeTselect_hti (s : State) (w : Word) : (s.writeTselect w).hti = s.hti := by
  unfold State.writeTselect; split <;> rfl
@[simp] theorem State.writeTselect_xlat (s : State) (w : Word) : (s.writeTselect w).xlat = s.xlat := by
  unfold State.writeTselect; split <;> rfl
@[simp] theorem State.writeTselect_mem (s : State) (w : Word) : (s.writeTselect w).mem = s.mem := by
  unfold State.writeTselect; split <;> rfl
@[simp] theorem State.writeTselect_inputs (s : State) (w : Word) : (s.writeTselect w).inputs = s.inputs := by
  unfold State.writeTselect; split <;> rfl

/-! ### writeTdata1 -/

@[simp] theorem State.writeTdata1_p (s : State) (w : Word) : (s.writeTdata1 w).p = s.p := by
  unfold State.writeTdata1; repeat (first | rfl | split)
@[simp] theorem State.writeTdata1_regs (s : State) (w : Word) : (s.writeTdata1 w).regs = s.regs := by
  unfold State.writeTdata1; repeat (first | rfl | split)
@[simp] theorem State.writeTdata1_pc (s : State) (w : Word) : (s.writeTdata1 w).pc = s.pc := by
  unfold State.writeTdata1; repeat (first | rfl | split)
@[simp] theorem State.writeTdata1_cur (s : State) (w : Word) : (s.writeTdata1 w).cur = s.cur := by
  unfold State.writeTdata1; repeat (first | rfl | split)
@[simp] theorem State.writeTdata1_inDebug (s : State) (w : Word) : (s.writeTdata1 w).inDebug = s.inDebug := by
  unfold State.writeTdata1; repeat (first | rfl | split)
@[simp] theorem State.writeTdata1_csr (s : State) (w : Word) : (s.writeTdata1 w).csr = s.csr := by
  unfold State.writeTdata1; repeat (first | rfl | split)
@[simp] theorem State.writeTdata1_dbg (s : State) (w : Word) : (s.writeTdata1 w).dbg = s.dbg := by
  unfold State.writeTdata1; repeat (first | rfl | split)
@[simp] theorem State.writeTdata1_msdcfg (s : State) (w : Word) : (s.writeTdata1 w).msdcfg = s.msdcfg := by
  unfold State.writeTdata1; repeat (first | rfl | split)
@[simp] theorem State.writeTdata1_mdbgen (s : State) (w : Word) : (s.writeTdata1 w).mdbgen = s.mdbgen := by
  unfold State.writeTdata1; repeat (first | rfl | split)
@[simp] theorem State.writeTdata1_mtrcen (s : State) (w : Word) : (s.writeTdata1 w).mtrcen = s.mtrcen := by
  unfold State.writeTdata1; repeat (first | rfl | split)
@[simp] theorem State.writeTdata1_haltPending (s : State) (w : Word) : (s.writeTdata1 w).haltPending = s.haltPending := by
  unfold State.writeTdata1; repeat (first | rfl | split)
@[simp] theorem State.writeTdata1_resetHaltPending (s : State) (w : Word) : (s.writeTdata1 w).resetHaltPending = s.resetHaltPending := by
  unfold State.writeTdata1; repeat (first | rfl | split)
@[simp] theorem State.writeTdata1_groupHaltPending (s : State) (w : Word) : (s.writeTdata1 w).groupHaltPending = s.groupHaltPending := by
  unfold State.writeTdata1; repeat (first | rfl | split)
@[simp] theorem State.writeTdata1_stepArmed (s : State) (w : Word) : (s.writeTdata1 w).stepArmed = s.stepArmed := by
  unfold State.writeTdata1; repeat (first | rfl | split)
@[simp] theorem State.writeTdata1_nmiPending (s : State) (w : Word) : (s.writeTdata1 w).nmiPending = s.nmiPending := by
  unfold State.writeTdata1; repeat (first | rfl | split)
@[simp] theorem State.writeTdata1_dm (s : State) (w : Word) : (s.writeTdata1 w).dm = s.dm := by
  unfold State.writeTdata1; repeat (first | rfl | split)
@[simp] theorem State.writeTdata1_hti (s : State) (w : Word) : (s.writeTdata1 w).hti = s.hti := by
  unfold State.writeTdata1; repeat (first | rfl | split)
@[simp] theorem State.writeTdata1_xlat (s : State) (w : Word) : (s.writeTdata1 w).xlat = s.xlat := by
  unfold State.writeTdata1; repeat (first | rfl | split)
@[simp] theorem State.writeTdata1_mem (s : State) (w : Word) : (s.writeTdata1 w).mem = s.mem := by
  unfold State.writeTdata1; repeat (first | rfl | split)
@[simp] theorem State.writeTdata1_inputs (s : State) (w : Word) : (s.writeTdata1 w).inputs = s.inputs := by
  unfold State.writeTdata1; repeat (first | rfl | split)

/-! ### writeTdata2 -/

@[simp] theorem State.writeTdata2_p (s : State) (w : Word) : (s.writeTdata2 w).p = s.p := by
  unfold State.writeTdata2; repeat (first | rfl | split)
@[simp] theorem State.writeTdata2_regs (s : State) (w : Word) : (s.writeTdata2 w).regs = s.regs := by
  unfold State.writeTdata2; repeat (first | rfl | split)
@[simp] theorem State.writeTdata2_pc (s : State) (w : Word) : (s.writeTdata2 w).pc = s.pc := by
  unfold State.writeTdata2; repeat (first | rfl | split)
@[simp] theorem State.writeTdata2_cur (s : State) (w : Word) : (s.writeTdata2 w).cur = s.cur := by
  unfold State.writeTdata2; repeat (first | rfl | split)
@[simp] theorem State.writeTdata2_inDebug (s : State) (w : Word) : (s.writeTdata2 w).inDebug = s.inDebug := by
  unfold State.writeTdata2; repeat (first | rfl | split)
@[simp] theorem State.writeTdata2_csr (s : State) (w : Word) : (s.writeTdata2 w).csr = s.csr := by
  unfold State.writeTdata2; repeat (first | rfl | split)
@[simp] theorem State.writeTdata2_dbg (s : State) (w : Word) : (s.writeTdata2 w).dbg = s.dbg := by
  unfold State.writeTdata2; repeat (first | rfl | split)
@[simp] theorem State.writeTdata2_msdcfg (s : State) (w : Word) : (s.writeTdata2 w).msdcfg = s.msdcfg := by
  unfold State.writeTdata2; repeat (first | rfl | split)
@[simp] theorem State.writeTdata2_mdbgen (s : State) (w : Word) : (s.writeTdata2 w).mdbgen = s.mdbgen := by
  unfold State.writeTdata2; repeat (first | rfl | split)
@[simp] theorem State.writeTdata2_mtrcen (s : State) (w : Word) : (s.writeTdata2 w).mtrcen = s.mtrcen := by
  unfold State.writeTdata2; repeat (first | rfl | split)
@[simp] theorem State.writeTdata2_haltPending (s : State) (w : Word) : (s.writeTdata2 w).haltPending = s.haltPending := by
  unfold State.writeTdata2; repeat (first | rfl | split)
@[simp] theorem State.writeTdata2_resetHaltPending (s : State) (w : Word) : (s.writeTdata2 w).resetHaltPending = s.resetHaltPending := by
  unfold State.writeTdata2; repeat (first | rfl | split)
@[simp] theorem State.writeTdata2_groupHaltPending (s : State) (w : Word) : (s.writeTdata2 w).groupHaltPending = s.groupHaltPending := by
  unfold State.writeTdata2; repeat (first | rfl | split)
@[simp] theorem State.writeTdata2_stepArmed (s : State) (w : Word) : (s.writeTdata2 w).stepArmed = s.stepArmed := by
  unfold State.writeTdata2; repeat (first | rfl | split)
@[simp] theorem State.writeTdata2_nmiPending (s : State) (w : Word) : (s.writeTdata2 w).nmiPending = s.nmiPending := by
  unfold State.writeTdata2; repeat (first | rfl | split)
@[simp] theorem State.writeTdata2_dm (s : State) (w : Word) : (s.writeTdata2 w).dm = s.dm := by
  unfold State.writeTdata2; repeat (first | rfl | split)
@[simp] theorem State.writeTdata2_hti (s : State) (w : Word) : (s.writeTdata2 w).hti = s.hti := by
  unfold State.writeTdata2; repeat (first | rfl | split)
@[simp] theorem State.writeTdata2_xlat (s : State) (w : Word) : (s.writeTdata2 w).xlat = s.xlat := by
  unfold State.writeTdata2; repeat (first | rfl | split)
@[simp] theorem State.writeTdata2_mem (s : State) (w : Word) : (s.writeTdata2 w).mem = s.mem := by
  unfold State.writeTdata2; repeat (first | rfl | split)
@[simp] theorem State.writeTdata2_inputs (s : State) (w : Word) : (s.writeTdata2 w).inputs = s.inputs := by
  unfold State.writeTdata2; repeat (first | rfl | split)

/-! ### writeSdcsr -/

@[simp] theorem State.writeSdcsr_p (s : State) (w : BitVec 32) : (s.writeSdcsr w).p = s.p := by
  unfold State.writeSdcsr; split <;> rfl
@[simp] theorem State.writeSdcsr_regs (s : State) (w : BitVec 32) : (s.writeSdcsr w).regs = s.regs := by
  unfold State.writeSdcsr; split <;> rfl
@[simp] theorem State.writeSdcsr_pc (s : State) (w : BitVec 32) : (s.writeSdcsr w).pc = s.pc := by
  unfold State.writeSdcsr; split <;> rfl
@[simp] theorem State.writeSdcsr_cur (s : State) (w : BitVec 32) : (s.writeSdcsr w).cur = s.cur := by
  unfold State.writeSdcsr; split <;> rfl
@[simp] theorem State.writeSdcsr_inDebug (s : State) (w : BitVec 32) : (s.writeSdcsr w).inDebug = s.inDebug := by
  unfold State.writeSdcsr; split <;> rfl
@[simp] theorem State.writeSdcsr_csr (s : State) (w : BitVec 32) : (s.writeSdcsr w).csr = s.csr := by
  unfold State.writeSdcsr; split <;> rfl
@[simp] theorem State.writeSdcsr_msdcfg (s : State) (w : BitVec 32) : (s.writeSdcsr w).msdcfg = s.msdcfg := by
  unfold State.writeSdcsr; split <;> rfl
@[simp] theorem State.writeSdcsr_mdbgen (s : State) (w : BitVec 32) : (s.writeSdcsr w).mdbgen = s.mdbgen := by
  unfold State.writeSdcsr; split <;> rfl
@[simp] theorem State.writeSdcsr_mtrcen (s : State) (w : BitVec 32) : (s.writeSdcsr w).mtrcen = s.mtrcen := by
  unfold State.writeSdcsr; split <;> rfl
@[simp] theorem State.writeSdcsr_trig (s : State) (w : BitVec 32) : (s.writeSdcsr w).trig = s.trig := by
  unfold State.writeSdcsr; split <;> rfl
@[simp] theorem State.writeSdcsr_haltPending (s : State) (w : BitVec 32) : (s.writeSdcsr w).haltPending = s.haltPending := by
  unfold State.writeSdcsr; split <;> rfl
@[simp] theorem State.writeSdcsr_resetHaltPending (s : State) (w : BitVec 32) : (s.writeSdcsr w).resetHaltPending = s.resetHaltPending := by
  unfold State.writeSdcsr; split <;> rfl
@[simp] theorem State.writeSdcsr_groupHaltPending (s : State) (w : BitVec 32) : (s.writeSdcsr w).groupHaltPending = s.groupHaltPending := by
  unfold State.writeSdcsr; split <;> rfl
@[simp] theorem State.writeSdcsr_stepArmed (s : State) (w : BitVec 32) : (s.writeSdcsr w).stepArmed = s.stepArmed := by
  unfold State.writeSdcsr; split <;> rfl
@[simp] theorem State.writeSdcsr_nmiPending (s : State) (w : BitVec 32) : (s.writeSdcsr w).nmiPending = s.nmiPending := by
  unfold State.writeSdcsr; split <;> rfl
@[simp] theorem State.writeSdcsr_dm (s : State) (w : BitVec 32) : (s.writeSdcsr w).dm = s.dm := by
  unfold State.writeSdcsr; split <;> rfl
@[simp] theorem State.writeSdcsr_hti (s : State) (w : BitVec 32) : (s.writeSdcsr w).hti = s.hti := by
  unfold State.writeSdcsr; split <;> rfl
@[simp] theorem State.writeSdcsr_xlat (s : State) (w : BitVec 32) : (s.writeSdcsr w).xlat = s.xlat := by
  unfold State.writeSdcsr; split <;> rfl
@[simp] theorem State.writeSdcsr_mem (s : State) (w : BitVec 32) : (s.writeSdcsr w).mem = s.mem := by
  unfold State.writeSdcsr; split <;> rfl
@[simp] theorem State.writeSdcsr_inputs (s : State) (w : BitVec 32) : (s.writeSdcsr w).inputs = s.inputs := by
  unfold State.writeSdcsr; split <;> rfl

/-! ### csrWrite -/

@[simp] theorem State.csrWrite_p (s : State) (c : Csr) (v : Word) : (s.csrWrite c v).p = s.p := by
  cases c <;> simp [State.csrWrite]
@[simp] theorem State.csrWrite_regs (s : State) (c : Csr) (v : Word) : (s.csrWrite c v).regs = s.regs := by
  cases c <;> simp [State.csrWrite]
@[simp] theorem State.csrWrite_pc (s : State) (c : Csr) (v : Word) : (s.csrWrite c v).pc = s.pc := by
  cases c <;> simp [State.csrWrite]
@[simp] theorem State.csrWrite_cur (s : State) (c : Csr) (v : Word) : (s.csrWrite c v).cur = s.cur := by
  cases c <;> simp [State.csrWrite]
@[simp] theorem State.csrWrite_inDebug (s : State) (c : Csr) (v : Word) : (s.csrWrite c v).inDebug = s.inDebug := by
  cases c <;> simp [State.csrWrite]
@[simp] theorem State.csrWrite_mdbgen (s : State) (c : Csr) (v : Word) : (s.csrWrite c v).mdbgen = s.mdbgen := by
  cases c <;> simp [State.csrWrite]
@[simp] theorem State.csrWrite_mtrcen (s : State) (c : Csr) (v : Word) : (s.csrWrite c v).mtrcen = s.mtrcen := by
  cases c <;> simp [State.csrWrite]
@[simp] theorem State.csrWrite_haltPending (s : State) (c : Csr) (v : Word) : (s.csrWrite c v).haltPending = s.haltPending := by
  cases c <;> simp [State.csrWrite]
@[simp] theorem State.csrWrite_resetHaltPending (s : State) (c : Csr) (v : Word) : (s.csrWrite c v).resetHaltPending = s.resetHaltPending := by
  cases c <;> simp [State.csrWrite]
@[simp] theorem State.csrWrite_groupHaltPending (s : State) (c : Csr) (v : Word) : (s.csrWrite c v).groupHaltPending = s.groupHaltPending := by
  cases c <;> simp [State.csrWrite]
@[simp] theorem State.csrWrite_stepArmed (s : State) (c : Csr) (v : Word) : (s.csrWrite c v).stepArmed = s.stepArmed := by
  cases c <;> simp [State.csrWrite]
@[simp] theorem State.csrWrite_nmiPending (s : State) (c : Csr) (v : Word) : (s.csrWrite c v).nmiPending = s.nmiPending := by
  cases c <;> simp [State.csrWrite]
@[simp] theorem State.csrWrite_dm (s : State) (c : Csr) (v : Word) : (s.csrWrite c v).dm = s.dm := by
  cases c <;> simp [State.csrWrite]
@[simp] theorem State.csrWrite_hti (s : State) (c : Csr) (v : Word) : (s.csrWrite c v).hti = s.hti := by
  cases c <;> simp [State.csrWrite]
@[simp] theorem State.csrWrite_xlat (s : State) (c : Csr) (v : Word) : (s.csrWrite c v).xlat = s.xlat := by
  cases c <;> simp [State.csrWrite]
@[simp] theorem State.csrWrite_mem (s : State) (c : Csr) (v : Word) : (s.csrWrite c v).mem = s.mem := by
  cases c <;> simp [State.csrWrite]
@[simp] theorem State.csrWrite_inputs (s : State) (c : Csr) (v : Word) : (s.csrWrite c v).inputs = s.inputs := by
  cases c <;> simp [State.csrWrite]

/-! ### delegateTrigger -/

@[simp] theorem State.delegateTrigger_p (s : State) (i : Nat) (b : Bool) : (s.delegateTrigger i b).p = s.p := by
  unfold State.delegateTrigger; split <;> rfl
@[simp] theorem State.delegateTrigger_regs (s : State) (i : Nat) (b : Bool) : (s.delegateTrigger i b).regs = s.regs := by
  unfold State.delegateTrigger; split <;> rfl
@[simp] theorem State.delegateTrigger_pc (s : State) (i : Nat) (b : Bool) : (s.delegateTrigger i b).pc = s.pc := by
  unfold State.delegateTrigger; split <;> rfl
@[simp] theorem State.delegateTrigger_cur (s : State) (i : Nat) (b : Bool) : (s.delegateTrigger i b).cur = s.cur := by
  unfold State.delegateTrigger; split <;> rfl
@[simp] theorem State.delegateTrigger_inDebug (s : State) (i : Nat) (b : Bool) : (s.delegateTrigger i b).inDebug = s.inDebug := by
  unfold State.delegateTrigger; split <;> rfl
@[simp] theorem State.delegateTrigger_csr (s : State) (i : Nat) (b : Bool) : (s.delegateTrigger i b).csr = s.csr := by
  unfold State.delegateTrigger; split <;> rfl
@[simp] theorem State.delegateTrigger_dbg (s : State) (i : Nat) (b : Bool) : (s.delegateTrigger i b).dbg = s.dbg := by
  unfold State.delegateTrigger; split <;> rfl
@[simp] theorem State.delegateTrigger_msdcfg (s : State) (i : Nat) (b : Bool) : (s.delegateTrigger i b).msdcfg = s.msdcfg := by
  unfold State.delegateTrigger; split <;> rfl
@[simp] theorem State.delegateTrigger_mdbgen (s : State) (i : Nat) (b : Bool) : (s.delegateTrigger i b).mdbgen = s.mdbgen := by
  unfold State.delegateTrigger; split <;> rfl
@[simp] theorem State.delegateTrigger_mtrcen (s : State) (i : Nat) (b : Bool) : (s.delegateTrigger i b).mtrcen = s.mtrcen := by
  unfold State.delegateTrigger; split <;> rfl
@[simp] theorem State.delegateTrigger_haltPending (s : State) (i : Nat) (b : Bool) : (s.delegateTrigger i b).haltPending = s.haltPending := by
  unfold State.delegateTrigger; split <;> rfl
@[simp] theorem State.delegateTrigger_resetHaltPending (s : State) (i : Nat) (b : Bool) : (s.delegateTrigger i b).resetHaltPending = s.resetHaltPending := by
  unfold State.delegateTrigger; split <;> rfl
@[simp] theorem State.delegateTrigger_groupHaltPending (s : State) (i : Nat) (b : Bool) : (s.delegateTrigger i b).groupHaltPending = s.groupHaltPending := by
  unfold State.delegateTrigger; split <;> rfl
@[simp] theorem State.delegateTrigger_stepArmed (s : State) (i : Nat) (b : Bool) : (s.delegateTrigger i b).stepArmed = s.stepArmed := by
  unfold State.delegateTrigger; split <;> rfl
@[simp] theorem State.delegateTrigger_nmiPending (s : State) (i : Nat) (b : Bool) : (s.delegateTrigger i b).nmiPending = s.nmiPending := by
  unfold State.delegateTrigger; split <;> rfl
@[simp] theorem State.delegateTrigger_dm (s : State) (i : Nat) (b : Bool) : (s.delegateTrigger i b).dm = s.dm := by
  unfold State.delegateTrigger; split <;> rfl
@[simp] theorem State.delegateTrigger_hti (s : State) (i : Nat) (b : Bool) : (s.delegateTrigger i b).hti = s.hti := by
  unfold State.delegateTrigger; split <;> rfl
@[simp] theorem State.delegateTrigger_xlat (s : State) (i : Nat) (b : Bool) : (s.delegateTrigger i b).xlat = s.xlat := by
  unfold State.delegateTrigger; split <;> rfl
@[simp] theorem State.delegateTrigger_mem (s : State) (i : Nat) (b : Bool) : (s.delegateTrigger i b).mem = s.mem := by
  unfold State.delegateTrigger; split <;> rfl
@[simp] theorem State.delegateTrigger_inputs (s : State) (i : Nat) (b : Bool) : (s.delegateTrigger i b).inputs = s.inputs := by
  unfold State.delegateTrigger; split <;> rfl

/-! ### stepCheck -/

@[simp] theorem State.stepCheck_p (s : State) : (s.stepCheck).p = s.p := by
  unfold State.stepCheck; split <;> simp
@[simp] theorem State.stepCheck_regs (s : State) : (s.stepCheck).regs = s.regs := by
  unfold State.stepCheck; split <;> simp
@[simp] theorem State.stepCheck_pc (s : State) : (s.stepCheck).pc = s.pc := by
  unfold State.stepCheck; split <;> simp
@[simp] theorem State.stepCheck_cur (s : State) : (s.stepCheck).cur = s.cur := by
  unfold State.stepCheck; split <;> simp
@[simp] theorem State.stepCheck_csr (s : State) : (s.stepCheck).csr = s.csr := by
  unfold State.stepCheck; split <;> simp
@[simp] theorem State.stepCheck_msdcfg (s : State) : (s.stepCheck).msdcfg = s.msdcfg := by
  unfold State.stepCheck; split <;> simp
@[simp] theorem State.stepCheck_mdbgen (s : State) : (s.stepCheck).mdbgen = s.mdbgen := by
  unfold State.stepCheck; split <;> simp
@[simp] theorem State.stepCheck_mtrcen (s : State) : (s.stepCheck).mtrcen = s.mtrcen := by
  unfold State.stepCheck; split <;> simp
@[simp] theorem State.stepCheck_trig (s : State) : (s.stepCheck).trig = s.trig := by
  unfold State.stepCheck; split <;> simp
@[simp] theorem State.stepCheck_nmiPending (s : State) : (s.stepCheck).nmiPending = s.nmiPending := by
  unfold State.stepCheck; split <;> simp
@[simp] theorem State.stepCheck_hti (s : State) : (s.stepCheck).hti = s.hti := by
  unfold State.stepCheck; split <;> simp
@[simp] theorem State.stepCheck_xlat (s : State) : (s.stepCheck).xlat = s.xlat := by
  unfold State.stepCheck; split <;> simp
@[simp] theorem State.stepCheck_mem (s : State) : (s.stepCheck).mem = s.mem := by
  unfold State.stepCheck; split <;> simp
@[simp] theorem State.stepCheck_inputs (s : State) : (s.stepCheck).inputs = s.inputs := by
  unfold State.stepCheck; split <;> simp

end Sys2Proof.Machine
end

