-- ==== Sys2Proof/Laws/Bits.lean ====
section
/-! SUPPORT. The bit-field helpers: what one bit of a changed value reads as, and what the named fields of the status
registers read as after the named updates. -/

namespace Sys2Proof.Machine

/-! ### Single bits -/

theorem getLsbD_bitMask (n i j : Nat) : (bitMask n i).getLsbD j = (decide (j < n) && decide (i = j)) := by
  rw [bitMask, BitVec.getLsbD_ofNat, Nat.testBit_two_pow]

theorem getLsbD_setBit {n : Nat} (v : BitVec n) (i j : Nat) (b : Bool) :
    (setBit v i b).getLsbD j = if i = j then decide (j < n) && b else v.getLsbD j := by
  have hv : ¬ j < n → v.getLsbD j = false := fun h => BitVec.getLsbD_of_ge v j (by omega)
  by_cases hn : j < n <;> by_cases h : i = j <;> cases b <;>
    simp only [setBit, if_true, Bool.false_eq_true, if_false, BitVec.getLsbD_or, BitVec.getLsbD_and,
      BitVec.getLsbD_not, getLsbD_bitMask, h, hn, decide_true, decide_false, Bool.and_true,
      Bool.and_false, Bool.or_true, Bool.or_false, Bool.not_true, Bool.not_false]
  all_goals first | exact hv hn | exact (hv hn).symm

@[simp] theorem getLsbD_setBit_ne {n : Nat} (v : BitVec n) {i j : Nat} (b : Bool) (h : i ≠ j) :
    (setBit v i b).getLsbD j = v.getLsbD j := by
  rw [getLsbD_setBit, if_neg h]

theorem getLsbD_setBit_self {n : Nat} (v : BitVec n) {i : Nat} (b : Bool) (h : i < n) :
    (setBit v i b).getLsbD i = b := by
  rw [getLsbD_setBit, if_pos rfl, decide_eq_true h, Bool.true_and]

theorem getLsbD_setBits2 {n : Nat} (v : BitVec n) (lo j : Nat) (x : BitVec 2) :
    (setBits2 v lo x).getLsbD j =
      if lo + 1 = j then decide (j < n) && x.getLsbD 1
      else if lo = j then decide (j < n) && x.getLsbD 0
      else v.getLsbD j := by
  simp only [setBits2, getLsbD_setBit]

theorem getLsbD_merge {n : Nat} (mask old new : BitVec n) (j : Nat) :
    (merge mask old new).getLsbD j = if mask.getLsbD j then new.getLsbD j else old.getLsbD j := by
  simp only [merge, BitVec.getLsbD_or, BitVec.getLsbD_and, BitVec.getLsbD_not]
  by_cases hn : j < n
  · cases mask.getLsbD j <;> simp only [hn] <;> simp
  · have h1 : new.getLsbD j = false := BitVec.getLsbD_of_ge new j (by omega)
    have h2 : old.getLsbD j = false := BitVec.getLsbD_of_ge old j (by omega)
    simp [h1, h2]

/-! ### Fields of several bits -/

theorem extract_setBit {n : Nat} (v : BitVec n) (i lo k : Nat) (b : Bool) (h : i < lo ∨ lo + k ≤ i) :
    (setBit v i b).extractLsb' lo k = v.extractLsb' lo k := by
  apply BitVec.eq_of_getLsbD_eq
  intro j hj
  have hne : i ≠ lo + j := by omega
  simp only [BitVec.getLsbD_extractLsb', getLsbD_setBit, if_neg hne]

theorem extract_setBits2 {n : Nat} (v : BitVec n) (lo : Nat) (x : BitVec 2) (h : lo + 1 < n) :
    (setBits2 v lo x).extractLsb' lo 2 = x := by
  apply BitVec.eq_of_getLsbD_eq
  intro j hj
  have hj' : j = 0 ∨ j = 1 := by omega
  have h0 : lo < n := by omega
  rcases hj' with rfl | rfl <;>
    simp only [BitVec.getLsbD_extractLsb', getLsbD_setBits2] <;> simp [h, h0]

theorem extract_setBits2_ne {n : Nat} (v : BitVec n) (i lo k : Nat) (x : BitVec 2) (h : i + 1 < lo ∨ lo + k ≤ i) :
    (setBits2 v i x).extractLsb' lo k = v.extractLsb' lo k := by
  unfold setBits2
  rw [extract_setBit _ _ _ _ _ (by omega), extract_setBit _ _ _ _ _ (by omega)]

theorem extract_merge {n : Nat} (mask old new : BitVec n) (lo k : Nat)
    (h : mask.extractLsb' lo k = 0) : (merge mask old new).extractLsb' lo k = old.extractLsb' lo k := by
  apply BitVec.eq_of_getLsbD_eq
  intro j hj
  have hm : (mask.extractLsb' lo k).getLsbD j = false := by rw [h]; simp
  have hm' : mask.getLsbD (lo + j) = false := by simpa [BitVec.getLsbD_extractLsb', hj] using hm
  simp only [BitVec.getLsbD_extractLsb', getLsbD_merge, hm', Bool.false_eq_true, if_false]

/-! ### Words within XLEN -/

theorem toXlen_idem (p : Params) (v : Word) : p.toXlen (p.toXlen v) = p.toXlen v := by
  unfold Params.toXlen
  split
  · rfl
  · rw [BitVec.and_assoc]; rfl

@[simp] theorem toXlen_zero (p : Params) : p.toXlen 0#64 = 0#64 := by
  unfold Params.toXlen; split <;> rfl

/-- A mask applied twice is the mask. -/
theorem and_and_self_right {n : Nat} (a m : BitVec n) : a &&& m &&& m = a &&& m := by
  rw [BitVec.and_assoc, BitVec.and_self]

/-- The bits a program counter can have (10 R37, 30 R74). -/
def pcBits (p : Params) : Word :=
  (if p.xlen64 then ~~~0 else 0xFFFFFFFF) &&& (if p.hasC then ~~~1 else ~~~3)

theorem toXlen_eq_and (p : Params) (v : Word) :
    p.toXlen v = v &&& (if p.xlen64 then ~~~0 else 0xFFFFFFFF) := by
  unfold Params.toXlen
  cases p.xlen64
  · rfl
  · exact (BitVec.and_allOnes (x := v)).symm

theorem pcMask_eq_and (p : Params) (v : Word) : pcMask p v = v &&& pcBits p := by
  unfold pcMask pcBits
  rw [toXlen_eq_and, BitVec.and_assoc]

theorem pcMask_idem (p : Params) (v : Word) : pcMask p (pcMask p v) = pcMask p v := by
  simp only [pcMask_eq_and, and_and_self_right]

/-- Clearing the `k` low bits, as shifts. -/
theorem and_not_low (v : Word) (k : Nat) : v &&& ~~~(BitVec.ofNat 64 (2 ^ k - 1)) = (v >>> k) <<< k := by
  apply BitVec.eq_of_getLsbD_eq
  intro i hi
  simp only [BitVec.getLsbD_and, BitVec.getLsbD_not, BitVec.getLsbD_ofNat, Nat.testBit_two_pow_sub_one,
    BitVec.getLsbD_shiftLeft, BitVec.getLsbD_ushiftRight, hi, decide_true, Bool.true_and]
  by_cases hk : i < k
  · simp [hk]
  · rw [show k + (i - k) = i by omega]; simp [hk]

/-- A word has its `k` low bits clear exactly when it is a multiple of `2 ^ k`. -/
theorem and_not_low_eq_self (v : Word) (k : Nat) :
    v &&& ~~~(BitVec.ofNat 64 (2 ^ k - 1)) = v ↔ v.toNat % 2 ^ k = 0 := by
  have hv := v.isLt
  have hm := Nat.div_add_mod v.toNat (2 ^ k)
  rw [and_not_low, ← BitVec.toNat_inj, BitVec.toNat_shiftLeft, BitVec.toNat_ushiftRight, Nat.shiftLeft_eq,
    Nat.shiftRight_eq_div_pow, Nat.mul_comm, Nat.mod_eq_of_lt (by omega)]
  omega

/-- An instruction boundary: within XLEN bits and a multiple of 2, of 4 without compressed instructions. -/
theorem pcMask_eq_self (p : Params) (v : Word) :
    pcMask p v = v ↔ p.toXlen v = v ∧ v.toNat % (if p.hasC then 2 else 4) = 0 := by
  have key : (v &&& (if p.hasC then ~~~1 else ~~~3) = v) ↔ v.toNat % (if p.hasC then 2 else 4) = 0 := by
    cases p.hasC
    · exact and_not_low_eq_self v 2
    · exact and_not_low_eq_self v 1
  rw [← key]
  constructor
  · intro h
    have h1 : p.toXlen v = v := by
      rw [← h, toXlen_eq_and, pcMask, toXlen_eq_and, BitVec.and_assoc, BitVec.and_assoc,
        BitVec.and_comm (if p.hasC then ~~~1 else ~~~3), ← BitVec.and_assoc (if p.xlen64 then ~~~0 else 0xFFFFFFFF),
        BitVec.and_self, BitVec.and_assoc]
    refine ⟨h1, ?_⟩
    unfold pcMask at h
    rwa [h1] at h
  · rintro ⟨h1, h2⟩
    unfold pcMask
    rw [h1, h2]

/-- The pc after a 4-byte instruction is an instruction boundary if it was one before. -/
theorem pcMask_add_four (p : Params) (v : Word) (h : pcMask p v = v) :
    pcMask p (p.toXlen (v + 4)) = p.toXlen (v + 4) := by
  rw [pcMask_eq_self] at h ⊢
  refine ⟨toXlen_idem _ _, ?_⟩
  have h4 : (v + 4).toNat = (v.toNat + 4) % 2 ^ 64 := BitVec.toNat_add v 4
  unfold Params.toXlen
  cases p.xlen64 <;> cases hc : p.hasC <;> rw [hc] at h <;>
    simp only [Bool.false_eq_true, if_false, if_true, BitVec.toNat_and,
      show (0xFFFFFFFF : Word).toNat = 2 ^ 32 - 1 from rfl, Nat.and_two_pow_sub_one_eq_mod, h4] at h ⊢ <;> omega

/-- A handler's address is an instruction boundary. -/
theorem pcMask_handlerAddr (p : Params) (tvec : Word) (intr : Bool) (code : Nat) :
    pcMask p (handlerAddr p tvec intr code) = handlerAddr p tvec intr code := by
  rw [pcMask_eq_self]
  refine ⟨toXlen_idem _ _, ?_⟩
  have h3 : (tvec &&& ~~~3).toNat % 4 = 0 :=
    (and_not_low_eq_self (tvec &&& ~~~3) 2).1 (and_and_self_right _ _)
  have h4 : ((tvec &&& ~~~3) + (if intr && tvec.getLsbD 0 then BitVec.ofNat 64 (4 * code) else 0)).toNat % 4 = 0 := by
    rw [BitVec.toNat_add]
    split
    · rw [BitVec.toNat_ofNat]; omega
    · rw [show (0 : Word).toNat = 0 from rfl]; omega
  unfold handlerAddr Params.toXlen
  cases p.xlen64 <;> cases p.hasC <;>
    simp only [Bool.false_eq_true, if_false, if_true, BitVec.toNat_and,
      show (0xFFFFFFFF : Word).toNat = 2 ^ 32 - 1 from rfl, Nat.and_two_pow_sub_one_eq_mod] at h4 ⊢ <;> omega

/-! ### `dcsr` -/

@[simp] theorem setPrvV_prv (w : BitVec 32) (prv : BitVec 2) (v : Bool) :
    (setPrvV w prv v).extractLsb' 0 2 = prv := by
  unfold setPrvV
  rw [extract_setBit _ _ _ _ _ (by omega), extract_setBits2 _ _ _ (by omega)]

theorem setPrvV_v (w : BitVec 32) (prv : BitVec 2) (v : Bool) : (setPrvV w prv v).getLsbD 5 = v :=
  getLsbD_setBit_self _ _ (by omega)

theorem getLsbD_setPrvV (w : BitVec 32) (prv : BitVec 2) (v : Bool) (j : Nat) (h : 1 < j) (h5 : j ≠ 5) :
    (setPrvV w prv v).getLsbD j = w.getLsbD j := by
  have h0 : (5 = j) = False := by simp; omega
  have h1 : (0 + 1 = j) = False := by simp; omega
  have h2 : (0 = j) = False := by simp; omega
  simp only [setPrvV, getLsbD_setBit, getLsbD_setBits2, h0, h1, h2, if_false]

theorem setCause_prv (w : BitVec 32) (c : DebugCause) : (setCause w c).extractLsb' 0 2 = w.extractLsb' 0 2 :=
  extract_merge _ _ _ _ _ (by decide)

theorem getLsbD_setCause (w : BitVec 32) (c : DebugCause) (j : Nat) (h : j < 6 ∨ 8 < j) :
    (setCause w c).getLsbD j = w.getLsbD j := by
  by_cases hj : j < 32
  · unfold setCause
    rw [getLsbD_merge]
    have hm : (0x1C0 : BitVec 32).getLsbD j = false := by
      interval_cases j <;> first | rfl | omega
    rw [hm]; rfl
  · rw [BitVec.getLsbD_of_ge _ _ (by omega), BitVec.getLsbD_of_ge _ _ (by omega)]

theorem setCause_cause (w : BitVec 32) (c : DebugCause) : (setCause w c).extractLsb' 6 3 = c.code := by
  apply BitVec.eq_of_getLsbD_eq
  intro j hj
  have hj' : j = 0 ∨ j = 1 ∨ j = 2 := by omega
  rcases hj' with rfl | rfl | rfl <;> cases c <;>
    simp only [setCause, BitVec.getLsbD_extractLsb', getLsbD_merge, DebugCause.code] <;> rfl

/-- Writing PRV and V leaves every other bit of `dcsr` as it was. -/
theorem writePrvV_getLsbD (p : Params) (c : Cfg) (w : BitVec 32) (prv : BitVec 2) (v : Bool) (j : Nat)
    (h : 1 < j) (h5 : j ≠ 5) : (writePrvV p c w prv v).getLsbD j = w.getLsbD j := by
  unfold writePrvV
  split
  · exact getLsbD_setPrvV _ _ _ _ h h5
  · exact getLsbD_setPrvV _ _ _ _ h h5

/-- The pair after a write of PRV and V: the written one where legal, else the one `legalizePrvV` keeps (40 R101). -/
theorem writePrvV_pair (p : Params) (c : Cfg) (w : BitVec 32) (prv : BitVec 2) (v : Bool) :
    ((writePrvV p c w prv v).extractLsb' 0 2, (writePrvV p c w prv v).getLsbD 5) =
      if legalPair p c prv v then (prv, v)
      else legalizePrvV p c (w.extractLsb' 0 2, w.getLsbD 5) (prv, v) := by
  unfold writePrvV
  split <;> simp only [setPrvV_prv, setPrvV_v]

/-- The pair kept after an illegal write is the old one or a legal one (40 R101). -/
theorem legalizePrvV_cases (p : Params) (c : Cfg) (old new : BitVec 2 × Bool) :
    legalizePrvV p c old new = old ∨
      legalPair p c (legalizePrvV p c old new).1 (legalizePrvV p c old new).2 = true := by
  unfold legalizePrvV
  split
  · exact .inl rfl
  · dsimp only
    split
    · rename_i h; exact .inr h
    · exact .inl rfl

end Sys2Proof.Machine
end

