-- ==== Sys2Proof/Laws/Memory.lean ====
section
/-! SUPPORT. Memory: a read after a write, and that every operation keeps the canonical form. -/

namespace Sys2Proof.Machine

/-! ### Reads after writes (they hold for every list, canonical or not) -/

theorem Memory.read_erase_self (m : Memory) (k : Nat) : Memory.read (Memory.erase m k) k = Memory.unlisted := by
  induction m with
  | nil => rfl
  | cons c m ih =>
    obtain ⟨a, b⟩ := c
    by_cases h : a = k <;> simp [Memory.erase, Memory.read, h, ih]

theorem Memory.read_erase_ne (m : Memory) {k j : Nat} (h : j ≠ k) :
    Memory.read (Memory.erase m k) j = Memory.read m j := by
  induction m with
  | nil => rfl
  | cons c m ih =>
    obtain ⟨a, b⟩ := c
    by_cases ha : a = k
    · have : ¬ a = j := by omega
      simp [Memory.erase, Memory.read, ha, ih, show ¬ k = j by omega]
    · simp [Memory.erase, Memory.read, ha, ih]

theorem Memory.read_insert_self (m : Memory) (k : Nat) (v : Byte)
    (h : Memory.erase m k = m) : Memory.read (Memory.insert m k v) k = v := by
  induction m with
  | nil => simp [Memory.insert, Memory.read]
  | cons c m ih =>
    obtain ⟨a, b⟩ := c
    by_cases ha : a = k
    · have hl : (Memory.erase m k).length ≤ m.length := by
        clear ih h
        induction m with
        | nil => simp [Memory.erase]
        | cons c m ih => obtain ⟨a, b⟩ := c; by_cases h : a = k <;> simp [Memory.erase, h] <;> omega
      simp only [Memory.erase, if_pos ha] at h
      rw [h] at hl
      simp at hl
    · simp only [Memory.erase, if_neg ha, List.cons.injEq, true_and] at h
      by_cases hk : k < a
      · simp [Memory.insert, Memory.read, hk]
      · simp [Memory.insert, Memory.read, hk, ha, ih h]

theorem Memory.read_insert_ne (m : Memory) {k j : Nat} (v : Byte) (h : j ≠ k) :
    Memory.read (Memory.insert m k v) j = Memory.read m j := by
  induction m with
  | nil => simp [Memory.insert, Memory.read, Ne.symm h]
  | cons c m ih =>
    obtain ⟨a, b⟩ := c
    by_cases hk : k < a
    · simp [Memory.insert, Memory.read, hk, Ne.symm h]
    · simp [Memory.insert, Memory.read, hk, ih]

theorem Memory.erase_erase (m : Memory) (k : Nat) : Memory.erase (Memory.erase m k) k = Memory.erase m k := by
  induction m with
  | nil => rfl
  | cons c m ih =>
    obtain ⟨a, b⟩ := c
    by_cases h : a = k <;> simp [Memory.erase, h, ih]

/-- A byte read where it was written is the byte written. -/
@[simp] theorem Memory.read_write_same (m : Memory) (k : Nat) (v : Byte) : (Memory.write m k v).read k = v := by
  unfold Memory.write
  split
  · rename_i h; rw [Memory.read_erase_self, h]
  · exact Memory.read_insert_self _ _ _ (Memory.erase_erase m k)

/-- A write leaves every other byte alone. -/
theorem Memory.read_write_other (m : Memory) {k j : Nat} (v : Byte) (h : j ≠ k) :
    (Memory.write m k v).read j = Memory.read m j := by
  unfold Memory.write
  split
  · exact Memory.read_erase_ne m h
  · rw [Memory.read_insert_ne _ _ h, Memory.read_erase_ne m h]

/-- A write of several bytes leaves every other byte alone. -/
theorem Memory.read_writeAll_other (m : Memory) (ks : List Nat) (vs : List Byte) (j : Nat) (h : j ∉ ks) :
    (Memory.writeAll m ks vs).read j = Memory.read m j := by
  induction ks generalizing m vs with
  | nil => cases vs <;> rfl
  | cons k ks ih =>
    cases vs with
    | nil => rfl
    | cons v vs =>
      simp only [List.mem_cons, not_or] at h
      rw [Memory.writeAll, ih _ _ h.2, Memory.read_write_other _ _ h.1]

/-! ### The canonical form -/

/-- The canonical form as a proposition over the whole list: addresses strictly rising and no entry equal to the
unlisted byte. -/
theorem Memory.wf_iff (m : Memory) :
    Memory.wf m = true ↔ m.Pairwise (fun c d => c.1 < d.1) ∧ ∀ c ∈ m, c.2 ≠ Memory.unlisted := by
  induction m with
  | nil => simp [Memory.wf]
  | cons c m ih =>
    obtain ⟨a, b⟩ := c
    cases m with
    | nil => simp [Memory.wf]
    | cons d m =>
      obtain ⟨a', b'⟩ := d
      simp only [Memory.wf, Bool.and_eq_true, bne_iff_ne, decide_eq_true_eq]
      rw [ih]
      constructor
      · rintro ⟨⟨hb, hlt⟩, hp, hall⟩
        refine ⟨List.pairwise_cons.2 ⟨?_, hp⟩, ?_⟩
        · intro c hc
          rcases List.mem_cons.1 hc with rfl | hc
          · exact hlt
          · exact Nat.lt_trans hlt ((List.pairwise_cons.1 hp).1 c hc)
        · intro c hc
          rcases List.mem_cons.1 hc with rfl | hc
          · exact hb
          · exact hall c hc
      · rintro ⟨hp, hall⟩
        have hp' := List.pairwise_cons.1 hp
        exact ⟨⟨hall (a, b) (List.mem_cons_self ..), hp'.1 (a', b') (List.mem_cons_self ..)⟩, hp'.2,
          fun c hc => hall c (List.mem_cons_of_mem _ hc)⟩

theorem Memory.mem_erase (m : Memory) (k : Nat) (c : Host.Cell) (h : c ∈ Memory.erase m k) : c ∈ m ∧ c.1 ≠ k := by
  induction m with
  | nil => cases h
  | cons d m ih =>
    obtain ⟨a, b⟩ := d
    by_cases ha : a = k
    · simp only [Memory.erase, if_pos ha] at h
      exact ⟨List.mem_cons_of_mem _ (ih h).1, (ih h).2⟩
    · simp only [Memory.erase, if_neg ha, List.mem_cons] at h
      rcases h with rfl | h
      · exact ⟨List.mem_cons_self .., ha⟩
      · exact ⟨List.mem_cons_of_mem _ (ih h).1, (ih h).2⟩

theorem Memory.erase_pairwise (m : Memory) (k : Nat) (h : m.Pairwise (fun c d => c.1 < d.1)) :
    (Memory.erase m k).Pairwise (fun c d => c.1 < d.1) := by
  induction m with
  | nil => exact List.Pairwise.nil
  | cons d m ih =>
    obtain ⟨a, b⟩ := d
    have hp := List.pairwise_cons.1 h
    by_cases ha : a = k
    · simp only [Memory.erase, if_pos ha]; exact ih hp.2
    · simp only [Memory.erase, if_neg ha]
      exact List.pairwise_cons.2 ⟨fun c hc => hp.1 c (Memory.mem_erase m k c hc).1, ih hp.2⟩

theorem Memory.mem_insert (m : Memory) (k : Nat) (v : Byte) (c : Host.Cell) (h : c ∈ Memory.insert m k v) :
    c = (k, v) ∨ c ∈ m := by
  induction m with
  | nil => exact .inl (by simpa [Memory.insert] using h)
  | cons d m ih =>
    obtain ⟨a, b⟩ := d
    by_cases hk : k < a
    · simp only [Memory.insert, if_pos hk, List.mem_cons] at h
      rcases h with h | h
      · exact .inl h
      · exact .inr (List.mem_cons.2 h)
    · simp only [Memory.insert, if_neg hk, List.mem_cons] at h
      rcases h with rfl | h
      · exact .inr (List.mem_cons_self ..)
      · rcases ih h with h | h
        · exact .inl h
        · exact .inr (List.mem_cons_of_mem _ h)

theorem Memory.insert_pairwise (m : Memory) (k : Nat) (v : Byte) (h : m.Pairwise (fun c d => c.1 < d.1))
    (hk : ∀ c ∈ m, c.1 ≠ k) : (Memory.insert m k v).Pairwise (fun c d => c.1 < d.1) := by
  induction m with
  | nil => simp [Memory.insert]
  | cons d m ih =>
    obtain ⟨a, b⟩ := d
    have hp := List.pairwise_cons.1 h
    have hne : a ≠ k := hk (a, b) (List.mem_cons_self ..)
    by_cases hlt : k < a
    · simp only [Memory.insert, if_pos hlt]
      refine List.pairwise_cons.2 ⟨fun c hc => ?_, h⟩
      rcases List.mem_cons.1 hc with rfl | hc
      · exact hlt
      · exact Nat.lt_trans hlt (hp.1 c hc)
    · simp only [Memory.insert, if_neg hlt]
      refine List.pairwise_cons.2 ⟨fun c hc => ?_, ih hp.2 fun c hc => hk c (List.mem_cons_of_mem _ hc)⟩
      rcases Memory.mem_insert m k v c hc with rfl | hc
      · show a < k; omega
      · exact hp.1 c hc

/-- A write keeps the canonical form. -/
theorem Memory.write_wf (m : Memory) (k : Nat) (v : Byte) (h : Memory.wf m = true) :
    Memory.wf (Memory.write m k v) = true := by
  rw [Memory.wf_iff] at h ⊢
  unfold Memory.write
  have he := Memory.erase_pairwise m k h.1
  split
  · exact ⟨he, fun c hc => h.2 c (Memory.mem_erase m k c hc).1⟩
  · rename_i hv
    refine ⟨Memory.insert_pairwise _ k v he fun c hc => (Memory.mem_erase m k c hc).2, fun c hc => ?_⟩
    rcases Memory.mem_insert _ k v c hc with rfl | hc
    · exact hv
    · exact h.2 c (Memory.mem_erase m k c hc).1

/-- A write of several bytes keeps the canonical form. -/
theorem Memory.writeAll_wf (m : Memory) (ks : List Nat) (vs : List Byte) (h : Memory.wf m = true) :
    Memory.wf (Memory.writeAll m ks vs) = true := by
  induction ks generalizing m vs with
  | nil => cases vs <;> exact h
  | cons k ks ih =>
    cases vs with
    | nil => exact h
    | cons v vs => exact ih _ _ (Memory.write_wf m k v h)

/-- The memory of the reset state has the canonical form. -/
theorem reset_mem_wf : Memory.wf State.reset.mem = true := rfl

end Sys2Proof.Machine
end

