-- ==== Sys2Proof/Laws/Ops.lean ====
section
/-! SUPPORT. The shared operations: for each, once, what it can do. -/

namespace Sys2Proof.Machine

/-! ### Registers and the pc -/

@[simp] theorem State.x_zero (s : State) : s.x 0 = 0 := rfl

theorem State.x_of_regs {s t : State} (h : t.regs = s.regs) (r : RegNum) : t.x r = s.x r := by
  unfold State.x; rw [h]

/-- A register written reads as the value within XLEN bits, but x0 reads 0 (10 R36). -/
theorem State.setX_x_same (s : State) (r : RegNum) (v : Word) :
    (s.setX r v).x r = if r = 0 then 0 else s.p.toXlen v := by
  unfold State.setX
  by_cases h : r = 0
  · rw [if_pos h, if_pos h, h]; rfl
  · rw [if_neg h, if_neg h]
    unfold State.x
    rw [if_neg h]
    exact Vector.getElem_set_self ..

/-- A write of one register leaves the others (10 R36). -/
theorem State.setX_x_other (s : State) {r q : RegNum} (v : Word) (h : q ≠ r) : (s.setX r v).x q = s.x q := by
  unfold State.setX
  by_cases hr : r = 0
  · rw [if_pos hr]
  · have hne : r.toNat ≠ q.toNat := fun he => h (BitVec.eq_of_toNat_eq he.symm)
    rw [if_neg hr]
    by_cases hq : q = 0 <;> simp [State.x, hq, Vector.getElem_set_ne _ _ hne]

@[simp] theorem State.setX_zero (s : State) (v : Word) : s.setX 0 v = s := by simp [State.setX]

@[simp] theorem State.advance_x (s : State) (n : Nat) (r : RegNum) : (s.advance n).x r = s.x r :=
  State.x_of_regs (State.advance_regs s n) r

theorem State.advance_eq (s : State) (n : Nat) :
    s.advance n = { s with pc := (s.advance n).pc, dm := { s.dm with pbPc := (s.advance n).dm.pbPc } } := by
  unfold State.advance; split <;> rfl

theorem State.setX_eq (s : State) (r : RegNum) (v : Word) : s.setX r v = { s with regs := (s.setX r v).regs } := by
  unfold State.setX; split <;> rfl

theorem State.advance_debug {s : State} (h : s.inDebug = true) (n : Nat) :
    s.advance n = { s with dm := { s.dm with pbPc := s.dm.pbPc + n } } := by
  unfold State.advance; rw [if_pos h]

theorem State.advance_run {s : State} (h : s.inDebug = false) (n : Nat) :
    s.advance n = { s with pc := s.p.toXlen (s.pc + BitVec.ofNat 64 n) } := by
  unfold State.advance; rw [h]; rfl

/-- The pc after `advance`, for a state that keeps the pc and the Program Buffer's place of an earlier one. -/
theorem State.advance_movedPast {s u : State} (n : Nat) (hp : u.p = s.p) (hd : u.inDebug = s.inDebug)
    (hpc : u.pc = s.pc) (hdm : u.dm = s.dm) : movedPast s (u.advance n) n := by
  unfold movedPast State.advance
  rw [hd]
  cases s.inDebug
  · exact ⟨by rw [← hpc, ← hp]; rfl, by rw [← hdm]; rfl⟩
  · exact ⟨hpc, by rw [← hdm]; rfl⟩

@[simp] theorem State.csrRead_toXlen (s : State) (c : Csr) : s.p.toXlen (s.csrRead c) = s.csrRead c :=
  toXlen_idem _ _

/-! ### Outcomes -/

@[simp] theorem andThen_next (s : State) (f : State → Host.Outcome State Fault Refusal) :
    andThen (.next s) f = f s := rfl

@[simp] theorem onNext_next (s : State) (f : State → State) : onNext (.next s) f = .next (f s) := rfl

/-- An outcome continued by `andThen` is a next state only where the first part is one. -/
theorem andThen_eq_next {o : Host.Outcome State Fault Refusal} {f : State → Host.Outcome State Fault Refusal}
    {t : State} (h : andThen o f = .next t) : ∃ u, o = .next u ∧ f u = .next t := by
  cases o with
  | next u => exact ⟨u, rfl, h⟩
  | fault r => cases h
  | refused r => cases h

/-! ### Exceptions -/

theorem State.takeException_debug {s : State} (h : s.inDebug = true) (e : Exc) : s.takeException e = s.debugFail := by
  unfold State.takeException; rw [if_pos h]

theorem State.takeException_run {s : State} (h : s.inDebug = false) (e : Exc) :
    s.takeException e = s.trapTo (s.exceptionDest (excCode s.cur e)) false (excCode s.cur e) (excTval s e) := by
  unfold State.takeException; rw [h]; rfl

/-- The destination of an exception: M-mode, HS-mode on a hart with S-mode, or VS-mode from a virtual mode (60 R250). -/
theorem State.exceptionDest_cases (s : State) (code : Nat) :
    s.exceptionDest code = .m ∨
      (s.exceptionDest code = .hs ∧ s.p.hasS = true ∧ s.cur ≠ .m ∧ s.csr.medeleg.getLsbD code = true) ∨
      (s.exceptionDest code = .vs ∧ s.p.hasS = true ∧ s.cur.virt = true ∧ s.csr.medeleg.getLsbD code = true) := by
  unfold State.exceptionDest
  split
  · exact .inl rfl
  · rename_i h
    rw [not_or, not_or, Bool.not_eq_false, Bool.not_eq_false] at h
    split
    · rename_i hv
      exact .inr (.inr ⟨rfl, h.2.1, hv.1, h.2.2⟩)
    · exact .inr (.inl ⟨rfl, h.2.1, h.1, h.2.2⟩)

/-! ### Addresses of an access -/

theorem byteAddrs_length (p : Params) (n : Nat) (a : Word) : (byteAddrs p n a).length = n := by
  induction n generalizing a with
  | zero => rfl
  | succ n ih => simp [byteAddrs, ih]

theorem State.translateAll_length (s : State) (acc : Access) (prv : BitVec 2) (virt : Bool) (as : List Word)
    (ks : List Nat) (h : s.translateAll acc prv virt as = .ok ks) : ks.length = as.length := by
  induction as generalizing ks with
  | nil => cases h; rfl
  | cons a as ih =>
    unfold State.translateAll at h
    split at h
    · cases h
    · split at h
      · cases h
      · rename_i hk
        cases h
        simp [ih _ hk]

/-- An access that goes through names as many byte addresses as it has bytes. -/
theorem State.accessAddrs_length {s : State} {acc : Access} {prv : BitVec 2} {virt : Bool} {va : Word} {n : Nat}
    {ks : List Nat} (h : s.accessAddrs acc prv virt va n = .ok ks) : ks.length = n := by
  unfold State.accessAddrs at h
  split at h
  · cases h
  · rw [s.translateAll_length _ _ _ _ _ h, byteAddrs_length]

/-- Addresses translated in two parts. -/
theorem State.translateAll_append (s : State) (acc : Access) (prv : BitVec 2) (virt : Bool) (as bs : List Word)
    (ks : List Nat) (h : s.translateAll acc prv virt (as ++ bs) = .ok ks) :
    ∃ k1 k2, s.translateAll acc prv virt as = .ok k1 ∧ s.translateAll acc prv virt bs = .ok k2 ∧ ks = k1 ++ k2 := by
  induction as generalizing ks with
  | nil => exact ⟨[], ks, rfl, h, rfl⟩
  | cons a as ih =>
    rw [List.cons_append] at h
    unfold State.translateAll at h
    split at h
    · cases h
    · rename_i k hk
      split at h
      · cases h
      · rename_i ks' hks
        obtain ⟨k1, k2, h1, h2, rfl⟩ := ih _ hks
        cases h
        refine ⟨k :: k1, k2, ?_, h2, rfl⟩
        unfold State.translateAll
        simp [hk, h1]

/-- Translation looks at the translation data and the status registers only. -/
theorem State.translateAll_congr {s t : State} (hx : t.xlat = s.xlat) (hc : t.csr = s.csr) (acc : Access)
    (prv : BitVec 2) (virt : Bool) (as : List Word) :
    t.translateAll acc prv virt as = s.translateAll acc prv virt as := by
  have h : ∀ a, t.translate acc prv virt a = s.translate acc prv virt a := by
    intro a
    unfold State.translate State.translatePage
    rw [hx, hc]
  induction as with
  | nil => rfl
  | cons a as ih => simp only [State.translateAll, h, ih]

/-- A fetch looks at the parameters, the mode, the translation and memory only. -/
theorem State.fetchBytes_congr {s t : State} (hp : t.p = s.p) (hx : t.xlat = s.xlat) (hc : t.csr = s.csr)
    (hm : t.mem = s.mem) (hu : t.cur = s.cur) (va : Word) (n : Nat) : t.fetchBytes va n = s.fetchBytes va n := by
  unfold State.fetchBytes
  rw [State.translateAll_congr hx hc, hp, hm, hu]

theorem splitBytes_length (n : Nat) (v : Word) : (splitBytes n v).length = n := by
  induction n generalizing v with
  | zero => rfl
  | succ n ih => simp [splitBytes, ih]

/-- Bytes written at distinct addresses read back. -/
theorem Memory.read_writeAll_same (m : Memory) (ks : List Nat) (vs : List Byte) (hn : ks.Nodup)
    (hl : ks.length = vs.length) : ks.map (Memory.writeAll m ks vs).read = vs := by
  induction ks generalizing m vs with
  | nil => cases vs with
    | nil => rfl
    | cons v vs => simp at hl
  | cons k ks ih =>
    cases vs with
    | nil => simp at hl
    | cons v vs =>
      have hn' := List.nodup_cons.1 hn
      simp only [List.map_cons, Memory.writeAll]
      rw [ih _ _ hn'.2 (by simpa using hl), Memory.read_writeAll_other _ _ _ _ hn'.1, Memory.read_write_same]

/-! ### Byte order -/

@[simp] theorem State.inOrder_length (s : State) (prv : BitVec 2) (virt : Bool) (bytes : List Byte) :
    (s.inOrder prv virt bytes).length = bytes.length := by
  unfold State.inOrder; split <;> simp

/-- Put in memory's order and back, the bytes are as before (20 R60). -/
theorem State.inOrder_inOrder (s : State) (prv : BitVec 2) (virt : Bool) (bytes : List Byte) :
    s.inOrder prv virt (s.inOrder prv virt bytes) = bytes := by
  unfold State.inOrder; split <;> simp

/-- The byte order depends on the parameters and the status registers only. -/
theorem State.inOrder_congr {s t : State} (hp : t.p = s.p) (hc : t.csr = s.csr) : t.inOrder = s.inOrder := by
  unfold State.inOrder State.bigEndian; rw [hp, hc]

/-! ### Loads and stores -/

theorem State.loadWith_error {s : State} {acc : Access} {pair : BitVec 2 × Bool} {addr : Word} {n : Nat}
    {f : MemFault} (h : s.accessAddrs acc pair.1 pair.2 addr n = .error f) (signed : Bool) (rd : RegNum) :
    s.loadWith acc pair addr n signed rd = s.takeException (.mem acc f) := by
  unfold State.loadWith State.memRead; rw [h]

theorem State.loadWith_ok {s : State} {acc : Access} {pair : BitVec 2 × Bool} {addr : Word} {n : Nat}
    {ks : List Nat} (h : s.accessAddrs acc pair.1 pair.2 addr n = .ok ks) (signed : Bool) (rd : RegNum) :
    s.loadWith acc pair addr n signed rd =
      (s.setX rd (extendBytes n signed (joinBytes (s.inOrder pair.1 pair.2 (ks.map s.mem.read))))).advance 4 := by
  unfold State.loadWith State.memRead; rw [h]

theorem State.storeWith_error {s : State} {pair : BitVec 2 × Bool} {addr : Word} {n : Nat} {f : MemFault}
    (h : s.accessAddrs .store pair.1 pair.2 addr n = .error f) (v : Word) :
    s.storeWith pair addr n v = s.takeException (.mem .store f) := by
  unfold State.storeWith State.memWrite; rw [h]

theorem State.storeWith_ok {s : State} {pair : BitVec 2 × Bool} {addr : Word} {n : Nat} {ks : List Nat}
    (h : s.accessAddrs .store pair.1 pair.2 addr n = .ok ks) (v : Word) :
    s.storeWith pair addr n v =
      State.advance { s with mem := s.mem.writeAll ks (s.inOrder pair.1 pair.2 (splitBytes n v)) } 4 := by
  unfold State.storeWith State.memWrite; rw [h]

theorem State.loadOp_some {s : State} {pair : BitVec 2 × Bool} (h : s.dataPriv = some pair) (rd rs1 : RegNum)
    (imm : Imm12) (n : Nat) (signed : Bool) :
    s.loadOp rd rs1 imm n signed = s.loadWith .load pair (s.offsetAddr rs1 imm) n signed rd := by
  unfold State.loadOp; rw [h]

theorem State.storeOp_some {s : State} {pair : BitVec 2 × Bool} (h : s.dataPriv = some pair) (rs2 rs1 : RegNum)
    (imm : Imm12) (n : Nat) :
    s.storeOp rs2 rs1 imm n = s.storeWith pair (s.offsetAddr rs1 imm) n (s.x rs2) := by
  unfold State.storeOp; rw [h]

theorem State.ifPresent_true {s : State} {i : Instr} (h : i.wellFormed s.p = true) (f : State → State) :
    s.ifPresent i f = f s := by
  unfold State.ifPresent; rw [if_pos h]

theorem State.ifPresent_false {s : State} {i : Instr} (h : i.wellFormed s.p = false) (f : State → State) :
    s.ifPresent i f = s.takeException (.illegal (encodeWord i)) := by
  unfold State.ifPresent; rw [h]; rfl

/-- What a load can do: fail, or write one register. -/
theorem State.loadWith_cases (s : State) (acc : Access) (pair : BitVec 2 × Bool) (addr : Word) (n : Nat) (signed : Bool)
    (rd : RegNum) :
    (∃ e, s.loadWith acc pair addr n signed rd = s.takeException e) ∨
      ∃ v, s.loadWith acc pair addr n signed rd = (s.setX rd v).advance 4 := by
  unfold State.loadWith
  split
  · exact .inl ⟨_, rfl⟩
  · exact .inr ⟨_, rfl⟩

/-- What a store can do: fail, or write bytes. -/
theorem State.storeWith_cases (s : State) (pair : BitVec 2 × Bool) (addr : Word) (n : Nat) (v : Word) :
    (∃ e, s.storeWith pair addr n v = s.takeException e) ∨
      ∃ ks vs, s.storeWith pair addr n v = State.advance { s with mem := s.mem.writeAll ks vs } 4 := by
  unfold State.storeWith State.memWrite
  split
  · exact .inl ⟨_, rfl⟩
  · rename_i h
    split at h
    · cases h
    · cases h; exact .inr ⟨_, _, rfl⟩

/-! ### Fetching -/

/-- The bytes of a 4-byte fetch are those of its two halves. -/
theorem State.fetchBytes_halves {s : State} {va : Word} {bytes : List Byte} (h : s.fetchBytes va 4 = .ok bytes) :
    ∃ b1 b2, s.fetchBytes va 2 = .ok b1 ∧ s.fetchBytes (s.p.toXlen (s.p.toXlen (va + 1) + 1)) 2 = .ok b2 ∧
      bytes = b1 ++ b2 := by
  unfold State.fetchBytes at h
  split at h
  · cases h
  · rename_i ks hks
    cases h
    obtain ⟨k1, k2, h1, h2, rfl⟩ := s.translateAll_append .fetch s.cur.prv s.cur.virt
      (byteAddrs s.p 2 va) (byteAddrs s.p 2 (s.p.toXlen (s.p.toXlen (va + 1) + 1))) ks hks
    exact ⟨_, _, by unfold State.fetchBytes; rw [h1], by unfold State.fetchBytes; rw [h2], by simp⟩

theorem State.fetchBytes_length {s : State} {va : Word} {n : Nat} {bytes : List Byte}
    (h : s.fetchBytes va n = .ok bytes) : bytes.length = n := by
  unfold State.fetchBytes at h
  split at h
  · cases h
  · rename_i ks hks
    cases h
    rw [List.length_map, s.translateAll_length _ _ _ _ _ hks, byteAddrs_length]

/-- XLEN arithmetic: two increments are an addition of two. -/
theorem toXlen_add_one_twice (p : Params) (v : Word) : p.toXlen (p.toXlen (v + 1) + 1) = p.toXlen (v + 2) := by
  unfold Params.toXlen
  cases p.xlen64
  · simp only [Bool.false_eq_true, if_false]
    apply BitVec.eq_of_toNat_eq
    simp only [BitVec.toNat_and, BitVec.toNat_add, show (0xFFFFFFFF : Word).toNat = 2 ^ 32 - 1 from rfl,
      Nat.and_two_pow_sub_one_eq_mod]
    show ((v.toNat + 1) % 2 ^ 64 % 2 ^ 32 + 1) % 2 ^ 64 % 2 ^ 32 = (v.toNat + 2) % 2 ^ 64 % 2 ^ 32
    omega
  · simp only [if_true]
    rw [BitVec.add_assoc]
    rfl

/-- A fetch answers the instruction whose bytes stand at the pc (30 R80). -/
theorem State.fetch_instr {s : State} {i : Instr} {bytes : List Byte} (hf : s.fetchBytes s.pc i.size = .ok bytes)
    (hd : decode bytes = .ok (i, [])) : s.fetch = .instr i := by
  have hl := State.fetchBytes_length hf
  rcases decode_size hd hl with ⟨h2, hw⟩ | ⟨h4, hw⟩
  · rw [h2] at hf
    unfold State.fetch
    rw [hf]
    dsimp only
    rw [hw]
    simp only [Bool.false_eq_true, if_false, fetchedOf, hd]
  · rw [h4] at hf
    obtain ⟨b1, b2, h1, h2, rfl⟩ := State.fetchBytes_halves hf
    have hl1 := State.fetchBytes_length h1
    have hw1 : (b1.head?.map isWide).getD false = true := by
      cases b1 with
      | nil => cases hl1
      | cons a b => exact hw
    unfold State.fetch
    rw [h1]
    dsimp only
    rw [hw1, if_pos rfl, ← toXlen_add_one_twice, h2]
    dsimp only
    simp only [fetchedOf, hd]

/-! ### Triggers -/

theorem State.firingFrom_nil_mono {s : State} (sel : Trigger → Bool) (k : Nat) (ts : List Trigger)
    (h : s.firingFrom anyTrigger k ts = []) : s.firingFrom sel k ts = [] ∧ s.markHits sel k ts = ts := by
  induction ts generalizing k with
  | nil => exact ⟨rfl, rfl⟩
  | cons t ts ih =>
    unfold State.firingFrom at h
    split at h
    · cases h
    · rename_i hf
      have hf' : s.triggerFires k t = false := by simpa [anyTrigger] using hf
      have ⟨h1, h2⟩ := ih (k + 1) h
      constructor
      · simp [State.firingFrom, hf', h1]
      · simp [State.markHits, hf', h2]

/-- Where no trigger fires, none of a selection fires. -/
theorem State.firing_nil {s : State} (h : s.firing anyTrigger = []) (sel : Trigger → Bool) : s.firing sel = [] :=
  (State.firingFrom_nil_mono sel 0 _ h).1

/-- Where no trigger fires, firing changes nothing. -/
theorem State.fireTriggers_nil {s : State} (h : s.firing anyTrigger = []) (sel : Trigger → Bool) :
    s.fireTriggers sel = s := by
  have h1 : s.firing sel = [] := State.firing_nil h sel
  have h2 : s.markHits sel 0 s.trig.triggers = s.trig.triggers := (State.firingFrom_nil_mono sel 0 _ h).2
  unfold State.fireTriggers
  rw [h1, h2]
  have e1 : s.trig.extIn &&& ~~~(acknowledged s.p []) = s.trig.extIn := by
    rw [acknowledged, show ~~~(0 : BitVec 16) = BitVec.allOnes 16 from rfl, BitVec.and_allOnes]
  have e2 : s.trig.extOut ||| outputs s.p [] = s.trig.extOut := BitVec.or_zero
  rw [e1, e2]

/-- The hit bits after firing, trigger by trigger. -/
theorem State.markHits_getElem? {s : State} (sel : Trigger → Bool) {ts : List Trigger} {k j : Nat} {a : Trigger}
    (h : ts[j]? = some a) :
    (s.markHits sel k ts)[j]? = some (if sel a && s.triggerFires (k + j) a then { a with hit := true } else a) := by
  induction ts generalizing k j with
  | nil => simp at h
  | cons b ts ih =>
    cases j with
    | zero => simp only [List.getElem?_cons_zero, Option.some.injEq] at h; subst h; rfl
    | succ j =>
      simp only [State.markHits, List.getElem?_cons_succ] at h ⊢
      rw [ih h, show k + 1 + j = k + (j + 1) by omega]

/-- A trigger that is selected and fires is among those that fire. -/
theorem State.mem_firingFrom {s : State} {sel : Trigger → Bool} {ts : List Trigger} {k j : Nat} {a : Trigger}
    (h : ts[j]? = some a) (hs : sel a = true) (hf : s.triggerFires (k + j) a = true) :
    a ∈ s.firingFrom sel k ts := by
  induction ts generalizing k j with
  | nil => simp at h
  | cons b ts ih =>
    unfold State.firingFrom
    cases j with
    | zero =>
      simp only [List.getElem?_cons_zero, Option.some.injEq] at h
      subst h
      rw [if_pos (by rw [hs]; exact hf)]
      exact .head _
    | succ j =>
      have := ih (k := k + 1) h (by rwa [show k + 1 + j = k + (j + 1) by omega])
      split
      · exact .tail _ this
      · exact this

/-- A firing external trigger leaves none of its inputs asserted (44 R224). -/
theorem select_acknowledged {p : Params} {a : Trigger} {ts : List Trigger} (h : a ∈ ts) (he : a.isExt p = true)
    (x : BitVec 16) : a.select &&& (x &&& ~~~(acknowledged p ts)) = 0 := by
  have key : ∀ j, a.select.getLsbD j = true → (acknowledged p ts).getLsbD j = true := by
    intro j hj
    induction h with
    | head ts => simp [acknowledged, he, hj]
    | tail b _ ih => simp [acknowledged, ih]
  apply BitVec.eq_of_getLsbD_eq
  intro j hj
  have := key j
  simp only [BitVec.getLsbD_and, BitVec.getLsbD_not]
  cases h1 : a.select.getLsbD j <;> simp_all

/-- A firing trigger with ACTION 8 or 9 asserts its output (44 R223). -/
theorem outputs_getLsbD {p : Params} {a : Trigger} {ts : List Trigger} (h : a ∈ ts) :
    (a.action p = 8 → (outputs p ts).getLsbD 0 = true) ∧ (a.action p = 9 → (outputs p ts).getLsbD 1 = true) := by
  induction h with
  | head ts => exact ⟨fun h => by simp [outputs, h], fun h => by simp [outputs, h]⟩
  | tail b _ ih => exact ⟨fun h => by simp [outputs, ih.1 h], fun h => by simp [outputs, ih.2 h]⟩

/-- Entry to Debug Mode by triggers: the triggers fire, the hart enters with cause trigger, and nothing else but CMDERR
differs (44 R220, R224). -/
theorem State.enterByTrigger_eq (s : State) (sel : Trigger → Bool) :
    ∃ d, s.enterByTrigger sel = { (s.fireTriggers sel).enterDebug .trigger with dm := d } ∧ d.pbRun = false ∧
      d.quick = false := by
  unfold State.enterByTrigger State.extBreakRaised
  split
  · rw [State.takeException_debug rfl]
    exact ⟨_, rfl, rfl, rfl⟩
  · exact ⟨_, rfl, rfl, rfl⟩

/-- Firing looks at the parameters, the mode, the debug configuration and the trigger module's inputs only. -/
theorem State.firingFrom_congr {s t : State} (hp : t.p = s.p) (hd : t.inDebug = s.inDebug)
    (ha : t.allowed = s.allowed) (hm : t.trig.matched = s.trig.matched) (hx : t.trig.extIn = s.trig.extIn)
    (sel : Trigger → Bool) (k : Nat) (ts : List Trigger) : t.firingFrom sel k ts = s.firingFrom sel k ts := by
  induction ts generalizing k with
  | nil => rfl
  | cons a ts ih =>
    have hf : t.triggerFires k a = s.triggerFires k a := by
      simp [State.triggerFires, State.debugAllowedState, hp, hd, ha, hm, hx]
    simp [State.firingFrom, hf, ih]

theorem State.firing_congr {s t : State} (hp : t.p = s.p) (hd : t.inDebug = s.inDebug) (ha : t.allowed = s.allowed)
    (hm : t.trig.matched = s.trig.matched) (hx : t.trig.extIn = s.trig.extIn)
    (ht : t.trig.triggers = s.trig.triggers) (sel : Trigger → Bool) : t.firing sel = s.firing sel := by
  unfold State.firing
  rw [ht]
  exact State.firingFrom_congr hp hd ha hm hx _ _ _

/-- The debug configuration depends on the parameters, `msdcfg` and `mdbgen` only. -/
theorem State.cfg_congr {s t : State} (hp : t.p = s.p) (hm : t.msdcfg = s.msdcfg) (hb : t.mdbgen = s.mdbgen) :
    t.cfg = s.cfg := by
  simp [State.cfg, hp, hm, hb]

theorem State.allowedIn_congr {s t : State} (hp : t.p = s.p) (hm : t.msdcfg = s.msdcfg) (hb : t.mdbgen = s.mdbgen)
    (mode : Mode) : t.allowedIn mode = s.allowedIn mode := by
  unfold State.allowedIn
  rw [State.cfg_congr hp hm hb, hp]

theorem State.allowed_congr {s t : State} (hp : t.p = s.p) (hm : t.msdcfg = s.msdcfg) (hb : t.mdbgen = s.mdbgen)
    (hc : t.cur = s.cur) : t.allowed = s.allowed := by
  unfold State.allowed
  rw [State.allowedIn_congr hp hm hb, hc]

theorem State.dap_congr {s t : State} (hp : t.p = s.p) (hm : t.msdcfg = s.msdcfg) (hb : t.mdbgen = s.mdbgen) :
    t.dap = s.dap := by
  unfold State.dap
  rw [State.cfg_congr hp hm hb]

end Sys2Proof.Machine
end

