-- ==== Sys2Proof/Laws/Csr.lean ====
section
/-! SUPPORT. CSR access: which register a number names, what the access check answers, what a denied access does, and
what a write touches. -/

namespace Sys2Proof.Machine

/-! ### Numbers -/

/-- A number the spec or the family allocates names its register, in a valid configuration (30 R71). -/
theorem csrNamed_fixed {p : Params} (hv : p.valid = true) {n : CsrNum} (hn : n ∈ allocatedCsrNumbers) :
    csrNamed p n = csrTable.lookup n := by
  have h : p.openCsrNumbers.all (fun n => !allocatedCsrNumbers.contains n && n != 0xaaa) = true := by
    simp only [Params.valid, Params.validCsrNumbers, Bool.and_eq_true] at hv
    exact hv.1.2.2
  simp only [Params.openCsrNumbers, List.all_cons, List.all_nil, Bool.and_true, Bool.and_eq_true,
    Bool.not_eq_true', bne_iff_ne] at h
  obtain ⟨h1, h2, h3, h4, h5⟩ := h
  have ne : ∀ a : CsrNum, allocatedCsrNumbers.contains a = false → n ≠ a := by
    rintro a ha rfl
    rw [List.contains_iff_mem.2 hn] at ha
    cases ha
  unfold csrNamed
  rw [if_neg (ne _ h1.1), if_neg (ne _ h2.1), if_neg (ne _ h3.1), if_neg (ne _ h4.1), if_neg (ne _ h5.1)]

/-- The five open numbers name their registers, in a valid configuration (30 R71). -/
theorem csrNamed_open {p : Params} (hv : p.valid = true) :
    csrNamed p p.sdcsrAddr = some .sdcsr ∧ csrNamed p p.sdpcAddr = some .sdpc ∧
      csrNamed p p.udcsrAddr = some .udcsr ∧ csrNamed p p.udpcAddr = some .udpc ∧
      csrNamed p p.msdcfgAddr = some .msdcfg := by
  have h : allDistinct p.openCsrNumbers = true := by
    simp only [Params.valid, Params.validCsrNumbers, Bool.and_eq_true] at hv
    exact hv.1.2.1
  simp only [Params.openCsrNumbers, allDistinct, List.contains_cons, List.contains_nil, Bool.or_false,
    Bool.and_true, Bool.and_eq_true, Bool.not_eq_true', Bool.or_eq_false_iff, beq_eq_false_iff_ne] at h
  obtain ⟨⟨a, b, c, d⟩, ⟨e, f, g⟩, ⟨i, j⟩, k, _⟩ := h
  unfold csrNamed
  refine ⟨by simp, ?_, ?_, ?_, ?_⟩
  · simp [Ne.symm a]
  · simp [Ne.symm b, Ne.symm e]
  · simp [Ne.symm c, Ne.symm f, Ne.symm i]
  · simp [Ne.symm d, Ne.symm g, Ne.symm j, Ne.symm k]

/-- An open number is not read-only (30 R84). -/
theorem csrReadOnly_open {p : Params} {n : CsrNum} (h : n ∈ p.openCsrNumbers) : csrReadOnly p n = false := by
  unfold csrReadOnly
  rw [List.contains_iff_mem.2 h]
  rfl

/-- What a number can name. -/
theorem csrNamed_cases {p : Params} {n : CsrNum} {c : Csr} (h : csrNamed p n = some c) :
    (n = p.sdcsrAddr ∧ c = .sdcsr) ∨ (n = p.sdpcAddr ∧ c = .sdpc) ∨ (n = p.udcsrAddr ∧ c = .udcsr) ∨
      (n = p.udpcAddr ∧ c = .udpc) ∨ (n = p.msdcfgAddr ∧ c = .msdcfg) ∨ (n, c) ∈ csrTable := by
  unfold csrNamed at h
  split at h
  · cases h; tauto
  split at h
  · cases h; tauto
  split at h
  · cases h; tauto
  split at h
  · cases h; tauto
  split at h
  · cases h; tauto
  · simp only [List.lookup_eq_some_iff] at h
    obtain ⟨l1, l2, h, _⟩ := h
    right; right; right; right; right
    rw [h]
    simp

theorem csrLookup_eq_some {p : Params} {n : CsrNum} {c : Csr} :
    csrLookup p n = some c ↔ csrNamed p n = some c ∧ csrImplemented p c = true := by
  unfold csrLookup
  split
  · rename_i d hd
    split
    · rename_i hi
      constructor
      · intro h; cases h; exact ⟨hd, hi⟩
      · rintro ⟨h, -⟩; rw [hd] at h; exact h
    · rename_i hi
      constructor
      · intro h; cases h
      · rintro ⟨h, h'⟩; rw [hd] at h; cases h; exact absurd h' hi
  · rename_i hn
    rw [hn]
    simp

/-! ### The access check -/

/-- When an access from Debug Mode passes, and to which register it goes (41 R120). -/
theorem State.csrCheckDebug_ok {s : State} {n : CsrNum} {w : Bool} {c : Csr} :
    s.csrCheckDebug n w = .ok c ↔
      ∃ d, csrLookup s.p n = some d ∧ (s.requiredLevel d).rank ≤ s.dap.rank ∧ s.debugAccessible d = true ∧
        (w && csrReadOnly s.p n) = false ∧ c = if s.dap = .vs then d.vsCopy else d := by
  unfold State.csrCheckDebug
  cases hl : csrLookup s.p n with
  | none => simp
  | some d =>
    dsimp only
    split
    · rename_i h
      constructor
      · intro h'; cases h'
      · rintro ⟨e, he, h', -⟩; cases he; omega
    · rename_i h
      split
      · rename_i h1
        constructor
        · intro h'; cases h'
        · rintro ⟨e, he, _, h', -⟩; cases he; rw [h1] at h'; cases h'
      · rename_i h1
        split
        · rename_i h2
          constructor
          · intro h'; cases h'
          · rintro ⟨e, he, _, _, h', -⟩; rw [h2] at h'; cases h'
        · rename_i h2
          constructor
          · intro h'; cases h'
            exact ⟨d, rfl, by omega, by simpa using h1, by simpa using h2, rfl⟩
          · rintro ⟨e, he, _, _, _, rfl⟩; cases he; rfl

/-- Outside Debug Mode a debug register is never accessible (41 R144). -/
theorem State.csrCheckRun_debugOnly {s : State} {n : CsrNum} {c : Csr} (hn : csrNamed s.p n = some c)
    (hc : c.debugOnly = true) (w : Bool) : s.csrCheckRun n w = .illegal := by
  unfold State.csrCheckRun
  cases hl : csrLookup s.p n with
  | none => rfl
  | some d =>
    have hd := (csrLookup_eq_some.1 hl).1
    rw [hn] at hd
    cases hd
    dsimp only
    rw [if_pos hc]

/-- The register an access goes to is the one the number names, or its VS copy. -/
theorem State.csrCheck_named {s : State} {n : CsrNum} {w : Bool} {c : Csr} (h : s.csrCheck n w = .ok c) :
    ∃ d, csrLookup s.p n = some d ∧ (c = d ∨ c = d.vsCopy) := by
  unfold State.csrCheck State.csrCheckRun at h
  split at h
  · obtain ⟨d, hd, _, _, _, rfl⟩ := State.csrCheckDebug_ok.1 h
    refine ⟨d, hd, ?_⟩
    split
    · exact .inr rfl
    · exact .inl rfl
  · split at h
    · cases h
    · rename_i d hd
      refine ⟨d, hd, ?_⟩
      repeat' split at h
      all_goals cases h
      all_goals first | exact .inl rfl | exact .inr rfl

/-! ### Denied accesses -/

/-- A CSR instruction whose access is denied takes the exception of the verdict, `debug_fail()` in Debug Mode
(41 R120, R121). -/
theorem exec_csr_denied {s : State} {rd : RegNum} {n : CsrNum} {x : BitVec 5} {i : Instr} (hi : i ∈ csrForms rd n x)
    (h : ∀ c, s.csrCheck n (writesCsr i) ≠ .ok c) :
    exec i s = .next (s.csrDenied i (s.csrCheck n (writesCsr i))) := by
  simp only [csrForms, List.mem_cons, List.not_mem_nil, or_false] at hi
  rcases hi with rfl | rfl | rfl | rfl | rfl | rfl
  all_goals
    simp only [writesCsr] at h
    simp only [exec, execCsrrw, execCsrrs, execCsrrc, execCsrrwi, execCsrrsi, execCsrrci, State.csrSwap,
      State.csrSet, State.csrClear, writesCsr]

theorem exec_csr_denied_debug {s : State} {rd : RegNum} {n : CsrNum} {x : BitVec 5} {i : Instr}
    (hi : i ∈ csrForms rd n x) (hd : s.inDebug = true) (h : ∀ c, s.csrCheckDebug n (writesCsr i) ≠ .ok c) :
    exec i s = .next s.debugFail := by
  rw [exec_csr_denied hi]
  · unfold State.csrDenied
    rw [State.takeException_debug hd]
  · unfold State.csrCheck
    rw [if_pos hd]
    exact h

/-! ### Writes -/

theorem toXlen_getLsbD (p : Params) (w : Word) (j : Nat) (h : p.xlen64 = true ∨ j < 32) :
    (p.toXlen w).getLsbD j = w.getLsbD j := by
  unfold Params.toXlen
  split
  · rfl
  · rename_i h64
    have hj : j < 32 := h.resolve_left h64
    have : (0xFFFFFFFF : Word).getLsbD j = true := by
      interval_cases j <;> rfl
    rw [BitVec.getLsbD_and, this, Bool.and_true]

/-- A 32-bit register reads within XLEN bits as itself. -/
theorem toXlen_setWidth (p : Params) (w : BitVec 32) : p.toXlen (w.setWidth 64) = w.setWidth 64 := by
  unfold Params.toXlen
  split
  · rfl
  · apply BitVec.eq_of_toNat_eq
    simp only [BitVec.toNat_and, show (0xFFFFFFFF : Word).toNat = 2 ^ 32 - 1 from rfl,
      Nat.and_two_pow_sub_one_eq_mod, BitVec.toNat_setWidth]
    have := w.isLt
    omega

/-- The bits of a written value that a 32-bit register takes. -/
theorem low32_getLsbD (p : Params) (w : Word) (j : Nat) (h : j < 32) :
    ((p.toXlen w).setWidth 32).getLsbD j = w.getLsbD j := by
  rw [BitVec.getLsbD_setWidth, toXlen_getLsbD p w j (.inr h), decide_eq_true h, Bool.true_and]

/-- A bit of `dcsr` other than PRV and V after a masked write. -/
theorem writePrvV_merge_getLsbD (p : Params) (c : Cfg) (mask old w : BitVec 32) (prv : BitVec 2) (v : Bool) (j : Nat)
    (h : 1 < j) (h5 : j ≠ 5) :
    (writePrvV p c (merge mask old w) prv v).getLsbD j = if mask.getLsbD j then w.getLsbD j else old.getLsbD j := by
  rw [writePrvV_getLsbD _ _ _ _ _ _ h h5, getLsbD_merge]

theorem merge_pair {mask old new : BitVec 32} (h0 : mask.extractLsb' 0 2 = 0) (h5 : mask.getLsbD 5 = false) :
    (merge mask old new).extractLsb' 0 2 = old.extractLsb' 0 2 ∧ (merge mask old new).getLsbD 5 = old.getLsbD 5 :=
  ⟨extract_merge _ _ _ _ _ h0, by rw [getLsbD_merge, h5]; rfl⟩

/-- A CSR write leaves `dcsr`, or writes its PRV and V by 40 R101 over the old pair. -/
theorem State.csrWrite_dcsr_cases (s : State) (c : Csr) (v : Word) :
    (s.csrWrite c v).dbg.dcsr = s.dbg.dcsr ∨
      ∃ w prv q, (s.csrWrite c v).dbg.dcsr = writePrvV s.p s.cfg w prv q ∧
        w.extractLsb' 0 2 = s.dbg.prv ∧ w.getLsbD 5 = s.dbg.v := by
  have hm : ∀ mask new : BitVec 32, mask.extractLsb' 0 2 = 0 → mask.getLsbD 5 = false →
      (merge mask s.dbg.dcsr new).extractLsb' 0 2 = s.dbg.prv ∧ (merge mask s.dbg.dcsr new).getLsbD 5 = s.dbg.v :=
    fun _ _ h1 h2 => merge_pair h1 h2
  cases c <;> first | exact .inl rfl | skip
  case dcsr =>
    refine .inr ⟨_, _, _, rfl, hm _ _ ?_ ?_⟩ <;> unfold dcsrMask <;>
      cases s.p.hasU <;> cases s.p.hasS <;> cases s.p.hasH <;> decide
  case sdcsr =>
    right
    unfold State.csrWrite State.writeSdcsr
    dsimp only
    split
    · refine ⟨_, _, _, rfl, ?_, ?_⟩
      · rw [extract_setBit _ _ _ _ _ (by omega), extract_setBit _ _ _ _ _ (by omega)]
        exact (hm _ _ (by decide) (by decide)).1
      · rw [getLsbD_setBit_ne _ _ (by omega), getLsbD_setBit_ne _ _ (by omega)]
        exact (hm _ _ (by decide) (by decide)).2
    · refine ⟨_, _, _, rfl, hm _ _ ?_ ?_⟩ <;> unfold sdcsrMask <;> cases s.p.hasH <;> decide
  case udcsr =>
    right
    refine ⟨_, _, _, rfl, ?_, ?_⟩
    · rw [extract_setBit _ _ _ _ _ (by split <;> omega)]
      exact (hm _ _ (by decide) (by decide)).1
    · rw [getLsbD_setBit_ne _ _ (by split <;> omega)]
      exact (hm _ _ (by decide) (by decide)).2
  case tselect => left; simp only [State.csrWrite, State.writeTselect]; split <;> rfl
  case tdata1 => left; simp only [State.csrWrite, State.writeTdata1]; repeat (first | rfl | split)
  case tdata2 => left; simp only [State.csrWrite, State.writeTdata2]; repeat (first | rfl | split)

/-- A CSR write leaves `dpc`, or puts an instruction boundary there (30 R74). -/
theorem State.csrWrite_dpc_cases (s : State) (c : Csr) (v : Word) :
    (s.csrWrite c v).dbg.dpc = s.dbg.dpc ∨ ∃ w, (s.csrWrite c v).dbg.dpc = pcMask s.p w := by
  cases c <;> first | exact .inl rfl | exact .inr ⟨_, rfl⟩ | skip
  case sdcsr => left; simp only [State.csrWrite, State.writeSdcsr]; split <;> rfl
  case tselect => left; simp only [State.csrWrite, State.writeTselect]; split <;> rfl
  case tdata1 => left; simp only [State.csrWrite, State.writeTdata1]; repeat (first | rfl | split)
  case tdata2 => left; simp only [State.csrWrite, State.writeTdata2]; repeat (first | rfl | split)

/-- Only a write of `msdcfg` changes `msdcfg`. -/
theorem State.csrWrite_msdcfg_ne (s : State) {c : Csr} (v : Word) (h : c ≠ .msdcfg) :
    (s.csrWrite c v).msdcfg = s.msdcfg := by
  cases c <;> first | rfl | skip
  case msdcfg => exact absurd rfl h
  case sdcsr => simp only [State.csrWrite, State.writeSdcsr]; split <;> rfl
  case tselect => simp only [State.csrWrite, State.writeTselect]; split <;> rfl
  case tdata1 => simp only [State.csrWrite, State.writeTdata1]; repeat (first | rfl | split)
  case tdata2 => simp only [State.csrWrite, State.writeTdata2]; repeat (first | rfl | split)

end Sys2Proof.Machine
end

