-- ==== Sys2Proof/Laws/Exec.lean ====
section
/-! SUPPORT. What an instruction can do: `exec` always answers a next state, and that state is one of a few. -/

namespace Sys2Proof.Machine

/-- Everything an instruction can do to a state. -/
inductive ExecEffect (s : State) : State → Prop
  | exception (e : Exc) : ExecEffect s (s.takeException e)
  | failed (h : s.inDebug = true) : ExecEffect s s.debugFail
  | csrRead (n : CsrNum) (w : Bool) (c : Csr) (rd : RegNum) (h : s.csrCheck n w = .ok c) :
      ExecEffect s ((s.setX rd (s.csrRead c)).advance 4)
  | csrWrite (n : CsrNum) (c : Csr) (rd : RegNum) (v : Word) (h : s.csrCheck n true = .ok c) :
      ExecEffect s (((s.csrWrite c v).setX rd (s.csrRead c)).advance 4)
  | load (rd : RegNum) (v : Word) : ExecEffect s ((s.setX rd v).advance 4)
  | store (ks : List Nat) (vs : List Byte) : ExecEffect s (State.advance { s with mem := s.mem.writeAll ks vs } 4)
  | bufferEnd (h : s.inDebug = true) : ExecEffect s { s with dm := { s.dm with pbRun := false } }
  | enter (h : s.inDebug = false) (ha : s.allowed = true) : ExecEffect s { s.enterDebug .ebreak with hti := none }
  | nop (h : s.inDebug = true) : ExecEffect s (s.advance 4)
  | mret (h : s.inDebug = false) (hc : s.cur = .m) : ExecEffect s s.mretOp
  | sret (h : s.inDebug = false) (hs : s.p.hasS = true) (hc : s.cur = .m ∨ s.cur = .hs) : ExecEffect s s.sretOp
  | vsret (h : s.inDebug = false) (hs : s.p.hasS = true) (hc : s.cur = .vs) : ExecEffect s s.vsretOp
  | mnret (h : s.inDebug = false) (hc : s.cur = .m) : ExecEffect s s.mnretOp

theorem ExecEffect.of_eq {s t u : State} (h : ExecEffect s t) (e : u = t) : ExecEffect s u := e ▸ h

/-! ### The families -/

theorem csrSwap_effect (s : State) (i : Instr) (rd : RegNum) (n : CsrNum) (v : Word) :
    ExecEffect s (s.csrSwap i rd n v) := by
  unfold State.csrSwap
  split
  · rename_i h; exact .csrWrite n _ rd v h
  · exact .exception _

theorem csrFinish_effect (s : State) (n : CsrNum) (c : Csr) (rd : RegNum) (v : Word) (w : Bool)
    (h : s.csrCheck n w = .ok c) : ExecEffect s (s.csrFinish c rd (if w then some v else none)) := by
  cases w
  · exact .csrRead n false c rd h
  · exact .csrWrite n c rd v h

theorem csrSet_effect (s : State) (i : Instr) (rd : RegNum) (n : CsrNum) (v : Word) (w : Bool) :
    ExecEffect s (s.csrSet i rd n v w) := by
  unfold State.csrSet
  split
  · rename_i h; exact csrFinish_effect s n _ rd _ w h
  · exact .exception _

theorem csrClear_effect (s : State) (i : Instr) (rd : RegNum) (n : CsrNum) (v : Word) (w : Bool) :
    ExecEffect s (s.csrClear i rd n v w) := by
  unfold State.csrClear
  split
  · rename_i h; exact csrFinish_effect s n _ rd _ w h
  · exact .exception _

theorem loadWith_effect (s : State) (acc : Access) (pair : BitVec 2 × Bool) (addr : Word) (n : Nat) (signed : Bool)
    (rd : RegNum) : ExecEffect s (s.loadWith acc pair addr n signed rd) := by
  rcases s.loadWith_cases acc pair addr n signed rd with ⟨e, h⟩ | ⟨v, h⟩
  · exact (ExecEffect.exception e).of_eq h
  · exact (ExecEffect.load rd v).of_eq h

theorem storeWith_effect (s : State) (pair : BitVec 2 × Bool) (addr : Word) (n : Nat) (v : Word) :
    ExecEffect s (s.storeWith pair addr n v) := by
  rcases s.storeWith_cases pair addr n v with ⟨e, h⟩ | ⟨ks, vs, h⟩
  · exact (ExecEffect.exception e).of_eq h
  · exact (ExecEffect.store ks vs).of_eq h

/-- Only in Debug Mode does a data access have no privilege. -/
theorem State.dataPriv_none {s : State} (h : s.dataPriv = none) : s.inDebug = true := by
  unfold State.dataPriv at h
  cases hd : s.inDebug
  · rw [hd] at h; cases h
  · rfl

theorem loadOp_effect (s : State) (rd rs1 : RegNum) (imm : Imm12) (n : Nat) (signed : Bool) :
    ExecEffect s (s.loadOp rd rs1 imm n signed) := by
  unfold State.loadOp
  split
  · rename_i h; exact .failed (State.dataPriv_none h)
  · exact loadWith_effect ..

theorem storeOp_effect (s : State) (rs2 rs1 : RegNum) (imm : Imm12) (n : Nat) :
    ExecEffect s (s.storeOp rs2 rs1 imm n) := by
  unfold State.storeOp
  split
  · rename_i h; exact .failed (State.dataPriv_none h)
  · exact storeWith_effect ..

theorem hlvOp_effect (s : State) (i : Instr) (acc : Access) (rd rs1 : RegNum) (n : Nat) (signed : Bool) :
    ExecEffect s (s.hlvOp i acc rd rs1 n signed) := by
  unfold State.hlvOp
  split
  · exact loadWith_effect ..
  · exact .exception _

theorem hsvOp_effect (s : State) (i : Instr) (rs2 rs1 : RegNum) (n : Nat) :
    ExecEffect s (s.hsvOp i rs2 rs1 n) := by
  unfold State.hsvOp
  split
  · exact storeWith_effect ..
  · exact .exception _

theorem ifPresent_effect (s : State) (i : Instr) (f : State → State)
    (h : i.wellFormed s.p = true → ExecEffect s (f s)) : ExecEffect s (s.ifPresent i f) := by
  unfold State.ifPresent
  split
  · rename_i hw; exact h hw
  · exact .exception _

theorem ebreakOp_effect (s : State) : ExecEffect s s.ebreakOp := by
  unfold State.ebreakOp
  split
  · rename_i h; exact .bufferEnd h
  · rename_i h
    split
    · rename_i ha
      exact .enter (by simpa using h) (by rw [Bool.and_eq_true] at ha; exact ha.1)
    · exact .exception _

theorem privChange_effect (s : State) (h : s.inDebug = true) : ExecEffect s s.privChangeInDebug := by
  unfold State.privChangeInDebug
  split
  · exact .nop h
  · exact .failed h

theorem sretRun_effect (s : State) (h : s.inDebug = false) (hs : s.p.hasS = true) : ExecEffect s s.sretRun := by
  unfold State.sretRun
  split
  · rename_i hc; exact .sret h hs (.inl hc)
  · rename_i hc
    split
    · exact .exception _
    · exact .sret h hs (.inr hc)
  · rename_i hc
    split
    · exact .exception _
    · exact .vsret h hs hc
  · exact .exception _
  · exact .exception _

/-! ### Every instruction -/

/-- Every instruction answers a next state, one of those `ExecEffect` lists. -/
theorem exec_effect (i : Instr) (s : State) : ∃ t, exec i s = .next t ∧ ExecEffect s t := by
  cases i with
  | csrrw rd n rs1 => exact ⟨_, rfl, csrSwap_effect ..⟩
  | csrrs rd n rs1 => exact ⟨_, rfl, csrSet_effect ..⟩
  | csrrc rd n rs1 => exact ⟨_, rfl, csrClear_effect ..⟩
  | csrrwi rd n u => exact ⟨_, rfl, csrSwap_effect ..⟩
  | csrrsi rd n u => exact ⟨_, rfl, csrSet_effect ..⟩
  | csrrci rd n u => exact ⟨_, rfl, csrClear_effect ..⟩
  | ebreak => exact ⟨_, rfl, ebreakOp_effect s⟩
  | cebreak => exact ⟨_, rfl, ifPresent_effect s _ _ fun _ => ebreakOp_effect s⟩
  | ecall =>
    refine ⟨_, rfl, ?_⟩
    split
    · rename_i h; exact privChange_effect s h
    · exact .exception _
  | mret =>
    refine ⟨_, rfl, ?_⟩
    split
    · rename_i h; exact privChange_effect s h
    · rename_i h
      split
      · rename_i hc; exact .mret (by simpa using h) hc
      · exact .exception _
  | sret =>
    refine ⟨_, rfl, ifPresent_effect s _ _ fun hw => ?_⟩
    split
    · rename_i h; exact privChange_effect s h
    · rename_i h; exact sretRun_effect s (by simpa using h) hw
  | mnret =>
    refine ⟨_, rfl, ifPresent_effect s _ _ fun hw => ?_⟩
    split
    · rename_i h; exact privChange_effect s h
    · rename_i h
      split
      · rename_i hc; exact .mnret (by simpa using h) hc
      · exact .exception _
  | lb rd rs1 imm => exact ⟨_, rfl, loadOp_effect ..⟩
  | lh rd rs1 imm => exact ⟨_, rfl, loadOp_effect ..⟩
  | lw rd rs1 imm => exact ⟨_, rfl, loadOp_effect ..⟩
  | lbu rd rs1 imm => exact ⟨_, rfl, loadOp_effect ..⟩
  | lhu rd rs1 imm => exact ⟨_, rfl, loadOp_effect ..⟩
  | lwu rd rs1 imm => exact ⟨_, rfl, ifPresent_effect s _ _ fun _ => loadOp_effect ..⟩
  | ld rd rs1 imm => exact ⟨_, rfl, ifPresent_effect s _ _ fun _ => loadOp_effect ..⟩
  | sb rs2 rs1 imm => exact ⟨_, rfl, storeOp_effect ..⟩
  | sh rs2 rs1 imm => exact ⟨_, rfl, storeOp_effect ..⟩
  | sw rs2 rs1 imm => exact ⟨_, rfl, storeOp_effect ..⟩
  | sd rs2 rs1 imm => exact ⟨_, rfl, ifPresent_effect s _ _ fun _ => storeOp_effect ..⟩
  | hlvb rd rs1 => exact ⟨_, rfl, ifPresent_effect s _ _ fun _ => hlvOp_effect ..⟩
  | hlvbu rd rs1 => exact ⟨_, rfl, ifPresent_effect s _ _ fun _ => hlvOp_effect ..⟩
  | hlvh rd rs1 => exact ⟨_, rfl, ifPresent_effect s _ _ fun _ => hlvOp_effect ..⟩
  | hlvhu rd rs1 => exact ⟨_, rfl, ifPresent_effect s _ _ fun _ => hlvOp_effect ..⟩
  | hlvxhu rd rs1 => exact ⟨_, rfl, ifPresent_effect s _ _ fun _ => hlvOp_effect ..⟩
  | hlvw rd rs1 => exact ⟨_, rfl, ifPresent_effect s _ _ fun _ => hlvOp_effect ..⟩
  | hlvxwu rd rs1 => exact ⟨_, rfl, ifPresent_effect s _ _ fun _ => hlvOp_effect ..⟩
  | hlvwu rd rs1 => exact ⟨_, rfl, ifPresent_effect s _ _ fun _ => hlvOp_effect ..⟩
  | hlvd rd rs1 => exact ⟨_, rfl, ifPresent_effect s _ _ fun _ => hlvOp_effect ..⟩
  | hsvb rs2 rs1 => exact ⟨_, rfl, ifPresent_effect s _ _ fun _ => hsvOp_effect ..⟩
  | hsvh rs2 rs1 => exact ⟨_, rfl, ifPresent_effect s _ _ fun _ => hsvOp_effect ..⟩
  | hsvw rs2 rs1 => exact ⟨_, rfl, ifPresent_effect s _ _ fun _ => hsvOp_effect ..⟩
  | hsvd rs2 rs1 => exact ⟨_, rfl, ifPresent_effect s _ _ fun _ => hsvOp_effect ..⟩

/-- What an instruction leaves behind is one of `ExecEffect`'s states. -/
theorem exec_next {i : Instr} {s t : State} (h : exec i s = .next t) : ExecEffect s t := by
  obtain ⟨u, hu, he⟩ := exec_effect i s
  rw [hu] at h
  cases h
  exact he

end Sys2Proof.Machine
end

