-- ==== Sys2Proof/Laws/Modes.lean ====
section
/-! SUPPORT. Modes, levels and the pair PRV and V: the facts the invariants rest on. -/

namespace Sys2Proof.Machine

/-- In a valid configuration the hypervisor modes need S-mode and S-mode needs U-mode (00 R3). -/
theorem valid_modes {p : Params} (h : p.valid = true) :
    (p.hasH = true → p.hasS = true) ∧ (p.hasS = true → p.hasU = true) := by
  unfold Params.valid Params.validCombination at h
  simp only [Bool.and_eq_true] at h
  have := h.1.1
  revert this
  cases p.hasS <;> cases p.hasU <;> cases p.hasH <;> simp

/-- A mode of the hart is saved as a pair the hart has. -/
theorem supported_saved {p : Params} (hv : p.valid = true) {c : Mode} (h : supportedMode p c = true) :
    supportedPrv p c.prv = true ∧ (c.virt = true → p.hasH = true) := by
  have := valid_modes hv
  cases c <;> simp [supportedMode, supportedPrv, Mode.prv, Mode.virt] at * <;> simp_all

/-- A saved pair the hart has names a mode of the hart. -/
theorem supported_ofSaved {p : Params} (hv : p.valid = true) {prv : BitVec 2} {v : Bool}
    (h : supportedPrv p prv = true) (hh : v = true → p.hasH = true) :
    supportedMode p (Mode.ofSaved prv v) = true := by
  have := valid_modes hv
  have hp : ∀ prv : BitVec 2, prv = 0 ∨ prv = 1 ∨ prv = 2 ∨ prv = 3 := by decide
  rcases hp prv with rfl | rfl | rfl | rfl <;> cases v <;> simp_all [supportedPrv, supportedMode, Mode.ofSaved]

theorem supported_lowest (p : Params) : supportedPrv p (lowestPrv p) = true := by
  unfold lowestPrv
  cases h : p.hasU <;> simp [supportedPrv, h]

@[simp] theorem Mode.ofPair_self (mode : Mode) : Mode.ofPair mode.prv mode.virt = some mode := by
  cases mode <;> rfl

/-! ### The debug access privilege -/

theorem dap_eq_m (c : Cfg) : Machine.dap c = .m ↔ c.mdbgen = true := by
  unfold Machine.dap
  cases c.mdbgen <;> cases c.sde <;> cases c.vse <;> cases c.usd <;> simp

/-- A debug-allowed mode lies at or below the debug access privilege (40 R92, R98). -/
theorem dbgAllowed_level {f : Bool} {c : Cfg} {mode : Mode} (h : dbgAllowed f c mode = true) :
    mode.lvl.rank ≤ (Machine.dap c).rank ∧ Machine.dap c ≠ .none := by
  obtain ⟨a, b, c, d⟩ := c
  revert h
  cases mode <;> revert a b c d f <;> decide

/-- In a debug-allowed mode of the hart, the pair of that mode is a legal resume pair (40 R101). -/
theorem State.allowed_legal {s : State} (hs : supportedMode s.p s.cur = true) (ha : s.allowed = true) :
    s.dap ≠ .none ∧ legalPair s.p s.cfg s.cur.prv s.cur.virt = true := by
  have h := dbgAllowed_level ha
  refine ⟨h.2, ?_⟩
  unfold legalPair
  rw [Mode.ofPair_self]
  simp [hs, h.1]

theorem legalPair_of_dap {p : Params} {c d : Cfg} (h : Machine.dap c = Machine.dap d) (prv : BitVec 2) (v : Bool) :
    legalPair p c prv v = legalPair p d prv v := by
  unfold legalPair
  rw [h]

/-- What is legal stays legal at M level. -/
theorem legalPair_m {p : Params} {c d : Cfg} {prv : BitVec 2} {v : Bool} (h : legalPair p c prv v = true)
    (hd : Machine.dap d = .m) : legalPair p d prv v = true := by
  unfold legalPair at h ⊢
  rw [hd]
  cases hm : Mode.ofPair prv v with
  | none => rw [hm] at h; exact h
  | some mode =>
    rw [hm] at h
    simp only [Bool.and_eq_true] at h ⊢
    refine ⟨h.1, ?_⟩
    cases mode <;> decide

/-- A write of PRV and V over a legal pair leaves a legal pair (40 R101). -/
theorem writePrvV_legal {p : Params} {c : Cfg} {w : BitVec 32} (prv : BitVec 2) (v : Bool)
    (h : legalPair p c (w.extractLsb' 0 2) (w.getLsbD 5) = true) :
    legalPair p c ((writePrvV p c w prv v).extractLsb' 0 2) ((writePrvV p c w prv v).getLsbD 5) = true := by
  have hp := writePrvV_pair p c w prv v
  rw [Prod.ext_iff] at hp
  dsimp only at hp
  rw [hp.1, hp.2]
  split
  · assumption
  · rcases legalizePrvV_cases p c (w.extractLsb' 0 2, w.getLsbD 5) (prv, v) with e | e
    · rw [e]; exact h
    · exact e

/-- From Debug Mode `msdcfg` is reached at M level only (41 R141). -/
theorem State.csrCheck_msdcfg {s : State} {n : CsrNum} {w : Bool} (hd : s.inDebug = true)
    (h : s.csrCheck n w = .ok .msdcfg) : s.mdbgen = true := by
  unfold State.csrCheck at h
  rw [if_pos hd] at h
  obtain ⟨d, _, hr, _, _, hc⟩ := State.csrCheckDebug_ok.1 h
  have hm : d = .msdcfg := by
    split at hc
    · cases d <;> first | rfl | exact absurd hc (by decide)
    · exact hc.symm
  subst hm
  have h4 : 4 ≤ s.dap.rank := hr
  have h5 : s.dap = .m := by
    cases hh : s.dap <;> rw [hh] at h4 <;> simp [Level.rank] at h4 ⊢
  exact (dap_eq_m s.cfg).1 h5

/-- A CSR write from Debug Mode leaves the debug access privilege (40 R110). -/
theorem State.csrWrite_dap {s : State} {n : CsrNum} {w : Bool} {c : Csr} (v : Word) (hd : s.inDebug = true)
    (h : s.csrCheck n w = .ok c) : (s.csrWrite c v).dap = s.dap := by
  by_cases hc : c = .msdcfg
  · subst hc
    have hm := State.csrCheck_msdcfg hd h
    have h1 : s.dap = .m := (dap_eq_m s.cfg).2 hm
    have h2 : (s.csrWrite .msdcfg v).dap = .m := (dap_eq_m _).2 hm
    rw [h1, h2]
  · exact State.dap_congr (by simp) (State.csrWrite_msdcfg_ne _ _ hc) (by simp)

end Sys2Proof.Machine
end

