-- ==== Sys2Proof/Laws/PerInstr.lean ====
section
/-! SUPPORT. Statements made for every instruction: the length of its encoding (10 R37, 30 R80). -/

namespace Sys2Proof.Laws

/-- The encoding has the instruction's length, and its two lowest bits are 11 exactly when that is 4 bytes. -/
def EncodingLength.Statement (i : Instr) : Prop :=
  (encode i).length = i.size ∧ ((encodeWord i).extractLsb' 0 2 = 0b11 ↔ i.size = 4)

/-- A 32-bit instruction whose two lowest bits are 11. -/
theorem EncodingLength.of_wide {i : Instr} (hs : i.size = 4) (hw : (encodeWord i).extractLsb' 0 2 = 0b11) :
    EncodingLength.Statement i :=
  ⟨by rw [encode, List.length_take, wordBytes_length, hs]; rfl, by simp [hs, hw]⟩

theorem EncodingLength.csrrw (rd : RegNum) (csr : CsrNum) (rs1 : RegNum) : EncodingLength.Statement (.csrrw rd csr rs1) :=
  EncodingLength.of_wide rfl (wordI_low2 _ _ _ _ _)
theorem EncodingLength.csrrs (rd : RegNum) (csr : CsrNum) (rs1 : RegNum) : EncodingLength.Statement (.csrrs rd csr rs1) :=
  EncodingLength.of_wide rfl (wordI_low2 _ _ _ _ _)
theorem EncodingLength.csrrc (rd : RegNum) (csr : CsrNum) (rs1 : RegNum) : EncodingLength.Statement (.csrrc rd csr rs1) :=
  EncodingLength.of_wide rfl (wordI_low2 _ _ _ _ _)
theorem EncodingLength.csrrwi (rd : RegNum) (csr : CsrNum) (uimm : BitVec 5) : EncodingLength.Statement (.csrrwi rd csr uimm) :=
  EncodingLength.of_wide rfl (wordI_low2 _ _ _ _ _)
theorem EncodingLength.csrrsi (rd : RegNum) (csr : CsrNum) (uimm : BitVec 5) : EncodingLength.Statement (.csrrsi rd csr uimm) :=
  EncodingLength.of_wide rfl (wordI_low2 _ _ _ _ _)
theorem EncodingLength.csrrci (rd : RegNum) (csr : CsrNum) (uimm : BitVec 5) : EncodingLength.Statement (.csrrci rd csr uimm) :=
  EncodingLength.of_wide rfl (wordI_low2 _ _ _ _ _)
theorem EncodingLength.ebreak : EncodingLength.Statement .ebreak :=
  EncodingLength.of_wide rfl (wordI_low2 _ _ _ _ _)
theorem EncodingLength.cebreak : EncodingLength.Statement .cebreak :=
  ⟨rfl, by decide⟩
theorem EncodingLength.ecall : EncodingLength.Statement .ecall :=
  EncodingLength.of_wide rfl (wordI_low2 _ _ _ _ _)
theorem EncodingLength.mret : EncodingLength.Statement .mret :=
  EncodingLength.of_wide rfl (wordI_low2 _ _ _ _ _)
theorem EncodingLength.sret : EncodingLength.Statement .sret :=
  EncodingLength.of_wide rfl (wordI_low2 _ _ _ _ _)
theorem EncodingLength.mnret : EncodingLength.Statement .mnret :=
  EncodingLength.of_wide rfl (wordI_low2 _ _ _ _ _)
theorem EncodingLength.lb (rd rs1 : RegNum) (imm : Imm12) : EncodingLength.Statement (.lb rd rs1 imm) :=
  EncodingLength.of_wide rfl (wordI_low2 _ _ _ _ _)
theorem EncodingLength.lh (rd rs1 : RegNum) (imm : Imm12) : EncodingLength.Statement (.lh rd rs1 imm) :=
  EncodingLength.of_wide rfl (wordI_low2 _ _ _ _ _)
theorem EncodingLength.lw (rd rs1 : RegNum) (imm : Imm12) : EncodingLength.Statement (.lw rd rs1 imm) :=
  EncodingLength.of_wide rfl (wordI_low2 _ _ _ _ _)
theorem EncodingLength.lbu (rd rs1 : RegNum) (imm : Imm12) : EncodingLength.Statement (.lbu rd rs1 imm) :=
  EncodingLength.of_wide rfl (wordI_low2 _ _ _ _ _)
theorem EncodingLength.lhu (rd rs1 : RegNum) (imm : Imm12) : EncodingLength.Statement (.lhu rd rs1 imm) :=
  EncodingLength.of_wide rfl (wordI_low2 _ _ _ _ _)
theorem EncodingLength.lwu (rd rs1 : RegNum) (imm : Imm12) : EncodingLength.Statement (.lwu rd rs1 imm) :=
  EncodingLength.of_wide rfl (wordI_low2 _ _ _ _ _)
theorem EncodingLength.ld (rd rs1 : RegNum) (imm : Imm12) : EncodingLength.Statement (.ld rd rs1 imm) :=
  EncodingLength.of_wide rfl (wordI_low2 _ _ _ _ _)
theorem EncodingLength.sb (rs2 rs1 : RegNum) (imm : Imm12) : EncodingLength.Statement (.sb rs2 rs1 imm) :=
  EncodingLength.of_wide rfl (wordR_low2 _ _ _ _ _ _)
theorem EncodingLength.sh (rs2 rs1 : RegNum) (imm : Imm12) : EncodingLength.Statement (.sh rs2 rs1 imm) :=
  EncodingLength.of_wide rfl (wordR_low2 _ _ _ _ _ _)
theorem EncodingLength.sw (rs2 rs1 : RegNum) (imm : Imm12) : EncodingLength.Statement (.sw rs2 rs1 imm) :=
  EncodingLength.of_wide rfl (wordR_low2 _ _ _ _ _ _)
theorem EncodingLength.sd (rs2 rs1 : RegNum) (imm : Imm12) : EncodingLength.Statement (.sd rs2 rs1 imm) :=
  EncodingLength.of_wide rfl (wordR_low2 _ _ _ _ _ _)
theorem EncodingLength.hlvb (rd rs1 : RegNum) : EncodingLength.Statement (.hlvb rd rs1) :=
  EncodingLength.of_wide rfl (wordI_low2 _ _ _ _ _)
theorem EncodingLength.hlvbu (rd rs1 : RegNum) : EncodingLength.Statement (.hlvbu rd rs1) :=
  EncodingLength.of_wide rfl (wordI_low2 _ _ _ _ _)
theorem EncodingLength.hlvh (rd rs1 : RegNum) : EncodingLength.Statement (.hlvh rd rs1) :=
  EncodingLength.of_wide rfl (wordI_low2 _ _ _ _ _)
theorem EncodingLength.hlvhu (rd rs1 : RegNum) : EncodingLength.Statement (.hlvhu rd rs1) :=
  EncodingLength.of_wide rfl (wordI_low2 _ _ _ _ _)
theorem EncodingLength.hlvxhu (rd rs1 : RegNum) : EncodingLength.Statement (.hlvxhu rd rs1) :=
  EncodingLength.of_wide rfl (wordI_low2 _ _ _ _ _)
theorem EncodingLength.hlvw (rd rs1 : RegNum) : EncodingLength.Statement (.hlvw rd rs1) :=
  EncodingLength.of_wide rfl (wordI_low2 _ _ _ _ _)
theorem EncodingLength.hlvxwu (rd rs1 : RegNum) : EncodingLength.Statement (.hlvxwu rd rs1) :=
  EncodingLength.of_wide rfl (wordI_low2 _ _ _ _ _)
theorem EncodingLength.hlvwu (rd rs1 : RegNum) : EncodingLength.Statement (.hlvwu rd rs1) :=
  EncodingLength.of_wide rfl (wordI_low2 _ _ _ _ _)
theorem EncodingLength.hlvd (rd rs1 : RegNum) : EncodingLength.Statement (.hlvd rd rs1) :=
  EncodingLength.of_wide rfl (wordI_low2 _ _ _ _ _)
theorem EncodingLength.hsvb (rs2 rs1 : RegNum) : EncodingLength.Statement (.hsvb rs2 rs1) :=
  EncodingLength.of_wide rfl (wordR_low2 _ _ _ _ _ _)
theorem EncodingLength.hsvh (rs2 rs1 : RegNum) : EncodingLength.Statement (.hsvh rs2 rs1) :=
  EncodingLength.of_wide rfl (wordR_low2 _ _ _ _ _ _)
theorem EncodingLength.hsvw (rs2 rs1 : RegNum) : EncodingLength.Statement (.hsvw rs2 rs1) :=
  EncodingLength.of_wide rfl (wordR_low2 _ _ _ _ _ _)
theorem EncodingLength.hsvd (rs2 rs1 : RegNum) : EncodingLength.Statement (.hsvd rs2 rs1) :=
  EncodingLength.of_wide rfl (wordR_low2 _ _ _ _ _ _)

end Sys2Proof.Laws
end

