-- ==== Sys2Proof/Laws/Step.lean ====
section
/-! SUPPORT. What a step can do, said once: as one of a few shapes (`step_cases`, `RunEffect`, `DebugEffect`), and as a
chain of elementary updates, from which every invariant follows (`step_keeps`). -/

namespace Sys2Proof.Machine

/-! ### The shapes of a step -/

/-- A step that answers a next state has valid parameters and is either a step of the hart or an action of an agent. -/
theorem step_cases {s t : State} (h : step s = .next t) :
    s.p.valid = true ∧
      ((s.hartTurn ∧ s.popInput.hartStep = .next t) ∨
        ∃ e rest, s.inputs = e :: rest ∧ e ≠ .hart ∧ State.act { s with inputs := rest } e = .next t) := by
  unfold step State.stepValid at h
  split at h
  · rename_i hv
    refine ⟨hv, ?_⟩
    unfold State.advanceInputs at h
    split at h
    · rename_i hi
      refine .inl ⟨.inl hi, ?_⟩
      have : s.popInput = s := by unfold State.popInput; rw [hi]; simp only [List.tail_nil]; rw [← hi]
      rw [this]; exact h
    · rename_i e rest hi
      by_cases he : e = .hart
      · subst he
        refine .inl ⟨.inr (by rw [hi]; rfl), ?_⟩
        have : s.popInput = { s with inputs := rest } := by unfold State.popInput; rw [hi]; rfl
        rw [this]; exact h
      · exact .inr ⟨e, rest, hi, he, h⟩
  · cases h

/-- With the hart to move and valid parameters a step is a step of the hart. -/
theorem step_hart {s : State} (hv : s.p.valid = true) (h : s.hartTurn) : step s = s.popInput.hartStep := by
  unfold step State.stepValid
  rw [if_pos hv]
  unfold State.advanceInputs
  rcases h with hi | hi
  · rw [hi]
    have : s.popInput = s := by unfold State.popInput; rw [hi]; simp only [List.tail_nil]; rw [← hi]
    rw [this]
  · cases hl : s.inputs with
    | nil => rw [hl] at hi; cases hi
    | cons e rest =>
      rw [hl] at hi
      simp only [List.head?_cons, Option.some.injEq] at hi
      subst hi
      have : s.popInput = { s with inputs := rest } := by unfold State.popInput; rw [hl]; rfl
      rw [this]; rfl

/-- With valid parameters an action of an agent is `act`. -/
theorem step_act {s : State} {e : Event} {rest : List Event} (hv : s.p.valid = true) (h : s.inputs = e :: rest) :
    step s = State.act { s with inputs := rest } e := by
  unfold step State.stepValid
  rw [if_pos hv]
  unfold State.advanceInputs
  rw [h]

/-- A step of the hart where no action of an agent is due. -/
theorem step_hart_next {s t : State} (ht : s.hartTurn) (h : step s = .next t) : s.popInput.hartStep = .next t := by
  rcases (step_cases h).2 with ⟨_, h⟩ | ⟨e, rest, hi, he, _⟩
  · exact h
  · rcases ht with h0 | h0 <;> rw [hi] at h0
    · cases h0
    · simp only [List.head?_cons, Option.some.injEq] at h0
      exact absurd h0 he

/-- What happens at a boundary outside Debug Mode before the step check. -/
inductive RunEffect (s : State) : State → Prop
  | interrupt (k : Taken) (h : s.pickInterrupt = some k) : RunEffect s (s.takeInterrupt k)
  | triggerDebug (h : s.allowed = true) : RunEffect s (s.enterByTrigger anyTrigger)
  | triggerBreak : RunEffect s ((s.fireTriggers anyTrigger).takeException .breakpoint)
  | fetchFault (f : MemFault) : RunEffect s ((s.fireTriggers anyTrigger).takeException (.mem .fetch f))
  | instr (i : Instr) (t : State) (h : exec i (s.fireTriggers anyTrigger).traceStart = .next t) : RunEffect s t

/-- A trigger that fires and enters Debug Mode fires in a debug-allowed mode (44 R220, R224). -/
theorem State.firingFrom_debug {s : State} (hd : s.inDebug = false) (k : Nat) (ts : List Trigger)
    (h : (s.firingFrom anyTrigger k ts).any (debugTrigger s.p) = true) : s.allowed = true := by
  induction ts generalizing k with
  | nil => cases h
  | cons a ts ih =>
    unfold State.firingFrom at h
    split at h
    · rename_i hf
      rw [List.any_cons, Bool.or_eq_true] at h
      rcases h with h | h
      · have hf' : s.triggerFires k a = true := by simpa [anyTrigger] using hf
        unfold State.triggerFires at hf'
        rw [Bool.and_eq_true] at hf'
        have hact : a.action s.p = 1 := by simpa [debugTrigger] using h
        have := hf'.2
        split at this
        · rw [Bool.and_eq_true, State.debugAllowedState, hd] at this
          exact this.2
        · rw [hact] at this
          rw [Bool.and_eq_true] at this
          exact this.2
      · exact ih _ h
    · exact ih _ h

/-- In a debug-disallowed mode no gated trigger fires: neither an external one nor one with ACTION 1, 8 or 9
(44 R220, R223, R224). -/
theorem State.triggerFires_gated {s : State} (hd : s.inDebug = false) (ha : s.allowed = false) (k : Nat) (a : Trigger)
    (h : a.isExt s.p = true ∨ isDebugAction (a.action s.p) = true) : s.triggerFires k a = false := by
  unfold State.triggerFires State.debugAllowedState
  rw [hd, ha]
  rcases h with h | h <;> simp [h]

theorem State.firing_debug {s : State} (hd : s.inDebug = false)
    (h : (s.firing anyTrigger).any (debugTrigger s.p) = true) : s.allowed = true :=
  State.firingFrom_debug hd 0 _ h

theorem triggersThenInstr_effect {s t : State} (hd : s.inDebug = false) (h : s.triggersThenInstr = .next t) :
    RunEffect s t := by
  unfold State.triggersThenInstr at h
  dsimp only at h
  split at h
  · rename_i hf
    cases h
    exact .triggerDebug (State.firing_debug hd hf)
  · split at h
    · cases h; exact .triggerBreak
    · unfold State.runInstr at h
      split at h
      · cases h; exact .fetchFault _
      · cases h
      · exact .instr _ t h

theorem interruptOrInstr_effect {s t : State} (hd : s.inDebug = false) (h : s.interruptOrInstr = .next t) :
    RunEffect s t := by
  unfold State.interruptOrInstr at h
  split at h
  · rename_i hk
    split at h
    · exact triggersThenInstr_effect hd h
    · cases h; exact .interrupt _ hk
  · exact triggersThenInstr_effect hd h

/-- A step outside Debug Mode: a halt at the boundary in a debug-allowed mode, or one of `RunEffect` and the step
check. -/
theorem runStep_cases {s t : State} (hd : s.inDebug = false) (h : s.runStep = .next t) :
    (s.allowed = true ∧ ∃ c, (s.haltRequestCause = some c ∧ t = (s.enterDebug c).dropMatched) ∨
        (s.haltRequestCause = none ∧ c = .trigger ∧
          t = (s.enterByTrigger (Trigger.isExt s.p)).dropMatched)) ∨
      (s.haltAtBoundary = none ∧ ∃ u, RunEffect s u ∧ t = u.stepCheck.dropMatched) := by
  unfold State.runStep at h
  cases hb : s.haltAtBoundary with
  | some u =>
    rw [hb] at h
    cases h
    left
    unfold State.haltAtBoundary at hb
    split at hb
    · rename_i ha
      refine ⟨ha, ?_⟩
      split at hb
      · rename_i c hc; cases hb; exact ⟨c, .inl ⟨hc, rfl⟩⟩
      · rename_i hc
        split at hb
        · cases hb; exact ⟨.trigger, .inr ⟨hc, rfl, rfl⟩⟩
        · cases hb
    · cases hb
  | none =>
    rw [hb] at h
    right
    refine ⟨rfl, ?_⟩
    obtain ⟨u, hu, hf⟩ := andThen_eq_next h
    cases hf
    exact ⟨u, interruptOrInstr_effect hd hu, rfl⟩

/-- A step in Debug Mode, from the state in which triggers have been looked at. -/
theorem debugStep_cases {s t : State} (h : s.debugStep = .next t) :
    let s' := (s.fireTriggers anyTrigger).dropMatched
    (s'.dm.pbRun = false ∧ t = s') ∨ (s'.dm.pbRun = true ∧ t = s'.debugFail) ∨
      (∃ e, t = s'.takeException e) ∨
      (s'.dm.pbRun = true ∧ ∃ i u, exec i s' = .next u ∧ u.finishQuick = .next t) := by
  unfold State.debugStep at h
  dsimp only at h ⊢
  split at h
  · cases h; exact .inr (.inr (.inl ⟨_, rfl⟩))
  split at h
  · rename_i hr
    split at h
    · obtain ⟨u, hu, hf⟩ := andThen_eq_next h
      exact .inr (.inr (.inr ⟨hr, _, u, hu, hf⟩))
    · cases h; exact .inr (.inl ⟨hr, rfl⟩)
    · cases h
    · cases h; exact .inr (.inr (.inl ⟨_, rfl⟩))
  · rename_i hr
    cases h
    exact .inl ⟨by simpa using hr, rfl⟩

theorem finishQuick_cases {s t : State} (h : s.finishQuick = .next t) :
    t = s ∨ (s.inDebug = true ∧ s.dm.quick = true ∧ s.dm.pbRun = false ∧ s.resume = .next t) := by
  unfold State.finishQuick at h
  split at h
  · rename_i hq
    simp only [Bool.and_eq_true, Bool.not_eq_true'] at hq
    exact .inr ⟨hq.1.1, hq.1.2, hq.2, h⟩
  · cases h; exact .inl rfl

/-- A resume that answers a next state: to a mode of the hart that PRV and V name (60 R241). -/
theorem resume_cases {s t : State} (h : s.resume = .next t) :
    ∃ mode, Mode.ofPair s.dbg.prv s.dbg.v = some mode ∧ supportedMode s.p mode = true ∧
      t = { s with
        cur := mode, pc := s.dbg.dpc, inDebug := false, stepArmed := s.dbg.step || s.stepArmed,
        dm := { s.dm with pbRun := false, quick := false } } := by
  unfold State.resume at h
  split at h
  · rename_i mode hm
    split at h
    · rename_i hs; cases h; exact ⟨mode, hm, hs, rfl⟩
    · cases h
  · cases h

/-! ### A step as a chain of elementary updates -/

/-- The elementary updates of the machine, each with what holds where it is made. -/
inductive Atom : State → State → Prop
  | inputs (s : State) (l : List Event) : Atom s { s with inputs := l }
  | hti (s : State) (h : Option Word) : Atom s { s with hti := h }
  | trig (s : State) (x : TriggerModule) : Atom s { s with trig := x }
  | dm (s : State) (d : DebugModule) (h : d.pbRun = true → s.inDebug = true ∨ s.dm.pbRun = true) : Atom s { s with dm := d }
  | setX (s : State) (r : RegNum) (v : Word) : Atom s (s.setX r v)
  | mem (s : State) (ks : List Nat) (vs : List Byte) : Atom s { s with mem := s.mem.writeAll ks vs }
  | advance (s : State) : Atom s (s.advance 4)
  | csrWrite (s : State) (n : CsrNum) (c : Csr) (v : Word) (hv : s.p.valid = true) (h : s.csrCheck n true = .ok c) :
      Atom s (s.csrWrite c v)
  | trap (s : State) (dest : Mode) (intr : Bool) (code : Nat) (tval : Word) (h : s.inDebug = false)
      (hs : dest = .hs → s.p.hasS = true) (hh : dest = .vs → s.cur.virt = true ∨ s.p.hasH = true) :
      Atom s (s.trapTo dest intr code tval)
  | nmi (s : State) (h : s.inDebug = false) : Atom s s.takeNmi
  | mret (s : State) (h : s.inDebug = false) (hc : s.cur = .m) : Atom s s.mretOp
  | sret (s : State) (hv : s.p.valid = true) (h : s.inDebug = false) (hs : s.p.hasS = true) : Atom s s.sretOp
  | vsret (s : State) (h : s.inDebug = false) (hs : s.p.hasS = true) (hc : s.cur = .vs) : Atom s s.vsretOp
  | mnret (s : State) (h : s.inDebug = false) (hc : s.cur = .m) : Atom s s.mnretOp
  | enterDebug (s : State) (c : DebugCause) (h : s.inDebug = false) (ha : s.allowed = true) : Atom s (s.enterDebug c)
  | resume (s t : State) (h : s.resume = .next t) : Atom s t
  | mdbgen (s : State) (b : Bool) (h : s.inDebug = true → s.mdbgen = true → b = true) :
      Atom s { s with mdbgen := b, dbg := { s.dbg with dmprv := s.dbg.dmprv && !b } }
  | mtrcen (s : State) (b : Bool) : Atom s { s with mtrcen := b }
  | pending (s : State) (a b c d : Bool) :
      Atom s { s with haltPending := a, resetHaltPending := b, groupHaltPending := c, nmiPending := d }
  | mip (s : State) (w : Word) : Atom s (s.setCsr { s.csr with mip := w })
  | xlat (s : State) (x : Translation) : Atom s { s with xlat := x }

/-- A chain of elementary updates. -/
abbrev Chain : State → State → Prop := Relation.ReflTransGen Atom

theorem Chain.one {s t : State} (h : Atom s t) : Chain s t := Relation.ReflTransGen.single h

theorem Atom.csr_p (s : State) (c : Csr) (v : Word) : (s.csrWrite c v).p = s.p := State.csrWrite_p s c v

theorem chain_takeException (s : State) (e : Exc) : Chain s (s.takeException e) := by
  cases hd : s.inDebug
  · rw [State.takeException_run hd]
    refine Chain.one (.trap s _ _ _ _ hd ?_ ?_) <;> intro hdest <;>
      rcases s.exceptionDest_cases (excCode s.cur e) with h | ⟨h, hs, _⟩ | ⟨h, hs, hv, _⟩ <;>
      rw [h] at hdest <;> first
        | exact hs
        | exact .inl hv
        | cases hdest
  · rw [State.takeException_debug hd]
    exact Chain.one (.dm s _ fun h => by cases h)

theorem chain_exec {s t : State} (hv : s.p.valid = true) (h : ExecEffect s t) : Chain s t := by
  cases h with
  | exception e => exact chain_takeException s e
  | failed h => exact Chain.one (.dm s _ fun h => by cases h)
  | csrRead n w c rd h => exact (Chain.one (.setX s rd _)).trans (Chain.one (.advance _))
  | csrWrite n c rd v h =>
    exact ((Chain.one (.csrWrite s n c v hv h)).trans (Chain.one (.setX _ rd _))).trans (Chain.one (.advance _))
  | load rd v => exact (Chain.one (.setX s rd v)).trans (Chain.one (.advance _))
  | store ks vs => exact (Chain.one (.mem s ks vs)).trans (Chain.one (.advance _))
  | bufferEnd h => exact Chain.one (.dm s _ fun h => by cases h)
  | enter h ha => exact (Chain.one (.enterDebug s _ h ha)).trans (Chain.one (.hti _ none))
  | nop h => exact Chain.one (.advance s)
  | mret h hc => exact Chain.one (.mret s h hc)
  | sret h hs hc => exact Chain.one (.sret s hv h hs)
  | vsret h hs hc => exact Chain.one (.vsret s h hs hc)
  | mnret h hc => exact Chain.one (.mnret s h hc)

/-- The destination of an interrupt (60 R250). -/
theorem State.interruptDest_cases (s : State) (code : Nat) :
    s.interruptDest code = .m ∨ (s.interruptDest code = .hs ∧ s.p.hasS = true) ∨
      (s.interruptDest code = .vs ∧ s.p.hasH = true) := by
  unfold State.interruptDest
  split
  · exact .inl rfl
  · rename_i h
    rw [not_or, Bool.not_eq_false] at h
    split
    · rename_i hh; exact .inr (.inr ⟨rfl, hh.1⟩)
    · exact .inr (.inl ⟨rfl, h.1⟩)

theorem chain_takeInterrupt {s : State} (hd : s.inDebug = false) (k : Taken) : Chain s (s.takeInterrupt k) := by
  cases k with
  | nmi => exact Chain.one (.nmi s hd)
  | interrupt code =>
    refine Chain.one (.trap s _ _ _ _ hd ?_ ?_) <;> intro hdest <;>
      rcases s.interruptDest_cases code with h | ⟨h, hs⟩ | ⟨h, hs⟩ <;> rw [h] at hdest <;> first
        | exact hs
        | exact .inr hs
        | cases hdest

theorem chain_fireTriggers (s : State) (sel : Trigger → Bool) : Chain s (s.fireTriggers sel) := Chain.one (.trig s _)

theorem State.fireTriggers_allowed (s : State) (sel : Trigger → Bool) : (s.fireTriggers sel).allowed = s.allowed :=
  State.allowed_congr rfl rfl rfl rfl

theorem chain_enterByTrigger {s : State} (hd : s.inDebug = false) (ha : s.allowed = true) (sel : Trigger → Bool) :
    Chain s (s.enterByTrigger sel) := by
  have h := (chain_fireTriggers s sel).trans
    (Chain.one (.enterDebug _ .trigger hd ((s.fireTriggers_allowed sel).trans ha)))
  unfold State.enterByTrigger State.extBreakRaised
  split
  · exact h.trans (chain_takeException _ _)
  · exact h

theorem chain_run {s t : State} (hv : s.p.valid = true) (hd : s.inDebug = false) (h : RunEffect s t) : Chain s t := by
  cases h with
  | interrupt k h => exact chain_takeInterrupt hd k
  | triggerDebug ha => exact chain_enterByTrigger hd ha _
  | triggerBreak => exact (chain_fireTriggers s _).trans (chain_takeException _ _)
  | fetchFault f => exact (chain_fireTriggers s _).trans (chain_takeException _ _)
  | instr i t h => exact ((chain_fireTriggers s _).trans (Chain.one (.hti _ _))).trans (chain_exec hv (exec_next h))

theorem chain_stepCheck (s : State) : Chain s s.stepCheck := by
  unfold State.stepCheck
  split
  · rename_i h
    simp only [Bool.and_eq_true, Bool.not_eq_true'] at h
    exact Chain.one (.enterDebug s _ h.1.1 h.2)
  · exact .refl

theorem chain_dropMatched (s : State) : Chain s s.dropMatched := Chain.one (.trig s _)

theorem chain_beginStep (s : State) : Chain s s.beginStep :=
  (Chain.one (.hti s none)).trans (Chain.one (.trig _ _))

theorem chain_runStep {s t : State} (hv : s.p.valid = true) (hd : s.inDebug = false) (h : s.runStep = .next t) :
    Chain s t := by
  rcases runStep_cases hd h with ⟨ha, c, ⟨_, rfl⟩ | ⟨_, _, rfl⟩⟩ | ⟨_, u, hu, rfl⟩
  · exact (Chain.one (.enterDebug s c hd ha)).trans (chain_dropMatched _)
  · exact (chain_enterByTrigger hd ha _).trans (chain_dropMatched _)
  · exact ((chain_run hv hd hu).trans (chain_stepCheck u)).trans (chain_dropMatched _)

theorem chain_debugStep {s t : State} (hv : s.p.valid = true) (h : s.debugStep = .next t) : Chain s t := by
  have h0 : Chain s (s.fireTriggers anyTrigger).dropMatched := (chain_fireTriggers s _).trans (chain_dropMatched _)
  rcases debugStep_cases h with ⟨_, rfl⟩ | ⟨_, rfl⟩ | ⟨e, rfl⟩ | ⟨_, i, u, hu, hf⟩
  · exact h0
  · exact h0.trans (Chain.one (.dm _ _ fun h => by cases h))
  · exact h0.trans (chain_takeException _ _)
  · have h1 := h0.trans (chain_exec hv (exec_next hu))
    rcases finishQuick_cases hf with rfl | ⟨_, _, _, hr⟩
    · exact h1
    · exact h1.trans (Chain.one (.resume u t hr))

theorem chain_hartStep {s t : State} (hv : s.p.valid = true) (h : s.hartStep = .next t) : Chain s t := by
  unfold State.hartStep at h
  split at h
  · exact (chain_beginStep s).trans (chain_debugStep hv h)
  · rename_i hd
    exact (chain_beginStep s).trans (chain_runStep hv (by simpa using hd) h)

theorem chain_commandOnRunning {s t : State} (h : s.commandOnRunning = .next t) : Chain s t := by
  unfold State.commandOnRunning at h
  split at h
  · cases h
  · split at h
    · cases h
    · cases h
      refine Chain.one (.dm s _ fun hr => .inr ?_)
      unfold DebugModule.setErr at hr
      split at hr <;> exact hr

/-- A command is served in Debug Mode while the Program Buffer is idle, or it is a command against a running hart. -/
theorem whenHalted_cases {s t : State} {f : State → Host.Outcome State Fault Refusal} (h : s.whenHalted f = .next t) :
    (s.inDebug = false ∧ s.commandOnRunning = .next t) ∨
      (s.inDebug = true ∧ s.dm.pbRun = false ∧ f s = .next t) := by
  unfold State.whenHalted at h
  split at h
  · rename_i hd; exact .inl ⟨hd, h⟩
  · rename_i hd
    split at h
    · cases h
    · rename_i hr; exact .inr ⟨by simpa using hd, by simpa using hr, h⟩

theorem chain_accessRegister {s : State} (hv : s.p.valid = true) (hd : s.inDebug = true) (r : AbsReg)
    (write : Option Word) : Chain s (s.accessRegister r write) := by
  have hfail : Chain s s.debugFail := Chain.one (.dm s _ fun h => by cases h)
  have hdata : ∀ v, Chain s (s.setData v) := fun v => Chain.one (.dm s _ fun _ => .inl hd)
  unfold State.accessRegister
  split
  · split
    · exact hfail
    · split
      · exact hdata _
      · exact Chain.one (.setX s _ _)
  · split
    · rename_i n _ c hc
      split
      · exact hdata _
      · refine Chain.one (.csrWrite s n c _ hv ?_)
        unfold State.csrCheck
        rw [if_pos hd]
        exact hc
    · exact hfail

theorem chain_accessMemory {s : State} (hd : s.inDebug = true) (addr : Word) (n : Nat) (write : Option Word) :
    Chain s (s.accessMemory addr n write) := by
  have hfail : Chain s s.debugFail := Chain.one (.dm s _ fun h => by cases h)
  unfold State.accessMemory
  split
  · exact hfail
  · split
    · split
      · exact hfail
      · exact Chain.one (.dm s _ fun _ => .inl hd)
    · split
      · exact hfail
      · rename_i hm
        unfold State.memWrite at hm
        split at hm
        · cases hm
        · cases hm; exact Chain.one (.mem s _ _)

theorem chain_act {s t : State} (hv : s.p.valid = true) (e : Event)
    (h : s.act e = .next t) : Chain s t := by
  cases e with
  | hart => exact chain_hartStep hv h
  | setMdbgen b =>
    replace h : s.driveMdbgen b = .next t := h
    unfold State.driveMdbgen at h
    split at h
    · cases h
    · rename_i hn
      cases h
      refine Chain.one (.mdbgen s b fun h1 h2 => ?_)
      cases b
      · exact absurd (by rw [h1, h2]; rfl) hn
      · rfl
  | setMtrcen b => cases h; exact Chain.one (.mtrcen s b)
  | haltRequest => cases h; exact Chain.one (.pending s true s.resetHaltPending s.groupHaltPending s.nmiPending)
  | resetHaltRequest => cases h; exact Chain.one (.pending s s.haltPending true s.groupHaltPending s.nmiPending)
  | groupHaltRequest => cases h; exact Chain.one (.pending s s.haltPending s.resetHaltPending true s.nmiPending)
  | resume =>
    replace h : s.resumeRequest = .next t := h
    unfold State.resumeRequest at h
    split at h
    · exact Chain.one (.resume s t h)
    · cases h
  | accessRegister r write =>
    replace h : (s.whenHalted fun t => .next (t.accessRegister r write)) = .next t := h
    rcases whenHalted_cases h with ⟨_, h⟩ | ⟨hd, _, h⟩
    · exact chain_commandOnRunning h
    · cases h; exact chain_accessRegister hv hd r write
  | accessMemory addr size write =>
    replace h : (s.whenHalted fun t => t.accessMemorySized addr size write) = .next t := h
    rcases whenHalted_cases h with ⟨_, h⟩ | ⟨hd, _, h⟩
    · exact chain_commandOnRunning h
    · unfold State.accessMemorySized at h
      split at h
      · cases h
      · cases h; exact chain_accessMemory hd addr _ write
  | quickAccess =>
    replace h : s.quickAccess = .next t := h
    unfold State.quickAccess at h
    split at h
    · cases h
    · rename_i hd
      have hd' : s.inDebug = false := by simpa using hd
      split at h
      · rename_i ha
        cases h
        exact (Chain.one (.enterDebug s .haltreq hd' ha)).trans
          (Chain.one (.dm _ { (s.enterDebug .haltreq).startProgBuf.dm with quick := true } fun _ => .inl rfl))
      · exact chain_commandOnRunning h
  | writeProgBuf bytes =>
    replace h : s.fillProgBuf bytes = .next t := h
    unfold State.fillProgBuf at h
    split at h
    · cases h
    · cases h; exact Chain.one (.dm s _ .inr)
  | runProgBuf =>
    replace h : (s.whenHalted fun t => .next t.startProgBuf) = .next t := h
    rcases whenHalted_cases h with ⟨_, h⟩ | ⟨hd, _, h⟩
    · exact chain_commandOnRunning h
    · cases h; exact Chain.one (.dm s _ fun _ => .inl hd)
  | clearCmderr => cases h; exact Chain.one (.dm s _ .inr)
  | setInterrupts mask value => cases h; exact Chain.one (.mip s _)
  | setNmi b => cases h; exact Chain.one (.pending s s.haltPending s.resetHaltPending s.groupHaltPending b)
  | setExtIn i b => cases h; exact Chain.one (.trig s _)
  | setMatched ts => cases h; exact Chain.one (.trig s _)
  | delegateTrigger i b =>
    replace h : Host.Outcome.next (s.delegateTrigger i b) = .next t := h
    unfold State.delegateTrigger at h
    split at h
    · cases h; exact .refl
    · cases h; exact Chain.one (.trig s _)
  | setTranslation x => cases h; exact Chain.one (.xlat s x)

/-- Every step is a chain of elementary updates. -/
theorem step_chain {s t : State} (h : step s = .next t) : Chain s t := by
  obtain ⟨hv, h | ⟨e, rest, _, _, h⟩⟩ := step_cases h
  · exact (Chain.one (.inputs s s.inputs.tail)).trans (chain_hartStep hv h.2)
  · exact (Chain.one (.inputs s rest)).trans (chain_act (s := { s with inputs := rest }) hv e h)

theorem chain_keeps {P : State → Prop} (hP : ∀ a b, Atom a b → P a → P b) {s t : State} (h : Chain s t) (hs : P s) :
    P t := by
  induction h with
  | refl => exact hs
  | tail _ hab ih => exact hP _ _ hab ih

/-- What every elementary update keeps, every step keeps. -/
theorem step_keeps {P : State → Prop} (hP : ∀ a b, Atom a b → P a → P b) {s t : State} (h : step s = .next t)
    (hs : P s) : P t :=
  chain_keeps hP (step_chain h) hs

end Sys2Proof.Machine
end

