-- ==== Sys2Proof/Tests/Slice0.lean ====
section
/-! SUPPORT. Tests: well-formedness, decoding of words written out from 30 R77 to R80, one step at a time from the vectors
of 95 (which the spec computes from its rules), and for every statement with hypotheses a state and operands that meet
them (`witness_…`). -/

namespace Sys2Proof.Tests

open Sys2Proof.Machine

/-- Look at the next state of an outcome. -/
def after {α : Type} (o : Host.Outcome State Fault Refusal) (f : State → α) : Option α :=
  match o with
  | .next s => some (f s)
  | _ => none

theorem exists_of_after {α : Type} {o : Host.Outcome State Fault Refusal} {f : State → α} {x : α}
    (h : after o f = some x) : ∃ t, o = .next t ∧ f t = x := by
  cases o with
  | next s => exact ⟨s, rfl, Option.some.inj h⟩
  | fault r => cases h
  | refused r => cases h

/-! ### States -/

/-- `msdcfg` with the three debug controls. -/
def controls (sde vse usd : Bool) : Word :=
  (if sde then 0x80 else 0) ||| (if vse then 0x100 else 0) ||| (if usd then 0x200 else 0)

/-- In Debug Mode, `cfg` and `dcsr` as given. -/
def halted (mdbgen sde vse usd : Bool) (dcsr : BitVec 32) : State :=
  { State.resetWith Params.full mdbgen false with
    inDebug := true, msdcfg := controls sde vse usd, dbg := { DebugRegs.reset with dcsr := dcsr } }

/-- Running in a mode, `cfg` and `dcsr` as given. -/
def running (mdbgen sde vse usd : Bool) (mode : Mode) (dcsr : BitVec 32) : State :=
  { State.resetWith Params.full mdbgen false with
    cur := mode, msdcfg := controls sde vse usd, dbg := { DebugRegs.reset with dcsr := dcsr } }

/-- With a word where the hart fetches. -/
def withWord (s : State) (w : Nat) : State := s.withFetchWord 32 w

/-- XLEN = 32. -/
def narrow (s : State) : State := { s with p := { s.p with xlen64 := false } }

/-- DMPRV set. -/
def dmprv1 (s : State) : State := s.withDmprv true

/-! ### Well-formedness: every check refuses an ill-formed term -/

theorem test_wf_cebreak : Instr.wellFormed { Params.full with hasC := false } .cebreak = false := by decide
theorem test_wf_sret : Instr.wellFormed { Params.full with hasS := false } .sret = false := by decide
theorem test_wf_mnret : Instr.wellFormed { Params.full with hasRnmi := false } .mnret = false := by decide
theorem test_wf_lwu : Instr.wellFormed { Params.full with xlen64 := false } (.lwu 1 2 0) = false := by decide
theorem test_wf_ld : Instr.wellFormed { Params.full with xlen64 := false } (.ld 1 2 0) = false := by decide
theorem test_wf_sd : Instr.wellFormed { Params.full with xlen64 := false } (.sd 1 2 0) = false := by decide
theorem test_wf_hlvb : Instr.wellFormed { Params.full with hasH := false } (.hlvb 1 2) = false := by decide
theorem test_wf_hsvw : Instr.wellFormed { Params.full with hasH := false } (.hsvw 1 2) = false := by decide
theorem test_wf_hlvwu : Instr.wellFormed { Params.full with xlen64 := false } (.hlvwu 1 2) = false := by decide
theorem test_wf_hlvd_h : Instr.wellFormed { Params.full with hasH := false } (.hlvd 1 2) = false := by decide
theorem test_wf_hsvd : Instr.wellFormed { Params.full with xlen64 := false } (.hsvd 1 2) = false := by decide
theorem test_wf_full : Instr.wellFormed Params.full (.hsvd 1 2) = true := by decide
theorem test_valid_full : Params.full.valid = true := by decide
theorem test_valid_collision : ({ Params.full with sdpcAddr := 0x7b4 } : Params).valid = false := by decide
theorem test_valid_placeholder : ({ Params.full with sdpcAddr := 0xaaa } : Params).valid = false := by decide
theorem test_valid_trace_bit : ({ Params.full with usetrcBit := 9 } : Params).valid = false := by decide

/-! ### Decoding: one word per constructor, fields of 30 R77 to R80 from bit 31 down -/

/-- `sdpc`, rs1 = 11, funct3 001, rd = 0. -/
theorem test_decode_csrrw : decodeWord32 0b011110110101_01011_001_00000_1110011 = some (.csrrw 0 0x7b5 11) := by decide
theorem test_decode_csrrs : decodeWord32 0b011110110000_00000_010_01011_1110011 = some (.csrrs 11 0x7b0 0) := by decide
theorem test_decode_csrrc : decodeWord32 0b001100000000_00111_011_00000_1110011 = some (.csrrc 0 0x300 7) := by decide
theorem test_decode_csrrwi : decodeWord32 0b011110110100_10101_101_00000_1110011 = some (.csrrwi 0 0x7b4 21) := by
  decide
theorem test_decode_csrrsi : decodeWord32 0b011110110100_10000_110_00000_1110011 = some (.csrrsi 0 0x7b4 16) := by
  decide
theorem test_decode_csrrci : decodeWord32 0b011110110110_00100_111_00000_1110011 = some (.csrrci 0 0x7b6 4) := by
  decide
theorem test_decode_ebreak : decodeWord32 0b000000000001_00000_000_00000_1110011 = some .ebreak := by decide
theorem test_decode_ecall : decodeWord32 0b000000000000_00000_000_00000_1110011 = some .ecall := by decide
theorem test_decode_mret : decodeWord32 0b001100000010_00000_000_00000_1110011 = some .mret := by decide
theorem test_decode_sret : decodeWord32 0b000100000010_00000_000_00000_1110011 = some .sret := by decide
theorem test_decode_mnret : decodeWord32 0b011100000010_00000_000_00000_1110011 = some .mnret := by decide
/-- 100 1 00000 00000 10 in two bytes, the low one first (30 R80). -/
theorem test_decode_cebreak : decode [0b00000010, 0b10010000] = .ok (.cebreak, []) := by decide
theorem test_decode_lb : decodeWord32 0b111111111111_01101_000_01100_0000011 = some (.lb 12 13 (-1)) := by decide
theorem test_decode_lh : decodeWord32 0b000000000010_01101_001_01100_0000011 = some (.lh 12 13 2) := by decide
theorem test_decode_lw : decodeWord32 0b000000000000_01101_010_01100_0000011 = some (.lw 12 13 0) := by decide
theorem test_decode_lbu : decodeWord32 0b100000000000_01101_100_01100_0000011 = some (.lbu 12 13 (-2048)) := by decide
theorem test_decode_lhu : decodeWord32 0b000000000000_01101_101_01100_0000011 = some (.lhu 12 13 0) := by decide
theorem test_decode_lwu : decodeWord32 0b000000000000_01101_110_01100_0000011 = some (.lwu 12 13 0) := by decide
theorem test_decode_ld : decodeWord32 0b000000000000_01101_011_01100_0000011 = some (.ld 12 13 0) := by decide
/-- The offset in two parts: 1000000 and 00000 are -2048. -/
theorem test_decode_sb : decodeWord32 0b1000000_01010_01011_000_00000_0100011 = some (.sb 10 11 (-2048)) := by decide
theorem test_decode_sh : decodeWord32 0b0000000_01010_01011_001_00010_0100011 = some (.sh 10 11 2) := by decide
theorem test_decode_sw : decodeWord32 0b0000001_01010_01011_010_00000_0100011 = some (.sw 10 11 32) := by decide
theorem test_decode_sd : decodeWord32 0b0000000_01010_01011_011_00000_0100011 = some (.sd 10 11 0) := by decide
theorem test_decode_hlvb : decodeWord32 0b0110000_00000_01101_100_01100_1110011 = some (.hlvb 12 13) := by decide
theorem test_decode_hlvbu : decodeWord32 0b0110000_00001_01101_100_01100_1110011 = some (.hlvbu 12 13) := by decide
theorem test_decode_hlvh : decodeWord32 0b0110010_00000_01101_100_01100_1110011 = some (.hlvh 12 13) := by decide
theorem test_decode_hlvhu : decodeWord32 0b0110010_00001_01101_100_01100_1110011 = some (.hlvhu 12 13) := by decide
theorem test_decode_hlvxhu : decodeWord32 0b0110010_00011_01101_100_01100_1110011 = some (.hlvxhu 12 13) := by decide
theorem test_decode_hlvw : decodeWord32 0b0110100_00000_01101_100_01100_1110011 = some (.hlvw 12 13) := by decide
theorem test_decode_hlvxwu : decodeWord32 0b0110100_00011_01101_100_01100_1110011 = some (.hlvxwu 12 13) := by decide
theorem test_decode_hlvwu : decodeWord32 0b0110100_00001_01101_100_01100_1110011 = some (.hlvwu 12 13) := by decide
theorem test_decode_hlvd : decodeWord32 0b0110110_00000_01101_100_01100_1110011 = some (.hlvd 12 13) := by decide
theorem test_decode_hsvb : decodeWord32 0b0110001_01010_01011_100_00000_1110011 = some (.hsvb 10 11) := by decide
theorem test_decode_hsvh : decodeWord32 0b0110011_01010_01011_100_00000_1110011 = some (.hsvh 10 11) := by decide
theorem test_decode_hsvw : decodeWord32 0b0110101_01010_01011_100_00000_1110011 = some (.hsvw 10 11) := by decide
theorem test_decode_hsvd : decodeWord32 0b0110111_01010_01011_100_00000_1110011 = some (.hsvd 10 11) := by decide
/-- A hypervisor store has rd = 0, and ECALL has rs1 = rd = 0 (30 R77). -/
theorem test_decode_hsvw_rd : decodeWord32 0b0110101_01010_01011_100_00001_1110011 = none := by decide
theorem test_decode_ecall_rd : decodeWord32 0b000000000000_00000_000_00001_1110011 = none := by decide
theorem test_decode_addi : decode [0x13, 0x00, 0x00, 0x00] = .error (.notInTable 0x13) := by decide
theorem test_decode_amo : decode [0x2f, 0xa0, 0x00, 0x00] = .error (.otherMemory 0xa02f) := by decide
theorem test_encode_hsvw : encodeWord (.hsvw 10 11) = 0x6AA5C073 := by decide
theorem test_encode_sb : encodeWord (.sb 10 11 (-2048)) = 0x80A58023 := by decide

/-! ### The CSR instructions on a view (95 section 2.6): in Debug Mode, `cfg` = 0100, `dcsr` = 0x4002AED5 -/

/-- The start state of 95 section 2.6, with x10 = a0. -/
def viewStart (a0 : Word) : State := (halted false true false false 0x4002AED5).setX 10 a0

theorem test_csrrw_sdcsr :
    after (exec (.csrrw 0 0x7b4 10) (viewStart 0xFFFFFFFF)) (fun t => (t.dbg.dcsr, t.dbg.dmprv)) =
      some (0x4003BEF5, true) := by decide
theorem test_csrrs_sdcsr :
    after (exec (.csrrs 10 0x7b4 0) (viewStart 7)) (fun t => (t.x 10, t.dbg.dcsr)) =
      some (0x400228C5, 0x4002AED5) := by decide
theorem test_csrrc_sdcsr :
    after (exec (.csrrc 0 0x7b4 10) (dmprv1 (viewStart 4))) (fun t => (t.dbg.dcsr, t.dbg.dmprv)) =
      some (0x4002AED1, true) := by decide
theorem test_csrrwi_sdcsr :
    after (exec (.csrrwi 0 0x7b4 0x15) (viewStart 0)) (fun t => (t.dbg.dcsr, t.dbg.dmprv)) =
      some (0x400086D5, true) := by decide
theorem test_csrrsi_sdcsr :
    after (exec (.csrrsi 0 0x7b4 0x10) (viewStart 0)) (fun t => (t.dbg.dcsr, t.dbg.dmprv)) =
      some (0x4002AED5, true) := by decide
theorem test_csrrci_udcsr :
    after (exec (.csrrci 0 0x7b6 4) (viewStart 0)) (fun t => (t.dbg.dcsr, t.dm.cmderr)) =
      some (0x4002AED1, 0) := by decide
/-- The same on `dcsr` fails (P2, instruction 2). -/
theorem test_csrrs_dcsr_fails :
    after (exec (.csrrs 11 0x7b0 0) ((viewStart 0).setX 11 0x55)) (fun t => (t.x 11, t.dm.cmderr)) =
      some (0x55, 3) := by decide
/-- Outside Debug Mode `sdcsr` is illegal (41 R144): `mcause` 2. -/
theorem test_csrrw_sdcsr_running :
    after (exec (.csrrw 0 0x7b4 0) (running false true false false .m 0x40000003)) (fun t => (t.csr.mcause, t.cur)) =
      some (2, .m) := by decide
/-- P5, instructions 1 and 2: the view of a U-level debugger. -/
theorem test_csrrs_udcsr :
    after (exec (.csrrs 10 0x7b6 0) (halted false false false true 0x400100E0)) (fun t => t.x 10) =
      some 0x400010E0 := by decide

/-- `msdcfg` of a hart without any optional sub-extension is accessible and has no field (30 R75). -/
theorem test_csrrw_msdcfg_no_fields :
    after (exec (.csrrw 11 0x7c0 10)
        { (halted true false false false 0x400000C3).setX 10 0x3FF with
          p := { Params.full with hasSmsdedbg := false, hasSmvsdedbg := false, hasSmudedbg := false } })
      (fun t => (t.x 11, t.msdcfg, t.dm.cmderr, t.csr.mcause)) = some (0, 0, 0, 0) := by decide

theorem test_csrrwi_udcsr :
    after (exec (.csrrwi 0 0x7b6 4) (halted false false false true 0x400100E0)) (fun t => t.dbg.dcsr) =
      some 0x400000C4 := by decide

/-! ### Reads of the views (95 section 2.4) and writes (95 section 2.5) -/

theorem test_sdcsr_read_s : (dmprv1 (halted false true false false 0x4003BEF5)).csrRead .sdcsr = 0x400338F5 := by decide
theorem test_sdcsr_read_vs : (dmprv1 (halted false false true false 0x4003BEF5)).csrRead .sdcsr = 0x400038F5 := by
  decide
theorem test_udcsr_read : (halted false false false true 0x4003BEF5).csrRead .udcsr = 0x400018E4 := by decide
theorem test_sdcsr_read_m : (dmprv1 (halted true true false false 0x4002AED5)).csrRead .sdcsr = 0x400228C5 := by decide
theorem test_sdcsr_write_m :
    ((halted true false false false 0x400000C3).csrWrite .sdcsr 0x10).dbg = { DebugRegs.reset with dcsr := 0x400000C0 } := by
  decide
theorem test_sdcsr_write_vs :
    ((halted false false true false 0x40000061).csrWrite .sdcsr 0x33001).dbg.dcsr = 0x40030061 := by decide
theorem test_sdcsr_write_vs_vu :
    ((halted false false true false 0x40000061).csrWrite .sdcsr 0x34).dbg =
      { DebugRegs.reset with dcsr := 0x40000064, dmprv := true } := by decide
theorem test_udcsr_write_v1 :
    ((halted false false false true 0x40000120).csrWrite .udcsr 0x1004).dbg.dcsr = 0x40010104 := by decide
theorem test_udcsr_write_v0 :
    ((halted false false false true 0x40000100).csrWrite .udcsr 0xFFFFFFFF).dbg.dcsr = 0x40001924 := by decide

/-! ### EBREAK (95 section 2.7) -/

theorem test_ebreak_hs :
    after (exec .ebreak (running false true false false .hs 0x4000A003)) (fun t => (t.inDebug, t.dbg.dcsr)) =
      some (true, 0x4000A041) := by decide
theorem test_ebreak_m_not_allowed :
    after (exec .ebreak (running false true false false .m 0x4000A003)) (fun t => (t.inDebug, t.csr.mcause, t.csr.mpp)) =
      some (false, 3, 3) := by decide
theorem test_cebreak_vu :
    after (exec .cebreak (running false false false true .vu 0x40010003)) (fun t => (t.inDebug, t.dbg.dcsr)) =
      some (true, 0x40010060) := by decide
/-- U does not follow VS by default. -/
theorem test_cebreak_u_not_allowed :
    after (exec .cebreak (running false false true false .u 0x40001003)) (fun t => (t.inDebug, t.csr.mcause)) =
      some (false, 3) := by decide

/-! ### The privilege-changing instructions (95 section 2.8, P3, P6) -/

/-- A NOP or a failure, by the parameter. -/
def asNop (s : State) : State := { s with p := { s.p with privChange := .nop } }

theorem test_ecall_buffer :
    after (exec .ecall (halted false true false false 0x400000C1)) (fun t => (t.dm.cmderr, t.dm.pbPc)) = some (3, 0) := by
  decide
theorem test_ecall_vs :
    after (exec .ecall (running false false false false .vs 0)) (fun t => (t.csr.mcause, t.csr.mpp, t.csr.mpv)) =
      some (10, 1, true) := by decide
theorem test_mret_buffer :
    after (exec .mret (asNop (halted false true false false 0x400000C1))) (fun t => (t.dm.cmderr, t.dm.pbPc, t.cur)) =
      some (0, 4, .m) := by decide
/-- MPP = 1, MPIE = 1, MPRV = 1: to S-mode at `mepc`, MIE set, MPP and MPRV clear. -/
theorem test_mret_s :
    after (exec .mret ((running false true false false .m 0).setCsr
      { Csrs.reset Params.full with mstatus := 0x20880, mepc := 0x80000200 }))
      (fun t => (t.cur, t.pc, t.csr.mstatus)) = some (.hs, 0x80000200, 0x88) := by decide
/-- SRET in HS-mode with SPV = 1, SPP = 1: to VS-mode. -/
theorem test_sret_vs :
    after (exec .sret ((running false true false false .hs 0).setCsr
      { Csrs.reset Params.full with mstatus := 0x100, hstatus := 0x80, sepc := 0x400 }))
      (fun t => (t.cur, t.pc, t.csr.mstatus, t.csr.hstatus)) = some (.vs, 0x400, 0x20, 0) := by decide
theorem test_sret_u_illegal :
    after (exec .sret (running false true false false .u 0)) (fun t => (t.cur, t.csr.mcause, t.csr.mtval)) =
      some (.m, 2, 0x10200073) := by decide
theorem test_mnret :
    after (exec .mnret ((running false true false false .m 0).setCsr
      { Csrs.reset Params.full with mnstatus := 0x80, mnepc := 0x600 }))
      (fun t => (t.cur, t.pc, t.csr.mnstatus)) = some (.vu, 0x600, 0x88) := by decide
theorem test_mnret_buffer :
    after (exec .mnret (halted true false false false 0x400000C3)) (fun t => (t.inDebug, t.dm.cmderr)) =
      some (true, 3) := by decide

/-! ### Loads and stores (95 section 2.10): in Debug Mode at M level -/

/-- The memory of 95 section 2.10, a3 = x13 at its start, a0 = x10, a1 = x11. -/
def dataStart : State :=
  State.setX (State.setX (State.setX { halted true false false false 0x400000C3 with
    mem := [(0x80002000, 0xEF), (0x80002001, 0xBE), (0x80002002, 0xAD), (0x80002003, 0xDE), (0x80002004, 0x78),
      (0x80002005, 0x56), (0x80002006, 0x34), (0x80002007, 0x92)] }
    13 0x80002000) 10 0x1122334455667788) 11 0x80003000

theorem test_lb : after (exec (.lb 12 13 0) dataStart) (fun t => t.x 12) = some 0xFFFFFFFFFFFFFFEF := by decide
theorem test_lb_offset :
    after (exec (.lb 12 13 (-1)) (dataStart.setX 13 0x80002001)) (fun t => t.x 12) = some 0xFFFFFFFFFFFFFFEF := by decide
theorem test_lbu : after (exec (.lbu 12 13 0) dataStart) (fun t => t.x 12) = some 0xEF := by decide
theorem test_lh : after (exec (.lh 12 13 0) dataStart) (fun t => t.x 12) = some 0xFFFFFFFFFFFFBEEF := by decide
theorem test_lhu : after (exec (.lhu 12 13 0) dataStart) (fun t => t.x 12) = some 0xBEEF := by decide
theorem test_lw : after (exec (.lw 12 13 0) dataStart) (fun t => t.x 12) = some 0xFFFFFFFFDEADBEEF := by decide
theorem test_lw_narrow : after (exec (.lw 12 13 0) (narrow dataStart)) (fun t => t.x 12) = some 0xDEADBEEF := by decide
theorem test_lwu : after (exec (.lwu 12 13 0) dataStart) (fun t => t.x 12) = some 0xDEADBEEF := by decide
theorem test_lwu_narrow :
    after (exec (.lwu 12 13 0) (narrow dataStart)) (fun t => (t.x 12, t.dm.cmderr)) = some (0, 3) := by decide
theorem test_ld : after (exec (.ld 12 13 0) dataStart) (fun t => t.x 12) = some 0x92345678DEADBEEF := by decide
theorem test_sb :
    after (exec (.sb 10 11 (-2048)) (dataStart.setX 11 0x80003800)) (fun t => t.mem.filter (·.1 ≥ 0x80003000)) =
      some [(0x80003000, 0x88)] := by decide
theorem test_sh :
    after (exec (.sh 10 11 0) dataStart) (fun t => t.mem.filter (·.1 ≥ 0x80003000)) =
      some [(0x80003000, 0x88), (0x80003001, 0x77)] := by decide
theorem test_sw :
    after (exec (.sw 10 11 0) dataStart) (fun t => t.mem.filter (·.1 ≥ 0x80003000)) =
      some [(0x80003000, 0x88), (0x80003001, 0x77), (0x80003002, 0x66), (0x80003003, 0x55)] := by decide
theorem test_sd :
    after (exec (.sd 10 11 0) dataStart) (fun t => t.mem.filter (·.1 ≥ 0x80003000)) =
      some [(0x80003000, 0x88), (0x80003001, 0x77), (0x80003002, 0x66), (0x80003003, 0x55), (0x80003004, 0x44),
        (0x80003005, 0x33), (0x80003006, 0x22), (0x80003007, 0x11)] := by decide

/-- Big-endian data by MBE, and by SBE at S/HS level (20 R60). -/
def bigStart (mdbgen : Bool) (mstatus : Word) : State :=
  { dataStart with mdbgen := mdbgen, msdcfg := controls true false false }.setCsr
    { Csrs.reset Params.full with mstatus := mstatus }

theorem test_lw_big : after (exec (.lw 12 13 0) (bigStart true 0x2000000000)) (fun t => t.x 12) =
    some 0xFFFFFFFFEFBEADDE := by decide
theorem test_lw_other_control :
    after (exec (.lw 12 13 0) (bigStart true 0x1000000000)) (fun t => t.x 12) = some 0xFFFFFFFFDEADBEEF := by decide
theorem test_sh_big :
    after (exec (.sh 10 11 0) (bigStart false 0x1000000000)) (fun t => t.mem.filter (·.1 ≥ 0x80003000)) =
      some [(0x80003000, 0x77), (0x80003001, 0x88)] := by decide

/-- A user page P at 0x80002000 and a supervisor page Q at 0x80003000, mapped to themselves. -/
def userAndSupervisor : Translation where
  on0 := true
  on1 := true
  onG := true
  pages := [⟨false, 0x80002, 0x80002, true, true, true, true, true, true, true⟩,
    ⟨false, 0x80003, 0x80003, true, true, true, false, true, true, true⟩]
  guards := []

/-- 95 section 2.10 at S/HS level with DMPRV as given and sstatus.SPP = 0. -/
def pageStart (b : Bool) : State :=
  { (dataStart.withDmprv b) with mdbgen := false, msdcfg := controls true false false, xlat := userAndSupervisor }

theorem test_lw_user_page_dmprv :
    after (exec (.lw 12 13 0) (pageStart true)) (fun t => (t.x 12, t.dm.cmderr)) = some (0xFFFFFFFFDEADBEEF, 0) := by
  decide
theorem test_lh_user_page_no_dmprv :
    after (exec (.lh 12 13 0) (pageStart false)) (fun t => (t.x 12, t.dm.cmderr)) = some (0, 3) := by decide
theorem test_sw_supervisor_page_dmprv :
    after (exec (.sw 10 11 0) (pageStart true)) (fun t => (t.mem == dataStart.mem, t.dm.cmderr)) = some (true, 3) := by
  decide

/-! ### Hypervisor loads and stores (95 section 2.11) -/

/-- Halfword 0xFFFE and more at 0x80002000. -/
def guestStart : State :=
  { dataStart with mem := [(0x80002000, 0xFE), (0x80002001, 0xFF), (0x80002002, 0xFF), (0x80002003, 0xFF),
      (0x80002004, 0x01)] }

theorem test_hlvb : after (exec (.hlvb 12 13) guestStart) (fun t => t.x 12) = some 0xFFFFFFFFFFFFFFFE := by decide
theorem test_hlvb_vs :
    after (exec (.hlvb 12 13) { guestStart with mdbgen := false, msdcfg := controls false true false })
      (fun t => (t.x 12, t.dm.cmderr)) = some (0, 3) := by decide
theorem test_hlvbu : after (exec (.hlvbu 12 13) guestStart) (fun t => t.x 12) = some 0xFE := by decide
theorem test_hlvh : after (exec (.hlvh 12 13) guestStart) (fun t => t.x 12) = some 0xFFFFFFFFFFFFFFFE := by decide
theorem test_hlvhu : after (exec (.hlvhu 12 13) guestStart) (fun t => t.x 12) = some 0xFFFE := by decide
theorem test_hlvxhu : after (exec (.hlvxhu 12 13) guestStart) (fun t => t.x 12) = some 0xFFFE := by decide
theorem test_hlvw : after (exec (.hlvw 12 13) guestStart) (fun t => t.x 12) = some 0xFFFFFFFFFFFFFFFE := by decide
theorem test_hlvxwu : after (exec (.hlvxwu 12 13) guestStart) (fun t => t.x 12) = some 0xFFFFFFFE := by decide
theorem test_hlvwu : after (exec (.hlvwu 12 13) guestStart) (fun t => t.x 12) = some 0xFFFFFFFE := by decide
theorem test_hlvd : after (exec (.hlvd 12 13) guestStart) (fun t => t.x 12) = some 0x1FFFFFFFE := by decide
theorem test_hlvd_no_h :
    after (exec (.hlvd 12 13) { guestStart with p := { Params.full with hasH := false } }) (fun t => t.dm.cmderr) =
      some 3 := by decide
theorem test_hsvb :
    after (exec (.hsvb 10 11) dataStart) (fun t => t.mem.filter (·.1 ≥ 0x80003000)) = some [(0x80003000, 0x88)] := by
  decide
theorem test_hsvh :
    after (exec (.hsvh 10 11) dataStart) (fun t => (t.mem.filter (·.1 ≥ 0x80003000)).length) = some 2 := by decide
theorem test_hsvw :
    after (exec (.hsvw 10 11) dataStart) (fun t => t.mem.filter (·.1 ≥ 0x80003003)) = some [(0x80003003, 0x55)] := by
  decide
theorem test_hsvd :
    after (exec (.hsvd 10 11) dataStart) (fun t => t.mem.filter (·.1 ≥ 0x80003007)) = some [(0x80003007, 0x11)] := by
  decide
/-- U level with V = 0: hstatus.HU decides. -/
theorem test_hsvw_u_hu :
    after (exec (.hsvw 10 11)
      ({ dataStart with mdbgen := false, msdcfg := controls false false true, mem := [] }.setCsr
        { Csrs.reset Params.full with hstatus := 0x200 }))
      (fun t => t.mem.length) = some 4 := by decide

/-! ### `mem_priv` (95 section 2.9) -/

/-- At S/HS level with DMPRV = 1, mstatus and hstatus as given. -/
def memPrivOf (mstatus hstatus : Word) : Option (BitVec 2 × Bool) :=
  (dmprv1 ((halted false true false false 0x400000C1).setCsr
    { Csrs.reset Params.full with mstatus := mstatus, hstatus := hstatus })).memPriv

theorem test_mem_priv_u : memPrivOf 0 0 = some (0, false) := by decide
theorem test_mem_priv_vu : memPrivOf 0 0x80 = some (0, true) := by decide
theorem test_mem_priv_vs : memPrivOf 0x100 0x80 = some (1, true) := by decide

/-! ### Whole steps (95 sections 2.12 to 2.14) -/

/-- A pending halt request in M-mode, debug allowed there: halted with CAUSE 3. -/
theorem test_halt_m :
    after (step { running true false false false .m 0 with haltPending := true, pc := 0x100 })
      (fun t => (t.inDebug, t.dbg.dpc, t.dbg.dcsr)) = some (true, 0x100, 0xC3) := by decide
/-- The same with `mdbgen` = 0: MRET to U-mode executes, and the request is still pending. -/
theorem test_halt_pending :
    after (step (withWord { running false true false false .m 0 with haltPending := true } 0x30200073))
      (fun t => (t.inDebug, t.haltPending)) = some (false, true) := by decide

/-- P4: an armed step in S-mode under 0100, machine timer interrupt pending and enabled. -/
def stepStart (interrupt : Word) : State :=
  { running false true false false .hs 0x400000C5 with
    stepArmed := true, pc := 0x80001000,
    csr := { Csrs.reset Params.full with mie := interrupt, mip := interrupt, mtvec := 0x80000100,
                                         mideleg := 0x20, mnstatus := 8 } }

theorem test_step_interrupt_to_m :
    after (step (stepStart 0x80)) (fun t => (t.inDebug, t.stepArmed, t.cur, t.pc, t.csr.mepc, t.csr.mcause)) =
      some (false, true, .m, 0x80000100, 0x80001000, 0x8000000000000007) := by decide
/-- The variant: a supervisor timer interrupt delegated to S-mode is masked, and the instruction executes. -/
theorem test_step_interrupt_to_s :
    after (step (withWord (stepStart 0x20) 0x0006A603)) (fun t => (t.inDebug, t.dbg.dpc, t.dbg.dcsr)) =
      some (true, 0x80001004, 0x40000105) := by decide

/-- A trigger with ACTION = 1 that matches at the next boundary. -/
def triggerStart (mode : Mode) : State :=
  { running false true false false mode 0 with
    trig := { TriggerModule.reset with
      triggers := [⟨0x2000000000001000, 0, false, false⟩], matched := [0] } }

theorem test_trigger_s :
    after (step (triggerStart .hs)) (fun t => (t.inDebug, t.dbg.dcsr, t.trig.triggers.map Trigger.hit)) =
      some (true, 0x81, [true]) := by decide
theorem test_trigger_m_inert :
    after (step (withWord (triggerStart .m) 0x00000073)) (fun t => (t.inDebug, t.csr.mcause, t.trig.triggers.map Trigger.hit)) =
      some (false, 11, [false]) := by decide
/-- External triggers of the given ACTIONs on input 0, which is asserted (44 R224). -/
def extStart (s : State) (actions : List Word) : State :=
  { s with trig := { TriggerModule.reset with
      triggers := actions.map fun a => ⟨0x7000000000000040 ||| a, 0, false, false⟩, extIn := 1 } }

/-- ACTION 1 enters Debug Mode, and the trigger with ACTION 8 on the same input fires too. -/
theorem test_ext_halt :
    after (step (extStart (running false true false false .hs 0) [1, 8]))
      (fun t => (t.inDebug, t.trig.extIn, t.trig.extOut, t.trig.triggers.map Trigger.hit)) =
      some (true, 0, 1, [true, true]) := by decide
/-- ACTION 0 in Debug Mode is a breakpoint exception there, `debug_fail()` (60 R256). -/
theorem test_ext_break_debug :
    after (step (extStart (halted false true false false 0x400000C1) [0]))
      (fun t => (t.inDebug, t.dm.cmderr, t.trig.extIn)) = some (true, 3, 0) := by decide
/-- An S/HS-level debugger selects the delegated trigger and no other (44 R229). -/
theorem test_tselect_delegated :
    let s := (halted false true false false 0x400000C1).delegateTrigger 2 true
    (after (exec (.csrrwi 0 0x7a0 2) s) fun t => (t.trig.tselect, t.dm.cmderr)) = some (2, 0) ∧
      ((after (exec (.csrrwi 0 0x7a0 1) s) fun t => (t.trig.tselect, t.dm.cmderr)) = some (0, 0)) := by decide
/-- A trigger that enters Debug Mode goes before an interrupt to M-mode where the parameter says so, and after one to a
debug-allowed mode (44 R221, 60 R248). -/
theorem test_trigger_first :
    let s := { stepStart 0x80 with
      p := { Params.full with triggerFirst := true }, stepArmed := false, trig := (triggerStart .hs).trig }
    (after (step s) fun t => (t.inDebug, t.csr.mcause)) = some (true, 0) ∧
      ((after (step { s with mdbgen := true }) fun t => (t.inDebug, t.csr.mcause)) =
        some (false, 0x8000000000000007)) := by decide
/-- Trace in M-mode needs `mtrcen` (95 section 2.15). -/
theorem test_trace_m :
    after (step (withWord { running false true false false .m 0 with mtrcen := true, pc := 0x40 } 0x34131073))
      (fun t => t.hti) = some (some 0x40) := by decide
theorem test_trace_m_inhibited :
    after (step (withWord { running false true false false .m 0 with pc := 0x40 } 0x34131073)) (fun t => t.hti) =
      some none := by decide
theorem test_undecodable :
    step (withWord State.reset 0x13) = .refused (.undecodable (.notInTable 0x13)) := by rfl

/-! ### Witnesses: states and operands that meet the hypotheses of the statements -/

/-- A running state at a quiet boundary with a word at the pc. -/
def quietAt (w : Nat) : State := withWord (running false true false false .m 0) w

theorem quietAt_ebreak : (quietAt 0x00100073).quiet :=
  ⟨by decide, .inl rfl, rfl, rfl, rfl, rfl, by decide, by decide⟩

theorem witness_EncodeOfDecodedWord : decodeWord32 0x0006A603 = some (.lw 12 13 0) := by decide

theorem witness_StepRunsDecodedInstruction :
    (quietAt 0x00100073).quiet ∧
      (quietAt 0x00100073).fetchBytes (quietAt 0x00100073).pc (Instr.size .ebreak) = .ok [0x73, 0x00, 0x10, 0x00] ∧
      decode [0x73, 0x00, 0x10, 0x00] = .ok (.ebreak, []) :=
  ⟨quietAt_ebreak, by rfl, by decide⟩

theorem witness_StepRunsDecodedInstruction_short :
    (quietAt 0x9002).quiet ∧
      (quietAt 0x9002).fetchBytes (quietAt 0x9002).pc (Instr.size .cebreak) = .ok [0x02, 0x90] ∧
      decode [0x02, 0x90] = .ok (.cebreak, []) :=
  ⟨⟨by decide, .inl rfl, rfl, rfl, rfl, rfl, by decide, by decide⟩, by rfl, by decide⟩

/-- In Debug Mode with a running Program Buffer. -/
def buffering (dcsr : BitVec 32) (bytes : List Byte) : State :=
  { halted false true false false dcsr with dm := { DebugModule.reset with progBuf := bytes, pbRun := true } }

theorem witness_StepRunsProgramBuffer :
    let s := buffering 0x400000C1 [0x73, 0x00, 0x10, 0x00]
    s.p.valid = true ∧ s.hartTurn ∧ s.inDebug = true ∧ s.dm.pbRun = true ∧ s.firing anyTrigger = [] ∧
      decode (s.dm.progBuf.drop s.dm.pbPc) = .ok (.ebreak, []) :=
  ⟨by decide, .inl rfl, rfl, rfl, by decide, by decide⟩

theorem witness_InvalidCombinationRefused :
    (State.resetWith { Params.full with hasU := false } false false).p.validCombination = false := by decide

theorem witness_DebugAllowedLadder :
    (Cfg.mk true false false false).mdbgen = true ∧ (Cfg.mk false true false false).sde = true ∧
      (Cfg.mk false false false true).usd = true ∧ (Cfg.mk false false false false).usd = false := by decide

/-- One row of the table for each clause, at the mode on its edge. -/
theorem witness_ResumePrivilegeTable :
    Mode.ofPair 3 false = some .m ∧ Mode.ofPair 1 false = some .hs ∧ Mode.ofPair 1 true = some .vs ∧
      Mode.ofPair 0 true = some .vu ∧ Mode.ofPair 0 false = some .u ∧
      (∀ mode ∈ [Mode.m, .hs, .vs, .vu, .u], supportedMode Params.full mode = true) ∧
      legalPair Params.full ⟨true, false, false, false⟩ 3 false = true ∧
      legalPair Params.full ⟨false, true, false, false⟩ 3 false = false ∧
      legalPair Params.full ⟨false, true, false, false⟩ 1 false = true ∧
      legalPair Params.full ⟨false, false, true, false⟩ 1 false = false ∧
      legalPair Params.full ⟨false, false, true, false⟩ 1 true = true ∧
      legalPair Params.full ⟨false, false, false, true⟩ 1 true = false ∧
      legalPair Params.full ⟨false, false, false, true⟩ 0 true = true ∧
      legalPair Params.full ⟨false, false, false, false⟩ 0 false = false := by decide

theorem witness_EffectivePrivilegeWithinDap :
    (halted true false false false 0x40000003).dap = .m ∧ (halted false true false false 0x40000001).dap = .hs ∧
      Params.full.dmprvSource = .spp ∧ (halted false false true false 0x40000061).dap = .vs ∧
      (halted false false false true 0x40000020).dap = .u ∧
      (dmprv1 (halted false false true false 0x40000061)).memPriv = some (0, true) ∧
      (halted false false true false 0x40000061).inDebug = true ∧
      (halted false false true false 0x40000061).mdbgen = false := by decide

/-- MRET in M-mode: to a debug-disallowed mode and, with a step armed, to a debug-allowed one. -/
theorem witness_DcsrIgnoredWhereDisallowed :
    let s := withWord (running false false true false .m 0x40000003) 0x30200073
    let u := withWord { running false true false false .m 0x40000003 with stepArmed := true } 0x30200073
    (s.hartTurn ∧ s.inDebug = false ∧ s.allowed = false ∧ ∃ t, step s = .next t ∧ t.inDebug = false) ∧
      u.hartTurn ∧ u.inDebug = false ∧ u.allowed = false ∧ ∃ t, step u = .next t ∧ t.inDebug = true :=
  ⟨⟨.inl rfl, rfl, by decide, exists_of_after (f := State.inDebug) (by decide)⟩, .inl rfl, rfl, by decide,
    exists_of_after (f := State.inDebug) (by decide)⟩

theorem witness_CsrSwapCompletes :
    (viewStart 1).csrCheck 0x7b4 true = .ok .sdcsr ∧
      (Instr.csrrw 5 0x7b4 10, (viewStart 1).x 10) ∈
        [(Instr.csrrw 5 0x7b4 10, (viewStart 1).x 10), (.csrrwi 5 0x7b4 10, (10 : BitVec 5).setWidth 64)] := by
  decide

/-- With a source that writes, and with register 0, which does not. -/
theorem witness_CsrSetClearCompletes :
    (viewStart 1).csrCheck 0x7b4 ((10 : BitVec 5) != 0) = .ok .sdcsr ∧
      (viewStart 1).csrCheck 0x7b4 ((0 : BitVec 5) != 0) = .ok .sdcsr ∧
      (running false false false false .m 0).csrCheck 0x341 true = .ok .mepc := by decide

/-- One number for each reason of a denial. -/
theorem witness_CsrDeniedInDebugMode :
    csrLookup (viewStart 1).p 0xC00 = none ∧ csrLookup (viewStart 1).p 0x7b0 = some .dcsr ∧
      (viewStart 1).dap.rank < ((viewStart 1).requiredLevel .dcsr).rank ∧
      (viewStart 1).debugAccessible .dcsr = false ∧ (viewStart 1).inDebug = true ∧
      Instr.csrrs 1 0x7b0 0 ∈ csrForms 1 0x7b0 0 := by decide

theorem witness_DebugRegistersNeedMdbgen :
    (halted false true false false 0x400000C1).p.valid = true ∧
      (halted false true false false 0x400000C1).mdbgen = false ∧ (halted true false false false 0x400000C3).mdbgen = true ∧
      csrImplemented Params.full .dscratch1 = true ∧
      csrImplemented { Params.full with hasDscratch1 := false } .dscratch1 = false ∧
      ({ Params.full with hasDscratch1 := false } : Params).valid = true ∧
      csrLookup Params.full 0x7b2 = some .dscratch0 := by decide

theorem witness_DebugRegistersIllegalOutside :
    (running true false false false .m 0).inDebug = false ∧
      csrNamed (running true false false false .m 0).p 0x7b0 = some .dcsr ∧ Csr.dcsr.debugOnly = true ∧
      Instr.csrrw 1 0x7b0 2 ∈ csrForms 1 0x7b0 2 := by decide

theorem witness_SdcsrReadViews :
    (halted false true false false 0x400000C1).dap ≠ .vs ∧ (halted false false true false 0x40000061).dap = .vs := by
  decide

theorem witness_SdcsrWriteSupervisorView :
    (halted false true false false 0x400000C1).dap ≠ .vs ∧ Params.full.hasH = true ∧ Params.full.dmprvWritable = true ∧
      ({ Params.full with hasH := false, hasSmvsdedbg := false } : Params).hasH = false := by decide

theorem witness_SdcsrWriteVirtualView :
    (halted false false true false 0x40000061).dap = .vs ∧ Params.full.dmprvWritable = true := by decide

/-- A write through each V, the second changing V. -/
theorem witness_UdcsrReadAndWrite :
    (((halted false false false true 0x40000120).csrWrite .udcsr 0x1020).dbg.ebreakvu,
      ((halted false false false true 0x40000100).csrWrite .udcsr 0x1020).dbg.ebreaku,
      ((halted false false false true 0x40000100).csrWrite .udcsr 0x1020).dbg.v) = (true, true, true) := by decide

theorem witness_DpcViews :
    (halted false false true false 0x40000061).csrCheck Params.full.sdpcAddr true = .ok .sdpc ∧
      (halted false false false true 0x40000020).csrCheck Params.full.sdpcAddr true = .illegal ∧
      (halted false false false true 0x40000020).csrCheck Params.full.udpcAddr true = .ok .udpc ∧
      (halted false false false true 0x40000020).csrCheck Params.full.udcsrAddr true = .ok .udcsr ∧
      (halted false false false false 0).csrCheck Params.full.udcsrAddr true = .illegal ∧
      (halted false false true false 0x40000061).inDebug = true ∧ Params.full.valid = true := by decide

theorem witness_MsdcfgAccess :
    Params.full.valid = true ∧ (halted false true false false 0x400000C1).mdbgen = false ∧
      (halted true false false false 0x400000C3).inDebug = true ∧ (halted true false false false 0x400000C3).mdbgen = true ∧
      (running false true false false .hs 0).cur ≠ .m ∧ (running false true false false .m 0).cur = .m ∧
      (halted false true false false 0x400000C1).inDebug = true ∧
      (msdcfgFieldMask { Params.full with hasTrace := false }).getLsbD 10 = true ∧
      (msdcfgMask { Params.full with hasTrace := false }).getLsbD 10 = false := by decide

/-- A delegated and an undelegated trigger. -/
theorem witness_TriggerRegisterRights :
    let s := halted false true false false 0x400000C1
    s.selected = some ⟨0, 0, false, false⟩ ∧
      (s.delegateTrigger 0 true).selected = some ⟨0, 0, false, true⟩ ∧
      (s.delegateTrigger 0 true).csrCheck 0x7a1 true = .ok .tdata1 ∧ s.csrCheck 0x7a1 true = .illegal ∧
      (s.delegateTrigger 3 true).csrCheck 0x7a0 true = .ok .tselect ∧ s.csrCheck 0x7a0 true = .illegal ∧
      (3 : Nat) = (s.p.toXlen 3).toNat ∧ s.trig.triggers[3]? = some ⟨0, 0, false, false⟩ ∧ s.inDebug = true ∧
      s.dap = .hs ∧ s.p.valid = true ∧ s.p.hasSdtrig = true ∧
      (running true false false false .hs 0).inDebug = false ∧ (running true false false false .hs 0).cur ≠ .m ∧
      Instr.csrrw 1 0x7a1 2 ∈ csrForms 1 0x7a1 2 := by decide

theorem witness_GatedTriggersInert :
    let s := withWord (triggerStart .m) 0x00000073
    s.hartTurn ∧ s.inDebug = false ∧ s.allowed = false ∧ ∃ t, step s = .next t ∧ t.trig.triggers.map Trigger.hit = [false] :=
  ⟨.inl rfl, rfl, by decide, exists_of_after (f := fun t => t.trig.triggers.map Trigger.hit) (by decide)⟩

/-- The second clause: halting, and halted. -/
theorem witness_GatedTriggersInert_fired :
    let s := extStart (running false true false false .hs 0) [1, 9]
    let u := extStart (halted false true false false 0x400000C1) [8, 9]
    (s.hartTurn ∧ s.p.hasSdtrig = true ∧ s.inDebug = false ∧ s.allowed = true ∧ s.haltRequestCause = none ∧
      (∃ e ∈ s.trig.triggers, extHalt s.p e = true ∧ e.select &&& s.trig.extIn ≠ 0) ∧
      ∃ t, step s = .next t ∧ t.inDebug = true) ∧
      u.hartTurn ∧ u.inDebug = true ∧ u.dm.pbRun = false ∧ ∃ t, step u = .next t ∧ t.trig.extOut = 3 :=
  ⟨⟨.inl rfl, rfl, rfl, by decide, rfl, by decide, exists_of_after (f := State.inDebug) (by decide)⟩, .inl rfl, rfl,
    rfl, exists_of_after (f := fun t => t.trig.extOut) (by decide)⟩

theorem witness_TraceAllowedLadder :
    (TraceCfg.mk true false false false).mtrcen = true ∧ (TraceCfg.mk false true false false).sdt = true ∧
      (TraceCfg.mk false false false false).ust = false := by decide

theorem witness_TraceShownOnlyWhereAllowed :
    let s := withWord { running false true false false .m 0 with mtrcen := true, pc := 0x40 } 0x34131073
    s.hartTurn ∧ ∃ t, step s = .next t ∧ t.hti = some 0x40 :=
  ⟨.inl rfl, exists_of_after (f := State.hti) (by decide)⟩

theorem witness_EbreakOutcome :
    (halted true false false false 0).inDebug = true ∧
      ((running false true false false .hs 0x4000A003).allowed = true ∧
        ebreakBit (running false true false false .hs 0x4000A003).dbg .hs = true) ∧
      ((running false true false false .m 0x4000A003).allowed && true) = false ∧
      (running false true false false .hs 0x4000A003).pcsAligned :=
  ⟨rfl, by decide, by decide, by unfold State.pcsAligned; decide⟩

theorem witness_CebreakOutcome :
    Params.full.hasC = true ∧ (running false false false true .vu 0x40010003).inDebug = false ∧
      (running false false false true .vu 0x40010003).allowed = true ∧
      ebreakBit (running false false false true .vu 0x40010003).dbg .vu = true ∧
      ((running false false true false .u 0x40001003).allowed &&
        ebreakBit (running false false true false .u 0x40001003).dbg .u) = false := by decide

theorem witness_EcallTraps :
    (running false false false false .u 0).inDebug = false ∧
      ((running false false false false .u 0).cur, 8) ∈ [(Mode.u, 8), (.vu, 8), (.hs, 9), (.vs, 10), (.m, 11)] ∧
      ((running false false false false .vu 0).cur, 8) ∈ [(Mode.u, 8), (.vu, 8), (.hs, 9), (.vs, 10), (.m, 11)] ∧
      ((running false false false false .hs 0).cur, 9) ∈ [(Mode.u, 8), (.vu, 8), (.hs, 9), (.vs, 10), (.m, 11)] ∧
      ((running false false false false .vs 0).cur, 10) ∈ [(Mode.u, 8), (.vu, 8), (.hs, 9), (.vs, 10), (.m, 11)] ∧
      ((running false false false false .m 0).cur, 11) ∈ [(Mode.u, 8), (.vu, 8), (.hs, 9), (.vs, 10), (.m, 11)] := by
  decide

theorem witness_MretReturns :
    (running false false false false .m 0).inDebug = false ∧ (running false false false false .m 0).cur = .m := by decide

theorem witness_SretReturns :
    Params.full.hasS = true ∧ (running false false false false .hs 0).inDebug = false ∧
      (running false false false false .hs 0).cur = .hs ∧ (running false false false false .hs 0).csr.tsr = false ∧
      (running false false false false .m 0).cur = .m ∧ (running false false false false .vs 0).cur = .vs ∧
      (running false false false false .vs 0).csr.vtsr = false := by decide

theorem witness_MnretReturns :
    Params.full.hasRnmi = true ∧ (running false false false false .m 0).inDebug = false ∧
      (running false false false false .m 0).cur = .m := by decide

theorem witness_ReturnsBelowTheirMode :
    (running false false false false .hs 0).cur ≠ .m ∧ (running false false false false .u 0).cur = .u ∧
      (running false false false false .vu 0).cur = .vu ∧
      ((running false false false false .hs 0).setCsr { Csrs.reset Params.full with mstatus := 0x400000 }).csr.tsr = true ∧
      ((running false false false false .vs 0).setCsr { Csrs.reset Params.full with hstatus := 0x400000 }).csr.vtsr =
        true := by decide

theorem witness_PrivilegeChangeInProgramBuffer :
    Instr.mret ∈ privilegeChangers ∧ Instr.wellFormed Params.full .mnret = true ∧
      (halted true false false false 0).inDebug = true ∧
      (asNop (halted true false false false 0)).p.privChange = .nop ∧
      (halted true false false false 0).p.privChange = .exception := by decide

/-- In Debug Mode, and outside it. -/
theorem witness_LoadsComplete :
    (Instr.lw 12 13 0, 4, true) ∈ loadForms 12 13 0 ∧ Instr.wellFormed dataStart.p (.lw 12 13 0) = true ∧
      dataStart.dataPriv = some (3, false) ∧
      dataStart.accessAddrs .load 3 false (dataStart.offsetAddr 13 0) 4 =
        .ok [0x80002000, 0x80002001, 0x80002002, 0x80002003] ∧
      (running false false false false .hs 0).dataPriv = some (1, false) ∧
      (((3, false) : BitVec 2 × Bool), true) ∈
        [(((3, false) : BitVec 2 × Bool), (bigStart true 0x2000000000).csr.mstatus.getLsbD 37)] ∧
      (bigStart true 0x2000000000).dataPriv = some (3, false) :=
  ⟨by decide, by decide, by decide, by rfl, by decide, by decide, by decide⟩

theorem witness_StoresComplete :
    (Instr.sh 10 11 0, 2) ∈ storeForms 10 11 0 ∧ Instr.wellFormed dataStart.p (.sh 10 11 0) = true ∧
      dataStart.dataPriv = some (3, false) ∧
      dataStart.accessAddrs .store 3 false (dataStart.offsetAddr 11 0) 2 = .ok [0x80003000, 0x80003001] ∧
      [0x80003000, 0x80003001].Nodup ∧ 0x80003002 ∉ [0x80003000, 0x80003001] :=
  ⟨by decide, by decide, by decide, by rfl, by decide, by decide⟩

theorem witness_HypervisorLoadsComplete :
    (Instr.hlvxhu 12 13, Access.execData, 2, false) ∈ hlvForms 12 13 ∧
      Instr.wellFormed guestStart.p (.hlvxhu 12 13) = true ∧ guestStart.hlvPermitted = true ∧
      guestStart.accessAddrs .execData (if guestStart.csr.spvp then 1 else 0) true (guestStart.plainAddr 13) 2 =
        .ok [0x80002000, 0x80002001] :=
  ⟨by decide, by decide, by decide, by rfl⟩

theorem witness_HypervisorStoresComplete :
    (Instr.hsvb 10 11, 1) ∈ hsvForms 10 11 ∧ Instr.wellFormed dataStart.p (.hsvb 10 11) = true ∧
      dataStart.hlvPermitted = true ∧
      dataStart.accessAddrs .store (if dataStart.csr.spvp then 1 else 0) true (dataStart.plainAddr 11) 1 =
        .ok [0x80003000] :=
  ⟨by decide, by decide, by decide, by rfl⟩

/-- A load from the user page at S/HS level, and a guest store to an address of no page. -/
theorem witness_MemoryFaultOutcome :
    (Instr.lw 12 13 0, 4, true) ∈ loadForms 12 13 0 ∧ (pageStart false).dataPriv = some (1, false) ∧
      (pageStart false).accessAddrs .load 1 false ((pageStart false).offsetAddr 13 0) 4 =
        .error ⟨.page, 0x80002000⟩ ∧
      (MemFaultKind.page, 13) ∈ [(MemFaultKind.misaligned, 4), (.access, 5), (.page, 13), (.guestPage, 21)] ∧
      (Instr.hsvw 10 11, 4) ∈ hsvForms 10 11 ∧ (pageStart false).hlvPermitted = true ∧
      (pageStart false).accessAddrs .store (if (pageStart false).csr.spvp then 1 else 0) true
        ((pageStart false).plainAddr 11) 4 = .error ⟨.page, 0x80003000⟩ ∧
      Instr.wellFormed (pageStart false).p (.hsvw 10 11) = true :=
  ⟨by decide, by decide, by rfl, by decide, by decide, by decide, by rfl, by decide⟩

theorem witness_DmprvLeavesHypervisorAccesses :
    Instr.hlvb 12 13 ∈ virtualMachineForms 12 13 ∧ Instr.hsvd 10 11 ∈ virtualMachineForms 10 11 ∧
      (pageStart true).inDebug = true ∧ (pageStart true).dap = .hs := by decide

theorem witness_HypervisorAccessDenied :
    Instr.hlvb 12 13 ∈ virtualMachineForms 12 13 ∧ Instr.wellFormed Params.full (.hlvb 12 13) = true ∧
      (halted false false true false 0x40000061).dap = .vs ∧
      ((halted false false false true 0x40000000).dap = .u ∧ (halted false false false true 0x40000000).csr.hu = false) ∧
      (halted false false false true 0x40000020).dbg.v = true ∧ (running false false false false .vu 0).cur = .vu ∧
      (running false false false false .u 0).csr.hu = false := by decide

theorem witness_HaltRequestServedOrPending :
    let s := { running true false false false .m 0 with haltPending := true, pc := 0x100 }
    let u := withWord { running false true false false .m 0 with haltPending := true } 0x30200073
    (s.p.valid = true ∧ s.hartTurn ∧ s.inDebug = false ∧ s.haltPending = true ∧ s.allowed = true ∧
      s.resetHaltPending = false ∧ s.groupHaltPending = false ∧ ∃ t, step s = .next t ∧ t.inDebug = true) ∧
      u.hartTurn ∧ u.allowed = false ∧ u.haltPending = true ∧ ∃ t, step u = .next t ∧ t.haltPending = true :=
  ⟨⟨by decide, .inl rfl, rfl, rfl, by decide, rfl, rfl, exists_of_after (f := State.inDebug) (by decide)⟩,
    .inl rfl, by decide, rfl, exists_of_after (f := State.haltPending) (by decide)⟩

theorem witness_DebugEntryOnlyWhereAllowed :
    (triggerStart .hs).inDebug = false ∧ ∃ t, step (triggerStart .hs) = .next t ∧ t.inDebug = true :=
  ⟨rfl, exists_of_after (f := State.inDebug) (by decide)⟩

theorem witness_DapConstantInDebugMode :
    let s := buffering 0x400000C1 [0x73, 0x00, 0x10, 0x00]
    s.inDebug = true ∧ (∀ b, s.inputs.head? ≠ some (.setMdbgen b)) ∧ ∃ t, step s = .next t ∧ t.dm.pbRun = false :=
  ⟨rfl, (fun _ h => by cases h), exists_of_after (f := fun t => t.dm.pbRun) (by decide)⟩

theorem witness_ResumeBoundedByDap :
    let s := { halted false true false false 0x400000C1 with inputs := [.resume] }
    s.debugLegal ∧ s.inDebug = true ∧ s.p.valid = true ∧ s.inputs.head? = some .resume ∧
      ∃ t, step s = .next t ∧ t.inDebug = false :=
  ⟨fun _ => ⟨by decide, by decide⟩, rfl, by decide, rfl, exists_of_after (f := State.inDebug) (by decide)⟩

/-- Both ends: the step is paid, and the step is owed in M-mode. -/
theorem witness_ArmedStepStopsWhereAllowed :
    let s := withWord (stepStart 0x20) 0x0006A603
    (s.hartTurn ∧ s.inDebug = false ∧ s.stepArmed = true ∧ ∃ t, step s = .next t ∧ t.inDebug = true) ∧
      ∃ t, step (stepStart 0x80) = .next t ∧ t.inDebug = false :=
  ⟨⟨.inl rfl, rfl, rfl, exists_of_after (f := State.inDebug) (by decide)⟩,
    exists_of_after (f := State.inDebug) (by decide)⟩

/-- MRET at the pc in M-mode with a step armed. -/
def mretStart (mpp : Word) : State :=
  withWord { running false true false false .m 0x40000004 with
    stepArmed := true, csr := { Csrs.reset Params.full with mstatus := mpp } } 0x30200073

theorem witness_MretUnderSingleStep :
    (mretStart 0x800).quiet ∧ (mretStart 0x800).cur = .m ∧ (mretStart 0x800).stepArmed = true ∧
      (mretStart 0x800).fetchBytes (mretStart 0x800).pc 4 = .ok [0x73, 0x00, 0x20, 0x30] ∧
      decode [0x73, 0x00, 0x20, 0x30] = .ok (.mret, []) ∧
      (mretStart 0x800).allowedIn (Mode.ofSaved (mretStart 0x800).csr.mpp (mretStart 0x800).csr.mpv) = true ∧
      (mretStart 0x1800).allowedIn (Mode.ofSaved (mretStart 0x1800).csr.mpp (mretStart 0x1800).csr.mpv) = false :=
  ⟨⟨by decide, .inl rfl, rfl, rfl, rfl, rfl, by decide, by decide⟩, rfl, rfl, by rfl, by decide, by decide, by decide⟩

theorem witness_StepieMasksOnlyAllowedHandlers :
    (stepStart 0x80).allowedIn ((stepStart 0x80).interruptDest 7) = false ∧
      (running false true false false .m 0).allowed = false ∧ (stepStart 0x20).stepArmed = true ∧
      (stepStart 0x20).allowed = true ∧ (stepStart 0x20).dbg.stepie = false ∧
      (stepStart 0x20).allowedIn ((stepStart 0x20).interruptDest 5) = true ∧
      (stepStart 0x20).interruptReady 5 = false ∧ (stepStart 0x80).interruptReady 7 = true ∧
      (stepStart 0x80).pickInterrupt = some (.interrupt 7) ∧ 7 ∈ [11, 3, 7, 9, 1, 5, 10, 2, 6] ∧
      { stepStart 0x20 with nmiPending := true }.pickInterrupt = some .nmi := by decide

theorem witness_InterruptTaken :
    (stepStart 0x80).p.valid = true ∧ (stepStart 0x80).hartTurn ∧ (stepStart 0x80).inDebug = false ∧
      (stepStart 0x80).haltAtBoundary = none ∧ (stepStart 0x80).firing anyTrigger = [] ∧
      (stepStart 0x80).pickInterrupt = some (.interrupt 7) ∧ (stepStart 0x80).p.triggerFirst = false ∧
      { stepStart 0 with nmiPending := true }.pickInterrupt = some .nmi ∧
      { stepStart 0 with nmiPending := true }.haltAtBoundary = none :=
  ⟨by decide, .inl rfl, rfl, by decide, by decide, by decide, rfl, by decide, by decide⟩

theorem witness_MdbgenDriven :
    let s := { halted true false false false 0x400000C3 with inputs := [.setMdbgen false] }
    s.p.valid = true ∧ s.inputs = .setMdbgen false :: [] ∧ s.inDebug = true ∧ s.mdbgen = true ∧
      (running true false false false .m 0).inDebug = false ∧
      { s with inputs := [.setMtrcen true] }.inputs = .setMtrcen true :: [] := by decide

theorem witness_AccessRegisterAsCsrInstruction :
    (viewStart 1).inDebug = true ∧ (viewStart 1).dap ≠ .none ∧ (viewStart 1).csrCheck 0x7b4 false = .ok .sdcsr ∧
      (viewStart 1).csrCheck 0x7b4 true = .ok .sdcsr ∧ (viewStart 1).csrCheck 0x7b0 false = .illegal ∧
      (viewStart 1).csrCheck 0x7b0 true = .illegal ∧ (viewStart 1).debugDataPriv = some (1, false) ∧
      (viewStart 1).mdbgen = false ∧ (halted false false false false 0).debugDataPriv = none := by decide

/-- Access Memory: a read that goes through, and one of the user page that faults. -/
theorem witness_AccessRegisterAsCsrInstruction_memory :
    dataStart.debugDataPriv = some (3, false) ∧
      dataStart.accessAddrs .load 3 false (dataStart.p.toXlen 0x80002000) 2 = .ok [0x80002000, 0x80002001] ∧
      (pageStart false).debugDataPriv = some (1, false) ∧
      (pageStart false).accessAddrs .load 1 false ((pageStart false).p.toXlen 0x80002000) 2 =
        .error ⟨.page, 0x80002000⟩ :=
  ⟨by decide, by rfl, by decide, by rfl⟩

/-- CMDERR_NOT_ALLOWED = 4. -/
theorem witness_CommandsFailWhileDisallowed :
    let s := { running false false false false .m 0 with
      p := { Params.full with cmderrNotAllowed := some 4 }, inputs := [.quickAccess] }
    s.inDebug = false ∧ s.allowed = false ∧ s.inputs = .quickAccess :: [] ∧ ∃ t, step s = .next t ∧ t.dm.cmderr = 4 :=
  ⟨rfl, by decide, rfl, exists_of_after (f := fun t => t.dm.cmderr) (by decide)⟩

theorem witness_MemoryStaysCanonical :
    let s := withWord { dataStart with inDebug := false, cur := .m, pc := 0x80001000 } 0x00A58023
    Memory.wf s.mem = true ∧ ∃ t, step s = .next t ∧ t.mem.read 0x80003000 = 0x88 :=
  ⟨by decide, exists_of_after (f := fun t => t.mem.read 0x80003000) (by decide)⟩

theorem witness_RegistersAndPcsStayLegal :
    (quietAt 0x00100073).regsWithinXlen ∧ (quietAt 0x00100073).pcsAligned ∧
      ∃ t, step (quietAt 0x00100073) = .next t ∧ t.csr.mcause = 3 :=
  ⟨⟨rfl, by decide⟩, by unfold State.pcsAligned; decide, exists_of_after (f := fun t => t.csr.mcause) (by decide)⟩

theorem witness_ModesStayLegal :
    (mretStart 0x800).modesLegal ∧ ∃ t, step (mretStart 0x800) = .next t ∧ t.cur = .hs :=
  ⟨by unfold State.modesLegal; decide, exists_of_after (f := State.cur) (by decide)⟩

/-- A step that writes PRV and V in Debug Mode. -/
theorem witness_ResumePairStaysLegal :
    let s := buffering 0x400000C1 [0x73, 0x50, 0x4b, 0x7b]
    s.modesLegal ∧ s.debugLegal ∧ ∃ t, step s = .next t ∧ t.dbg.prv = 0 :=
  ⟨by unfold State.modesLegal; decide, fun _ => ⟨by decide, by decide⟩,
    exists_of_after (f := fun t => t.dbg.prv) (by decide)⟩

theorem witness_DmprvAndBufferStayLegal :
    let s := { dmprv1 (buffering 0x400000C1 [0x73, 0x00, 0x10, 0x00]) with inputs := [.setMdbgen true] }
    s.dmprvForced ∧ s.bufferHalted ∧ ∃ t, step s = .next t ∧ t.dbg.dmprv = false :=
  ⟨(fun h => by cases h), fun _ => rfl, exists_of_after (f := fun t => t.dbg.dmprv) (by decide)⟩

end Sys2Proof.Tests
end

section
/-! Valid combinations of modes and sub-extensions (00 R3). -/

namespace Sys2Proof.Machine

/-! ### The four architectures of the table -/

/-- With M-mode alone there is no further sub-extension. -/
theorem validCombination_m {p : Params} (hS : p.hasS = false) (hU : p.hasU = false) (hH : p.hasH = false) :
    p.validCombination = true ↔
      p.hasSmsdedbg = false ∧ p.hasSmvsdedbg = false ∧ p.hasSmudedbg = false := by
  simp [Params.validCombination, hS, hU, hH, and_assoc]

/-- With M and U, only Smudedbg is a choice. -/
theorem validCombination_mu {p : Params} (hS : p.hasS = false) (hU : p.hasU = true) (hH : p.hasH = false) :
    p.validCombination = true ↔ p.hasSmsdedbg = false ∧ p.hasSmvsdedbg = false := by
  simp [Params.validCombination, hS, hU, hH]

/-- With M, S and U, Smudedbg needs Smsdedbg. -/
theorem validCombination_msu {p : Params} (hS : p.hasS = true) (hU : p.hasU = true) (hH : p.hasH = false) :
    p.validCombination = true ↔
      p.hasSmvsdedbg = false ∧ (p.hasSmsdedbg = true ∨ p.hasSmudedbg = false) := by
  simp [Params.validCombination, hS, hU, hH]

/-- With every mode the sub-extensions form a chain: Smvsdedbg needs Smsdedbg, and Smudedbg needs Smvsdedbg. -/
theorem validCombination_h {p : Params} (hS : p.hasS = true) (hU : p.hasU = true) (hH : p.hasH = true) :
    p.validCombination = true ↔
      (p.hasSmsdedbg = true ∨ p.hasSmvsdedbg = false) ∧ (p.hasSmvsdedbg = true ∨ p.hasSmudedbg = false) := by
  simp [Params.validCombination, hS, hU, hH]

/-- The modes of a row of the table: S-mode needs U-mode, and the hypervisor modes need S-mode. -/
theorem modes_of_validCombination {p : Params} (h : p.validCombination = true) :
    (p.hasS = true → p.hasU = true) ∧ (p.hasH = true → p.hasS = true) := by
  revert h
  unfold Params.validCombination
  split <;> simp [*]

/-! ### The table whole, and its refusal -/

/-- The ten rows of the table of 00 R3, as S, U, H, Smsdedbg, Smvsdedbg, Smudedbg. -/
def combinationTable : List (Bool × Bool × Bool × Bool × Bool × Bool) :=
  [(false, false, false, false, false, false),
   (false, true, false, false, false, false), (false, true, false, false, false, true),
   (true, true, false, false, false, false), (true, true, false, true, false, false),
   (true, true, false, true, false, true),
   (true, true, true, false, false, false), (true, true, true, true, false, false),
   (true, true, true, true, true, false), (true, true, true, true, true, true)]

theorem modes_of_mem_combinationTable {S U H s v u : Bool} (h : (S, U, H, s, v, u) ∈ combinationTable) :
    (S = true → U = true) ∧ (H = true → S = true) := by
  revert S U H s v u
  decide

theorem validCombination_iff_mem_combinationTable (p : Params) :
    p.validCombination = true ↔
      (p.hasS, p.hasU, p.hasH, p.hasSmsdedbg, p.hasSmvsdedbg, p.hasSmudedbg) ∈ combinationTable := by
  by_cases hm : (p.hasS = true → p.hasU = true) ∧ (p.hasH = true → p.hasS = true)
  · obtain ⟨hSU, hHS⟩ := hm
    cases hH : p.hasH
    case true =>
      rw [validCombination_h (hHS hH) (hSU (hHS hH)) hH, hHS hH, hSU (hHS hH)]
      cases p.hasSmsdedbg <;> cases p.hasSmvsdedbg <;> simp [combinationTable]
    case false =>
      cases hS : p.hasS
      case true =>
        rw [validCombination_msu hS (hSU hS) hH, hSU hS]
        cases p.hasSmsdedbg <;> cases p.hasSmudedbg <;> simp [combinationTable]
      case false =>
        cases hU : p.hasU
        case true =>
          rw [validCombination_mu hS hU hH]
          cases p.hasSmudedbg <;> simp [combinationTable]
        case false =>
          rw [validCombination_m hS hU hH]
          simp [combinationTable]
  · exact ⟨fun h => absurd (modes_of_validCombination h) hm, fun h => absurd (modes_of_mem_combinationTable h) hm⟩

theorem valid_eq_false_of_validCombination {p : Params} (h : p.validCombination = false) : p.valid = false := by
  simp [Params.valid, h]

/-- With parameters that are not valid every step is refused, whatever the agents do next. -/
theorem step_refused_of_not_valid {s : State} (h : s.p.valid = false) : step s = .refused .invalidConfiguration := by
  simp [step, State.stepValid, h]

/-- Settles O6: the table by architecture, and the check of the parameters that comes before every step. -/
theorem invalidCombinationRefused : Obligations.InvalidCombinationRefused :=
  ⟨validCombination_iff_mem_combinationTable,
    fun _ h => step_refused_of_not_valid (valid_eq_false_of_validCombination h)⟩

end Sys2Proof.Machine
end

section
/-! Registers and program counters: what every elementary update does to them, the invariants that follow for every
step (10 R36, R37, 30 R74), and the reset state (10 R39). -/

namespace Sys2Proof.Machine

/-! ### What an elementary update does to the parameters, the registers, `dpc` and the pc -/

/-- No update changes the parameters (00 section 4). -/
theorem Atom.p_eq {s t : State} (h : Atom s t) : t.p = s.p := by
  cases h with
  | setX r v => exact State.setX_p s r v
  | advance => exact State.advance_p s 4
  | csrWrite n c v => exact State.csrWrite_p s c v
  | trap dest intr code tval => exact State.trapTo_p s dest intr code tval
  | nmi => exact State.takeNmi_p s
  | resume _ h => obtain ⟨_, _, _, rfl⟩ := resume_cases h; rfl
  | _ => rfl

/-- Only a register write changes the general registers. -/
theorem Atom.regs_cases {s t : State} (h : Atom s t) : t.regs = s.regs ∨ ∃ r v, t = s.setX r v := by
  cases h with
  | setX r v => exact .inr ⟨r, v, rfl⟩
  | advance => exact .inl (State.advance_regs s 4)
  | csrWrite n c v => exact .inl (State.csrWrite_regs s c v)
  | trap dest intr code tval => exact .inl (State.trapTo_regs s dest intr code tval)
  | nmi => exact .inl (State.takeNmi_regs s)
  | resume _ h => obtain ⟨_, _, _, rfl⟩ := resume_cases h; exact .inl rfl
  | _ => exact .inl rfl

/-- An update leaves `dpc`, or masks what it puts there: a CSR write and the entry to Debug Mode (30 R74, 60 R236). -/
theorem Atom.dpc_cases {s t : State} (h : Atom s t) :
    t.dbg.dpc = s.dbg.dpc ∨ ∃ w, t.dbg.dpc = pcMask s.p w := by
  cases h with
  | setX r v => exact .inl (congrArg DebugRegs.dpc (State.setX_dbg s r v))
  | advance => exact .inl (congrArg DebugRegs.dpc (State.advance_dbg s 4))
  | csrWrite n c v => exact State.csrWrite_dpc_cases s c v
  | trap dest intr code tval => exact .inl (congrArg DebugRegs.dpc (State.trapTo_dbg s dest intr code tval))
  | nmi => exact .inl (congrArg DebugRegs.dpc (State.takeNmi_dbg s))
  | enterDebug c => exact .inr ⟨s.pc, State.enterDebug_dpc s c⟩
  | resume _ h => obtain ⟨_, _, _, rfl⟩ := resume_cases h; exact .inl rfl
  | _ => exact .inl rfl

/-- A trap goes to a handler's address (60 R249). -/
theorem State.trapTo_pc_handlerAddr (s : State) (dest : Mode) (intr : Bool) (code : Nat) (tval : Word) :
    ∃ tvec, (s.trapTo dest intr code tval).pc = handlerAddr s.p tvec intr code := by
  cases dest <;> exact ⟨_, rfl⟩

theorem State.takeNmi_pc (s : State) : s.takeNmi.pc = pcMask s.p s.p.nmiVector := by
  unfold State.takeNmi; split <;> rfl

/-- An update leaves the pc, moves it past an instruction, takes it from `dpc`, or puts an instruction boundary there
whatever the pc was: a handler's address or a masked one. -/
theorem Atom.pc_cases {s t : State} (h : Atom s t) :
    t.pc = s.pc ∨ t.pc = s.p.toXlen (s.pc + 4) ∨ t.pc = s.dbg.dpc ∨ pcMask s.p t.pc = t.pc := by
  cases h with
  | setX r v => exact .inl (State.setX_pc s r v)
  | advance =>
    cases hd : s.inDebug
    · rw [State.advance_run hd]; exact .inr (.inl rfl)
    · rw [State.advance_debug hd]; exact .inl rfl
  | csrWrite n c v => exact .inl (State.csrWrite_pc s c v)
  | trap dest intr code tval =>
    obtain ⟨tvec, hpc⟩ := s.trapTo_pc_handlerAddr dest intr code tval
    rw [hpc]
    exact .inr (.inr (.inr (pcMask_handlerAddr ..)))
  | nmi => rw [State.takeNmi_pc]; exact .inr (.inr (.inr (pcMask_idem ..)))
  | mret | sret | vsret | mnret => exact .inr (.inr (.inr (pcMask_idem ..)))
  | resume _ h => obtain ⟨_, _, _, rfl⟩ := resume_cases h; exact .inr (.inr (.inl rfl))
  | _ => exact .inl rfl

/-! ### Every update keeps the invariants -/

theorem State.regsWithinXlen_congr {s t : State} (hp : t.p = s.p) (hregs : t.regs = s.regs) (h : s.regsWithinXlen) :
    t.regsWithinXlen := by
  obtain ⟨_, hx⟩ := h
  refine ⟨rfl, fun r => ?_⟩
  rw [State.x_of_regs hregs, hp, hx r]

theorem State.setX_regsWithinXlen {s : State} (r : RegNum) (v : Word) (h : s.regsWithinXlen) :
    (s.setX r v).regsWithinXlen := by
  obtain ⟨_, hx⟩ := h
  refine ⟨rfl, fun q => ?_⟩
  rw [State.setX_p]
  by_cases hq : q = r
  · subst hq
    rw [State.setX_x_same]
    split
    · exact toXlen_zero _
    · exact toXlen_idem _ _
  · rw [State.setX_x_other s v hq, hx q]

theorem Atom.keeps_regsWithinXlen {s t : State} (h : Atom s t) (hs : s.regsWithinXlen) : t.regsWithinXlen := by
  rcases h.regs_cases with hregs | ⟨r, v, rfl⟩
  · exact State.regsWithinXlen_congr h.p_eq hregs hs
  · exact State.setX_regsWithinXlen r v hs

/-- The pc and `dpc` stand together: a resume takes the pc from `dpc`. -/
theorem Atom.keeps_pcsAligned {s t : State} (h : Atom s t) (hs : s.pcsAligned) : t.pcsAligned := by
  obtain ⟨hpc, hdpc⟩ := hs
  unfold State.pcsAligned
  rw [h.p_eq]
  constructor
  · rcases h.pc_cases with e | e | e | e
    · rw [e, hpc]
    · rw [e]; exact pcMask_add_four s.p s.pc hpc
    · rw [e, hdpc]
    · exact e
  · rcases h.dpc_cases with e | ⟨w, e⟩
    · rw [e, hdpc]
    · rw [e, pcMask_idem]

/-- Settles O57: each half is kept by every elementary update, and a step is a chain of these. -/
theorem registersAndPcsStayLegal : Obligations.RegistersAndPcsStayLegal :=
  fun _ _ hregs hpcs h =>
    ⟨step_keeps (fun _ _ ha => ha.keeps_regsWithinXlen) h hregs,
      step_keeps (fun _ _ ha => ha.keeps_pcsAligned) h hpcs⟩

/-! ### Reset, under any parameters -/

theorem State.resetWith_x (p : Params) (mdbgen mtrcen : Bool) (r : RegNum) :
    (State.resetWith p mdbgen mtrcen).x r = 0 := by
  unfold State.x State.resetWith
  split
  · rfl
  · exact Vector.getElem_replicate _

theorem State.resetWith_regsWithinXlen (p : Params) (mdbgen mtrcen : Bool) :
    (State.resetWith p mdbgen mtrcen).regsWithinXlen := by
  refine ⟨rfl, fun r => ?_⟩
  rw [State.resetWith_x]
  exact toXlen_zero _

/-- `dpc` resets to 0, so only the reset vector has to be an instruction boundary. -/
theorem State.resetWith_pcsAligned {p : Params} (mdbgen mtrcen : Bool) (h : pcMask p p.resetVector = p.resetVector) :
    (State.resetWith p mdbgen mtrcen).pcsAligned :=
  ⟨h, (pcMask_eq_and p 0).trans BitVec.zero_and⟩

theorem Csrs.reset_mpp (p : Params) : (Csrs.reset p).mpp = lowestPrv p := by
  unfold Csrs.mpp Csrs.reset lowestPrv; cases p.hasU <;> rfl

theorem Csrs.reset_mnpp (p : Params) : (Csrs.reset p).mnpp = lowestPrv p := by
  unfold Csrs.mnpp Csrs.reset lowestPrv; cases p.hasU <;> rfl

theorem Csrs.reset_mpv (p : Params) : (Csrs.reset p).mpv = false := by
  unfold Csrs.mpv Csrs.reset; cases p.hasU <;> rfl

theorem Csrs.reset_mnpv (p : Params) : (Csrs.reset p).mnpv = false := by
  unfold Csrs.mnpv Csrs.reset; cases p.hasU <;> rfl

theorem Csrs.reset_spv (p : Params) : (Csrs.reset p).spv = false := BitVec.getLsbD_zero

/-- M-mode is on every hart, the saved privileges are the lowest of the hart, and no saved mode is virtual. -/
theorem State.resetWith_modesLegal (p : Params) (mdbgen mtrcen : Bool) :
    (State.resetWith p mdbgen mtrcen).modesLegal := by
  refine ⟨rfl, ?_, fun h => ?_, fun h => ?_, ?_, fun h => ?_⟩
  · exact (congrArg (supportedPrv p) (Csrs.reset_mpp p)).trans (supported_lowest p)
  · exact absurd ((Csrs.reset_mpv p).symm.trans h) Bool.false_ne_true
  · exact absurd ((Csrs.reset_spv p).symm.trans h) Bool.false_ne_true
  · exact (congrArg (supportedPrv p) (Csrs.reset_mnpp p)).trans (supported_lowest p)
  · exact absurd ((Csrs.reset_mnpv p).symm.trans h) Bool.false_ne_true

/-- The hart leaves reset outside Debug Mode. -/
theorem State.resetWith_debugLegal (p : Params) (mdbgen mtrcen : Bool) :
    (State.resetWith p mdbgen mtrcen).debugLegal := fun h => absurd h Bool.false_ne_true

theorem State.resetWith_dmprvForced (p : Params) (mdbgen mtrcen : Bool) :
    (State.resetWith p mdbgen mtrcen).dmprvForced := fun _ => rfl

theorem State.resetWith_bufferHalted (p : Params) (mdbgen mtrcen : Bool) :
    (State.resetWith p mdbgen mtrcen).bufferHalted := fun h => absurd h Bool.false_ne_true

/-- Settles O8: the fields are the reset values, and the invariants hold after reset under any parameters, of which
those of `State.reset` are valid and have an aligned reset vector. -/
theorem resetMeetsInvariants : Obligations.ResetMeetsInvariants := by
  have hvalid : State.reset.p.valid = true := by decide
  have hvector : pcMask Params.full Params.full.resetVector = Params.full.resetVector := by decide
  exact ⟨rfl, rfl, rfl, rfl, rfl, rfl, rfl, rfl, rfl, rfl, rfl, State.resetWith_modesLegal ..,
    State.resetWith_debugLegal _ _ _, State.resetWith_dmprvForced _ _ _, State.resetWith_pcsAligned _ _ hvector,
    State.resetWith_regsWithinXlen .., State.resetWith_bufferHalted _ _ _, hvalid⟩

end Sys2Proof.Machine
end

section
/-! Two invariants that every step keeps: memory stays in its canonical form (20 R50), and DMPRV and the Program Buffer
stay legal (20 R55, 40 R106). Each follows from what one elementary update can do to the fields it speaks of. -/

namespace Sys2Proof.Machine

/-! ### Memory -/

/-- An update leaves memory, or writes bytes to it. -/
theorem Atom.mem_cases {s t : State} (h : Atom s t) : t.mem = s.mem ∨ ∃ ks vs, t.mem = s.mem.writeAll ks vs := by
  cases h with
  | mem ks vs => exact .inr ⟨ks, vs, rfl⟩
  | setX r v => exact .inl (State.setX_mem s r v)
  | advance => exact .inl (State.advance_mem s 4)
  | csrWrite n c v => exact .inl (State.csrWrite_mem s c v)
  | trap dest intr code tval => exact .inl (State.trapTo_mem s dest intr code tval)
  | nmi => exact .inl (State.takeNmi_mem s)
  | resume _ h => obtain ⟨_, _, _, rfl⟩ := resume_cases h; exact .inl rfl
  | _ => exact .inl rfl

theorem Atom.keeps_mem_wf {s t : State} (h : Atom s t) (hs : Memory.wf s.mem = true) : Memory.wf t.mem = true := by
  rcases h.mem_cases with e | ⟨ks, vs, e⟩ <;> rw [e]
  · exact hs
  · exact Memory.writeAll_wf _ _ _ hs

/-- Settles O56: every byte list written keeps the canonical form, and nothing else changes memory. -/
theorem memoryStaysCanonical : Obligations.MemoryStaysCanonical :=
  fun _ _ hs h => step_keeps (P := fun s => Memory.wf s.mem = true) (fun _ _ ha => ha.keeps_mem_wf) h hs

/-! ### DMPRV -/

/-- While `mdbgen` is 1 no CSR write changes DMPRV: not even one of `sdcsr`, which stores it (41 R145). -/
theorem State.csrWrite_dmprv_of_mdbgen {s : State} (hm : s.mdbgen = true) (c : Csr) (v : Word) :
    (s.csrWrite c v).dbg.dmprv = s.dbg.dmprv := by
  cases c with
  | sdcsr =>
    simp only [State.csrWrite, State.writeSdcsr]
    split <;> simp [State.dmprvWritten, hm]
  | tselect | tdata1 | tdata2 => simp [State.csrWrite]
  | _ => rfl

/-- An update leaves `mdbgen`, and DMPRV too where that is 1; or it drives `mdbgen`, and a 1 forces DMPRV to 0. -/
theorem Atom.dmprv_cases {s t : State} (h : Atom s t) :
    (t.mdbgen = s.mdbgen ∧ (s.mdbgen = true → t.dbg.dmprv = s.dbg.dmprv)) ∨
      t.dbg.dmprv = (s.dbg.dmprv && !t.mdbgen) := by
  cases h with
  | mdbgen b => exact .inr rfl
  | csrWrite n c v => exact .inl ⟨State.csrWrite_mdbgen s c v, fun hm => State.csrWrite_dmprv_of_mdbgen hm c v⟩
  | setX r v => exact .inl ⟨State.setX_mdbgen s r v, fun _ => by rw [State.setX_dbg]⟩
  | advance => exact .inl ⟨State.advance_mdbgen s 4, fun _ => by rw [State.advance_dbg]⟩
  | trap dest intr code tval =>
    exact .inl ⟨State.trapTo_mdbgen s dest intr code tval, fun _ => by rw [State.trapTo_dbg]⟩
  | nmi => exact .inl ⟨State.takeNmi_mdbgen s, fun _ => by rw [State.takeNmi_dbg]⟩
  | resume _ h => obtain ⟨_, _, _, rfl⟩ := resume_cases h; exact .inl ⟨rfl, fun _ => rfl⟩
  | _ => exact .inl ⟨rfl, fun _ => rfl⟩

theorem Atom.keeps_dmprvForced {s t : State} (h : Atom s t) (hs : s.dmprvForced) : t.dmprvForced := by
  intro hm
  rcases h.dmprv_cases with ⟨e, hd⟩ | e
  · rw [e] at hm
    rw [hd hm, hs hm]
  · rw [e, hm, Bool.not_true, Bool.and_false]

/-! ### The Program Buffer -/

/-- Where the Program Buffer runs after an update, the update has neither entered nor left Debug Mode, and the buffer ran
before or was started in Debug Mode. -/
theorem Atom.pbRun_cases {s t : State} (h : Atom s t) (hr : t.dm.pbRun = true) :
    t.inDebug = s.inDebug ∧ (s.inDebug = true ∨ s.dm.pbRun = true) := by
  cases h with
  | dm d hd => exact ⟨rfl, hd hr⟩
  | setX r v => exact ⟨State.setX_inDebug s r v, .inr (by rwa [State.setX_dm] at hr)⟩
  | advance =>
    refine ⟨State.advance_inDebug s 4, ?_⟩
    cases hd : s.inDebug
    · rw [State.advance_run hd] at hr; exact .inr hr
    · exact .inl rfl
  | csrWrite n c v => exact ⟨State.csrWrite_inDebug s c v, .inr (by rwa [State.csrWrite_dm] at hr)⟩
  | trap dest intr code tval =>
    exact ⟨State.trapTo_inDebug s dest intr code tval, .inr (by rwa [State.trapTo_dm] at hr)⟩
  | nmi => exact ⟨State.takeNmi_inDebug s, .inr (by rwa [State.takeNmi_dm] at hr)⟩
  | enterDebug c => exact absurd hr Bool.false_ne_true
  | resume _ h => obtain ⟨_, _, _, rfl⟩ := resume_cases h; exact absurd hr Bool.false_ne_true
  | _ => exact ⟨rfl, .inr hr⟩

theorem Atom.keeps_bufferHalted {s t : State} (h : Atom s t) (hs : s.bufferHalted) : t.bufferHalted := by
  intro hr
  obtain ⟨e, hd⟩ := h.pbRun_cases hr
  rw [e]
  exact hd.elim id hs

/-- Settles O60: each half is kept by every elementary update. -/
theorem dmprvAndBufferStayLegal : Obligations.DmprvAndBufferStayLegal :=
  fun _ _ hforced hhalted h =>
    ⟨step_keeps (fun _ _ ha => ha.keeps_dmprvForced) h hforced,
      step_keeps (fun _ _ ha => ha.keeps_bufferHalted) h hhalted⟩

end Sys2Proof.Machine
end

section
/-! The effective privilege of an explicit load or store in Debug Mode (20 R52 to R57), level by level. -/

namespace Sys2Proof.Machine

/-! ### The table of 20 R52 -/

theorem State.memPriv_m {s : State} (h : s.dap = .m) : s.memPriv = some (3, false) := by simp [State.memPriv, h]

/-- At S/HS level: HS-mode itself, or under DMPRV the mode that SPP and SPV name. -/
theorem State.memPriv_hs_spp {s : State} (h : s.dap = .hs) (hsrc : s.p.dmprvSource = .spp) :
    s.memPriv = some (if s.dbg.dmprv then (prvOfSpp s.csr.spp, s.p.hasH && s.csr.spv) else (1, false)) := by
  cases hd : s.dbg.dmprv
  · simp [State.memPriv, h, hd]
  · cases hH : s.p.hasH <;> simp [State.memPriv, h, hd, hH, hsrc]

/-- At S/HS level, whichever source DMPRV has, the privilege is 0 or 1. -/
theorem State.memPriv_hs {s : State} (h : s.dap = .hs) : ∃ b v, s.memPriv = some (prvOfSpp b, v) := by
  unfold State.memPriv
  rw [h]
  dsimp only
  split
  · split <;> exact ⟨_, _, rfl⟩
  · exact ⟨true, false, rfl⟩

/-- At VS level: VS-mode itself, or under DMPRV the mode that `vsstatus.SPP` names, with V = 1 (20 R54). -/
theorem State.memPriv_vs {s : State} (h : s.dap = .vs) :
    s.memPriv = some (if s.dbg.dmprv then prvOfSpp s.csr.vsspp else 1, true) := by
  cases hd : s.dbg.dmprv <;> simp [State.memPriv, h, hd]

theorem State.memPriv_u {s : State} (h : s.dap = .u) : s.memPriv = some (0, s.dbg.v) := by simp [State.memPriv, h]

theorem State.memPriv_none {s : State} (h : s.dap = .none) : s.memPriv = none := by simp [State.memPriv, h]

/-- A load or store has an effective privilege exactly where there is a debug access privilege. -/
theorem State.memPriv_eq_none_iff (s : State) : s.memPriv = none ↔ s.dap = .none := by
  refine ⟨fun hn => ?_, State.memPriv_none⟩
  cases h : s.dap with
  | none => rfl
  | u => rw [State.memPriv_u h] at hn; cases hn
  | vs => rw [State.memPriv_vs h] at hn; cases hn
  | hs => obtain ⟨b, v, e⟩ := State.memPriv_hs h; rw [e] at hn; cases hn
  | m => rw [State.memPriv_m h] at hn; cases hn

/-! ### Within the debug access privilege (95 section 2.9) -/

/-- A pair (privilege, virtualization) names a mode at or below a level. -/
def pairWithin (pair : BitVec 2 × Bool) (l : Level) : Prop :=
  ∃ mode, Mode.ofPair pair.1 pair.2 = some mode ∧ mode.lvl.rank ≤ l.rank

theorem pairWithin_m : pairWithin (3, false) .m := ⟨.m, rfl, Nat.le_refl _⟩

/-- Privilege 0 or 1 names a mode below M-mode. -/
theorem pairWithin_hs (b v : Bool) : pairWithin (prvOfSpp b, v) .hs := by
  cases b <;> cases v <;> exact ⟨_, rfl, by decide⟩

/-- With V = 1 it names VS- or VU-mode. -/
theorem pairWithin_vs (b : Bool) : pairWithin (prvOfSpp b, true) .vs := by
  cases b <;> exact ⟨_, rfl, by decide⟩

/-- Privilege 0 names U- or VU-mode. -/
theorem pairWithin_u (v : Bool) : pairWithin (0, v) .u := by
  cases v <;> exact ⟨_, rfl, by decide⟩

/-- The effective privilege names a mode at or below the debug access privilege. -/
theorem State.memPriv_within {s : State} {pair : BitVec 2 × Bool} (hp : s.memPriv = some pair) :
    pairWithin pair s.dap := by
  cases h : s.dap with
  | m => rw [State.memPriv_m h] at hp; cases hp; exact pairWithin_m
  | hs =>
    obtain ⟨b, v, e⟩ := State.memPriv_hs h
    rw [e] at hp; cases hp; exact pairWithin_hs b v
  | vs =>
    rw [State.memPriv_vs h] at hp; cases hp
    cases s.dbg.dmprv
    · exact pairWithin_vs true
    · exact pairWithin_vs s.csr.vsspp
  | u => rw [State.memPriv_u h] at hp; cases hp; exact pairWithin_u _
  | none => rw [State.memPriv_none h] at hp; cases hp

/-- Below M level MPRV plays no part in Debug Mode, so a load or store uses the effective privilege (20 R55). -/
theorem State.dataPriv_debug {s : State} (hd : s.inDebug = true) (hm : s.mdbgen = false) : s.dataPriv = s.memPriv := by
  have hdap : s.dap ≠ .m := fun h => Bool.false_ne_true (hm.symm.trans ((dap_eq_m s.cfg).1 h))
  simp [State.dataPriv, State.debugDataPriv, hd, hdap]

/-- Settles O11: the table level by level, the bound, and the pair a load or store uses. -/
theorem effectivePrivilegeWithinDap : Obligations.EffectivePrivilegeWithinDap :=
  fun s => ⟨State.memPriv_m, State.memPriv_hs_spp, State.memPriv_vs, State.memPriv_u, s.memPriv_eq_none_iff,
    fun _ => State.memPriv_within, State.dataPriv_debug⟩

end Sys2Proof.Machine
end

section
/-! Loads and stores by family, and the exception of an access that faults (20 R58, 60 R256). -/

namespace Sys2Proof.Machine

/-! ### The families: what each instruction executes -/

/-- A load is the common rule with its size and extension, on a hart that has it (42 R168 to R175). -/
theorem exec_of_mem_loadForms {rd rs1 : RegNum} {imm : Imm12} {i : Instr} {n : Nat} {signed : Bool}
    (h : (i, n, signed) ∈ loadForms rd rs1 imm) (s : State) :
    exec i s = .next (s.ifPresent i fun s => s.loadOp rd rs1 imm n signed) := by
  simp only [loadForms, List.mem_cons, List.not_mem_nil, or_false, Prod.mk.injEq] at h
  rcases h with ⟨rfl, rfl, rfl⟩ | ⟨rfl, rfl, rfl⟩ | ⟨rfl, rfl, rfl⟩ | ⟨rfl, rfl, rfl⟩ | ⟨rfl, rfl, rfl⟩ |
    ⟨rfl, rfl, rfl⟩ | ⟨rfl, rfl, rfl⟩ <;> rfl

/-- A store is the common rule with its size, on a hart that has it (42 R176 to R180). -/
theorem exec_of_mem_storeForms {rs2 rs1 : RegNum} {imm : Imm12} {i : Instr} {n : Nat}
    (h : (i, n) ∈ storeForms rs2 rs1 imm) (s : State) :
    exec i s = .next (s.ifPresent i fun s => s.storeOp rs2 rs1 imm n) := by
  simp only [storeForms, List.mem_cons, List.not_mem_nil, or_false, Prod.mk.injEq] at h
  rcases h with ⟨rfl, rfl⟩ | ⟨rfl, rfl⟩ | ⟨rfl, rfl⟩ | ⟨rfl, rfl⟩ <;> rfl

/-- A hypervisor load is the common rule with its permission, size and extension (42 R181 to R190). -/
theorem exec_of_mem_hlvForms {rd rs1 : RegNum} {i : Instr} {acc : Access} {n : Nat} {signed : Bool}
    (h : (i, acc, n, signed) ∈ hlvForms rd rs1) (s : State) :
    exec i s = .next (s.ifPresent i fun s => s.hlvOp i acc rd rs1 n signed) := by
  simp only [hlvForms, List.mem_cons, List.not_mem_nil, or_false, Prod.mk.injEq] at h
  rcases h with ⟨rfl, rfl, rfl, rfl⟩ | ⟨rfl, rfl, rfl, rfl⟩ | ⟨rfl, rfl, rfl, rfl⟩ | ⟨rfl, rfl, rfl, rfl⟩ |
    ⟨rfl, rfl, rfl, rfl⟩ | ⟨rfl, rfl, rfl, rfl⟩ | ⟨rfl, rfl, rfl, rfl⟩ | ⟨rfl, rfl, rfl, rfl⟩ |
    ⟨rfl, rfl, rfl, rfl⟩ <;> rfl

/-- A hypervisor store is the common rule with its size (42 R181, R191 to R194). -/
theorem exec_of_mem_hsvForms {rs2 rs1 : RegNum} {i : Instr} {n : Nat} (h : (i, n) ∈ hsvForms rs2 rs1) (s : State) :
    exec i s = .next (s.ifPresent i fun s => s.hsvOp i rs2 rs1 n) := by
  simp only [hsvForms, List.mem_cons, List.not_mem_nil, or_false, Prod.mk.injEq] at h
  rcases h with ⟨rfl, rfl⟩ | ⟨rfl, rfl⟩ | ⟨rfl, rfl⟩ | ⟨rfl, rfl⟩ <;> rfl

/-- The permission a hypervisor load asks for is that of a data read, never of a fetch or a store (42 R181). -/
theorem access_of_mem_hlvForms {rd rs1 : RegNum} {i : Instr} {acc : Access} {n : Nat} {signed : Bool}
    (h : (i, acc, n, signed) ∈ hlvForms rd rs1) : acc = .load ∨ acc = .execData := by
  simp only [hlvForms, List.mem_cons, List.not_mem_nil, or_false, Prod.mk.injEq] at h
  rcases h with ⟨_, rfl, _⟩ | ⟨_, rfl, _⟩ | ⟨_, rfl, _⟩ | ⟨_, rfl, _⟩ | ⟨_, rfl, _⟩ | ⟨_, rfl, _⟩ | ⟨_, rfl, _⟩ |
    ⟨_, rfl, _⟩ | ⟨_, rfl, _⟩ <;> simp

/-! ### The exception of an access that faults -/

theorem State.hlvOp_permitted {s : State} (h : s.hlvPermitted = true) (i : Instr) (acc : Access) (rd rs1 : RegNum)
    (n : Nat) (signed : Bool) :
    s.hlvOp i acc rd rs1 n signed = s.loadWith acc s.hlvPair (s.plainAddr rs1) n signed rd := if_pos h

theorem State.hsvOp_permitted {s : State} (h : s.hlvPermitted = true) (i : Instr) (rs2 rs1 : RegNum) (n : Nat) :
    s.hsvOp i rs2 rs1 n = s.storeWith s.hlvPair (s.plainAddr rs1) n (s.x rs2) := if_pos h

/-- A memory fault in Debug Mode is `debug_fail()`, outside it the trap of its code with the faulting address as
value (60 R240, R256). -/
theorem State.takeException_memFault (s : State) (acc : Access) (f : MemFault) {code : Nat}
    (hc : excCode s.cur (.mem acc f) = code) :
    s.takeException (.mem acc f) =
      if s.inDebug then s.debugFail else s.trapTo (s.exceptionDest code) false code f.addr := by
  subst hc; rfl

/-- The codes of a data read that faults; reading with execute permission has those of a load (60 R256, log 1). -/
theorem excCode_read {f : MemFault} {code : Nat} {acc : Access} (cur : Mode)
    (hc : (f.kind, code) ∈ [(MemFaultKind.misaligned, 4), (.access, 5), (.page, 13), (.guestPage, 21)])
    (ha : acc = .load ∨ acc = .execData) : excCode cur (.mem acc f) = code := by
  obtain ⟨kind, addr⟩ := f
  simp only [List.mem_cons, List.not_mem_nil, or_false, Prod.mk.injEq] at hc
  rcases ha with rfl | rfl <;> rcases hc with ⟨rfl, rfl⟩ | ⟨rfl, rfl⟩ | ⟨rfl, rfl⟩ | ⟨rfl, rfl⟩ <;> rfl

/-- The codes of a store that faults (60 R256, log 1). -/
theorem excCode_store {f : MemFault} {code : Nat} (cur : Mode)
    (hc : (f.kind, code) ∈ [(MemFaultKind.misaligned, 6), (.access, 7), (.page, 15), (.guestPage, 23)]) :
    excCode cur (.mem .store f) = code := by
  obtain ⟨kind, addr⟩ := f
  simp only [List.mem_cons, List.not_mem_nil, or_false, Prod.mk.injEq] at hc
  rcases hc with ⟨rfl, rfl⟩ | ⟨rfl, rfl⟩ | ⟨rfl, rfl⟩ | ⟨rfl, rfl⟩ <;> rfl

/-- Settles O42: a load or a store of either kind takes the exception of its fault, whose code the table gives. -/
theorem memoryFaultOutcome : Obligations.MemoryFaultOutcome := by
  intro s r rs1 imm i n f hw
  refine ⟨fun signed pair code hc hcase => ?_, fun pair code hc hcase => ?_⟩
  · rcases hcase with ⟨hi, hp, hf⟩ | ⟨acc, hi, hp, hf⟩
    · rw [exec_of_mem_loadForms hi, State.ifPresent_true hw, State.loadOp_some hp, State.loadWith_error hf,
        State.takeException_memFault s .load f (excCode_read s.cur hc (.inl rfl))]
    · rw [exec_of_mem_hlvForms hi, State.ifPresent_true hw, State.hlvOp_permitted hp, State.loadWith_error hf,
        State.takeException_memFault s acc f (excCode_read s.cur hc (access_of_mem_hlvForms hi))]
  · rcases hcase with ⟨hi, hp, hf⟩ | ⟨hi, hp, hf⟩
    · rw [exec_of_mem_storeForms hi, State.ifPresent_true hw, State.storeOp_some hp, State.storeWith_error hf,
        State.takeException_memFault s .store f (excCode_store s.cur hc)]
    · rw [exec_of_mem_hsvForms hi, State.ifPresent_true hw, State.hsvOp_permitted hp, State.storeWith_error hf,
        State.takeException_memFault s .store f (excCode_store s.cur hc)]

end Sys2Proof.Machine
end

section
/-! DMPRV and the hypervisor loads and stores, which do not consult it (20 R56): an access with a given pair reads the
data of the state and nothing of its debug registers. -/

namespace Sys2Proof.Machine

theorem virtualMachineForms_cases {r rs1 : RegNum} {i : Instr} (h : i ∈ virtualMachineForms r rs1) :
    (∃ acc n signed, (i, acc, n, signed) ∈ hlvForms r rs1) ∨ ∃ n, (i, n) ∈ hsvForms r rs1 := by
  simpa only [virtualMachineForms, List.mem_append, List.mem_map, Prod.exists, exists_and_right, exists_eq_right]
    using h

/-! ### Accesses from two states with the same data -/

/-- The second state has the parameters, registers, status registers, translation and memory of the first: all that an
access with a given pair reads. -/
structure State.SameData (s t : State) : Prop where
  p : t.p = s.p
  regs : t.regs = s.regs
  csr : t.csr = s.csr
  xlat : t.xlat = s.xlat
  mem : t.mem = s.mem

/-- The second state has the registers and the memory of the first: all that a load or a store writes. -/
def sameRegsMem (s t : State) : Prop := t.regs = s.regs ∧ t.mem = s.mem

namespace State.SameData

variable {s t : State} (h : s.SameData t)
include h

theorem accessAddrs (acc : Access) (prv : BitVec 2) (virt : Bool) (va : Word) (n : Nat) :
    t.accessAddrs acc prv virt va n = s.accessAddrs acc prv virt va n := by
  unfold State.accessAddrs
  rw [State.translateAll_congr h.xlat h.csr, h.p]

theorem plainAddr (r : RegNum) : t.plainAddr r = s.plainAddr r := by
  unfold State.plainAddr
  rw [h.p, State.x_of_regs h.regs]

theorem hlvPair : t.hlvPair = s.hlvPair := by unfold State.hlvPair; rw [h.csr]

theorem setX_regs (r : RegNum) (v : Word) : (t.setX r v).regs = (s.setX r v).regs := by
  unfold State.setX
  split
  · exact h.regs
  · rw [h.p, h.regs]

/-- An exception writes neither registers nor memory, in Debug Mode or outside it, whichever it is. -/
theorem takeException (e e' : Exc) : sameRegsMem (s.takeException e) (t.takeException e') := by
  simp [sameRegsMem, h.regs, h.mem]

theorem loadWith (acc : Access) (pair : BitVec 2 × Bool) (addr : Word) (n : Nat) (signed : Bool) (rd : RegNum) :
    sameRegsMem (s.loadWith acc pair addr n signed rd) (t.loadWith acc pair addr n signed rd) := by
  have ha := h.accessAddrs acc pair.1 pair.2 addr n
  cases hs : s.accessAddrs acc pair.1 pair.2 addr n with
  | error f =>
    rw [State.loadWith_error hs, State.loadWith_error (ha.trans hs)]
    exact h.takeException _ _
  | ok ks =>
    rw [State.loadWith_ok hs, State.loadWith_ok (ha.trans hs), State.inOrder_congr h.p h.csr, h.mem]
    simp [sameRegsMem, h.setX_regs, h.mem]

theorem storeWith (pair : BitVec 2 × Bool) (addr : Word) (n : Nat) (v : Word) :
    sameRegsMem (s.storeWith pair addr n v) (t.storeWith pair addr n v) := by
  have ha := h.accessAddrs .store pair.1 pair.2 addr n
  cases hs : s.accessAddrs .store pair.1 pair.2 addr n with
  | error f =>
    rw [State.storeWith_error hs, State.storeWith_error (ha.trans hs)]
    exact h.takeException _ _
  | ok ks =>
    rw [State.storeWith_ok hs, State.storeWith_ok (ha.trans hs), State.inOrder_congr h.p h.csr, h.mem]
    simp [sameRegsMem, h.regs]

theorem ifPresent (i : Instr) {f : State → State} (hf : sameRegsMem (f s) (f t)) :
    sameRegsMem (s.ifPresent i f) (t.ifPresent i f) := by
  unfold State.ifPresent
  rw [h.p]
  split
  · exact hf
  · exact h.takeException _ _

/-- A hypervisor load or store that both states permit writes the same registers and the same memory. -/
theorem exec_virtualMachine {r rs1 : RegNum} {i : Instr} (hi : i ∈ virtualMachineForms r rs1)
    (hs : s.hlvPermitted = true) (ht : t.hlvPermitted = true) :
    ∃ s' t', exec i s = .next s' ∧ exec i t = .next t' ∧ sameRegsMem s' t' := by
  rcases virtualMachineForms_cases hi with ⟨acc, n, signed, hi⟩ | ⟨n, hi⟩
  · refine ⟨_, _, exec_of_mem_hlvForms hi s, exec_of_mem_hlvForms hi t, h.ifPresent i ?_⟩
    rw [State.hlvOp_permitted hs, State.hlvOp_permitted ht, h.hlvPair, h.plainAddr]
    exact h.loadWith ..
  · refine ⟨_, _, exec_of_mem_hsvForms hi s, exec_of_mem_hsvForms hi t, h.ifPresent i ?_⟩
    rw [State.hsvOp_permitted hs, State.hsvOp_permitted ht, h.hlvPair, h.plainAddr, State.x_of_regs h.regs]
    exact h.storeWith ..

end State.SameData

/-! ### DMPRV changed beforehand -/

theorem State.withDmprv_sameData (s : State) (b : Bool) : s.SameData (s.withDmprv b) := ⟨rfl, rfl, rfl, rfl, rfl⟩

theorem State.trapTo_withDmprv (s : State) (b : Bool) (dest : Mode) (intr : Bool) (code : Nat) (tval : Word) :
    (s.withDmprv b).trapTo dest intr code tval = (s.trapTo dest intr code tval).withDmprv b := by
  cases dest <;> rfl

theorem State.takeException_withDmprv (s : State) (b : Bool) (e : Exc) :
    (s.withDmprv b).takeException e = (s.takeException e).withDmprv b := by
  cases hd : s.inDebug
  · rw [State.takeException_run hd, State.takeException_run (s := s.withDmprv b) hd, ← State.trapTo_withDmprv]
    rfl
  · rw [State.takeException_debug hd, State.takeException_debug (s := s.withDmprv b) hd]
    rfl

theorem State.setX_withDmprv (s : State) (b : Bool) (r : RegNum) (v : Word) :
    (s.withDmprv b).setX r v = (s.setX r v).withDmprv b := by
  unfold State.setX; split <;> rfl

theorem State.advance_withDmprv (s : State) (b : Bool) (n : Nat) :
    (s.withDmprv b).advance n = (s.advance n).withDmprv b := by
  cases hd : s.inDebug
  · rw [State.advance_run hd, State.advance_run (s := s.withDmprv b) hd]; rfl
  · rw [State.advance_debug hd, State.advance_debug (s := s.withDmprv b) hd]; rfl

theorem State.loadWith_withDmprv (s : State) (b : Bool) (acc : Access) (pair : BitVec 2 × Bool) (addr : Word) (n : Nat)
    (signed : Bool) (rd : RegNum) :
    (s.withDmprv b).loadWith acc pair addr n signed rd = (s.loadWith acc pair addr n signed rd).withDmprv b := by
  have ha := (s.withDmprv_sameData b).accessAddrs acc pair.1 pair.2 addr n
  cases hs : s.accessAddrs acc pair.1 pair.2 addr n with
  | error f => rw [State.loadWith_error hs, State.loadWith_error (ha.trans hs), State.takeException_withDmprv]
  | ok ks =>
    rw [State.loadWith_ok hs, State.loadWith_ok (ha.trans hs), ← State.advance_withDmprv, ← State.setX_withDmprv]
    rfl

theorem State.storeWith_withDmprv (s : State) (b : Bool) (pair : BitVec 2 × Bool) (addr : Word) (n : Nat) (v : Word) :
    (s.withDmprv b).storeWith pair addr n v = (s.storeWith pair addr n v).withDmprv b := by
  have ha := (s.withDmprv_sameData b).accessAddrs .store pair.1 pair.2 addr n
  cases hs : s.accessAddrs .store pair.1 pair.2 addr n with
  | error f => rw [State.storeWith_error hs, State.storeWith_error (ha.trans hs), State.takeException_withDmprv]
  | ok ks =>
    rw [State.storeWith_ok hs, State.storeWith_ok (ha.trans hs), ← State.advance_withDmprv]
    rfl

theorem State.hlvPermitted_withDmprv (s : State) (b : Bool) : (s.withDmprv b).hlvPermitted = s.hlvPermitted := rfl

/-- Permission, pair and address of a hypervisor load do not look at DMPRV. -/
theorem State.hlvOp_withDmprv (s : State) (b : Bool) (i : Instr) (acc : Access) (rd rs1 : RegNum) (n : Nat)
    (signed : Bool) :
    (s.withDmprv b).hlvOp i acc rd rs1 n signed = (s.hlvOp i acc rd rs1 n signed).withDmprv b := by
  unfold State.hlvOp
  rw [State.hlvPermitted_withDmprv]
  split
  · exact s.loadWith_withDmprv ..
  · exact s.takeException_withDmprv ..

theorem State.hsvOp_withDmprv (s : State) (b : Bool) (i : Instr) (rs2 rs1 : RegNum) (n : Nat) :
    (s.withDmprv b).hsvOp i rs2 rs1 n = (s.hsvOp i rs2 rs1 n).withDmprv b := by
  unfold State.hsvOp
  rw [State.hlvPermitted_withDmprv]
  split
  · exact s.storeWith_withDmprv ..
  · exact s.takeException_withDmprv ..

theorem State.ifPresent_withDmprv (s : State) (b : Bool) (i : Instr) {f : State → State}
    (hf : f (s.withDmprv b) = (f s).withDmprv b) :
    (s.withDmprv b).ifPresent i f = (s.ifPresent i f).withDmprv b := by
  cases hw : i.wellFormed s.p
  · rw [State.ifPresent_false hw, State.ifPresent_false (s := s.withDmprv b) hw, State.takeException_withDmprv]
  · rw [State.ifPresent_true hw, State.ifPresent_true (s := s.withDmprv b) hw, hf]

/-- A hypervisor load or store after a change of DMPRV is the change after the load or store. -/
theorem exec_withDmprv_of_mem_virtualMachineForms {r rs1 : RegNum} {i : Instr} (hi : i ∈ virtualMachineForms r rs1)
    (s : State) (b : Bool) : ∃ t, exec i s = .next t ∧ exec i (s.withDmprv b) = .next (t.withDmprv b) := by
  rcases virtualMachineForms_cases hi with ⟨acc, n, signed, hi⟩ | ⟨n, hi⟩
  · refine ⟨_, exec_of_mem_hlvForms hi s, ?_⟩
    rw [exec_of_mem_hlvForms hi, s.ifPresent_withDmprv b i (s.hlvOp_withDmprv ..)]
  · refine ⟨_, exec_of_mem_hsvForms hi s, ?_⟩
    rw [exec_of_mem_hsvForms hi, s.ifPresent_withDmprv b i (s.hsvOp_withDmprv ..)]

/-! ### In Debug Mode as in HS-mode -/

/-- The state running in HS-mode outside Debug Mode, with DMPRV 0. -/
def State.asHs (s : State) : State := { s.withDmprv false with inDebug := false, cur := .hs }

theorem State.asHs_sameData (s : State) : s.SameData s.asHs := ⟨rfl, rfl, rfl, rfl, rfl⟩

theorem State.asHs_hlvPermitted (s : State) : s.asHs.hlvPermitted = true := rfl

/-- At S/HS level the hypervisor loads and stores are permitted in Debug Mode (42 R181). -/
theorem State.hlvPermitted_of_dap_hs {s : State} (hd : s.inDebug = true) (h : s.dap = .hs) : s.hlvPermitted = true := by
  simp [State.hlvPermitted, hd, h]

/-- Settles O43: DMPRV commutes with the thirteen forms, and they write from the data that HS-mode has too. -/
theorem dmprvLeavesHypervisorAccesses : Obligations.DmprvLeavesHypervisorAccesses := by
  intro s r rs1 i hi
  refine ⟨exec_withDmprv_of_mem_virtualMachineForms hi s, fun hd hdap => ?_⟩
  obtain ⟨t, u, ht, hu, hregs, hmem⟩ :=
    s.asHs_sameData.exec_virtualMachine hi (State.hlvPermitted_of_dap_hs hd hdap) s.asHs_hlvPermitted
  exact ⟨t, u, ht, hu, hregs.symm, hmem.symm⟩

end Sys2Proof.Machine
end

section
/-! Decoder and encoder against each other (30 R77 to R80). Encoding then decoding runs over the instructions, format by
format; decoding then encoding runs over the branches of the decoder, and rests on a word being made of its fields. -/

namespace Sys2Proof

/-! ### The fields of an encoded word, one by one -/

theorem wordI_opcode (high : BitVec 12) (rs1 : BitVec 5) (f3 : BitVec 3) (rd : BitVec 5) (op : BitVec 7) :
    (wordI high rs1 f3 rd op).extractLsb' 0 7 = op :=
  (wordI_fields high rs1 f3 rd op).1

@[simp] theorem fieldRd_wordI (high : BitVec 12) (rs1 : BitVec 5) (f3 : BitVec 3) (rd : BitVec 5) (op : BitVec 7) :
    fieldRd (wordI high rs1 f3 rd op) = rd :=
  let ⟨_, h, _⟩ := wordI_fields high rs1 f3 rd op
  h

@[simp] theorem fieldFunct3_wordI (high : BitVec 12) (rs1 : BitVec 5) (f3 : BitVec 3) (rd : BitVec 5) (op : BitVec 7) :
    fieldFunct3 (wordI high rs1 f3 rd op) = f3 :=
  let ⟨_, _, h, _⟩ := wordI_fields high rs1 f3 rd op
  h

@[simp] theorem fieldRs1_wordI (high : BitVec 12) (rs1 : BitVec 5) (f3 : BitVec 3) (rd : BitVec 5) (op : BitVec 7) :
    fieldRs1 (wordI high rs1 f3 rd op) = rs1 :=
  let ⟨_, _, _, h, _⟩ := wordI_fields high rs1 f3 rd op
  h

@[simp] theorem fieldHigh12_wordI (high : BitVec 12) (rs1 : BitVec 5) (f3 : BitVec 3) (rd : BitVec 5) (op : BitVec 7) :
    fieldHigh12 (wordI high rs1 f3 rd op) = high :=
  let ⟨_, _, _, _, h⟩ := wordI_fields high rs1 f3 rd op
  h

theorem wordR_opcode (f7 : BitVec 7) (rs2 rs1 : BitVec 5) (f3 : BitVec 3) (rd : BitVec 5) (op : BitVec 7) :
    (wordR f7 rs2 rs1 f3 rd op).extractLsb' 0 7 = op :=
  (wordR_fields f7 rs2 rs1 f3 rd op).1

@[simp] theorem fieldRd_wordR (f7 : BitVec 7) (rs2 rs1 : BitVec 5) (f3 : BitVec 3) (rd : BitVec 5) (op : BitVec 7) :
    fieldRd (wordR f7 rs2 rs1 f3 rd op) = rd :=
  let ⟨_, h, _⟩ := wordR_fields f7 rs2 rs1 f3 rd op
  h

@[simp] theorem fieldFunct3_wordR (f7 : BitVec 7) (rs2 rs1 : BitVec 5) (f3 : BitVec 3) (rd : BitVec 5) (op : BitVec 7) :
    fieldFunct3 (wordR f7 rs2 rs1 f3 rd op) = f3 :=
  let ⟨_, _, h, _⟩ := wordR_fields f7 rs2 rs1 f3 rd op
  h

@[simp] theorem fieldRs1_wordR (f7 : BitVec 7) (rs2 rs1 : BitVec 5) (f3 : BitVec 3) (rd : BitVec 5) (op : BitVec 7) :
    fieldRs1 (wordR f7 rs2 rs1 f3 rd op) = rs1 :=
  let ⟨_, _, _, h, _⟩ := wordR_fields f7 rs2 rs1 f3 rd op
  h

@[simp] theorem fieldRs2_wordR (f7 : BitVec 7) (rs2 rs1 : BitVec 5) (f3 : BitVec 3) (rd : BitVec 5) (op : BitVec 7) :
    fieldRs2 (wordR f7 rs2 rs1 f3 rd op) = rs2 :=
  let ⟨_, _, _, _, h, _⟩ := wordR_fields f7 rs2 rs1 f3 rd op
  h

@[simp] theorem fieldFunct7_wordR (f7 : BitVec 7) (rs2 rs1 : BitVec 5) (f3 : BitVec 3) (rd : BitVec 5) (op : BitVec 7) :
    fieldFunct7 (wordR f7 rs2 rs1 f3 rd op) = f7 :=
  let ⟨_, _, _, _, _, h⟩ := wordR_fields f7 rs2 rs1 f3 rd op
  h

/-! ### A word is made of its fields -/

/-- Bits 31:20 are funct7 and rs2. -/
theorem fieldHigh12_eq_append (w : BitVec 32) : fieldHigh12 w = fieldFunct7 w ++ fieldRs2 w :=
  (BitVec.extractLsb'_append_extractLsb'_eq_extractLsb' (start₂ := 25) (start₁ := 20) (len₁ := 5) rfl).symm

/-- A store's offset takes the bits of funct7 and rd (30 R79). -/
theorem fieldStoreImm_eq_append (w : BitVec 32) : fieldStoreImm w = fieldFunct7 w ++ fieldRd w := rfl

/-- No bit of a word stands outside its fields. -/
theorem wordI_fields_self (w : BitVec 32) :
    wordI (fieldHigh12 w) (fieldRs1 w) (fieldFunct3 w) (fieldRd w) (w.extractLsb' 0 7) = w := by
  apply BitVec.eq_of_getLsbD_eq
  intro j hj
  simp only [wordI, fieldHigh12, fieldRs1, fieldFunct3, fieldRd, BitVec.getLsbD_append, BitVec.getLsbD_extractLsb']
  repeat' split
  all_goals
    rw [decide_eq_true (by omega), Bool.true_and]
    congr 1
    omega

/-- The two formats differ only in how they name bits 31:20. -/
theorem wordR_eq_wordI (f7 : BitVec 7) (rs2 rs1 : BitVec 5) (f3 : BitVec 3) (rd : BitVec 5) (op : BitVec 7) :
    wordR f7 rs2 rs1 f3 rd op = wordI (f7 ++ rs2) rs1 f3 rd op := rfl

theorem wordI_of_fields {w : BitVec 32} {op : BitVec 7} {f3 : BitVec 3} (hop : w.extractLsb' 0 7 = op)
    (hf3 : (fieldFunct3 w).toNat = f3.toNat) : wordI (fieldHigh12 w) (fieldRs1 w) f3 (fieldRd w) op = w := by
  rw [← hop, ← BitVec.eq_of_toNat_eq hf3, wordI_fields_self]

theorem wordR_of_fields {w : BitVec 32} {op : BitVec 7} {f3 : BitVec 3} (hop : w.extractLsb' 0 7 = op)
    (hf3 : (fieldFunct3 w).toNat = f3.toNat) :
    wordR (fieldFunct7 w) (fieldRs2 w) (fieldRs1 w) f3 (fieldRd w) op = w := by
  rw [wordR_eq_wordI, ← fieldHigh12_eq_append, wordI_of_fields hop hf3]

theorem wordS_of_fields {w : BitVec 32} {f3 : BitVec 3} (hop : w.extractLsb' 0 7 = 0b0100011)
    (hf3 : (fieldFunct3 w).toNat = f3.toNat) :
    wordS (fieldStoreImm w) (fieldRs2 w) (fieldRs1 w) f3 = w := by
  have hhigh : (fieldStoreImm w).extractLsb' 5 7 = fieldFunct7 w := by
    rw [fieldStoreImm_eq_append, BitVec.extractLsb'_append_eq_left]
  have hlow : (fieldStoreImm w).extractLsb' 0 5 = fieldRd w := by
    rw [fieldStoreImm_eq_append, BitVec.extractLsb'_append_eq_right]
  rw [wordS, hhigh, hlow, wordR_of_fields hop hf3]

/-! ### The decoder by opcode -/

theorem decodeWord32_of_load {w : BitVec 32} (h : w.extractLsb' 0 7 = 0b0000011) : decodeWord32 w = decodeLoad w := by
  simp [decodeWord32, h]

theorem decodeWord32_of_store {w : BitVec 32} (h : w.extractLsb' 0 7 = 0b0100011) : decodeWord32 w = decodeStore w := by
  simp [decodeWord32, h]

theorem decodeWord32_of_system {w : BitVec 32} (h : w.extractLsb' 0 7 = 0b1110011) :
    decodeWord32 w = decodeSystem w := by
  simp [decodeWord32, h]

/-- What decodes has one of the three opcodes. -/
theorem decodeWord32_cases {w : BitVec 32} {i : Instr} (h : decodeWord32 w = some i) :
    (w.extractLsb' 0 7 = 0b0000011 ∧ decodeLoad w = some i) ∨
      (w.extractLsb' 0 7 = 0b0100011 ∧ decodeStore w = some i) ∨
      (w.extractLsb' 0 7 = 0b1110011 ∧ decodeSystem w = some i) := by
  unfold decodeWord32 at h
  repeat' split at h
  case isTrue hload => exact .inl ⟨hload, h⟩
  case isFalse.isTrue hstore => exact .inr (.inl ⟨hstore, h⟩)
  case isFalse.isFalse.isTrue hsystem => exact .inr (.inr ⟨hsystem, h⟩)
  case isFalse.isFalse.isFalse => cases h

/-- A hypervisor store is not read as a hypervisor load: its funct7 is odd, theirs are even (30 R77). -/
theorem decodeHypervisorLoad_of_funct7_odd {w : BitVec 32} (h : (fieldFunct7 w).getLsbD 0 = true) :
    decodeHypervisorLoad w = none := by
  have hbit : (fieldHigh12 w).getLsbD 5 = true := by
    rw [fieldHigh12_eq_append, BitVec.getLsbD_append, if_neg (by decide), h]
  have hne : ∀ f12 : BitVec 12, f12.getLsbD 5 = false → fieldHigh12 w ≠ f12 := by
    rintro _ heven rfl
    exact Bool.noConfusion (hbit.symm.trans heven)
  unfold decodeHypervisorLoad
  repeat rw [if_neg (hne _ rfl)]

/-! ### Decoding what was encoded -/

/-- The word of a 32-bit instruction decodes to it. -/
theorem decodeWord32_encodeWord {i : Instr} (hi : i ≠ .cebreak) : decodeWord32 (encodeWord i) = some i := by
  cases i with
  | cebreak => exact absurd rfl hi
  | csrrw rd csr src | csrrs rd csr src | csrrc rd csr src
  | csrrwi rd csr src | csrrsi rd csr src | csrrci rd csr src =>
    exact (decodeWord32_of_system (wordI_opcode ..)).trans (by simp [decodeSystem])
  | ebreak | ecall | mret | sret | mnret =>
    exact (decodeWord32_of_system (wordI_opcode ..)).trans (by simp [decodeSystem, decodePrivileged])
  | lb rd rs1 imm | lh rd rs1 imm | lw rd rs1 imm | lbu rd rs1 imm | lhu rd rs1 imm | lwu rd rs1 imm | ld rd rs1 imm =>
    exact (decodeWord32_of_load (wordI_opcode ..)).trans (by simp [decodeLoad])
  | sb rs2 rs1 imm | sh rs2 rs1 imm | sw rs2 rs1 imm | sd rs2 rs1 imm =>
    exact (decodeWord32_of_store (wordR_opcode ..)).trans
      (by simp [decodeStore, fieldStoreImm_eq_append, storeImm_join])
  | hlvb rd rs1 | hlvbu rd rs1 | hlvh rd rs1 | hlvhu rd rs1 | hlvxhu rd rs1 | hlvw rd rs1 | hlvxwu rd rs1 | hlvwu rd rs1
  | hlvd rd rs1 =>
    exact (decodeWord32_of_system (wordI_opcode ..)).trans (by simp [decodeSystem, decodeHypervisorLoad])
  | hsvb rs2 rs1 | hsvh rs2 rs1 | hsvw rs2 rs1 | hsvd rs2 rs1 =>
    exact (decodeWord32_of_system (wordR_opcode ..)).trans
      (by simp [decodeSystem, decodeHypervisorLoad_of_funct7_odd, decodeHypervisorStore])

/-- A word that decodes ends in the bits 11, the mark of a 32-bit instruction (30 R80). -/
theorem low2_of_decodeWord32 {w : BitVec 32} {i : Instr} (h : decodeWord32 w = some i) : w.extractLsb' 0 2 = 3 := by
  have hlow : w.extractLsb' 0 2 = (w.extractLsb' 0 7).extractLsb' 0 2 :=
    (BitVec.extractLsb'_extractLsb'_of_le (by decide)).symm
  rw [hlow]
  rcases decodeWord32_cases h with ⟨hop, _⟩ | ⟨hop, _⟩ | ⟨hop, _⟩ <;> rw [hop] <;> rfl

theorem encode_of_ne_cebreak {i : Instr} (hi : i ≠ .cebreak) : encode i = wordBytes (encodeWord i) := by
  cases i with
  | cebreak => exact absurd rfl hi
  | _ => rfl

/-- Settles O1: C.EBREAK is one pair of bytes; every other instruction is read from the four bytes of its word. -/
theorem decodeOfEncode : Obligations.DecodeOfEncode := by
  intro i rest
  by_cases hi : i = .cebreak
  · subst hi
    rfl
  · have hword := decodeWord32_encodeWord hi
    rw [encode_of_ne_cebreak hi, decode_wordBytes _ rest (low2_of_decodeWord32 hword), hword]

/-! ### Encoding what was decoded -/

section
variable {w : BitVec 32} {i : Instr}

theorem encodeWord_of_decodeLoad (hop : w.extractLsb' 0 7 = 0b0000011) (h : decodeLoad w = some i) :
    encodeWord i = w := by
  unfold decodeLoad at h
  split at h <;> cases h
  all_goals exact wordI_of_fields hop ‹_›

theorem encodeWord_of_decodeStore (hop : w.extractLsb' 0 7 = 0b0100011) (h : decodeStore w = some i) :
    encodeWord i = w := by
  unfold decodeStore at h
  split at h <;> cases h
  all_goals exact wordS_of_fields hop ‹_›

theorem encodeWord_of_decodePrivileged (hop : w.extractLsb' 0 7 = 0b1110011) (hf3 : (fieldFunct3 w).toNat = 0)
    (h : decodePrivileged w = some i) : encodeWord i = w := by
  have hword : ∀ f12, fieldHigh12 w = f12 → fieldRd w = 0 ∧ fieldRs1 w = 0 → wordPriv f12 = w := by
    rintro _ rfl ⟨hrd, hrs1⟩
    have hfields := wordI_of_fields (f3 := 0) hop hf3
    rwa [hrd, hrs1] at hfields
  unfold decodePrivileged at h
  repeat' split at h
  all_goals cases h
  all_goals exact hword _ ‹_› ‹_›

theorem encodeWord_of_decodeHypervisorLoad (hop : w.extractLsb' 0 7 = 0b1110011) (hf3 : (fieldFunct3 w).toNat = 4)
    (h : decodeHypervisorLoad w = some i) : encodeWord i = w := by
  have hword : ∀ f12, fieldHigh12 w = f12 → wordHlv f12 (fieldRs1 w) (fieldRd w) = w := by
    rintro _ rfl
    exact wordI_of_fields hop hf3
  unfold decodeHypervisorLoad at h
  repeat' split at h
  all_goals cases h
  all_goals exact hword _ ‹_›

theorem encodeWord_of_decodeHypervisorStore (hop : w.extractLsb' 0 7 = 0b1110011) (hf3 : (fieldFunct3 w).toNat = 4)
    (h : decodeHypervisorStore w = some i) : encodeWord i = w := by
  have hword : ∀ f7, fieldFunct7 w = f7 → fieldRd w = 0 → wordHsv f7 (fieldRs2 w) (fieldRs1 w) = w := by
    rintro _ rfl hrd
    have hfields := wordR_of_fields (f3 := 4) hop hf3
    rwa [hrd] at hfields
  unfold decodeHypervisorStore at h
  repeat' split at h
  all_goals cases h
  all_goals exact hword _ ‹_› ‹_›

theorem encodeWord_of_decodeSystem (hop : w.extractLsb' 0 7 = 0b1110011) (h : decodeSystem w = some i) :
    encodeWord i = w := by
  unfold decodeSystem at h
  split at h
  case h_1 hf3 => exact encodeWord_of_decodePrivileged hop hf3 h
  case h_5 hf3 =>
    split at h
    case h_1 hload => exact encodeWord_of_decodeHypervisorLoad hop hf3 (hload.trans h)
    case h_2 => exact encodeWord_of_decodeHypervisorStore hop hf3 h
  all_goals cases h
  all_goals exact wordI_of_fields hop ‹_›

end

/-- Settles O2, by the decoder's branches: each puts back the opcode, the function bits and the fields that it read. -/
theorem encodeOfDecodedWord : Obligations.EncodeOfDecodedWord := by
  intro w i h
  rcases decodeWord32_cases h with ⟨hop, hload⟩ | ⟨hop, hstore⟩ | ⟨hop, hsystem⟩
  · exact encodeWord_of_decodeLoad hop hload
  · exact encodeWord_of_decodeStore hop hstore
  · exact encodeWord_of_decodeSystem hop hsystem

/-! ### Sample words -/

/-- Settles O3: the decoder runs on the nine words, and the bytes of C.EBREAK are its encoding. -/
theorem decodeSampleWords : Obligations.DecodeSampleWords := by
  refine ⟨?refused, ?csrrw, ?csrrwi, ?ebreak, ?mret, ?lw, ?sw, ?hlvxwu, ?hsvw, ?cebreak⟩
  case cebreak => exact decodeOfEncode .cebreak [0x55]
  all_goals decide

end Sys2Proof
end

section
/-! The modes that the state names stay modes of the hart under every elementary update (60 R235), and with them PRV and V
stay a legal resume pair in Debug Mode (40 R101, R109). -/

namespace Sys2Proof.Machine

/-! ### A saved mode in a status register -/

/-- A status register that saves a mode, the privilege in bits 12:11 and the virtualization mode in bit `k`, names a
mode of the hart: MPP and MPV in `mstatus` (`k` = 39), MNPP and MNPV in `mnstatus` (`k` = 7). -/
def SavedLegal (p : Params) (k : Nat) (w : Word) : Prop :=
  supportedPrv p (w.extractLsb' 11 2) = true ∧ (w.getLsbD k = true → p.hasH = true)

theorem State.modesLegal_iff (s : State) :
    s.modesLegal ↔ supportedMode s.p s.cur = true ∧ SavedLegal s.p 39 s.csr.mstatus ∧
      (s.csr.spv = true → s.p.hasH = true) ∧ SavedLegal s.p 7 s.csr.mnstatus := by
  simp only [State.modesLegal, SavedLegal, Csrs.mpp, Csrs.mpv, Csrs.mnpp, Csrs.mnpv, and_assoc, and_left_comm]

namespace SavedLegal

variable {p : Params} {k : Nat} {w : Word} (h : SavedLegal p k w)
include h

/-- A change of a bit outside the saved privilege; of the saved virtualization mode only to one the hart has. -/
theorem setBit {i : Nat} (hi : i < 11 ∨ 13 ≤ i) {b : Bool} (hb : i = k → b = true → p.hasH = true) :
    SavedLegal p k (setBit w i b) := by
  obtain ⟨hprv, hv⟩ := h
  refine ⟨by rwa [extract_setBit _ _ _ _ _ (by omega)], fun hk => ?_⟩
  rw [getLsbD_setBit] at hk
  split at hk
  · rename_i e
    rw [Bool.and_eq_true] at hk
    exact hb e hk.2
  · exact hv hk

theorem setBits2 (hk : k ≠ 11 ∧ k ≠ 12) {prv : BitVec 2} (hp : supportedPrv p prv = true) :
    SavedLegal p k (setBits2 w 11 prv) := by
  obtain ⟨_, hv⟩ := h
  refine ⟨by rwa [extract_setBits2 _ _ _ (by omega)], fun hb => hv ?_⟩
  rwa [getLsbD_setBits2, if_neg (by omega), if_neg (by omega)] at hb

theorem merge {mask new : Word} (hm : mask.extractLsb' 11 2 = 0) (hk : mask.getLsbD k = true → p.hasH = true) :
    SavedLegal p k (merge mask w new) := by
  obtain ⟨hprv, hv⟩ := h
  refine ⟨by rwa [extract_merge _ _ _ _ _ hm], fun hb => ?_⟩
  rw [getLsbD_merge] at hb
  split at hb
  · exact hk ‹_›
  · exact hv hb

end SavedLegal

/-! ### Traps and returns (60 R249) -/

/-- The previous privilege of a trap to HS- or VS-mode, 0 or 1, is one of a hart with S-mode. -/
theorem supportedPrv_prvOfSpp {p : Params} (hv : p.valid = true) (hS : p.hasS = true) (b : Bool) :
    supportedPrv p (prvOfSpp b) = true := by
  cases b
  · exact (valid_modes hv).2 hS
  · exact hS

section
variable {s : State} (hv : s.p.valid = true) (hs : s.modesLegal)
include hv hs

theorem trapMstatus_savedLegal : SavedLegal s.p 39 (trapMstatus s) := by
  obtain ⟨hcur, hm, _, _⟩ := s.modesLegal_iff.1 hs
  obtain ⟨hprv, hvirt⟩ := supported_saved hv hcur
  exact (((hm.setBits2 (by omega) hprv).setBit (by omega) fun _ => hvirt).setBit (by omega) (by omega)).setBit
    (by omega) (by omega)

theorem State.trapTo_modesLegal {dest : Mode} (intr : Bool) (code : Nat) (tval : Word)
    (hS : dest = .hs → s.p.hasS = true) (hH : dest = .vs → s.cur.virt = true ∨ s.p.hasH = true) :
    (s.trapTo dest intr code tval).modesLegal := by
  obtain ⟨hcur, hm, hspv, hmn⟩ := s.modesLegal_iff.1 hs
  obtain ⟨_, hvirt⟩ := supported_saved hv hcur
  rw [State.modesLegal_iff, State.trapTo_p]
  cases dest with
  | m | u | vu => exact ⟨rfl, trapMstatus_savedLegal hv hs, hspv, hmn⟩
  | hs =>
    have hm' : SavedLegal s.p 39 (trapSstatus s) :=
      ((hm.setBit (by omega) (by omega)).setBit (by omega) (by omega)).setBit (by omega) (by omega)
    exact ⟨hS rfl, hm', fun h => hvirt ((getLsbD_setBit_self _ _ (by omega)).symm.trans h), hmn⟩
  | vs => exact ⟨(hH rfl).elim hvirt id, hm, hspv, hmn⟩

theorem State.takeNmi_modesLegal : s.takeNmi.modesLegal := by
  obtain ⟨hcur, hm, hspv, hmn⟩ := s.modesLegal_iff.1 hs
  obtain ⟨hprv, hvirt⟩ := supported_saved hv hcur
  unfold State.takeNmi
  split
  · exact (State.modesLegal_iff _).2 ⟨rfl, hm, hspv,
      ((hmn.setBits2 (by omega) hprv).setBit (by omega) fun _ => hvirt).setBit (by omega) (by omega)⟩
  · exact State.trapTo_modesLegal hv hs (dest := .m) true 0 0 (fun h => by cases h) (fun h => by cases h)

theorem State.mretOp_modesLegal : s.mretOp.modesLegal := by
  obtain ⟨_, hm, hspv, hmn⟩ := s.modesLegal_iff.1 hs
  have hm' : ∀ dst, SavedLegal s.p 39 (mretMstatus s dst) := by
    intro dst
    have h := (((hm.setBit (i := 3) (b := s.csr.mpie) (by omega) (by omega)).setBit (i := 7) (b := true) (by omega)
      (by omega)).setBit (i := 39) (b := false) (by omega) (by simp)).setBits2 (by omega) (supported_lowest s.p)
    unfold mretMstatus
    dsimp only
    split
    · exact h
    · exact h.setBit (by omega) (by omega)
  exact (State.modesLegal_iff _).2 ⟨supported_ofSaved hv hm.1 hm.2, hm' _, hspv, hmn⟩

theorem State.sretOp_modesLegal (hS : s.p.hasS = true) : s.sretOp.modesLegal := by
  obtain ⟨_, hm, _, hmn⟩ := s.modesLegal_iff.1 hs
  have hm' : SavedLegal s.p 39 (sretMstatus s) :=
    (((hm.setBit (by omega) (by omega)).setBit (by omega) (by omega)).setBit (by omega) (by omega)).setBit
      (by omega) (by omega)
  have hcur : supportedMode s.p (Mode.ofSaved (prvOfSpp s.csr.spp) (s.p.hasH && s.csr.spv)) = true :=
    supported_ofSaved hv (supportedPrv_prvOfSpp hv hS _) (by simp +contextual)
  refine (State.modesLegal_iff _).2 ⟨hcur, hm', fun h => ?_, hmn⟩
  exact absurd ((getLsbD_setBit_self _ _ (by omega)).symm.trans h) Bool.false_ne_true

theorem State.vsretOp_modesLegal (hS : s.p.hasS = true) (hc : s.cur = .vs) : s.vsretOp.modesLegal := by
  obtain ⟨hcur, hm, hspv, hmn⟩ := s.modesLegal_iff.1 hs
  rw [hc] at hcur
  exact (State.modesLegal_iff _).2
    ⟨supported_ofSaved hv (supportedPrv_prvOfSpp hv hS _) fun _ => hcur, hm, hspv, hmn⟩

theorem State.mnretOp_modesLegal : s.mnretOp.modesLegal := by
  obtain ⟨_, hm, hspv, hmn⟩ := s.modesLegal_iff.1 hs
  refine (State.modesLegal_iff _).2 ⟨supported_ofSaved hv hmn.1 hmn.2, ?_, hspv, hmn.setBit (by omega) (by omega)⟩
  show SavedLegal s.p 39
    (if Mode.ofSaved s.csr.mnpp s.csr.mnpv = .m then s.csr.mstatus else setBit s.csr.mstatus 17 false)
  split
  · exact hm
  · exact hm.setBit (by omega) (by omega)

end

/-! ### CSR writes -/

theorem mstatusMask_mpp (p : Params) (mask : Word) : (mstatusMask p &&& mask).extractLsb' 11 2 = 0 := by
  have h : (mstatusMask p).extractLsb' 11 2 = 0 := by
    unfold mstatusMask ubeMask
    cases p.hasU <;> cases p.hasS <;> cases p.hasH <;> cases p.hasEndianControls <;> rfl
  rw [BitVec.extractLsb'_and, h]
  exact BitVec.zero_and

/-- MPV is writable where the hart has the hypervisor modes. -/
theorem mstatusMask_mpv (p : Params) : (mstatusMask p).getLsbD 39 = p.hasH := by
  unfold mstatusMask ubeMask
  cases p.hasU <;> cases p.hasS <;> cases p.hasH <;> cases p.hasEndianControls <;> rfl

theorem sstatusMask_saved (p : Params) :
    (sstatusMask p).extractLsb' 11 2 = 0 ∧ (sstatusMask p).getLsbD 39 = false := by
  unfold sstatusMask ubeMask
  cases p.hasEndianControls && p.hasU <;> exact ⟨rfl, rfl⟩

theorem mstatusWritten_savedLegal {p : Params} {old : Word} (h : SavedLegal p 39 old) (w mask : Word) :
    SavedLegal p 39 (mstatusWritten p old w mask) := by
  have hmerge : SavedLegal p 39 (merge (mstatusMask p &&& mask) old w) := by
    refine h.merge (mstatusMask_mpp p mask) fun hb => ?_
    rw [BitVec.getLsbD_and, mstatusMask_mpv, Bool.and_eq_true] at hb
    exact hb.1
  unfold mstatusWritten
  dsimp only
  split
  · rename_i hw
    rw [Bool.and_eq_true] at hw
    exact hmerge.setBits2 (by omega) hw.2
  · exact hmerge

/-- Setting NMIE, which is all a write can do to it, leaves the saved mode. -/
theorem SavedLegal.or_nmie {p : Params} {old : Word} (h : SavedLegal p 7 old) (w : Word) :
    SavedLegal p 7 (old ||| (w &&& 8)) := by
  obtain ⟨hprv, hv⟩ := h
  have h8 : (8 : Word).extractLsb' 11 2 = 0#2 ∧ (8 : Word).getLsbD 7 = false := ⟨rfl, rfl⟩
  constructor
  · rwa [BitVec.extractLsb'_or, BitVec.extractLsb'_and, h8.1, BitVec.and_zero, BitVec.or_zero]
  · rwa [BitVec.getLsbD_or, BitVec.getLsbD_and, h8.2, Bool.and_false, Bool.or_false]

theorem mnstatusWritten_savedLegal {p : Params} {old : Word} (h : SavedLegal p 7 old) (w : Word) :
    SavedLegal p 7 (mnstatusWritten p old w) := by
  have hmerge : SavedLegal p 7 (merge (if p.hasH then 0x80 else 0) (old ||| (w &&& 8)) w) := by
    cases hH : p.hasH
    · exact (h.or_nmie w).merge rfl (fun hb => absurd hb Bool.false_ne_true)
    · exact (h.or_nmie w).merge rfl fun _ => hH
  unfold mnstatusWritten
  dsimp only
  split
  · exact hmerge.setBits2 (by omega) ‹_›
  · exact hmerge

theorem State.modesLegal_congr {s t : State} (hp : t.p = s.p) (hcur : t.cur = s.cur) (hcsr : t.csr = s.csr)
    (hs : s.modesLegal) : t.modesLegal := by
  unfold State.modesLegal
  rwa [hp, hcur, hcsr]

/-- `hstatus` is written on a hart with the hypervisor modes only. -/
theorem State.csrCheck_hstatus {s : State} {n : CsrNum} {w : Bool} (h : s.csrCheck n w = .ok .hstatus) :
    s.p.hasH = true := by
  obtain ⟨d, hd, hc⟩ := State.csrCheck_named h
  have hd' : d = .hstatus := by
    rcases hc with rfl | hc
    · rfl
    · revert hc
      cases d <;> simp [Csr.vsCopy]
  subst hd'
  exact (csrLookup_eq_some.1 hd).2

theorem State.csrWrite_modesLegal {s : State} {n : CsrNum} {c : Csr} (hc : s.csrCheck n true = .ok c) (v : Word)
    (hs : s.modesLegal) : (s.csrWrite c v).modesLegal := by
  obtain ⟨hcur, hm, hspv, hmn⟩ := s.modesLegal_iff.1 hs
  cases c with
  | mstatus | mstatush => exact (State.modesLegal_iff _).2 ⟨hcur, mstatusWritten_savedLegal hm _ _, hspv, hmn⟩
  | sstatus =>
    obtain ⟨hmpp, hmpv⟩ := sstatusMask_saved s.p
    exact (State.modesLegal_iff _).2 ⟨hcur, hm.merge hmpp fun h => absurd (hmpv.symm.trans h) Bool.false_ne_true, hspv, hmn⟩
  | hstatus => exact (State.modesLegal_iff _).2 ⟨hcur, hm, fun _ => State.csrCheck_hstatus hc, hmn⟩
  | mnstatus => exact (State.modesLegal_iff _).2 ⟨hcur, hm, hspv, mnstatusWritten_savedLegal hmn _⟩
  | sdcsr | tselect | tdata1 | tdata2 =>
    exact State.modesLegal_congr (State.csrWrite_p s _ v) (State.csrWrite_cur s _ v) (by simp [State.csrWrite]) hs
  | _ => exact hs

/-! ### Every elementary update -/

/-- An update of a valid configuration keeps the current and the saved modes modes of the hart (60 R235). -/
theorem Atom.keeps_modesLegal {s t : State} (h : Atom s t) (hv : s.p.valid = true) (hs : s.modesLegal) :
    t.modesLegal := by
  cases h with
  | setX r v =>
    exact State.modesLegal_congr (State.setX_p s r v) (State.setX_cur s r v) (State.setX_csr s r v) hs
  | advance =>
    exact State.modesLegal_congr (State.advance_p s 4) (State.advance_cur s 4) (State.advance_csr s 4) hs
  | csrWrite n c v _ hc => exact State.csrWrite_modesLegal hc v hs
  | trap dest intr code tval _ hS hH => exact State.trapTo_modesLegal hv hs intr code tval hS hH
  | nmi => exact State.takeNmi_modesLegal hv hs
  | mret => exact State.mretOp_modesLegal hv hs
  | sret _ _ hS => exact State.sretOp_modesLegal hv hs hS
  | vsret _ hS hc => exact State.vsretOp_modesLegal hv hs hS hc
  | mnret => exact State.mnretOp_modesLegal hv hs
  | resume _ h =>
    obtain ⟨mode, _, hmode, rfl⟩ := resume_cases h
    exact ⟨hmode, hs.2⟩
  | _ => exact hs

/-! ### PRV and V -/

@[simp] theorem State.enterDebug_prv (s : State) (c : DebugCause) : (s.enterDebug c).dbg.prv = s.cur.prv :=
  (setCause_prv _ c).trans (setPrvV_prv _ _ _)

@[simp] theorem State.enterDebug_v (s : State) (c : DebugCause) : (s.enterDebug c).dbg.v = s.cur.virt :=
  (getLsbD_setCause _ c 5 (by omega)).trans (setPrvV_v _ _ _)

@[simp] theorem State.enterDebug_cause (s : State) (c : DebugCause) : (s.enterDebug c).dbg.cause = c.code :=
  setCause_cause _ c

theorem State.debugLegal_congr {s t : State} (hp : t.p = s.p) (hd : t.inDebug = s.inDebug) (hdap : t.dap = s.dap)
    (hdcsr : t.dbg.dcsr = s.dbg.dcsr) (hs : s.debugLegal) : t.debugLegal := by
  intro h
  obtain ⟨hne, hleg⟩ := hs (hd ▸ h)
  refine ⟨hdap ▸ hne, ?_⟩
  rw [hp, legalPair_of_dap (c := t.cfg) (d := s.cfg) hdap]
  unfold DebugRegs.prv DebugRegs.v
  rwa [hdcsr]

/-- A CSR write of the debugger leaves the debug access privilege, and over a legal pair a legal one (40 R101). -/
theorem State.csrWrite_debugLegal {s : State} {n : CsrNum} {w : Bool} {c : Csr} (hc : s.csrCheck n w = .ok c) (v : Word)
    (hs : s.debugLegal) : (s.csrWrite c v).debugLegal := by
  intro h
  have hd : s.inDebug = true := (State.csrWrite_inDebug s c v).symm.trans h
  have hdap : (s.csrWrite c v).dap = s.dap := State.csrWrite_dap v hd hc
  rcases s.csrWrite_dcsr_cases c v with e | ⟨dcsr, prv, q, e, hprv, hq⟩
  · exact State.debugLegal_congr (State.csrWrite_p s c v) (State.csrWrite_inDebug s c v) hdap e hs h
  · obtain ⟨hne, hleg⟩ := hs hd
    refine ⟨hdap ▸ hne, ?_⟩
    rw [State.csrWrite_p, legalPair_of_dap (c := (s.csrWrite c v).cfg) (d := s.cfg) hdap]
    unfold DebugRegs.prv DebugRegs.v
    rw [e]
    exact writePrvV_legal prv q (by rwa [hprv, hq])

/-- On entry PRV and V name the current mode, in which debug is allowed (60 R236). -/
theorem State.enterDebug_debugLegal {s : State} (hcur : supportedMode s.p s.cur = true) (ha : s.allowed = true)
    (c : DebugCause) : (s.enterDebug c).debugLegal := by
  intro _
  obtain ⟨hne, hleg⟩ := State.allowed_legal hcur ha
  refine ⟨hne, ?_⟩
  rw [State.enterDebug_prv, State.enterDebug_v]
  exact hleg

/-- The controlling entity can only raise the debug access privilege to M level in Debug Mode, where what was legal stays
legal (70 R273). -/
theorem State.driveMdbgen_debugLegal {s : State} {b d : Bool} (hb : s.inDebug = true → s.mdbgen = true → b = true)
    (hs : s.debugLegal) : { s with mdbgen := b, dbg := { s.dbg with dmprv := d } }.debugLegal := by
  intro h
  obtain ⟨hne, hleg⟩ := hs h
  cases b
  · have hm : s.mdbgen = false := by
      by_contra hm
      exact Bool.false_ne_true (hb h (by simpa using hm))
    exact State.debugLegal_congr (s := s) rfl rfl (State.dap_congr rfl rfl hm.symm) rfl hs h
  · have hdap : State.dap { s with mdbgen := true, dbg := { s.dbg with dmprv := d } } = .m := (dap_eq_m _).2 rfl
    exact ⟨by rw [hdap]; decide, legalPair_m hleg hdap⟩

theorem Atom.keeps_debugLegal {s t : State} (h : Atom s t) (hcur : supportedMode s.p s.cur = true)
    (hs : s.debugLegal) : t.debugLegal := by
  cases h with
  | enterDebug c _ ha => exact State.enterDebug_debugLegal hcur ha c
  | csrWrite n c v _ hc => exact State.csrWrite_debugLegal hc v hs
  | mdbgen b hb => exact State.driveMdbgen_debugLegal hb hs
  | resume _ h =>
    obtain ⟨_, _, _, rfl⟩ := resume_cases h
    exact fun h => absurd h Bool.false_ne_true
  | setX | advance | trap | nmi =>
    exact State.debugLegal_congr (by simp) (by simp) (State.dap_congr (by simp) (by simp) (by simp)) (by simp) hs
  | _ => exact hs

/-- The strengthened invariant: an entry to Debug Mode copies the current mode into PRV and V, so that must be a mode of
the hart; and the modes of the hart close under traps and returns in a valid configuration only. -/
def State.resumeInvariant (s : State) : Prop := s.p.valid = true ∧ s.modesLegal ∧ s.debugLegal

theorem Atom.keeps_resumeInvariant {s t : State} (h : Atom s t) (hs : s.resumeInvariant) : t.resumeInvariant := by
  obtain ⟨hv, hmodes, hdebug⟩ := hs
  exact ⟨h.p_eq ▸ hv, h.keeps_modesLegal hv hmodes, h.keeps_debugLegal hmodes.1 hdebug⟩

/-- Settles O59: every elementary update keeps the invariant, and a step is a chain of these. -/
theorem resumePairStaysLegal : Obligations.ResumePairStaysLegal := by
  intro s t hmodes hdebug h
  obtain ⟨_, _, hlegal⟩ : t.resumeInvariant :=
    step_keeps (fun _ _ ha => ha.keeps_resumeInvariant) h ⟨(step_cases h).1, hmodes, hdebug⟩
  exact hlegal

end Sys2Proof.Machine
end

section
/-! The ladder of controls (40 R92 to R96), and the two tables of the debug access privilege and of the modes the debugger
may resume to (40 R98, R100). -/

namespace Sys2Proof.Machine

/-- Settles O9: the definition mode by mode, where a control that is set reaches every mode at or below its own. -/
theorem debugAllowedLadder : Obligations.DebugAllowedLadder := by
  intro f c
  refine ⟨rfl, fun hm mode => ?_, rfl, fun hs => ?_, rfl, rfl, fun hu => ?_, fun hm hs hv hu mode => ?_⟩
  · cases mode <;> simp [dbgAllowed, hm]
  · simp [dbgAllowed, hs]
  · simp [dbgAllowed, hu]
  · cases mode <;> simp [dbgAllowed, hm, hs, hv, hu]

/-- A legal resume pair names a mode of the hart, at or below the debug access privilege (40 R101). -/
theorem legalPair_eq_true_iff {p : Params} {c : Cfg} {prv : BitVec 2} {v : Bool} :
    legalPair p c prv v = true ↔
      ∃ mode, Mode.ofPair prv v = some mode ∧ supportedMode p mode = true ∧ mode.lvl.rank ≤ (Machine.dap c).rank := by
  unfold legalPair
  cases Mode.ofPair prv v <;> simp

/-- For a mode of the hart, a legal pair is a matter of its level alone. -/
theorem legalPair_iff_level {p : Params} {prv : BitVec 2} {v : Bool} {mode : Mode}
    (hpair : Mode.ofPair prv v = some mode) (hmode : supportedMode p mode = true) {c : Cfg} {l : Level}
    (hdap : Machine.dap c = l) : legalPair p c prv v = true ↔ mode.lvl.rank ≤ l.rank := by
  simp [legalPair, hpair, hmode, hdap]

theorem Mode.lvl_le_m (mode : Mode) : mode.lvl.rank ≤ Level.m.rank := by cases mode <;> decide

theorem Mode.lvl_le_hs_iff (mode : Mode) : mode.lvl.rank ≤ Level.hs.rank ↔ mode ≠ .m := by cases mode <;> decide

theorem Mode.lvl_le_vs_iff (mode : Mode) : mode.lvl.rank ≤ Level.vs.rank ↔ mode ≠ .m ∧ mode ≠ .hs := by
  cases mode <;> decide

theorem Mode.lvl_le_u_iff (mode : Mode) : mode.lvl.rank ≤ Level.u.rank ↔ mode = .u ∨ mode = .vu := by
  cases mode <;> decide

theorem Mode.not_lvl_le_none (mode : Mode) : ¬ mode.lvl.rank ≤ Level.none.rank := by cases mode <;> decide

/-- Settles O10: the first control that is set gives the row, and the row's level the modes at or below it. -/
theorem resumePrivilegeTable : Obligations.ResumePrivilegeTable := by
  intro p c prv v mode hpair hmode
  have row : ∀ {l : Level}, Machine.dap c = l → (legalPair p c prv v = true ↔ mode.lvl.rank ≤ l.rank) :=
    legalPair_iff_level hpair hmode
  refine ⟨fun hm => ?_, fun hm hs => ?_, fun hm hs hv => ?_, fun hm hs hv hu => ?_, fun hm hs hv hu => ?_⟩
  · have hdap : Machine.dap c = .m := (dap_eq_m c).2 hm
    exact ⟨hdap, (row hdap).2 mode.lvl_le_m⟩
  · have hdap : Machine.dap c = .hs := by simp [Machine.dap, hm, hs]
    exact ⟨hdap, (row hdap).trans mode.lvl_le_hs_iff⟩
  · have hdap : Machine.dap c = .vs := by simp [Machine.dap, hm, hs, hv]
    exact ⟨hdap, (row hdap).trans mode.lvl_le_vs_iff⟩
  · have hdap : Machine.dap c = .u := by simp [Machine.dap, hm, hs, hv, hu]
    exact ⟨hdap, (row hdap).trans mode.lvl_le_u_iff⟩
  · have hdap : Machine.dap c = .none := by simp [Machine.dap, hm, hs, hv, hu]
    exact ⟨hdap, Bool.eq_false_iff.2 fun h => mode.not_lvl_le_none ((row hdap).1 h)⟩

end Sys2Proof.Machine
end

section
/-! A stay in Debug Mode: what a step may change there (40 R110), and the resume that ends it (40 R109, 60 R241). -/

namespace Sys2Proof.Machine

/-! ### What stays during a stay in Debug Mode -/

/-- The second state is in Debug Mode with the debug access privilege of the first, and with a legal resume pair if the
first had one. -/
structure State.StaysHalted (s t : State) : Prop where
  inDebug : t.inDebug = true
  p : t.p = s.p
  dap : t.dap = s.dap
  legal : s.debugLegal → t.debugLegal

namespace State.StaysHalted

theorem trans {s t u : State} (h : s.StaysHalted t) (h' : t.StaysHalted u) : s.StaysHalted u :=
  ⟨h'.inDebug, h'.p.trans h.p, h'.dap.trans h.dap, fun hs => h'.legal (h.legal hs)⟩

/-- An update that leaves the parameters, Debug Mode, the controls and `dcsr`. -/
theorem of_same {s t : State} (hd : s.inDebug = true) (hp : t.p = s.p) (hdebug : t.inDebug = s.inDebug)
    (hmsdcfg : t.msdcfg = s.msdcfg) (hmdbgen : t.mdbgen = s.mdbgen) (hdbg : t.dbg = s.dbg) : s.StaysHalted t :=
  have hdap := State.dap_congr hp hmsdcfg hmdbgen
  ⟨hdebug.trans hd, hp, hdap, State.debugLegal_congr hp hdebug hdap (congrArg DebugRegs.dcsr hdbg)⟩

theorem debugFail {s : State} (hd : s.inDebug = true) : s.StaysHalted s.debugFail := ⟨hd, rfl, rfl, id⟩

theorem setX {s : State} (hd : s.inDebug = true) (r : RegNum) (v : Word) : s.StaysHalted (s.setX r v) :=
  of_same hd (by simp) (by simp) (by simp) (by simp) (by simp)

theorem advance {s : State} (hd : s.inDebug = true) (n : Nat) : s.StaysHalted (s.advance n) :=
  of_same hd (by simp) (by simp) (by simp) (by simp) (by simp)

theorem csrWrite {s : State} (hd : s.inDebug = true) {n : CsrNum} {w : Bool} {c : Csr} (hc : s.csrCheck n w = .ok c)
    (v : Word) : s.StaysHalted (s.csrWrite c v) :=
  ⟨(State.csrWrite_inDebug s c v).trans hd, State.csrWrite_p s c v, State.csrWrite_dap v hd hc,
    State.csrWrite_debugLegal hc v⟩

theorem takeException {s : State} (hd : s.inDebug = true) (e : Exc) : s.StaysHalted (s.takeException e) := by
  rw [State.takeException_debug hd]
  exact debugFail hd

/-- An instruction of the Program Buffer. -/
theorem of_effect {s t : State} (hd : s.inDebug = true) (h : ExecEffect s t) : s.StaysHalted t := by
  cases h with
  | exception e => exact takeException hd e
  | failed => exact debugFail hd
  | csrRead n w c rd => exact (setX hd rd _).trans (advance (setX hd rd _).inDebug 4)
  | csrWrite n c rd v hc =>
    have hw := (csrWrite hd hc v).trans (setX (csrWrite hd hc v).inDebug rd (s.csrRead c))
    exact hw.trans (advance hw.inDebug 4)
  | load rd v => exact (setX hd rd v).trans (advance (setX hd rd v).inDebug 4)
  | store ks vs => exact of_same hd (by simp) (by simp) (by simp) (by simp) (by simp)
  | bufferEnd => exact ⟨hd, rfl, rfl, id⟩
  | nop => exact advance hd 4
  | enter h | mret h | sret h | vsret h | mnret h => exact absurd (h.symm.trans hd) Bool.false_ne_true

end State.StaysHalted

/-- The outcome of a step in Debug Mode: the hart stays, or as the last thing it does it resumes. -/
def HaltedOutcome (s t : State) : Prop := ∃ u, s.StaysHalted u ∧ (t = u ∨ u.resume = .next t)

theorem State.StaysHalted.outcome {s t : State} (h : s.StaysHalted t) : HaltedOutcome s t := ⟨t, h, .inl rfl⟩

/-- A step of the hart. -/
theorem hartStep_halted {s t : State} (hd : s.inDebug = true) (h : s.hartStep = .next t) : HaltedOutcome s t := by
  have hfired : s.StaysHalted (s.beginStep.fireTriggers anyTrigger).dropMatched := ⟨hd, rfl, rfl, id⟩
  unfold State.hartStep at h
  rw [if_pos hd] at h
  rcases debugStep_cases h with ⟨_, rfl⟩ | ⟨_, rfl⟩ | ⟨e, rfl⟩ | ⟨_, i, u, hu, hf⟩
  · exact hfired.outcome
  · exact (hfired.trans (.debugFail hfired.inDebug)).outcome
  · exact (hfired.trans (.takeException hfired.inDebug e)).outcome
  · have hu' := hfired.trans (.of_effect hfired.inDebug (exec_next hu))
    rcases finishQuick_cases hf with rfl | ⟨_, _, _, hr⟩
    · exact hu'.outcome
    · exact ⟨u, hu', .inr hr⟩

theorem accessRegister_halted {s : State} (hd : s.inDebug = true) (r : AbsReg) (write : Option Word) :
    s.StaysHalted (s.accessRegister r write) := by
  have hdata : ∀ v, s.StaysHalted (s.setData v) := fun _ => ⟨hd, rfl, rfl, id⟩
  unfold State.accessRegister
  split
  · split
    · exact .debugFail hd
    · split
      · exact hdata _
      · exact .setX hd _ _
  · split
    · rename_i n _ c hc
      split
      · exact hdata _
      · exact .csrWrite hd (n := n) (w := true) ((if_pos hd).trans hc) _
    · exact .debugFail hd

theorem accessMemory_halted {s : State} (hd : s.inDebug = true) (addr : Word) (n : Nat) (write : Option Word) :
    s.StaysHalted (s.accessMemory addr n write) := by
  unfold State.accessMemory
  split
  · exact .debugFail hd
  · split
    · split
      · exact .debugFail hd
      · exact ⟨hd, rfl, rfl, id⟩
    · split
      · exact .debugFail hd
      · rename_i hm
        unfold State.memWrite at hm
        split at hm
        · cases hm
        · cases hm; exact ⟨hd, rfl, rfl, id⟩

/-- A command served on a halted hart. -/
theorem whenHalted_halted {s t : State} (hd : s.inDebug = true) {f : State → Host.Outcome State Fault Refusal}
    (h : s.whenHalted f = .next t) : f s = .next t := by
  rcases whenHalted_cases h with ⟨hd', _⟩ | ⟨_, _, h⟩
  · exact absurd (hd'.symm.trans hd) Bool.false_ne_true
  · exact h

/-- Any action but a drive of `mdbgen`. -/
theorem act_halted {s t : State} (hd : s.inDebug = true) {e : Event} (he : ∀ b, e ≠ .setMdbgen b)
    (h : s.act e = .next t) : HaltedOutcome s t := by
  cases e with
  | hart => exact hartStep_halted hd h
  | setMdbgen b => exact absurd rfl (he b)
  | resume =>
    replace h : s.resumeRequest = .next t := h
    unfold State.resumeRequest at h
    rw [if_pos hd] at h
    exact ⟨s, ⟨hd, rfl, rfl, id⟩, .inr h⟩
  | accessRegister r write =>
    cases whenHalted_halted hd (f := fun t => .next (t.accessRegister r write)) h
    exact (accessRegister_halted hd r write).outcome
  | accessMemory addr size write =>
    have h := whenHalted_halted hd (f := fun t => t.accessMemorySized addr size write) h
    unfold State.accessMemorySized at h
    split at h
    · cases h
    · cases h; exact (accessMemory_halted hd addr _ write).outcome
  | runProgBuf =>
    cases whenHalted_halted hd (f := fun t => .next t.startProgBuf) h
    exact State.StaysHalted.outcome ⟨hd, rfl, rfl, id⟩
  | quickAccess =>
    replace h : s.quickAccess = .next t := h
    unfold State.quickAccess at h
    rw [if_pos hd] at h
    cases h
  | writeProgBuf bytes =>
    replace h : s.fillProgBuf bytes = .next t := h
    unfold State.fillProgBuf at h
    split at h
    · cases h
    · cases h; exact State.StaysHalted.outcome ⟨hd, rfl, rfl, id⟩
  | delegateTrigger i b =>
    cases h
    exact (State.StaysHalted.of_same hd (by simp) (by simp) (by simp) (by simp) (by simp)).outcome
  | _ => cases h; exact State.StaysHalted.outcome ⟨hd, rfl, rfl, id⟩

/-- A step from Debug Mode that is no drive of `mdbgen`. -/
theorem step_halted {s t : State} (hd : s.inDebug = true) (he : ∀ b, s.inputs.head? ≠ some (.setMdbgen b))
    (h : step s = .next t) : HaltedOutcome s t := by
  have hinputs : ∀ l, s.StaysHalted { s with inputs := l } := fun _ => ⟨hd, rfl, rfl, id⟩
  rcases (step_cases h).2 with ⟨_, h⟩ | ⟨e, rest, hi, _, h⟩
  · obtain ⟨u, hu, ht⟩ := hartStep_halted (s := s.popInput) hd h
    exact ⟨u, (hinputs _).trans hu, ht⟩
  · have he' : ∀ b, e ≠ .setMdbgen b := by
      rintro b rfl
      exact he b (by rw [hi]; rfl)
    obtain ⟨u, hu, ht⟩ := act_halted (s := { s with inputs := rest }) hd he' h
    exact ⟨u, (hinputs _).trans hu, ht⟩

/-- A resume leaves the controls, so the debug access privilege. -/
theorem resume_dap {s t : State} (h : s.resume = .next t) : t.dap = s.dap := by
  obtain ⟨_, _, _, rfl⟩ := resume_cases h
  rfl

/-- Settles O47: up to a resume every update of the step keeps it, and the resume too. -/
theorem dapConstantInDebugMode : Obligations.DapConstantInDebugMode := by
  intro s t hd he h
  obtain ⟨u, hu, rfl | hr⟩ := step_halted hd he h
  · exact hu.dap
  · exact (resume_dap hr).trans hu.dap

/-! ### The resume -/

/-- Driving `mdbgen` neither enters nor leaves Debug Mode. -/
theorem driveMdbgen_inDebug {s t : State} {b : Bool} (h : s.driveMdbgen b = .next t) : t.inDebug = s.inDebug := by
  unfold State.driveMdbgen at h
  split at h
  · cases h
  · cases h; rfl

/-- A step that leaves Debug Mode ends with a resume. -/
theorem step_leaves_debug {s t : State} (hd : s.inDebug = true) (h : step s = .next t) (ht : t.inDebug = false) :
    ∃ u, s.StaysHalted u ∧ u.resume = .next t := by
  by_cases he : ∃ b, s.inputs.head? = some (.setMdbgen b)
  · obtain ⟨b, hb⟩ := he
    obtain ⟨rest, hi⟩ := List.head?_eq_some_iff.1 hb
    rw [step_act (step_cases h).1 hi] at h
    exact absurd (ht.symm.trans ((driveMdbgen_inDebug h).trans hd)) Bool.false_ne_true
  · obtain ⟨u, hu, rfl | hr⟩ := step_halted hd (not_exists.1 he) h
    · exact absurd (ht.symm.trans hu.inDebug) Bool.false_ne_true
    · exact ⟨u, hu, hr⟩

/-- A resume from a legal pair succeeds, and the mode it goes to lies within the debug access privilege (60 R241). -/
theorem State.resume_of_legal {s : State} (hd : s.inDebug = true) (hs : s.debugLegal) :
    ∃ mode, Mode.ofPair s.dbg.prv s.dbg.v = some mode ∧ supportedMode s.p mode = true ∧
      mode.lvl.rank ≤ s.dap.rank ∧
      s.resume = .next { s with
        cur := mode, pc := s.dbg.dpc, inDebug := false, stepArmed := s.dbg.step || s.stepArmed,
        dm := { s.dm with pbRun := false, quick := false } } := by
  obtain ⟨_, hleg⟩ := hs hd
  obtain ⟨mode, hpair, hmode, hlvl⟩ := legalPair_eq_true_iff.1 hleg
  refine ⟨mode, hpair, hmode, hlvl, ?_⟩
  simp [State.resume, hpair, hmode]

/-- Settles O48: the step ends in a resume from a legal pair, and a resume request is that resume at once. -/
theorem resumeBoundedByDap : Obligations.ResumeBoundedByDap := by
  intro s hs hd
  refine ⟨fun t h ht => ?_, fun hv hi => ?_⟩
  · obtain ⟨u, hu, hr⟩ := step_leaves_debug hd h ht
    obtain ⟨mode, hpair, hmode, hlvl, hr'⟩ := State.resume_of_legal hu.inDebug (hu.legal hs)
    rw [hr'] at hr
    cases hr
    exact ⟨hu.p ▸ hmode, hu.dap ▸ hlvl, rfl, hpair, fun hstep => Bool.or_eq_true_iff.2 (.inl hstep)⟩
  · obtain ⟨rest, hi⟩ := List.head?_eq_some_iff.1 hi
    obtain ⟨mode, hpair, _, _, hr⟩ := State.resume_of_legal (s := { s with inputs := rest }) hd hs
    have hstep : step s = State.resume { s with inputs := rest } := (step_act hv hi).trans (if_pos hd)
    refine ⟨_, hstep.trans hr, rfl, hpair, rfl, rfl, ?_⟩
    rw [State.popInput, hi]
    rfl

end Sys2Proof.Machine
end

section
/-! A pending halt request at a boundary outside Debug Mode (40 R102, 60 R236). -/

namespace Sys2Proof.Machine

/-! ### Where debug is allowed -/

/-- A pending request halts the hart at the boundary of a debug-allowed mode. -/
theorem runStep_of_request {s : State} {c : DebugCause} (ha : s.allowed = true) (hc : s.haltRequestCause = some c) :
    s.runStep = .next (s.enterDebug c).dropMatched := by
  simp [State.runStep, State.haltAtBoundary, ha, hc]

theorem hartStep_run {s : State} (hd : s.inDebug = false) : s.hartStep = s.beginStep.runStep := by
  simp [State.hartStep, hd]

/-! ### Where it is not -/

/-- No instruction serves a pending halt request: an EBREAK that enters Debug Mode has its own cause. -/
theorem ExecEffect.haltPending {s t : State} (h : ExecEffect s t) : t.haltPending = s.haltPending := by
  cases h <;> simp

/-- Before the step check of a boundary the request stays pending: it is not what an interrupt, a trigger or an
instruction serves. -/
theorem RunEffect.haltPending {s t : State} (h : RunEffect s t) : t.haltPending = s.haltPending := by
  cases h with
  | interrupt k => simp
  | triggerDebug => obtain ⟨_, he, _⟩ := s.enterByTrigger_eq anyTrigger; simp [he]
  | triggerBreak | fetchFault f => simp
  | instr i t h => simpa using (exec_next h).haltPending

/-- The step check enters with cause step, so it serves no request. -/
theorem State.stepCheck_haltPending (s : State) : s.stepCheck.haltPending = s.haltPending := by
  unfold State.stepCheck; split <;> simp

theorem runStep_haltPending {s t : State} (hd : s.inDebug = false) (ha : s.allowed = false)
    (h : s.runStep = .next t) : t.haltPending = s.haltPending := by
  rcases runStep_cases hd h with ⟨ha', _⟩ | ⟨_, u, hu, rfl⟩
  · exact absurd (ha.symm.trans ha') Bool.false_ne_true
  · rw [State.dropMatched_haltPending, State.stepCheck_haltPending, hu.haltPending]

/-- Settles O45: at the boundary of a debug-allowed mode the request is what halts the hart, and in another mode nothing a
step does serves it. -/
theorem haltRequestServedOrPending : Obligations.HaltRequestServedOrPending := by
  intro s t _ hturn hd hpend h
  have hrun : s.popInput.beginStep.runStep = .next t :=
    (hartStep_run (s := s.popInput) hd).symm.trans (step_hart_next hturn h)
  refine ⟨fun ha hreset hgroup => ?_, fun ha => ?_⟩
  · have hcause : s.popInput.beginStep.haltRequestCause = some .haltreq := by
      simp [State.haltRequestCause, hreset, hgroup, hpend]
    rw [runStep_of_request (s := s.popInput.beginStep) ha hcause] at hrun
    cases hrun
    exact ⟨rfl, rfl, State.enterDebug_cause _ _, State.enterDebug_prv _ _, State.enterDebug_v _ _, rfl, rfl, rfl, rfl⟩
  · exact (runStep_haltPending (s := s.popInput.beginStep) hd ha hrun).trans hpend

end Sys2Proof.Machine
end

section
/-! The debugger's commands: against a hart in a debug-disallowed mode (40 R107), in the Program Buffer (40 R106), and
the abstract commands beside the instructions they stand for (40 R103, R104). -/

namespace Sys2Proof.Machine

/-! ### Against a hart in a debug-disallowed mode -/

/-- What a command against a running hart can do in a debug-disallowed mode: report the implementation's error. -/
theorem commandOnRunning_disallowed {s t : State} (ha : s.allowed = false) (h : s.commandOnRunning = .next t) :
    ∃ v, s.p.cmderrNotAllowed = some v ∧ t = { s with dm := s.dm.setErr v } := by
  unfold State.commandOnRunning at h
  rw [ha] at h
  simp only [Bool.false_eq_true, if_false] at h
  split at h
  · cases h
  · rename_i v hv
    cases h
    exact ⟨v, hv, rfl⟩

theorem quickAccess_disallowed {s : State} (hd : s.inDebug = false) (ha : s.allowed = false) :
    s.quickAccess = s.commandOnRunning := by
  simp [State.quickAccess, hd, ha]

/-- Each of the four commands comes down to the answer a command gets against a running hart. -/
theorem act_command_disallowed {s : State} (hd : s.inDebug = false) (ha : s.allowed = false) {e : Event}
    (he : e = .quickAccess ∨ e = .runProgBuf ∨ (∃ r w, e = .accessRegister r w) ∨ ∃ a z w, e = .accessMemory a z w) :
    s.act e = s.commandOnRunning := by
  rcases he with rfl | rfl | ⟨r, w, rfl⟩ | ⟨a, z, w, rfl⟩
  · exact quickAccess_disallowed hd ha
  · exact if_pos hd
  · exact if_pos hd
  · exact if_pos hd

/-- Settles O55: the command is refused, or its one effect is the error in CMDERR. -/
theorem commandsFailWhileDisallowed : Obligations.CommandsFailWhileDisallowed := by
  intro s t e rest hd ha hi he h
  rw [step_act (step_cases h).1 hi, act_command_disallowed (s := { s with inputs := rest }) hd ha he] at h
  exact commandOnRunning_disallowed (s := { s with inputs := rest }) ha h

/-! ### The Program Buffer -/

/-- In Debug Mode, where no trigger fires, a running Program Buffer executes the instruction at its place. -/
theorem debugStep_of_instr {s : State} {i : Instr} {rest : List Byte} (hrun : s.dm.pbRun = true)
    (hfire : s.firing anyTrigger = []) (hdec : decode (s.dm.progBuf.drop s.dm.pbPc) = .ok (i, rest)) :
    s.debugStep = andThen (exec i s.dropMatched) State.finishQuick := by
  have hfetch : s.dropMatched.fetchProgBuf = .instr i := by
    simp [State.fetchProgBuf, fetchedOf, hdec]
  unfold State.debugStep
  dsimp only
  rw [hfire, State.fireTriggers_nil hfire, State.dropMatched_dm, hrun, hfetch]
  rfl

/-- Settles O5: neither the inputs nor what the last step showed is looked at by the triggers or the buffer. -/
theorem stepRunsProgramBuffer : Obligations.StepRunsProgramBuffer := by
  intro s i rest hv hturn hd hrun hfire hdec
  have hfire' : s.popInput.beginStep.firing anyTrigger = [] :=
    (State.firing_congr (s := s) (t := s.popInput.beginStep) rfl rfl rfl rfl rfl rfl anyTrigger).trans hfire
  rw [step_hart hv hturn]
  exact (if_pos hd).trans (debugStep_of_instr (s := s.popInput.beginStep) hrun hfire' hdec)

/-! ### Access Memory -/

theorem accessMemory_none {s : State} (h : s.debugDataPriv = none) (addr : Word) (n : Nat) (write : Option Word) :
    s.accessMemory addr n write = s.debugFail := by
  simp [State.accessMemory, h]

section
variable {s : State} {addr : Word} {n : Nat} {pair : BitVec 2 × Bool} (hp : s.debugDataPriv = some pair)
include hp

/-- A fault of the access is a quiet failure (20 R58). -/
theorem accessMemory_error {write : Option Word} {f : MemFault}
    (h : s.accessAddrs (if write = none then .load else .store) pair.1 pair.2 (s.p.toXlen addr) n = .error f) :
    s.accessMemory addr n write = s.debugFail := by
  cases write with
  | none => rw [if_pos rfl] at h; simp [State.accessMemory, State.memRead, hp, h]
  | some w => rw [if_neg (Option.some_ne_none w)] at h; simp [State.accessMemory, State.memWrite, hp, h]

/-- A read that goes through hands the value to the debugger. -/
theorem accessMemory_read_ok {ks : List Nat}
    (h : s.accessAddrs .load pair.1 pair.2 (s.p.toXlen addr) n = .ok ks) :
    s.accessMemory addr n none = s.setData (joinBytes (s.inOrder pair.1 pair.2 (ks.map s.mem.read))) := by
  simp [State.accessMemory, State.memRead, hp, h]

theorem accessMemory_write_ok {ks : List Nat} {w : Word}
    (h : s.accessAddrs .store pair.1 pair.2 (s.p.toXlen addr) n = .ok ks) :
    s.accessMemory addr n (some w) =
      { s with mem := s.mem.writeAll ks (s.inOrder pair.1 pair.2 (splitBytes n w)) } := by
  simp [State.accessMemory, State.memWrite, hp, h]

end

/-! ### Access Register beside the CSR instruction -/

theorem accessRegister_gpr {s : State} (h : s.dap ≠ .none) (r : RegNum) :
    s.accessRegister (.gpr r) none = s.setData (s.x r) ∧ ∀ v, s.accessRegister (.gpr r) (some v) = s.setX r v := by
  simp [State.accessRegister, h]

section
variable {s : State} {n : CsrNum}

theorem accessRegister_csr_read (hd : s.inDebug = true) {c : Csr} (h : s.csrCheck n false = .ok c) :
    s.accessRegister (.csr n) none = s.setData (s.csrRead c) := by
  rw [State.csrCheck, if_pos hd] at h
  simp [State.accessRegister, h]

theorem accessRegister_csr_write (hd : s.inDebug = true) {c : Csr} (h : s.csrCheck n true = .ok c) (v : Word) :
    s.accessRegister (.csr n) (some v) = s.csrWrite c v := by
  rw [State.csrCheck, if_pos hd] at h
  simp [State.accessRegister, h]

theorem accessRegister_csr_denied (hd : s.inDebug = true) {write : Option Word}
    (h : ∀ c, s.csrCheck n write.isSome ≠ .ok c) : s.accessRegister (.csr n) write = s.debugFail := by
  rw [State.csrCheck, if_pos hd] at h
  unfold State.accessRegister
  dsimp only
  split
  · exact absurd ‹_› (h _)
  · rfl

/-- CSRRS with rs1 = x0 only reads (41 R122). -/
theorem exec_csrrs_read {c : Csr} (h : s.csrCheck n false = .ok c) (rd : RegNum) :
    exec (.csrrs rd n 0) s = .next ((s.setX rd (s.csrRead c)).advance 4) := by
  simp [exec, execCsrrs, State.csrSet, State.csrFinish, h]

/-- CSRRW with rd = x0 only writes (41 R121). -/
theorem exec_csrrw_write {c : Csr} (h : s.csrCheck n true = .ok c) (rs1 : RegNum) :
    exec (.csrrw 0 n rs1) s = .next ((s.csrWrite c (s.x rs1)).advance 4) := by
  simp only [exec, execCsrrw, State.csrSwap, State.csrFinish, h, State.setX_zero]

end

/-- Settles O54: the commands case by case against the instructions, both over the same access check, and Access Memory
over the addresses of the access. -/
theorem accessRegisterAsCsrInstruction : Obligations.AccessRegisterAsCsrInstruction := by
  intro s n rd rs1 c v hd
  have hpriv : s.dataPriv = s.debugDataPriv := if_pos hd
  have hcheck : ∀ w, s.csrCheck n w = s.csrCheckDebug n w := fun _ => if_pos hd
  refine ⟨fun addr size write => ⟨fun h => accessMemory_none h addr _ write,
      fun _ _ hp hf => accessMemory_error hp hf, fun pair ks hp hk => ?memory⟩,
    ⟨hpriv, fun hm => hpriv.symm.trans (State.dataPriv_debug hd hm)⟩, fun hdap => ?gpr,
    fun h => ⟨accessRegister_csr_read hd h, exec_csrrs_read h rd⟩,
    fun h => ⟨accessRegister_csr_denied hd (write := none) h, ?readDenied⟩, fun h => ?write,
    fun h => ⟨accessRegister_csr_denied hd (write := some v) h, ?writeDenied⟩⟩
  case memory =>
    cases write with
    | none => exact accessMemory_read_ok hp hk
    | some w => exact accessMemory_write_ok hp hk
  case gpr =>
    obtain ⟨hread, hwrite⟩ := accessRegister_gpr hdap rd
    exact ⟨hread, hwrite v⟩
  case readDenied =>
    exact exec_csr_denied_debug (rd := rd) (x := 0) (by simp [csrForms]) hd fun d => hcheck _ ▸ h d
  case write => rw [accessRegister_csr_write hd h, exec_csrrw_write h]
  case writeDenied =>
    exact exec_csr_denied_debug (rd := 0) (x := rs1) (by simp [csrForms]) hd fun d => hcheck _ ▸ h d

end Sys2Proof.Machine
end

section
/-! `dcsr` in a debug-disallowed mode (40 R108). Whatever the hart does there it does from another `dcsr` too: each
operation after a change of `dcsr` is the change after the operation, up to the step check, which may enter Debug Mode. -/

namespace Sys2Proof.Machine

/-! ### What a change of `dcsr` leaves -/

theorem State.withDcsr_sameData (s : State) (w : BitVec 32) : s.SameData (s.withDcsr w) := ⟨rfl, rfl, rfl, rfl, rfl⟩

@[simp] theorem State.withDcsr_p (s : State) (w : BitVec 32) : (s.withDcsr w).p = s.p := rfl
@[simp] theorem State.withDcsr_cur (s : State) (w : BitVec 32) : (s.withDcsr w).cur = s.cur := rfl
@[simp] theorem State.withDcsr_inDebug (s : State) (w : BitVec 32) : (s.withDcsr w).inDebug = s.inDebug := rfl
@[simp] theorem State.withDcsr_csr (s : State) (w : BitVec 32) : (s.withDcsr w).csr = s.csr := rfl
@[simp] theorem State.withDcsr_selected (s : State) (w : BitVec 32) : (s.withDcsr w).selected = s.selected := rfl
@[simp] theorem State.withDcsr_maySelect (s : State) (w : BitVec 32) : (s.withDcsr w).maySelect = s.maySelect := rfl
@[simp] theorem State.withDcsr_mayWriteDmode (s : State) (w : BitVec 32) :
    (s.withDcsr w).mayWriteDmode = s.mayWriteDmode := rfl

/-! ### Traps and the shared operations -/

section
variable (s : State) (w : BitVec 32)

theorem State.trapTo_withDcsr (dest : Mode) (intr : Bool) (code : Nat) (tval : Word) :
    (s.withDcsr w).trapTo dest intr code tval = (s.trapTo dest intr code tval).withDcsr w := by
  cases dest <;> rfl

theorem State.setX_withDcsr (r : RegNum) (v : Word) : (s.withDcsr w).setX r v = (s.setX r v).withDcsr w := by
  unfold State.setX; split <;> rfl

theorem State.takeNmi_withDcsr : (s.withDcsr w).takeNmi = s.takeNmi.withDcsr w := by
  unfold State.takeNmi
  rw [State.trapTo_withDcsr, State.withDcsr_p]
  split <;> rfl

theorem State.takeInterrupt_withDcsr (k : Taken) : (s.withDcsr w).takeInterrupt k = (s.takeInterrupt k).withDcsr w := by
  cases k with
  | nmi => exact s.takeNmi_withDcsr w
  | interrupt code => exact s.trapTo_withDcsr w _ _ _ _

end

section
variable {s : State} (hd : s.inDebug = false) (w : BitVec 32)
include hd

theorem State.advance_withDcsr (n : Nat) : (s.withDcsr w).advance n = (s.advance n).withDcsr w := by
  rw [State.advance_run hd, State.advance_run (s := s.withDcsr w) hd]
  rfl

theorem State.takeException_withDcsr (e : Exc) :
    (s.withDcsr w).takeException e = (s.takeException e).withDcsr w := by
  rw [State.takeException_run hd, State.takeException_run (s := s.withDcsr w) hd, ← State.trapTo_withDcsr]
  rfl

theorem State.ifPresent_withDcsr (i : Instr) {f : State → State} (hf : f (s.withDcsr w) = (f s).withDcsr w) :
    (s.withDcsr w).ifPresent i f = (s.ifPresent i f).withDcsr w := by
  cases hw : i.wellFormed s.p
  · rw [State.ifPresent_false hw, State.ifPresent_false (s := s.withDcsr w) hw, State.takeException_withDcsr hd]
  · rw [State.ifPresent_true hw, State.ifPresent_true (s := s.withDcsr w) hw, hf]

/-! ### Loads and stores -/

theorem State.loadWith_withDcsr (acc : Access) (pair : BitVec 2 × Bool) (addr : Word) (n : Nat) (signed : Bool)
    (rd : RegNum) :
    (s.withDcsr w).loadWith acc pair addr n signed rd = (s.loadWith acc pair addr n signed rd).withDcsr w := by
  have ha := (s.withDcsr_sameData w).accessAddrs acc pair.1 pair.2 addr n
  cases hs : s.accessAddrs acc pair.1 pair.2 addr n with
  | error f => rw [State.loadWith_error hs, State.loadWith_error (ha.trans hs), State.takeException_withDcsr hd]
  | ok ks =>
    rw [State.loadWith_ok hs, State.loadWith_ok (ha.trans hs),
      ← State.advance_withDcsr ((State.setX_inDebug s rd _).trans hd), ← State.setX_withDcsr]
    rfl

theorem State.storeWith_withDcsr (pair : BitVec 2 × Bool) (addr : Word) (n : Nat) (v : Word) :
    (s.withDcsr w).storeWith pair addr n v = (s.storeWith pair addr n v).withDcsr w := by
  have ha := (s.withDcsr_sameData w).accessAddrs .store pair.1 pair.2 addr n
  cases hs : s.accessAddrs .store pair.1 pair.2 addr n with
  | error f => rw [State.storeWith_error hs, State.storeWith_error (ha.trans hs), State.takeException_withDcsr hd]
  | ok ks =>
    rw [State.storeWith_ok hs, State.storeWith_ok (ha.trans hs)]
    exact State.advance_withDcsr (s := { s with mem := s.mem.writeAll ks _ }) hd w 4

theorem State.dataPriv_run : s.dataPriv = some s.runDataPriv := by
  simp [State.dataPriv, hd]

theorem State.loadOp_withDcsr (rd rs1 : RegNum) (imm : Imm12) (n : Nat) (signed : Bool) :
    (s.withDcsr w).loadOp rd rs1 imm n signed = (s.loadOp rd rs1 imm n signed).withDcsr w := by
  rw [State.loadOp_some (State.dataPriv_run hd), State.loadOp_some (State.dataPriv_run (s := s.withDcsr w) hd),
    ← State.loadWith_withDcsr hd]
  rfl

theorem State.storeOp_withDcsr (rs2 rs1 : RegNum) (imm : Imm12) (n : Nat) :
    (s.withDcsr w).storeOp rs2 rs1 imm n = (s.storeOp rs2 rs1 imm n).withDcsr w := by
  rw [State.storeOp_some (State.dataPriv_run hd), State.storeOp_some (State.dataPriv_run (s := s.withDcsr w) hd),
    ← State.storeWith_withDcsr hd]
  rfl

/-- Outside Debug Mode the mode permits the hypervisor loads and stores, not the V of `dcsr`. -/
theorem State.hlvPermitted_withDcsr : (s.withDcsr w).hlvPermitted = s.hlvPermitted := by
  simp [State.hlvPermitted, State.withDcsr, hd]

theorem State.hlvOp_withDcsr (i : Instr) (acc : Access) (rd rs1 : RegNum) (n : Nat) (signed : Bool) :
    (s.withDcsr w).hlvOp i acc rd rs1 n signed = (s.hlvOp i acc rd rs1 n signed).withDcsr w := by
  unfold State.hlvOp
  rw [State.hlvPermitted_withDcsr hd]
  split
  · exact State.loadWith_withDcsr hd ..
  · exact State.takeException_withDcsr hd ..

theorem State.hsvOp_withDcsr (i : Instr) (rs2 rs1 : RegNum) (n : Nat) :
    (s.withDcsr w).hsvOp i rs2 rs1 n = (s.hsvOp i rs2 rs1 n).withDcsr w := by
  unfold State.hsvOp
  rw [State.hlvPermitted_withDcsr hd]
  split
  · exact State.storeWith_withDcsr hd ..
  · exact State.takeException_withDcsr hd ..

end

/-! ### CSR instructions -/

@[simp] theorem Csr.vsCopy_debugOnly (c : Csr) : c.vsCopy.debugOnly = c.debugOnly := by cases c <;> rfl

/-- Outside Debug Mode an access never goes to a debug register (41 R144). -/
theorem State.csrCheck_run_debugOnly {s : State} (hd : s.inDebug = false) {n : CsrNum} {b : Bool} {c : Csr}
    (h : s.csrCheck n b = .ok c) : c.debugOnly = false := by
  obtain ⟨d, hl, hc⟩ := State.csrCheck_named h
  have hdc : d.debugOnly = c.debugOnly := by rcases hc with rfl | rfl <;> simp
  by_contra hne
  have hdebug : d.debugOnly = true := by simpa [hdc] using hne
  have hill : s.csrCheck n b = .illegal := by
    rw [State.csrCheck, hd]
    exact State.csrCheckRun_debugOnly (csrLookup_eq_some.1 hl).1 hdebug b
  exact absurd (hill.symm.trans h) (by simp)

theorem State.csrRead_withDcsr (s : State) (w : BitVec 32) {c : Csr} (hc : c.debugOnly = false) :
    (s.withDcsr w).csrRead c = s.csrRead c := by
  cases c with
  | dcsr | dpc | dscratch0 | dscratch1 | sdcsr | sdpc | udcsr | udpc => cases hc
  | _ => rfl

theorem State.writeTselect_withDcsr (s : State) (w : BitVec 32) (v : Word) :
    (s.withDcsr w).writeTselect v = (s.writeTselect v).withDcsr w := by
  unfold State.writeTselect
  rw [State.withDcsr_maySelect]
  split <;> rfl

theorem State.writeTdata1_withDcsr (s : State) (w : BitVec 32) (v : Word) :
    (s.withDcsr w).writeTdata1 v = (s.writeTdata1 v).withDcsr w := by
  unfold State.writeTdata1
  rw [State.withDcsr_selected, State.withDcsr_mayWriteDmode, State.withDcsr_p]
  split
  · rfl
  · split
    · rfl
    · split <;> rfl

theorem State.writeTdata2_withDcsr (s : State) (w : BitVec 32) (v : Word) :
    (s.withDcsr w).writeTdata2 v = (s.writeTdata2 v).withDcsr w := by
  unfold State.writeTdata2
  rw [State.withDcsr_selected, State.withDcsr_mayWriteDmode, State.withDcsr_p]
  split
  · rfl
  · split <;> rfl

theorem State.csrWrite_withDcsr (s : State) (w : BitVec 32) {c : Csr} (hc : c.debugOnly = false) (v : Word) :
    (s.withDcsr w).csrWrite c v = (s.csrWrite c v).withDcsr w := by
  cases c with
  | dcsr | dpc | dscratch0 | dscratch1 | sdcsr | sdpc | udcsr | udpc => cases hc
  | tselect => exact s.writeTselect_withDcsr w _
  | tdata1 => exact s.writeTdata1_withDcsr w _
  | tdata2 => exact s.writeTdata2_withDcsr w _
  | _ => rfl

section
variable {s : State} (hd : s.inDebug = false) (w : BitVec 32)
include hd

theorem State.csrCheck_withDcsr (n : CsrNum) (b : Bool) : (s.withDcsr w).csrCheck n b = s.csrCheck n b := by
  unfold State.csrCheck
  rw [State.withDcsr_inDebug, hd]
  rfl

theorem State.csrFinish_withDcsr {c : Csr} (hc : c.debugOnly = false) (rd : RegNum) (new : Option Word) :
    (s.withDcsr w).csrFinish c rd new = (s.csrFinish c rd new).withDcsr w := by
  unfold State.csrFinish
  rw [State.csrRead_withDcsr s w hc]
  cases new with
  | none =>
    dsimp only
    rw [State.setX_withDcsr, State.advance_withDcsr ((State.setX_inDebug _ _ _).trans hd)]
  | some v =>
    dsimp only
    rw [State.csrWrite_withDcsr s w hc, State.setX_withDcsr, State.advance_withDcsr (by simpa using hd)]

theorem State.csrSwap_withDcsr (i : Instr) (rd : RegNum) (n : CsrNum) (v : Word) :
    (s.withDcsr w).csrSwap i rd n v = (s.csrSwap i rd n v).withDcsr w := by
  unfold State.csrSwap
  rw [State.csrCheck_withDcsr hd]
  split
  · exact State.csrFinish_withDcsr hd w (State.csrCheck_run_debugOnly hd ‹_›) ..
  · exact State.takeException_withDcsr hd ..

theorem State.csrSet_withDcsr (i : Instr) (rd : RegNum) (n : CsrNum) (v : Word) (b : Bool) :
    (s.withDcsr w).csrSet i rd n v b = (s.csrSet i rd n v b).withDcsr w := by
  unfold State.csrSet
  rw [State.csrCheck_withDcsr hd]
  split
  · have hc := State.csrCheck_run_debugOnly hd ‹_›
    rw [State.csrRead_withDcsr s w hc, State.csrFinish_withDcsr hd w hc]
  · exact State.takeException_withDcsr hd ..

theorem State.csrClear_withDcsr (i : Instr) (rd : RegNum) (n : CsrNum) (v : Word) (b : Bool) :
    (s.withDcsr w).csrClear i rd n v b = (s.csrClear i rd n v b).withDcsr w := by
  unfold State.csrClear
  rw [State.csrCheck_withDcsr hd]
  split
  · have hc := State.csrCheck_run_debugOnly hd ‹_›
    rw [State.csrRead_withDcsr s w hc, State.csrFinish_withDcsr hd w hc]
  · exact State.takeException_withDcsr hd ..

/-! ### EBREAK and the returns -/

/-- Outside Debug Mode only the second of two behaviours counts. -/
theorem State.ifDebug_withDcsr {debug debug' run run' : State} (h : run' = run.withDcsr w) :
    (if (s.withDcsr w).inDebug then debug' else run') = (if s.inDebug then debug else run).withDcsr w := by
  simp [hd, h]

/-- A return that is illegal below M-mode. -/
theorem State.ifMachine_withDcsr (e : Exc) {ret ret' : State} (h : ret' = ret.withDcsr w) :
    (if (s.withDcsr w).cur = .m then ret' else (s.withDcsr w).takeException e) =
      (if s.cur = .m then ret else s.takeException e).withDcsr w := by
  rw [State.withDcsr_cur]
  split
  · exact h
  · exact State.takeException_withDcsr hd w e

theorem State.sretRun_withDcsr : (s.withDcsr w).sretRun = s.sretRun.withDcsr w := by
  have hexc := State.takeException_withDcsr hd w
  unfold State.sretRun
  rw [State.withDcsr_cur, State.withDcsr_csr]
  split
  · rfl
  · split
    · exact hexc _
    · rfl
  · split
    · exact hexc _
    · rfl
  · exact hexc _
  · exact hexc _

/-- Without debug allowed EBREAK is a breakpoint exception whatever the EBREAK bits say (42 R161). -/
theorem State.ebreakOp_disallowed (ha : s.allowed = false) : s.ebreakOp = s.takeException .breakpoint := by
  simp [State.ebreakOp, hd, ha]

theorem State.ebreakOp_withDcsr (ha : s.allowed = false) : (s.withDcsr w).ebreakOp = s.ebreakOp.withDcsr w := by
  rw [State.ebreakOp_disallowed hd ha, State.ebreakOp_disallowed (s := s.withDcsr w) hd ha,
    State.takeException_withDcsr hd]

/-! ### Every instruction -/

/-- An instruction in a debug-disallowed mode neither reads nor writes `dcsr`. -/
theorem exec_withDcsr (ha : s.allowed = false) (i : Instr) :
    exec i (s.withDcsr w) = onNext (exec i s) fun t => t.withDcsr w := by
  have hexc := State.takeException_withDcsr hd w
  have next : ∀ {t u : State}, u = t.withDcsr w →
      (Host.Outcome.next u : Host.Outcome State Fault Refusal) = onNext (.next t) fun t => t.withDcsr w :=
    congrArg Host.Outcome.next
  have present : ∀ {f : State → State}, f (s.withDcsr w) = (f s).withDcsr w →
      (Host.Outcome.next ((s.withDcsr w).ifPresent i f) : Host.Outcome State Fault Refusal) =
        onNext (.next (s.ifPresent i f)) fun t => t.withDcsr w :=
    fun hf => next (State.ifPresent_withDcsr hd w i hf)
  cases i with
  | csrrw rd n x | csrrwi rd n x => exact next (State.csrSwap_withDcsr hd w ..)
  | csrrs rd n x | csrrsi rd n x => exact next (State.csrSet_withDcsr hd w ..)
  | csrrc rd n x | csrrci rd n x => exact next (State.csrClear_withDcsr hd w ..)
  | ebreak => exact next (State.ebreakOp_withDcsr hd w ha)
  | cebreak => exact present (State.ebreakOp_withDcsr hd w ha)
  | ecall => exact next (State.ifDebug_withDcsr hd w (hexc .envCall))
  | mret => exact next (State.ifDebug_withDcsr hd w (State.ifMachine_withDcsr hd w _ rfl))
  | sret => exact present (State.ifDebug_withDcsr hd w (State.sretRun_withDcsr hd w))
  | mnret => exact present (State.ifDebug_withDcsr hd w (State.ifMachine_withDcsr hd w _ rfl))
  | lb rd rs1 imm | lh rd rs1 imm | lw rd rs1 imm | lbu rd rs1 imm | lhu rd rs1 imm =>
    exact next (State.loadOp_withDcsr hd w ..)
  | lwu rd rs1 imm | ld rd rs1 imm => exact present (State.loadOp_withDcsr hd w ..)
  | sb rs2 rs1 imm | sh rs2 rs1 imm | sw rs2 rs1 imm => exact next (State.storeOp_withDcsr hd w ..)
  | sd rs2 rs1 imm => exact present (State.storeOp_withDcsr hd w ..)
  | hlvb rd rs1 | hlvbu rd rs1 | hlvh rd rs1 | hlvhu rd rs1 | hlvxhu rd rs1 | hlvw rd rs1 | hlvxwu rd rs1
  | hlvwu rd rs1 | hlvd rd rs1 => exact present (State.hlvOp_withDcsr hd w ..)
  | hsvb rs2 rs1 | hsvh rs2 rs1 | hsvw rs2 rs1 | hsvd rs2 rs1 => exact present (State.hsvOp_withDcsr hd w ..)

end

/-! ### Triggers and the fetch -/

section
variable (s : State) (w : BitVec 32)

theorem State.markHits_withDcsr (sel : Trigger → Bool) (k : Nat) (ts : List Trigger) :
    (s.withDcsr w).markHits sel k ts = s.markHits sel k ts := by
  induction ts generalizing k with
  | nil => rfl
  | cons t ts ih =>
    unfold State.markHits
    rw [ih]
    rfl

theorem State.firing_withDcsr (sel : Trigger → Bool) : (s.withDcsr w).firing sel = s.firing sel :=
  State.firing_congr (s := s) (t := s.withDcsr w) rfl rfl rfl rfl rfl rfl sel

theorem State.fireTriggers_withDcsr (sel : Trigger → Bool) :
    (s.withDcsr w).fireTriggers sel = (s.fireTriggers sel).withDcsr w := by
  unfold State.fireTriggers
  rw [State.markHits_withDcsr, State.firing_withDcsr]
  rfl

theorem State.fetch_withDcsr : (s.withDcsr w).fetch = s.fetch := by
  have h : ∀ va n, (s.withDcsr w).fetchBytes va n = s.fetchBytes va n := State.fetchBytes_congr rfl rfl rfl rfl rfl
  simp only [State.fetch, h]
  rfl

end

/-! ### A boundary in a debug-disallowed mode -/

section
variable {s : State} (hd : s.inDebug = false) (ha : s.allowed = false) (w : BitVec 32)

section
include ha

/-- STEPIE counts in a debug-allowed mode only (60 R246). -/
theorem State.stepMasks_disallowed (dest : Mode) : s.stepMasks dest = false := by
  simp [State.stepMasks, ha]

theorem State.interruptReady_withDcsr (code : Nat) : (s.withDcsr w).interruptReady code = s.interruptReady code := by
  unfold State.interruptReady
  rw [State.stepMasks_disallowed ha, State.stepMasks_disallowed (s := s.withDcsr w) ha]
  rfl

theorem State.firstReady_withDcsr (dest : Mode) : (s.withDcsr w).firstReady dest = s.firstReady dest := by
  unfold State.firstReady
  simp only [State.interruptReady_withDcsr ha]
  rfl

theorem State.pickInterrupt_withDcsr : (s.withDcsr w).pickInterrupt = s.pickInterrupt := by
  unfold State.pickInterrupt State.nmiReady
  rw [State.stepMasks_disallowed ha, State.stepMasks_disallowed (s := s.withDcsr w) ha]
  simp only [State.firstReady_withDcsr ha]
  rfl

theorem haltAtBoundary_disallowed : s.haltAtBoundary = none := by
  simp [State.haltAtBoundary, ha]

end

include hd ha

theorem runInstr_withDcsr : (s.withDcsr w).runInstr = onNext s.runInstr fun t => t.withDcsr w := by
  unfold State.runInstr
  rw [State.fetch_withDcsr]
  split
  · exact congrArg Host.Outcome.next (State.takeException_withDcsr hd w _)
  · rfl
  · exact exec_withDcsr (s := s.traceStart) hd w ha _

/-- No trigger that enters Debug Mode fires (44 R220). -/
theorem triggersThenInstr_disallowed :
    s.triggersThenInstr =
      if (s.firing anyTrigger).any (breakTrigger s.p) then .next ((s.fireTriggers anyTrigger).takeException .breakpoint)
      else (s.fireTriggers anyTrigger).runInstr := by
  have hno : (s.firing anyTrigger).any (debugTrigger s.p) = false :=
    Bool.eq_false_iff.2 fun h => Bool.false_ne_true (ha.symm.trans (State.firing_debug hd h))
  simp [State.triggersThenInstr, hno]

theorem triggersThenInstr_withDcsr :
    (s.withDcsr w).triggersThenInstr = onNext s.triggersThenInstr fun t => t.withDcsr w := by
  rw [triggersThenInstr_disallowed hd ha, triggersThenInstr_disallowed (s := s.withDcsr w) hd ha,
    State.firing_withDcsr, State.fireTriggers_withDcsr, State.withDcsr_p]
  split
  · exact congrArg Host.Outcome.next (State.takeException_withDcsr (s := s.fireTriggers anyTrigger) hd w _)
  · exact runInstr_withDcsr (s := s.fireTriggers anyTrigger) hd ((s.fireTriggers_allowed _).trans ha) w

theorem interruptOrInstr_withDcsr :
    (s.withDcsr w).interruptOrInstr = onNext s.interruptOrInstr fun t => t.withDcsr w := by
  have hfirst : ∀ k, (s.withDcsr w).triggerGoesFirst k = s.triggerGoesFirst k := fun k => by
    unfold State.triggerGoesFirst
    rw [State.firing_withDcsr]
    rfl
  unfold State.interruptOrInstr
  rw [State.pickInterrupt_withDcsr ha]
  split
  · rw [hfirst]
    split
    · exact triggersThenInstr_withDcsr hd ha w
    · exact congrArg Host.Outcome.next (s.takeInterrupt_withDcsr w _)
  · exact triggersThenInstr_withDcsr hd ha w

omit hd ha

/-- The step check, in whatever mode the hart now is: if it enters Debug Mode it writes `dcsr`, over either value, and
nothing else depends on it. -/
theorem State.stepCheck_withDcsr (s : State) :
    ∃ d, (s.withDcsr w).stepCheck = s.stepCheck.withDcsr d ∧ (s.stepCheck.inDebug = false → d = w) := by
  by_cases h : (!s.inDebug && s.stepArmed && s.allowed) = true
  · have hs : s.stepCheck = s.enterDebug .step := if_pos h
    have hw : (s.withDcsr w).stepCheck = (s.withDcsr w).enterDebug .step := if_pos h
    exact ⟨((s.withDcsr w).enterDebug .step).dbg.dcsr, by rw [hs, hw]; rfl,
      fun hd => absurd ((congrArg State.inDebug hs).symm.trans hd) (by simp)⟩
  · have hs : s.stepCheck = s := if_neg h
    have hw : (s.withDcsr w).stepCheck = s.withDcsr w := if_neg h
    exact ⟨w, by rw [hs, hw], fun _ => rfl⟩

include hd ha

/-- Two runs of a boundary in a debug-disallowed mode differ in `dcsr` only, which keeps its value in each unless the step
check enters Debug Mode. -/
theorem runStep_withDcsr {t : State} (h : s.runStep = .next t) :
    ∃ d, (s.withDcsr w).runStep = .next (t.withDcsr d) ∧ (t.inDebug = false → d = w) := by
  unfold State.runStep at h ⊢
  rw [haltAtBoundary_disallowed ha] at h
  rw [haltAtBoundary_disallowed (s := s.withDcsr w) ha, interruptOrInstr_withDcsr hd ha]
  obtain ⟨u, hu, ht⟩ := andThen_eq_next h
  cases ht
  obtain ⟨d, hcheck, hdw⟩ := u.stepCheck_withDcsr w
  refine ⟨d, ?_, hdw⟩
  rw [hu]
  exact congrArg (fun v => Host.Outcome.next v.dropMatched) hcheck

end

/-- With the old value put back a step in a debug-disallowed mode is the same step, so `dcsr` is what it was. -/
theorem runStep_dcsr_disallowed {s t : State} (hd : s.inDebug = false) (ha : s.allowed = false)
    (h : s.runStep = .next t) (ht : t.inDebug = false) : t.dbg.dcsr = s.dbg.dcsr := by
  obtain ⟨d, hrun, hdw⟩ := runStep_withDcsr hd ha s.dbg.dcsr h
  have hself : t = t.withDcsr d := Host.Outcome.next.inj (h.symm.trans hrun)
  rw [hself]
  exact hdw ht

/-- Settles O12: `dcsr` passes through the one boundary that a step of the hart is. -/
theorem dcsrIgnoredWhereDisallowed : Obligations.DcsrIgnoredWhereDisallowed := by
  intro s t w hturn hd ha h
  have hrun : s.popInput.beginStep.runStep = .next t :=
    (hartStep_run (s := s.popInput) hd).symm.trans (step_hart_next hturn h)
  refine ⟨runStep_dcsr_disallowed (s := s.popInput.beginStep) hd ha hrun, ?_⟩
  obtain ⟨d, hrun', hdw⟩ := runStep_withDcsr (s := s.popInput.beginStep) hd ha w hrun
  have hstep : step (s.withDcsr w) = .next (t.withDcsr d) :=
    (step_hart (s := s.withDcsr w) (step_cases h).1 hturn).trans
      ((hartStep_run (s := (s.withDcsr w).popInput) hd).trans hrun')
  exact ⟨t.withDcsr d, hstep, rfl, hdw⟩

end Sys2Proof.Machine
end

section
/-! The six CSR instructions (41 R120 to R126): what one does whose access passes the check, and what one does whose access
is denied, in Debug Mode and on a debug register outside it. -/

namespace Sys2Proof.Machine

/-! ### What a write touches -/

theorem onlyHome_refl (s : State) (c : Csr) : onlyHome s s c := by cases c <;> rfl

/-- Each register's write stays in the storage the register shows (10 R20 to R24, 41 R143). -/
theorem State.csrWrite_onlyHome (s : State) (c : Csr) (v : Word) : onlyHome s (s.csrWrite c v) c := by
  cases c with
  | sdcsr => simp only [onlyHome, State.csrWrite, State.writeSdcsr]; split <;> rfl
  | tselect => simp only [onlyHome, State.csrWrite, State.writeTselect]; split <;> rfl
  | tdata1 =>
    simp only [onlyHome, State.csrWrite, State.writeTdata1]
    split
    · rfl
    · split
      · rfl
      · split <;> rfl
  | tdata2 =>
    simp only [onlyHome, State.csrWrite, State.writeTdata2]
    split
    · rfl
    · split <;> rfl
  | _ => rfl

/-! ### Accesses that pass the check -/

/-- The end of a CSR instruction, `u` being the state with its write done or, where it only reads, the state it began in:
the old value goes to `rd` and the pc moves on. -/
theorem csr_finished {s u t : State} {c : Csr} {rd : RegNum} (hu : u = s ∨ ∃ v, u = s.csrWrite c v)
    (ht : t = (u.setX rd (s.csrRead c)).advance 4) :
    t.x rd = (if rd = 0 then 0 else s.csrRead c) ∧ regsBut s t rd ∧ memSame s t ∧ movedPast s t 4 ∧ onlyHome s u c ∧
      t = { u with regs := t.regs, pc := t.pc, dm := { s.dm with pbPc := t.dm.pbPc } } := by
  obtain ⟨hp, hregs, hpc, hd, hdm, hmem⟩ : u.p = s.p ∧ u.regs = s.regs ∧ u.pc = s.pc ∧ u.inDebug = s.inDebug ∧
      u.dm = s.dm ∧ u.mem = s.mem := by
    rcases hu with rfl | ⟨v, rfl⟩ <;> simp
  subst ht
  refine ⟨?_, fun r hr => ?_, fun a => ?_, State.advance_movedPast 4 ?_ ?_ ?_ ?_, ?_, ?_⟩
  · rw [State.advance_x, State.setX_x_same, hp, State.csrRead_toXlen]
  · rw [State.advance_x, State.setX_x_other _ _ hr, State.x_of_regs hregs]
  · rw [State.advance_mem, State.setX_mem, hmem]
  · rw [State.setX_p, hp]
  · rw [State.setX_inDebug, hd]
  · rw [State.setX_pc, hpc]
  · rw [State.setX_dm, hdm]
  · rcases hu with rfl | ⟨v, rfl⟩
    · exact onlyHome_refl u c
    · exact s.csrWrite_onlyHome c v
  · rw [← hdm, State.advance_eq, State.setX_eq]

section
variable {s : State} {rd : RegNum} {n : CsrNum} {x : BitVec 5} {c : Csr} {i : Instr} {v : Word}

theorem exec_csr_swap (h : s.csrCheck n true = .ok c)
    (hi : (i, v) ∈ [(Instr.csrrw rd n x, s.x x), (.csrrwi rd n x, x.setWidth 64)]) :
    exec i s = .next (((s.csrWrite c v).setX rd (s.csrRead c)).advance 4) := by
  simp only [List.mem_cons, Prod.mk.injEq, List.not_mem_nil, or_false] at hi
  rcases hi with ⟨rfl, rfl⟩ | ⟨rfl, rfl⟩ <;>
    simp [exec, execCsrrw, execCsrrwi, State.csrSwap, State.csrFinish, csrImm, h]

theorem csrFinish_ifWrites (s : State) (c : Csr) (rd : RegNum) (x : BitVec 5) (v : Word) :
    s.csrFinish c rd (if x != 0 then some v else none) =
      ((if x = 0 then s else s.csrWrite c v).setX rd (s.csrRead c)).advance 4 := by
  by_cases hx : x = 0
  · subst hx
    rfl
  · rw [if_pos (bne_iff_ne.2 hx), if_neg hx]
    rfl

/-- With register number or immediate 0 the four set and clear forms only read (41 R122, R123, R125, R126). -/
theorem exec_csr_set_clear (h : s.csrCheck n (x != 0) = .ok c)
    (hi : (i, v) ∈ [(Instr.csrrs rd n x, s.csrRead c ||| s.x x), (.csrrc rd n x, s.csrRead c &&& ~~~(s.x x)),
      (.csrrsi rd n x, s.csrRead c ||| x.setWidth 64), (.csrrci rd n x, s.csrRead c &&& ~~~(x.setWidth 64))]) :
    exec i s = .next (((if x = 0 then s else s.csrWrite c v).setX rd (s.csrRead c)).advance 4) := by
  rw [← csrFinish_ifWrites]
  simp only [List.mem_cons, Prod.mk.injEq, List.not_mem_nil, or_false] at hi
  rcases hi with ⟨rfl, rfl⟩ | ⟨rfl, rfl⟩ | ⟨rfl, rfl⟩ | ⟨rfl, rfl⟩ <;>
    simp only [exec, execCsrrs, execCsrrc, execCsrrsi, execCsrrci, State.csrSet, State.csrClear, csrImm, h]

end

/-- Settles O13: the write is done, and the instruction ends as every CSR instruction does. -/
theorem csrSwapCompletes : Obligations.CsrSwapCompletes := by
  intro s rd n x c i v h hi
  exact ⟨_, exec_csr_swap h hi, csr_finished (.inr ⟨v, rfl⟩) rfl⟩

/-- Settles O14: the two cases of `x` are the two ways an access may end. -/
theorem csrSetClearCompletes : Obligations.CsrSetClearCompletes := by
  intro s rd n x c i v h hi
  refine ⟨_, _, exec_csr_set_clear h hi, rfl, csr_finished ?_ rfl⟩
  split
  · exact .inl rfl
  · exact .inr ⟨v, rfl⟩

/-! ### Accesses that are denied -/

/-- Each reason of a denial in Debug Mode, whether the access writes or not (41 R120). -/
theorem State.csrCheck_debug_denied {s : State} (hd : s.inDebug = true) {n : CsrNum}
    (h : csrLookup s.p n = none ∨ ∃ c, csrLookup s.p n = some c ∧
      (s.dap.rank < (s.requiredLevel c).rank ∨ s.debugAccessible c = false)) (w : Bool) (c : Csr) :
    s.csrCheck n w ≠ .ok c := by
  intro hok
  rw [State.csrCheck, if_pos hd, State.csrCheckDebug_ok] at hok
  obtain ⟨d, hl, hlevel, hacc, -⟩ := hok
  rcases h with hnone | ⟨e, he, hreason⟩
  · simp [hnone] at hl
  · obtain rfl : d = e := Option.some.inj (hl.symm.trans he)
    rcases hreason with hlow | hno
    · omega
    · simp [hno] at hacc

/-- In Debug Mode an access that is always denied fails from an instruction and from the debugger's command alike
(40 R103, 41 R120). -/
theorem debug_access_fails {s : State} (hd : s.inDebug = true) {n : CsrNum} (h : ∀ w c, s.csrCheck n w ≠ .ok c)
    (rd : RegNum) (x : BitVec 5) :
    (∀ i ∈ csrForms rd n x, exec i s = .next s.debugFail) ∧
      ∀ write, s.accessRegister (.csr n) write = s.debugFail := by
  refine ⟨fun i hi => exec_csr_denied_debug hi hd fun c => ?_, fun write => accessRegister_csr_denied hd (h _)⟩
  simpa [State.csrCheck, hd] using h (writesCsr i) c

/-- Settles O15: the check denies for each of the reasons, whatever the form. -/
theorem csrDeniedInDebugMode : Obligations.CsrDeniedInDebugMode := by
  intro s rd n x i hd hi h
  exact (debug_access_fails hd (State.csrCheck_debug_denied hd h) rd x).1 i hi

/-- A CSR instruction whose number the check answers as illegal takes the illegal-instruction exception. -/
theorem exec_csr_illegal {s : State} {rd : RegNum} {n : CsrNum} {x : BitVec 5} {i : Instr} (hi : i ∈ csrForms rd n x)
    (h : ∀ w, s.csrCheck n w = .illegal) : exec i s = .next (s.takeException (.illegal (encodeWord i))) := by
  rw [exec_csr_denied hi (by simp [h]), h]
  rfl

/-- Outside Debug Mode no access reaches a debug register (41 R144). -/
theorem State.csrCheck_run_illegal {s : State} (hd : s.inDebug = false) {n : CsrNum} {c : Csr}
    (hn : csrNamed s.p n = some c) (hc : c.debugOnly = true) (w : Bool) : s.csrCheck n w = .illegal := by
  rw [State.csrCheck, hd]
  exact State.csrCheckRun_debugOnly hn hc w

/-- Settles O17: the check does not look at the mode. -/
theorem debugRegistersIllegalOutside : Obligations.DebugRegistersIllegalOutside := by
  intro s rd n x c i hd hn hc hi
  rw [exec_csr_illegal hi (State.csrCheck_run_illegal hd hn hc), State.takeException_run hd]
  rfl

end Sys2Proof.Machine
end

section
/-! Who reaches which debug register: `dcsr`, `dpc` and the scratch registers (41 R129, R130), the views of `dcsr` and `dpc`
(41 R131, R136, R137, R140), and `msdcfg` (41 R141). -/

namespace Sys2Proof.Machine

/-! ### The check at a number that is known to name a register -/

/-- In Debug Mode the check at a number that names a register without a VS copy: the register is implemented, its level is
within the debug access privilege, and its own rule holds (41 R120). -/
theorem State.csrCheck_debug_named {s : State} (hd : s.inDebug = true) {n : CsrNum} {c : Csr}
    (hn : csrNamed s.p n = some c) (hro : csrReadOnly s.p n = false) (hcopy : c.vsCopy = c) (w : Bool) :
    s.csrCheck n w = .ok c ↔
      csrImplemented s.p c = true ∧ (s.requiredLevel c).rank ≤ s.dap.rank ∧ s.debugAccessible c = true := by
  rw [State.csrCheck, if_pos hd, State.csrCheckDebug_ok]
  constructor
  · rintro ⟨d, hl, hlevel, hacc, -⟩
    obtain ⟨hnd, himpl⟩ := csrLookup_eq_some.1 hl
    obtain rfl : c = d := Option.some.inj (hn.symm.trans hnd)
    exact ⟨himpl, hlevel, hacc⟩
  · rintro ⟨himpl, hlevel, hacc⟩
    exact ⟨c, csrLookup_eq_some.2 ⟨hn, himpl⟩, hlevel, hacc, by simp [hro], by simp [hcopy]⟩

theorem Level.rank_le_m (l : Level) : l.rank ≤ Level.m.rank := by cases l <;> decide

theorem Level.rank_lt_m {l : Level} (h : l ≠ .m) : l.rank < Level.m.rank := by
  cases l with
  | m => exact absurd rfl h
  | _ => decide

theorem State.dap_of_mdbgen {s : State} (hm : s.mdbgen = true) : s.dap = .m := (dap_eq_m s.cfg).2 hm

/-! ### `dcsr`, `dpc`, `dscratch0`, `dscratch1` -/

/-- Their numbers in the table, and where a debugger reaches the four (30 R71, 41 R129). -/
theorem fixedDebugRegister {n : CsrNum} {c : Csr}
    (h : (n, c) ∈ [((0x7b0 : CsrNum), Csr.dcsr), (0x7b1, .dpc), (0x7b2, .dscratch0), (0x7b3, .dscratch1)]) :
    n ∈ allocatedCsrNumbers ∧ (n, c) ∈ csrTable ∧ csrTable.lookup n = some c ∧ n.extractLsb' 10 2 = 1 ∧ c.vsCopy = c ∧
      ∀ s : State, s.debugAccessible c = s.mdbgen := by
  simp only [List.mem_cons, Prod.mk.injEq, List.not_mem_nil, or_false] at h
  rcases h with ⟨rfl, rfl⟩ | ⟨rfl, rfl⟩ | ⟨rfl, rfl⟩ | ⟨rfl, rfl⟩ <;>
    exact ⟨by decide, by decide, rfl, rfl, rfl, fun _ => rfl⟩

/-- No register stands in the table under two numbers. -/
theorem csrTable_number_unique : ∀ a ∈ csrTable, ∀ b ∈ csrTable, a.2 = b.2 → a.1 = b.1 := by decide

/-- Only a number of the table names a scratch register: no open number is a view of one (41 R130). -/
theorem csrLookup_scratch {p : Params} {k : CsrNum} {c : Csr} (hc : c = .dscratch0 ∨ c = .dscratch1)
    (h : csrLookup p k = some c) : (k, c) ∈ csrTable := by
  have hcases := csrNamed_cases (csrLookup_eq_some.1 h).1
  rcases hc with rfl | rfl <;> simpa using hcases

/-- Settles O16: the register's own rule is `mdbgen`, which also puts the debugger at the highest level. -/
theorem debugRegistersNeedMdbgen : Obligations.DebugRegistersNeedMdbgen := by
  intro s rd x n c hv hd hmem
  obtain ⟨halloc, htable, hlookup, hbits, hcopy, hacc⟩ := fixedDebugRegister hmem
  have hn : csrNamed s.p n = some c := (csrNamed_fixed hv halloc).trans hlookup
  have hro : csrReadOnly s.p n = false := by simp [csrReadOnly, hbits]
  refine ⟨fun hm => ?noMdbgen, fun hm himpl w => ?mdbgen, fun habsent => ?absent, fun hc k hk => ?number⟩
  case noMdbgen =>
    refine debug_access_fails hd (State.csrCheck_debug_denied hd ?_) rd x
    cases hl : csrLookup s.p n with
    | none => exact .inl rfl
    | some d =>
      obtain rfl : c = d := Option.some.inj (hn.symm.trans (csrLookup_eq_some.1 hl).1)
      exact .inr ⟨c, rfl, .inr ((hacc s).trans hm)⟩
  case mdbgen =>
    refine (State.csrCheck_debug_named hd hn hro hcopy w).2 ⟨himpl, ?_, (hacc s).trans hm⟩
    rw [State.dap_of_mdbgen hm]
    exact Level.rank_le_m _
  case absent =>
    exact debug_access_fails hd (State.csrCheck_debug_denied hd (.inl (by simp [csrLookup, hn, habsent]))) rd x
  case number =>
    exact csrTable_number_unique _ (csrLookup_scratch hc hk) _ htable rfl

/-! ### `sdcsr`, `sdpc`, `udcsr`, `udpc` -/

theorem csrReadOnly_openNumbers (p : Params) :
    csrReadOnly p p.sdcsrAddr = false ∧ csrReadOnly p p.sdpcAddr = false ∧ csrReadOnly p p.udcsrAddr = false ∧
      csrReadOnly p p.udpcAddr = false ∧ csrReadOnly p p.msdcfgAddr = false := by
  refine ⟨?_, ?_, ?_, ?_, ?_⟩ <;> exact csrReadOnly_open (by simp [Params.openCsrNumbers])

theorem Csr.vsCopy_of_debugOnly {c : Csr} (h : c.debugOnly = true) : c.vsCopy = c := by
  revert h
  cases c <;> decide

/-- A debug register is reached in Debug Mode only (41 R144), and there by its own rule. -/
theorem State.csrCheck_debugOnly_ok {s : State} {n : CsrNum} {c : Csr} (hn : csrNamed s.p n = some c)
    (hro : csrReadOnly s.p n = false) (hc : c.debugOnly = true) (w : Bool) :
    s.csrCheck n w = .ok c ↔ s.inDebug = true ∧
      csrImplemented s.p c = true ∧ (s.requiredLevel c).rank ≤ s.dap.rank ∧ s.debugAccessible c = true := by
  cases hd : s.inDebug with
  | false => simp [State.csrCheck_run_illegal hd hn hc]
  | true => simp [State.csrCheck_debug_named hd hn hro (Csr.vsCopy_of_debugOnly hc)]

theorem Level.vs_rank_le_iff (l : Level) : Level.vs.rank ≤ l.rank ↔ l = .vs ∨ l = .hs ∨ l = .m := by
  cases l <;> decide

theorem Level.u_rank_le_iff (l : Level) : Level.u.rank ≤ l.rank ↔ l ≠ .none := by cases l <;> decide

/-- Settles O22: a view of `dpc` stands under the rule of the view of `dcsr` beside it; that rule is the level (R131, R137). -/
theorem dpcViews : Obligations.DpcViews := by
  intro s v w
  refine ⟨rfl, rfl, rfl, rfl, fun hv => ?_⟩
  obtain ⟨hsdcsr, hsdpc, hudcsr, hudpc, -⟩ := csrNamed_open hv
  obtain ⟨hro1, hro2, hro3, hro4, -⟩ := csrReadOnly_openNumbers s.p
  have sdcsr := State.csrCheck_debugOnly_ok hsdcsr hro1 rfl w
  have sdpc := State.csrCheck_debugOnly_ok hsdpc hro2 rfl w
  have udcsr := State.csrCheck_debugOnly_ok hudcsr hro3 rfl w
  have udpc := State.csrCheck_debugOnly_ok hudpc hro4 rfl w
  refine ⟨sdpc.trans sdcsr.symm, udpc.trans udcsr.symm, fun hd => ⟨sdcsr.trans ?_, udcsr.trans ?_⟩⟩
  · simp [hd, csrImplemented, State.requiredLevel, State.debugAccessible, ← Level.vs_rank_le_iff]
  · simp [hd, csrImplemented, State.requiredLevel, State.debugAccessible, ← Level.u_rank_le_iff]

/-! ### `msdcfg` -/

/-- Outside Debug Mode `msdcfg` is for M-mode alone (41 R141). -/
theorem State.csrCheck_run_msdcfg {s : State} (hd : s.inDebug = false) {n : CsrNum} (hn : csrNamed s.p n = some .msdcfg)
    (hro : csrReadOnly s.p n = false) (w : Bool) :
    s.csrCheck n w = if s.cur = .m then .ok .msdcfg else .illegal := by
  have hl : csrLookup s.p n = some .msdcfg := csrLookup_eq_some.2 ⟨hn, rfl⟩
  cases hcur : s.cur <;>
    simp [State.csrCheck, hd, State.csrCheckRun, hl, hro, hcur, Csr.debugOnly, State.requiredLevel]

/-- Every implemented field of `msdcfg` is one of the six (30 R75). -/
theorem msdcfgMask_getLsbD {p : Params} {j : Nat} (hj : (msdcfgMask p).getLsbD j = true) :
    j ∈ [7, 8, 9, p.sdetrcBit.toNat, p.vsetrcBit.toNat, p.usetrcBit.toNat] := by
  simp only [msdcfgMask, BitVec.getLsbD_or, apply_ite (fun v : Word => v.getLsbD j), getLsbD_bitMask] at hj
  grind

/-- In a valid configuration every implemented field lies within XLEN bits (log 4). -/
theorem msdcfgMask_below_xlen {p : Params} (hv : p.valid = true) {j : Nat} (hj : (msdcfgMask p).getLsbD j = true) :
    p.xlen64 = true ∨ j < 32 := by
  have hbits : p.validTraceBits = true := by
    rw [Params.valid, Bool.and_eq_true] at hv
    exact hv.2
  simp only [Params.validTraceBits, List.all_cons, List.all_nil, Bool.and_eq_true, decide_eq_true_eq] at hbits
  obtain ⟨-, ⟨-, hsde⟩, ⟨-, hvse⟩, ⟨-, huse⟩, -⟩ := hbits
  have hmem := msdcfgMask_getLsbD hj
  simp only [List.mem_cons, List.not_mem_nil, or_false] at hmem
  cases hx : p.xlen64 with
  | true => exact .inl rfl
  | false =>
    simp only [Params.xlen, hx, Bool.false_eq_true, if_false] at hsde hvse huse
    omega

/-- Settles O23: the level of `msdcfg` is M in Debug Mode and outside it, and its mask is what a write changes and what a
read can show. -/
theorem msdcfgAccess : Obligations.MsdcfgAccess := by
  intro s rd x hv
  obtain ⟨-, -, -, -, hn⟩ := csrNamed_open hv
  obtain ⟨-, -, -, -, hro⟩ := csrReadOnly_openNumbers s.p
  refine ⟨fun hd hm => ?noMdbgen, fun hd hm w => ?mdbgen, fun hd hcur i hi => ?belowM, fun hd hcur => ?inM,
    fun j hf hm => ?absent⟩
  case noMdbgen =>
    have hdap : s.dap ≠ .m := fun h => Bool.false_ne_true (hm.symm.trans ((dap_eq_m s.cfg).1 h))
    have hlow : s.dap.rank < (s.requiredLevel .msdcfg).rank := Level.rank_lt_m hdap
    exact (debug_access_fails hd (State.csrCheck_debug_denied hd
      (.inr ⟨.msdcfg, csrLookup_eq_some.2 ⟨hn, rfl⟩, .inl hlow⟩)) rd x).1
  case mdbgen =>
    refine (State.csrCheck_debug_named hd hn hro rfl w).2 ⟨rfl, ?_, rfl⟩
    rw [State.dap_of_mdbgen hm]
    exact Level.rank_le_m _
  case belowM =>
    exact exec_csr_illegal hi fun w => (State.csrCheck_run_msdcfg hd hn hro w).trans (if_neg hcur)
  case inM =>
    have hok : s.csrCheck s.p.msdcfgAddr true = .ok .msdcfg :=
      (State.csrCheck_run_msdcfg hd hn hro true).trans (if_pos hcur)
    refine ⟨_, exec_csr_swap (x := x) hok (List.mem_cons_self ..), fun j => ?_⟩
    rw [State.advance_msdcfg, State.setX_msdcfg]
    refine (getLsbD_merge _ _ _ j).trans ?_
    split
    · rename_i hj
      exact toXlen_getLsbD _ _ _ (msdcfgMask_below_xlen hv hj)
    · rfl
  case absent =>
    simp [State.csrRead, State.msdcfgRead, toXlen_eq_and, hf, hm]

end Sys2Proof.Machine
end

section
/-! The views `sdcsr` and `udcsr` of `dcsr`, bit by bit: what they read as (41 R132, R134, R138) and what a write through
them changes (41 R133, R135, R139). -/

namespace Sys2Proof.Machine

/-! ### Reads -/

/-- A bit put at a position of a 32-bit register is that bit shifted there. -/
theorem bitAt_eq_shift (i : Nat) (b : Bool) : bitAt i b = (BitVec.ofBool b).setWidth 32 <<< i := by
  cases b with
  | false => simp [bitAt]
  | true =>
    apply BitVec.eq_of_toNat_eq
    simp [bitAt, bitMask, Nat.shiftLeft_eq]

theorem dmprvBit_eq_bitAt (b : Bool) : dmprvBit b = bitAt 4 b := rfl

theorem State.csrRead_sdcsr (s : State) : s.csrRead .sdcsr = s.sdcsrRead.setWidth 64 := toXlen_setWidth _ _

theorem State.csrRead_udcsr (s : State) : s.csrRead .udcsr = s.udcsrRead.setWidth 64 := toXlen_setWidth _ _

/-- At VS level `mdbgen` is 0. -/
theorem State.mdbgen_of_dap_vs {s : State} (h : s.dap = .vs) : s.mdbgen = false := by
  by_contra hm
  have hdap : s.dap = .m := (dap_eq_m s.cfg).2 (Bool.not_eq_false _ ▸ hm)
  simp [h] at hdap

/-- Settles O18: the level selects the view; at VS level `mdbgen` is 0 and does not hide DMPRV. -/
theorem sdcsrReadViews : Obligations.SdcsrReadViews := by
  intro s
  refine ⟨fun h => ?_, fun h => ?_⟩
  · rw [State.csrRead_sdcsr, State.sdcsrRead, if_neg h, State.sdcsrReadS, dmprvBit_eq_bitAt, bitAt_eq_shift,
      State.dmprvRead]
    rfl
  · have hm := State.mdbgen_of_dap_vs h
    rw [State.csrRead_sdcsr, State.sdcsrRead, if_pos h, State.sdcsrReadVs, dmprvBit_eq_bitAt, bitAt_eq_shift,
      bitAt_eq_shift, bitAt_eq_shift, State.dmprvRead, hm, Bool.not_false, Bool.true_and]
    rfl

/-! ### The fields a view writes -/

/-- The S/HS view takes STEP, STEPIE, EBREAKU, EBREAKS, and with the hypervisor modes EBREAKVU and EBREAKVS (41 R133). -/
theorem sdcsrMask_getLsbD (p : Params) (j : Nat) :
    (sdcsrMask p).getLsbD j = true ↔ j ∈ [2, 11, 12, 13] ∨ p.hasH = true ∧ j ∈ [16, 17] := by
  unfold sdcsrMask
  rcases Nat.lt_or_ge j 32 with hj | hj
  · revert j
    cases p.hasH <;> decide
  · rw [BitVec.getLsbD_of_ge _ _ hj]
    simp
    omega

/-- STEP and STEPIE, which the VS view and `udcsr` write in place (41 R135, R139). -/
theorem stepMask_getLsbD (j : Nat) : (0x804 : BitVec 32).getLsbD j = true ↔ j ∈ [2, 11] := by
  rcases Nat.lt_or_ge j 32 with hj | hj
  · revert j
    decide
  · rw [BitVec.getLsbD_of_ge _ _ hj]
    simp
    omega

theorem sdcsrMask_pair (p : Params) : (sdcsrMask p).extractLsb' 0 2 = 0 ∧ (sdcsrMask p).getLsbD 5 = false := by
  unfold sdcsrMask
  cases p.hasH <;> decide

/-- PRV as a view of one bit writes it. -/
theorem low32_extract_prv (p : Params) (w : Word) :
    ((p.toXlen w).setWidth 32).extractLsb' 0 1 = w.extractLsb' 0 1 := by
  apply BitVec.eq_of_getLsbD_eq
  intro j hj
  simp only [BitVec.getLsbD_extractLsb', low32_getLsbD p w (0 + j) (by omega)]

/-- One bit of a written value taken in place. -/
theorem merge_low32_getLsbD (p : Params) (mask old : BitVec 32) (w : Word) (j : Nat) :
    (merge mask old ((p.toXlen w).setWidth 32)).getLsbD j = if mask.getLsbD j then w.getLsbD j else old.getLsbD j := by
  rw [getLsbD_merge]
  split
  · rename_i hj
    exact low32_getLsbD p w j (BitVec.lt_of_getLsbD hj)
  · rfl

/-- PRV and V after a write over a `dcsr` in which the old pair still stands (40 R101). -/
theorem writePrvV_pair_over {p : Params} {c : Cfg} {base : BitVec 32} {d : DebugRegs}
    (h : base.extractLsb' 0 2 = d.prv ∧ base.getLsbD 5 = d.v) (prv : BitVec 2) (v : Bool) :
    ((writePrvV p c base prv v).extractLsb' 0 2, (writePrvV p c base prv v).getLsbD 5) =
      if legalPair p c prv v then (prv, v) else legalizePrvV p c (d.prv, d.v) (prv, v) := by
  rw [writePrvV_pair, h.1, h.2]

theorem getLsbD_setBit_lt {n : Nat} (v : BitVec n) {i : Nat} (hi : i < n) (j : Nat) (b : Bool) :
    (setBit v i b).getLsbD j = if i = j then b else v.getLsbD j := by
  split
  · rename_i h
    exact h ▸ getLsbD_setBit_self v b hi
  · exact getLsbD_setBit_ne v b ‹_›

theorem setBit_pair {base : BitVec 32} {i : Nat} (hi : 5 < i) (b : Bool) :
    (setBit base i b).extractLsb' 0 2 = base.extractLsb' 0 2 ∧ (setBit base i b).getLsbD 5 = base.getLsbD 5 :=
  ⟨extract_setBit _ _ _ _ _ (by omega), getLsbD_setBit_ne _ _ (by omega)⟩

/-! ### A write of `sdcsr` -/

/-- DMPRV after a write through either view (41 R145). -/
theorem State.csrWrite_sdcsr_dmprv (s : State) (w : Word) :
    (s.csrWrite .sdcsr w).dbg.dmprv = if s.mdbgen then s.dbg.dmprv else s.p.dmprvWritable && w.getLsbD 4 := by
  simp only [State.csrWrite, State.writeSdcsr]
  split <;> simp only [State.writeSdcsrVs_dmprv, State.writeSdcsrS_dmprv, State.dmprvWritten,
    low32_getLsbD s.p w 4 (by omega)]

/-- `dcsr` before its PRV and V are written: the S/HS view takes its fields in place (41 R133). -/
def State.sdcsrBaseS (s : State) (w : Word) : BitVec 32 :=
  merge (sdcsrMask s.p) s.dbg.dcsr ((s.p.toXlen w).setWidth 32)

/-- `dcsr` before its PRV and V are written: the VS view puts bits 12 and 13 at 16 and 17 (41 R135). -/
def State.sdcsrBaseVs (s : State) (w : Word) : BitVec 32 :=
  setBit (setBit (merge 0x804 s.dbg.dcsr ((s.p.toXlen w).setWidth 32)) 16 (w.getLsbD 12)) 17 (w.getLsbD 13)

theorem State.csrWrite_sdcsr_dcsr_of_ne_vs {s : State} (h : s.dap ≠ .vs) (w : Word) :
    (s.csrWrite .sdcsr w).dbg.dcsr =
      writePrvV s.p s.cfg (s.sdcsrBaseS w) ((w.extractLsb' 0 1).setWidth 2) (w.getLsbD 5) := by
  simp only [State.csrWrite, State.writeSdcsr, if_neg h, State.writeSdcsrS, State.sdcsrBaseS, low32_extract_prv,
    low32_getLsbD s.p w 5 (by omega)]

theorem State.csrWrite_sdcsr_dcsr_of_vs {s : State} (h : s.dap = .vs) (w : Word) :
    (s.csrWrite .sdcsr w).dbg.dcsr =
      writePrvV s.p s.cfg (s.sdcsrBaseVs w) ((w.extractLsb' 0 1).setWidth 2) (w.getLsbD 5) := by
  simp only [State.csrWrite, State.writeSdcsr, if_pos h, State.writeSdcsrVs, State.sdcsrBaseVs, low32_extract_prv,
    low32_getLsbD s.p w 5 (by omega), low32_getLsbD s.p w 12 (by omega), low32_getLsbD s.p w 13 (by omega)]

theorem State.sdcsrBaseS_pair (s : State) (w : Word) :
    (s.sdcsrBaseS w).extractLsb' 0 2 = s.dbg.prv ∧ (s.sdcsrBaseS w).getLsbD 5 = s.dbg.v := by
  obtain ⟨hprv, hv⟩ := sdcsrMask_pair s.p
  exact merge_pair hprv hv

theorem State.sdcsrBaseVs_pair (s : State) (w : Word) :
    (s.sdcsrBaseVs w).extractLsb' 0 2 = s.dbg.prv ∧ (s.sdcsrBaseVs w).getLsbD 5 = s.dbg.v := by
  unfold State.sdcsrBaseVs
  rw [(setBit_pair (by omega) _).1, (setBit_pair (by omega) _).2, (setBit_pair (by omega) _).1,
    (setBit_pair (by omega) _).2]
  exact merge_pair (by decide) (by decide)

theorem State.sdcsrBaseS_getLsbD (s : State) (w : Word) (j : Nat) :
    (s.sdcsrBaseS w).getLsbD j =
      if j ∈ [2, 11, 12, 13] ∨ s.p.hasH = true ∧ j ∈ [16, 17] then w.getLsbD j else s.dbg.dcsr.getLsbD j := by
  rw [State.sdcsrBaseS, merge_low32_getLsbD]
  simp only [sdcsrMask_getLsbD]

theorem State.sdcsrBaseVs_getLsbD (s : State) (w : Word) (j : Nat) :
    (s.sdcsrBaseVs w).getLsbD j =
      if 17 = j then w.getLsbD 13 else if 16 = j then w.getLsbD 12
      else if j ∈ [2, 11] then w.getLsbD j else s.dbg.dcsr.getLsbD j := by
  rw [State.sdcsrBaseVs, getLsbD_setBit_lt _ (by omega), getLsbD_setBit_lt _ (by omega), merge_low32_getLsbD]
  simp only [stepMask_getLsbD]

/-- Settles O19: PRV and V go over the old pair, every other bit is taken in place where the mask has it. -/
theorem sdcsrWriteSupervisorView : Obligations.SdcsrWriteSupervisorView := by
  rintro s t w hdap rfl
  have hbit : ∀ j, 1 < j → j ≠ 5 → (s.csrWrite .sdcsr w).dbg.dcsr.getLsbD j = (s.sdcsrBaseS w).getLsbD j :=
    fun j h1 h5 => by rw [State.csrWrite_sdcsr_dcsr_of_ne_vs hdap, writePrvV_getLsbD _ _ _ _ _ _ h1 h5]
  simp only [State.sdcsrBaseS_getLsbD] at hbit
  refine ⟨hbit 2 (by omega) (by omega), hbit 11 (by omega) (by omega), hbit 12 (by omega) (by omega),
    hbit 13 (by omega) (by omega), fun hH => ?virtual, fun hH => ?noVirtual, ?pair, fun hw => ?dmprv, fun j hj => ?kept,
    s.csrWrite_onlyHome .sdcsr w⟩
  case virtual =>
    exact ⟨(hbit 16 (by omega) (by omega)).trans (if_pos (by simp [hH])),
      (hbit 17 (by omega) (by omega)).trans (if_pos (by simp [hH]))⟩
  case noVirtual =>
    exact ⟨(hbit 16 (by omega) (by omega)).trans (if_neg (by simp [hH])),
      (hbit 17 (by omega) (by omega)).trans (if_neg (by simp [hH]))⟩
  case pair =>
    unfold DebugRegs.prv DebugRegs.v
    rw [State.csrWrite_sdcsr_dcsr_of_ne_vs hdap]
    exact writePrvV_pair_over (s.sdcsrBaseS_pair w) _ _
  case dmprv => rw [State.csrWrite_sdcsr_dmprv, hw, Bool.true_and]
  case kept =>
    simp only [List.mem_cons, List.not_mem_nil, or_false, not_or] at hj
    rw [hbit j (by omega) (by omega), if_neg (by simp; omega)]

/-- Settles O20: PRV and V go over the old pair, and the bits the VS view shows in other places are written there. -/
theorem sdcsrWriteVirtualView : Obligations.SdcsrWriteVirtualView := by
  rintro s t w hdap rfl
  have hbit : ∀ j, 1 < j → j ≠ 5 → (s.csrWrite .sdcsr w).dbg.dcsr.getLsbD j = (s.sdcsrBaseVs w).getLsbD j :=
    fun j h1 h5 => by rw [State.csrWrite_sdcsr_dcsr_of_vs hdap, writePrvV_getLsbD _ _ _ _ _ _ h1 h5]
  simp only [State.sdcsrBaseVs_getLsbD] at hbit
  refine ⟨hbit 2 (by omega) (by omega), hbit 11 (by omega) (by omega), hbit 16 (by omega) (by omega),
    hbit 17 (by omega) (by omega), hbit 12 (by omega) (by omega), hbit 13 (by omega) (by omega), ?pair,
    fun hw => ?dmprv, fun j hj => ?kept, s.csrWrite_onlyHome .sdcsr w⟩
  case pair =>
    unfold DebugRegs.prv DebugRegs.v
    rw [State.csrWrite_sdcsr_dcsr_of_vs hdap]
    exact writePrvV_pair_over (s.sdcsrBaseVs_pair w) _ _
  case dmprv => rw [State.csrWrite_sdcsr_dmprv, hw, Bool.true_and, if_neg (by simp [State.mdbgen_of_dap_vs hdap])]
  case kept =>
    simp only [List.mem_cons, List.not_mem_nil, or_false, not_or] at hj
    rw [hbit j (by omega) (by omega), if_neg (by omega), if_neg (by omega), if_neg (by simp; omega)]

/-! ### A write of `udcsr` -/

/-- `dcsr` before its V is written through `udcsr`: bit 12 goes to EBREAKVU or EBREAKU by the old V (41 R139). -/
def State.udcsrBase (s : State) (w : Word) : BitVec 32 :=
  setBit (merge 0x804 s.dbg.dcsr ((s.p.toXlen w).setWidth 32)) (if s.dbg.v then 16 else 12) (w.getLsbD 12)

theorem State.csrWrite_udcsr_dcsr (s : State) (w : Word) :
    (s.csrWrite .udcsr w).dbg.dcsr = writePrvV s.p s.cfg (s.udcsrBase w) s.dbg.prv (w.getLsbD 5) := by
  simp only [State.csrWrite, State.writeUdcsr, State.udcsrBase, low32_getLsbD s.p w 5 (by omega),
    low32_getLsbD s.p w 12 (by omega)]

theorem State.udcsrBase_pair (s : State) (w : Word) :
    (s.udcsrBase w).extractLsb' 0 2 = s.dbg.prv ∧ (s.udcsrBase w).getLsbD 5 = s.dbg.v := by
  unfold State.udcsrBase
  have hi : 5 < if s.dbg.v then 16 else 12 := by split <;> omega
  rw [(setBit_pair hi _).1, (setBit_pair hi _).2]
  exact merge_pair (by decide) (by decide)

theorem State.udcsrBase_getLsbD (s : State) (w : Word) (j : Nat) :
    (s.udcsrBase w).getLsbD j =
      if (if s.dbg.v then 16 else 12) = j then w.getLsbD 12
      else if j ∈ [2, 11] then w.getLsbD j else s.dbg.dcsr.getLsbD j := by
  rw [State.udcsrBase, getLsbD_setBit_lt _ (by split <;> omega), merge_low32_getLsbD]
  simp only [stepMask_getLsbD]

/-- Settles O21: the V of before the write says where bit 12 goes; PRV is written with its old value. -/
theorem udcsrReadAndWrite : Obligations.UdcsrReadAndWrite := by
  rintro s t w rfl
  have hbit : ∀ j, 1 < j → j ≠ 5 → (s.csrWrite .udcsr w).dbg.dcsr.getLsbD j = (s.udcsrBase w).getLsbD j :=
    fun j h1 h5 => by rw [State.csrWrite_udcsr_dcsr, writePrvV_getLsbD _ _ _ _ _ _ h1 h5]
  simp only [State.udcsrBase_getLsbD] at hbit
  refine ⟨?read, (hbit 2 (by omega) (by omega)).trans ?step, (hbit 11 (by omega) (by omega)).trans ?stepie,
    (hbit 16 (by omega) (by omega)).trans ?ebreakvu, (hbit 12 (by omega) (by omega)).trans ?ebreaku, ?pair,
    fun j hj => ?kept, s.csrWrite_onlyHome .udcsr w⟩
  case read =>
    rw [State.csrRead_udcsr, State.udcsrRead, bitAt_eq_shift]
    rfl
  case step | stepie | ebreakvu | ebreaku => cases s.dbg.v <;> rfl
  case pair =>
    unfold DebugRegs.prv DebugRegs.v
    rw [State.csrWrite_udcsr_dcsr]
    exact writePrvV_pair_over (s.udcsrBase_pair w) _ _
  case kept =>
    simp only [List.mem_cons, List.not_mem_nil, or_false, not_or] at hj
    rw [hbit j (by omega) (by omega), if_neg (by split <;> omega), if_neg (by simp; omega)]

end Sys2Proof.Machine
end

section
/-! Loads and stores that are permitted, and the hypervisor loads and stores where they are not (42 R168 to R194). -/

namespace Sys2Proof.Machine

/-! ### The end of a load and of a store -/

/-- A load that goes through: the value goes to `rd`, the pc moves on, and nothing else changes (42 R168). -/
theorem load_completes {s t : State} {rd : RegNum} {v : Word} (ht : t = (s.setX rd v).advance 4) :
    t.x rd = (if rd = 0 then 0 else s.p.toXlen v) ∧ regsBut s t rd ∧ memSame s t ∧ onlyRegsPc s t ∧
      movedPast s t 4 := by
  subst ht
  refine ⟨?_, fun r hr => ?_, fun a => ?_, ?_, State.advance_movedPast 4 ?_ ?_ ?_ ?_⟩
  · rw [State.advance_x, State.setX_x_same]
  · rw [State.advance_x, State.setX_x_other _ _ hr]
  · rw [State.advance_mem, State.setX_mem]
  · unfold onlyRegsPc
    rw [State.advance_eq, State.setX_eq]
  · exact State.setX_p ..
  · exact State.setX_inDebug ..
  · exact State.setX_pc ..
  · exact State.setX_dm ..

/-- A store that goes through: the bytes go to the addresses, the pc moves on, and nothing else changes (42 R176). -/
theorem store_completes {s t : State} {ks : List Nat} {bytes : List Byte}
    (ht : t = State.advance { s with mem := s.mem.writeAll ks bytes } 4) (hl : ks.length = bytes.length) :
    onlyMemPc s t ∧ movedPast s t 4 ∧ (ks.Nodup → ks.map t.mem.read = bytes) ∧
      ∀ a, a ∉ ks → t.mem.read a = s.mem.read a := by
  have hmem : t.mem = s.mem.writeAll ks bytes := by rw [ht, State.advance_mem]
  refine ⟨?_, ?_, fun hn => ?_, fun a ha => ?_⟩
  · rw [onlyMemPc, hmem, ht, State.advance_eq]
  · exact ht ▸ State.advance_movedPast 4 rfl rfl rfl rfl
  · rw [hmem, Memory.read_writeAll_same _ _ _ hn hl]
  · rw [hmem, Memory.read_writeAll_other _ _ _ _ ha]

/-! ### The order of the bytes -/

/-- The five pairs of privilege and virtualization, each with its endianness control (20 R60). -/
theorem State.inOrder_of_control {s : State} {pair : BitVec 2 × Bool} {big : Bool} (bytes : List Byte)
    (h : (pair, big) ∈ [(((3, false) : BitVec 2 × Bool), s.csr.mstatus.getLsbD 37),
      ((1, false), s.csr.mstatus.getLsbD 36), ((0, false), s.csr.mstatus.getLsbD 6),
      ((1, true), s.csr.hstatus.getLsbD 5), ((0, true), s.csr.vsstatus.getLsbD 6)]) :
    s.inOrder pair.1 pair.2 bytes = if s.p.hasEndianControls && big then bytes.reverse else bytes := by
  simp only [List.mem_cons, List.not_mem_nil, or_false, Prod.mk.injEq] at h
  rcases h with ⟨rfl, rfl⟩ | ⟨rfl, rfl⟩ | ⟨rfl, rfl⟩ | ⟨rfl, rfl⟩ | ⟨rfl, rfl⟩ <;> rfl

/-- The bytes of a store are as many as its addresses. -/
theorem State.accessAddrs_inOrder_length {s : State} {acc : Access} {prv : BitVec 2} {virt : Bool} {va : Word} {n : Nat}
    {ks : List Nat} (h : s.accessAddrs acc prv virt va n = .ok ks) (v : Word) :
    ks.length = (s.inOrder prv virt (splitBytes n v)).length := by
  rw [State.accessAddrs_length h, State.inOrder_length, splitBytes_length]

/-! ### Permitted accesses -/

/-- Settles O38: the access goes through, so the load is `load_completes`. -/
theorem loadsComplete : Obligations.LoadsComplete := by
  intro s rd rs1 imm i n signed pair ks hi hw hp hk
  obtain ⟨hval, hregs, hmem, hframe, hmoved⟩ := load_completes (State.loadWith_ok hk signed rd)
  refine ⟨_, ?_, State.accessAddrs_length hk, hval, hregs, hmem, hframe, hmoved, fun _ bytes hbig =>
    State.inOrder_of_control bytes hbig⟩
  rw [exec_of_mem_loadForms hi, State.ifPresent_true hw, State.loadOp_some hp]

/-- Settles O39: the access goes through, so the store is `store_completes`. -/
theorem storesComplete : Obligations.StoresComplete := by
  intro s rs2 rs1 imm i n pair ks hi hw hp hk
  refine ⟨_, ?_, State.accessAddrs_length hk,
    store_completes (State.storeWith_ok hk (s.x rs2)) (State.accessAddrs_inOrder_length hk _)⟩
  rw [exec_of_mem_storeForms hi, State.ifPresent_true hw, State.storeOp_some hp]

/-- Settles O40: a load made with the pair of hstatus.SPVP. -/
theorem hypervisorLoadsComplete : Obligations.HypervisorLoadsComplete := by
  intro s rd rs1 i acc n signed ks hi hw hp hk
  refine ⟨_, ?_, State.accessAddrs_length hk, load_completes (State.loadWith_ok (pair := s.hlvPair) hk signed rd)⟩
  rw [exec_of_mem_hlvForms hi, State.ifPresent_true hw, State.hlvOp_permitted hp]

/-- Settles O41: a store made with the pair of hstatus.SPVP. -/
theorem hypervisorStoresComplete : Obligations.HypervisorStoresComplete := by
  intro s rs2 rs1 i n ks hi hw hp hk
  refine ⟨_, ?_, State.accessAddrs_length hk,
    store_completes (State.storeWith_ok (pair := s.hlvPair) hk (s.x rs2)) (State.accessAddrs_inOrder_length hk _)⟩
  rw [exec_of_mem_hsvForms hi, State.ifPresent_true hw, State.hsvOp_permitted hp]

/-! ### Hypervisor accesses that are not permitted -/

/-- Where they are not permitted the thirteen forms do nothing but take their exception (42 R181). -/
theorem exec_virtualMachine_denied {s : State} {r rs1 : RegNum} {i : Instr} (hi : i ∈ virtualMachineForms r rs1)
    (hw : i.wellFormed s.p = true) (hp : s.hlvPermitted = false) : exec i s = .next (s.hlvDenied i) := by
  rcases virtualMachineForms_cases hi with ⟨acc, n, signed, hi⟩ | ⟨n, hi⟩
  · rw [exec_of_mem_hlvForms hi, State.ifPresent_true hw, State.hlvOp, hp]
    rfl
  · rw [exec_of_mem_hsvForms hi, State.ifPresent_true hw, State.hsvOp, hp]
    rfl

theorem State.hlvPermitted_debug_denied {s : State} (hd : s.inDebug = true)
    (h : s.dap = .vs ∨ s.dap = .u ∧ (s.csr.hu = false ∨ s.dbg.v = true)) : s.hlvPermitted = false := by
  rcases h with h | ⟨h, hu | hv⟩
  · simp [State.hlvPermitted, hd, h]
  · simp [State.hlvPermitted, hd, h, hu]
  · simp [State.hlvPermitted, hd, h, hv]

theorem State.hlvPermitted_virtual {s : State} (hd : s.inDebug = false) (h : s.cur = .vs ∨ s.cur = .vu) :
    s.hlvPermitted = false := by
  rcases h with h | h <;> simp [State.hlvPermitted, hd, h]

theorem State.hlvPermitted_u {s : State} (hd : s.inDebug = false) (h : s.cur = .u) : s.hlvPermitted = s.csr.hu := by
  simp [State.hlvPermitted, hd, h]

/-- Settles O44: the exception is a virtual instruction where V = 1, an illegal one elsewhere, and in Debug Mode
either is a quiet failure. -/
theorem hypervisorAccessDenied : Obligations.HypervisorAccessDenied := by
  intro s r rs1 i hi hw
  refine ⟨fun hd h => ?_, fun hd h => ?_, fun hd h hu => ?_⟩
  · rw [exec_virtualMachine_denied hi hw (State.hlvPermitted_debug_denied hd h), State.hlvDenied,
      State.takeException_debug hd]
  · have hv : s.cur.virt = true := by rcases h with h | h <;> rw [h] <;> rfl
    rw [exec_virtualMachine_denied hi hw (State.hlvPermitted_virtual hd h), State.hlvDenied, if_pos hv]
  · rw [exec_virtualMachine_denied hi hw ((State.hlvPermitted_u hd h).trans hu), State.hlvDenied, h]
    rfl

end Sys2Proof.Machine
end

section
/-! EBREAK and C.EBREAK in their three cases, ECALL, and the privilege-changing instructions in the Program Buffer
(42 R161 to R164). -/

namespace Sys2Proof.Machine

/-! ### EBREAK (42 R161) -/

theorem exec_ebreak (s : State) : exec .ebreak s = .next s.ebreakOp := rfl

/-- In Debug Mode it ends the Program Buffer. -/
theorem State.ebreakOp_debug {s : State} (hd : s.inDebug = true) :
    s.ebreakOp = { s with dm := { s.dm with pbRun := false } } := if_pos hd

/-- In a debug-allowed mode whose EBREAK bit is set it enters Debug Mode. -/
theorem State.ebreakOp_enter {s : State} (hd : s.inDebug = false) (ha : s.allowed = true)
    (hb : ebreakBit s.dbg s.cur = true) : s.ebreakOp = { s.enterDebug .ebreak with hti := none } := by
  simp [State.ebreakOp, hd, ha, hb]

/-- Everywhere else it is a breakpoint exception. -/
theorem State.ebreakOp_trap {s : State} (hd : s.inDebug = false) (h : (s.allowed && ebreakBit s.dbg s.cur) = false) :
    s.ebreakOp = s.trapTo (s.exceptionDest 3) false 3 (if s.p.breakpointTvalPc then s.pc else 0) := by
  rw [State.ebreakOp, hd, h]
  exact State.takeException_run hd .breakpoint

/-- The entry to Debug Mode writes PRV, V and CAUSE of `dcsr` and no other bit (60 R236). -/
theorem State.enterDebug_dcsr_getLsbD (s : State) (c : DebugCause) {j : Nat} (hj : j ∉ [0, 1, 5, 6, 7, 8]) :
    (s.enterDebug c).dbg.dcsr.getLsbD j = s.dbg.dcsr.getLsbD j := by
  simp only [List.mem_cons, List.not_mem_nil, or_false, not_or] at hj
  rw [State.enterDebug_dcsr, getLsbD_setCause _ _ _ (by omega), getLsbD_setPrvV _ _ _ _ (by omega) (by omega)]

/-- Settles O28, an arm at a time. -/
theorem ebreakOutcome : Obligations.EbreakOutcome := by
  intro s
  refine ⟨fun hd => ?_, fun hd ha hb => ?_, fun hd h => ?_⟩
  · rw [exec_ebreak, State.ebreakOp_debug hd]
  · refine ⟨s.ebreakOp, exec_ebreak s, ?_⟩
    rw [State.ebreakOp_enter hd ha hb]
    exact ⟨rfl, rfl, fun haligned => haligned.1, s.enterDebug_prv .ebreak, s.enterDebug_v .ebreak,
      s.enterDebug_cause .ebreak, fun _ hj => s.enterDebug_dcsr_getLsbD .ebreak hj, rfl, rfl, rfl, rfl, rfl, rfl, rfl⟩
  · rw [exec_ebreak, State.ebreakOp_trap hd h]

/-! ### C.EBREAK (42 R162) -/

/-- On a hart with compressed instructions it is EBREAK. -/
theorem exec_cebreak {s : State} (hC : s.p.hasC = true) : exec .cebreak s = .next s.ebreakOp :=
  congrArg Host.Outcome.next (State.ifPresent_true (i := .cebreak) hC State.ebreakOp)

/-- Settles O29: one next state for both, with the outcomes of EBREAK. -/
theorem cebreakOutcome : Obligations.CebreakOutcome := by
  intro s hC
  refine ⟨s.ebreakOp, exec_cebreak hC, exec_ebreak s, fun hd ha hb => ?_, State.ebreakOp_trap⟩
  rw [State.ebreakOp_enter hd ha hb]
  exact ⟨rfl, rfl, s.enterDebug_cause .ebreak, rfl, rfl, rfl⟩

/-! ### ECALL outside Debug Mode (42 R164) -/

/-- The code of the environment call of each mode (60 R256, log 1). -/
theorem excCode_envCall {mode : Mode} {code : Nat}
    (h : (mode, code) ∈ [(Mode.u, 8), (.vu, 8), (.hs, 9), (.vs, 10), (.m, 11)]) : excCode mode .envCall = code := by
  simp only [List.mem_cons, List.not_mem_nil, or_false, Prod.mk.injEq] at h
  rcases h with ⟨rfl, rfl⟩ | ⟨rfl, rfl⟩ | ⟨rfl, rfl⟩ | ⟨rfl, rfl⟩ | ⟨rfl, rfl⟩ <;> rfl

theorem exec_ecall_run {s : State} (hd : s.inDebug = false) : exec .ecall s = .next (s.takeException .envCall) := by
  simp [exec, execEcall, hd]

/-- An exception goes to the current mode or a higher one (60 R250). -/
theorem State.exceptionDest_rank (s : State) (code : Nat) : s.cur.lvl.rank ≤ (s.exceptionDest code).lvl.rank := by
  rcases s.exceptionDest_cases code with h | ⟨h, _, hm, _⟩ | ⟨h, _, hv, _⟩ <;> rw [h]
  · exact s.cur.lvl_le_m
  · exact s.cur.lvl_le_hs_iff.2 hm
  · refine s.cur.lvl_le_vs_iff.2 ⟨fun hc => ?_, fun hc => ?_⟩ <;> rw [hc] at hv <;> cases hv

/-- An exception that is not delegated goes to M-mode (60 R250). -/
theorem State.exceptionDest_not_delegated {s : State} {code : Nat} (h : s.csr.medeleg.getLsbD code = false) :
    s.exceptionDest code = .m := if_pos (.inr (.inr h))

/-- Settles O31: the code is the mode's own, and the destination is where delegation sends it. -/
theorem ecallTraps : Obligations.EcallTraps := by
  intro s code hd hc
  refine ⟨?_, s.exceptionDest_rank code, State.exceptionDest_not_delegated⟩
  rw [exec_ecall_run hd, State.takeException_run hd, excCode_envCall hc]
  rfl

/-! ### In the Program Buffer (42 R163) -/

/-- Each privilege-changing instruction the hart has does one thing in Debug Mode. -/
theorem exec_privilegeChanger_debug {s : State} {i : Instr} (hi : i ∈ privilegeChangers)
    (hw : i.wellFormed s.p = true) (hd : s.inDebug = true) : exec i s = .next s.privChangeInDebug := by
  simp only [privilegeChangers, List.mem_cons, List.not_mem_nil, or_false] at hi
  rcases hi with rfl | rfl | rfl | rfl
  · simp [exec, execEcall, hd]
  · simp [exec, execMret, hd]
  · simp [exec, execSret, State.ifPresent_true hw, hd]
  · simp [exec, execMnret, State.ifPresent_true hw, hd]

/-- Settles O36: by the parameter the instruction moves the Program Buffer on or fails. -/
theorem privilegeChangeInProgramBuffer : Obligations.PrivilegeChangeInProgramBuffer := by
  intro s i hi hw hd
  refine ⟨fun hp => ?_, fun hp => ?_⟩
  · rw [exec_privilegeChanger_debug hi hw hd, State.privChangeInDebug, hp, ← State.advance_debug hd]
  · rw [exec_privilegeChanger_debug hi hw hd, State.privChangeInDebug, hp]

end Sys2Proof.Machine
end

section
/-! The returns from a trap (42 R165 to R167, 60 R249): what each restores and leaves, bit by bit, and where it is an
exception. -/

namespace Sys2Proof.Machine

/-! ### MPRV on a return to a mode (log 40, log 26) -/

/-- `mstatus` with MPRV cleared where the mode returned to is below M. -/
def clearMprvBelow (w : Word) (dst : Mode) : Word := if dst = .m then w else setBit w 17 false

theorem clearMprvBelow_mprv (w : Word) (dst : Mode) :
    (clearMprvBelow w dst).getLsbD 17 = (w.getLsbD 17 && decide (dst = .m)) := by
  unfold clearMprvBelow
  split
  · rw [decide_eq_true ‹_›, Bool.and_true]
  · rw [decide_eq_false ‹_›, Bool.and_false, getLsbD_setBit_self _ _ (by omega)]

theorem clearMprvBelow_getLsbD (w : Word) (dst : Mode) {j : Nat} (hj : j ≠ 17) :
    (clearMprvBelow w dst).getLsbD j = w.getLsbD j := by
  unfold clearMprvBelow
  split
  · rfl
  · exact getLsbD_setBit_ne _ _ hj.symm

theorem clearMprvBelow_mpp (w : Word) (dst : Mode) :
    (clearMprvBelow w dst).extractLsb' 11 2 = w.extractLsb' 11 2 := by
  unfold clearMprvBelow
  split
  · rfl
  · exact extract_setBit _ _ _ _ _ (by omega)

/-! ### MRET -/

/-- `mstatus` with the fields MRET restores: MIE takes MPIE, MPIE sets, MPV clears, MPP takes the lowest mode. -/
def mretFields (s : State) : Word :=
  setBits2 (setBit (setBit (setBit s.csr.mstatus 3 s.csr.mpie) 7 true) 39 false) 11 (lowestPrv s.p)

theorem mretMstatus_eq (s : State) (dst : Mode) : mretMstatus s dst = clearMprvBelow (mretFields s) dst := rfl

theorem mretFields_getLsbD (s : State) (j : Nat) :
    (mretFields s).getLsbD j =
      if 12 = j then (lowestPrv s.p).getLsbD 1 else if 11 = j then (lowestPrv s.p).getLsbD 0
      else if 39 = j then false else if 7 = j then true else if 3 = j then s.csr.mpie
      else s.csr.mstatus.getLsbD j := by
  unfold mretFields setBits2
  rw [getLsbD_setBit_lt _ (by omega), getLsbD_setBit_lt _ (by omega), getLsbD_setBit_lt _ (by omega),
    getLsbD_setBit_lt _ (by omega), getLsbD_setBit_lt _ (by omega)]

/-- The return of MRET: what it restores and what it leaves. -/
theorem State.mretOp_restores (s : State) :
    s.mretOp.csr.mie_ = s.csr.mpie ∧ s.mretOp.csr.mpie = true ∧ s.mretOp.csr.mpp = lowestPrv s.p ∧
      s.mretOp.csr.mpv = false ∧ s.mretOp.csr.mprv = (s.csr.mprv && decide (s.mretOp.cur = .m)) ∧
      ∀ j, j ∉ [3, 7, 11, 12, 17, 39] → s.mretOp.csr.mstatus.getLsbD j = s.csr.mstatus.getLsbD j := by
  have hstatus : s.mretOp.csr.mstatus = clearMprvBelow (mretFields s) s.mretOp.cur := mretMstatus_eq s _
  have hbit : ∀ j, j ≠ 17 → s.mretOp.csr.mstatus.getLsbD j = (mretFields s).getLsbD j :=
    fun _ hj => by rw [hstatus, clearMprvBelow_getLsbD _ _ hj]
  refine ⟨(hbit 3 (by omega)).trans (mretFields_getLsbD ..), (hbit 7 (by omega)).trans (mretFields_getLsbD ..),
    ?_, (hbit 39 (by omega)).trans (mretFields_getLsbD ..), ?_, fun j hj => ?_⟩
  · rw [Csrs.mpp, hstatus, clearMprvBelow_mpp]
    exact extract_setBits2 _ _ _ (by omega)
  · rw [Csrs.mprv, hstatus, clearMprvBelow_mprv, mretFields_getLsbD]
    rfl
  · simp only [List.mem_cons, List.not_mem_nil, or_false, not_or] at hj
    obtain ⟨h3, h7, h11, h12, h17, h39⟩ := hj
    rw [hbit j h17, mretFields_getLsbD, if_neg (Ne.symm h12), if_neg (Ne.symm h11), if_neg (Ne.symm h39),
      if_neg (Ne.symm h7), if_neg (Ne.symm h3)]

theorem exec_mret_m {s : State} (hd : s.inDebug = false) (hc : s.cur = .m) : exec .mret s = .next s.mretOp := by
  simp [exec, execMret, hd, hc]

/-- Settles O32: the return is `mretOp`. -/
theorem mretReturns : Obligations.MretReturns := fun s hd hc =>
  ⟨s.mretOp, exec_mret_m hd hc, rfl, rfl, rfl, rfl, s.mretOp_restores⟩

/-! ### SRET -/

/-- The three fields that a return by a supervisor status restores: SIE takes SPIE, SPIE sets, SPP clears (60 R249). -/
def sretFields (status : Word) (spie : Bool) : Word := setBit (setBit (setBit status 1 spie) 5 true) 8 false

theorem sretMstatus_eq (s : State) : sretMstatus s = setBit (sretFields s.csr.mstatus s.csr.spie) 17 false := rfl

theorem vsretVsstatus_eq (s : State) : vsretVsstatus s = sretFields s.csr.vsstatus s.csr.vsspie := rfl

theorem sretFields_getLsbD (status : Word) (spie : Bool) (j : Nat) :
    (sretFields status spie).getLsbD j =
      if 8 = j then false else if 5 = j then true else if 1 = j then spie else status.getLsbD j := by
  simp only [sretFields, getLsbD_setBit_lt _ (show 8 < 64 by omega), getLsbD_setBit_lt _ (show 5 < 64 by omega),
    getLsbD_setBit_lt _ (show 1 < 64 by omega)]

theorem sretFields_frame (status : Word) (spie : Bool) {j : Nat} (hj : j ∉ [1, 5, 8]) :
    (sretFields status spie).getLsbD j = status.getLsbD j := by
  simp only [List.mem_cons, List.not_mem_nil, or_false, not_or] at hj
  obtain ⟨h1, h5, h8⟩ := hj
  rw [sretFields_getLsbD, if_neg (Ne.symm h8), if_neg (Ne.symm h5), if_neg (Ne.symm h1)]

theorem sretMstatus_getLsbD (s : State) {j : Nat} (hj : j ≠ 17) :
    (sretMstatus s).getLsbD j = (sretFields s.csr.mstatus s.csr.spie).getLsbD j := by
  rw [sretMstatus_eq, getLsbD_setBit_ne _ _ hj.symm]

theorem sretMstatus_mprv (s : State) : (sretMstatus s).getLsbD 17 = false := getLsbD_setBit_self _ _ (by omega)

/-- The return by `sstatus`, `hstatus` and `sepc`: what it restores and what it leaves. -/
theorem State.sretOp_restores (s : State) :
    s.sretOp.csr.sie = s.csr.spie ∧ s.sretOp.csr.spie = true ∧ s.sretOp.csr.spp = false ∧ s.sretOp.csr.spv = false ∧
      s.sretOp.csr.mprv = false ∧
      (∀ j, j ∉ [1, 5, 8, 17] → s.sretOp.csr.mstatus.getLsbD j = s.csr.mstatus.getLsbD j) ∧
      ∀ j, j ≠ 7 → s.sretOp.csr.hstatus.getLsbD j = s.csr.hstatus.getLsbD j := by
  have hbit : ∀ j, j ≠ 17 → s.sretOp.csr.mstatus.getLsbD j = (sretFields s.csr.mstatus s.csr.spie).getLsbD j :=
    fun _ hj => sretMstatus_getLsbD s hj
  refine ⟨(hbit 1 (by omega)).trans (sretFields_getLsbD ..), (hbit 5 (by omega)).trans (sretFields_getLsbD ..),
    (hbit 8 (by omega)).trans (sretFields_getLsbD ..), getLsbD_setBit_self _ _ (by omega), sretMstatus_mprv s,
    fun j hj => ?_, fun j hj => getLsbD_setBit_ne _ _ hj.symm⟩
  simp only [List.mem_cons, List.not_mem_nil, or_false, not_or] at hj
  obtain ⟨h1, h5, h8, h17⟩ := hj
  rw [hbit j h17, sretFields_frame _ _ (by simp [h1, h5, h8])]

/-- The return by `vsstatus` and `vsepc`: what it restores and what it leaves. -/
theorem State.vsretOp_restores (s : State) :
    s.vsretOp.csr.vssie = s.csr.vsspie ∧ s.vsretOp.csr.vsspie = true ∧ s.vsretOp.csr.vsspp = false ∧
      ∀ j, j ∉ [1, 5, 8] → s.vsretOp.csr.vsstatus.getLsbD j = s.csr.vsstatus.getLsbD j := by
  have hstatus : s.vsretOp.csr.vsstatus = sretFields s.csr.vsstatus s.csr.vsspie := vsretVsstatus_eq s
  rw [Csrs.vssie, Csrs.vsspie, Csrs.vsspp, hstatus]
  exact ⟨sretFields_getLsbD .., sretFields_getLsbD .., sretFields_getLsbD .., fun _ hj => sretFields_frame _ _ hj⟩

/-- Outside Debug Mode, on a hart with S-mode, SRET does what its mode says. -/
theorem exec_sret_run {s : State} (hS : s.p.hasS = true) (hd : s.inDebug = false) :
    exec .sret s = .next s.sretRun := by
  simp [exec, execSret, State.ifPresent_true (i := .sret) hS, hd]

theorem State.sretRun_supervisor {s : State} (h : s.cur = .m ∨ s.cur = .hs ∧ s.csr.tsr = false) :
    s.sretRun = s.sretOp := by
  rcases h with h | ⟨h, ht⟩
  · simp [State.sretRun, h]
  · simp [State.sretRun, h, ht]

theorem State.sretRun_vs {s : State} (h : s.cur = .vs) (ht : s.csr.vtsr = false) : s.sretRun = s.vsretOp := by
  simp [State.sretRun, h, ht]

/-- Settles O33: from M and HS the return is `sretOp`, from VS it is `vsretOp`. -/
theorem sretReturns : Obligations.SretReturns := by
  intro s hS hd
  refine ⟨fun h => ⟨s.sretOp, ?_, rfl, rfl, rfl, rfl, s.sretOp_restores⟩,
    fun h ht => ⟨s.vsretOp, ?_, rfl, rfl, rfl, rfl, s.vsretOp_restores⟩⟩
  · rw [exec_sret_run hS hd, State.sretRun_supervisor h]
  · rw [exec_sret_run hS hd, State.sretRun_vs h ht]

/-! ### MNRET -/

theorem State.mnretOp_mstatus (s : State) : s.mnretOp.csr.mstatus = clearMprvBelow s.csr.mstatus s.mnretOp.cur := rfl

/-- The return of MNRET: what it sets and what it leaves. -/
theorem State.mnretOp_restores (s : State) :
    s.mnretOp.csr.nmie = true ∧
      (∀ j, j ≠ 3 → s.mnretOp.csr.mnstatus.getLsbD j = s.csr.mnstatus.getLsbD j) ∧
      s.mnretOp.csr.mprv = (s.csr.mprv && decide (s.mnretOp.cur = .m)) ∧
      ∀ j, j ≠ 17 → s.mnretOp.csr.mstatus.getLsbD j = s.csr.mstatus.getLsbD j := by
  refine ⟨getLsbD_setBit_self _ _ (by omega), fun j hj => ?_, ?_, fun j hj => ?_⟩
  · rw [State.mnretOp_mnstatus, getLsbD_setBit_ne _ _ hj.symm]
  · rw [Csrs.mprv, State.mnretOp_mstatus, clearMprvBelow_mprv, Csrs.mprv]
  · rw [State.mnretOp_mstatus, clearMprvBelow_getLsbD _ _ hj]

theorem exec_mnret_m {s : State} (hR : s.p.hasRnmi = true) (hd : s.inDebug = false) (hc : s.cur = .m) :
    exec .mnret s = .next s.mnretOp := by
  simp [exec, execMnret, State.ifPresent_true (i := .mnret) hR, hd, hc]

/-- Settles O34: the return is `mnretOp`. -/
theorem mnretReturns : Obligations.MnretReturns := fun s hR hd hc =>
  ⟨s.mnretOp, exec_mnret_m hR hd hc, rfl, rfl, rfl, rfl, s.mnretOp_restores⟩

/-! ### Returns that are exceptions -/

theorem encodeWord_mret : encodeWord .mret = 0x30200073 := by decide
theorem encodeWord_sret : encodeWord .sret = 0x10200073 := by decide
theorem encodeWord_mnret : encodeWord .mnret = 0x70200073 := by decide

section
variable {s : State} (hd : s.inDebug = false)
include hd

theorem exec_mret_below (hc : s.cur ≠ .m) : exec .mret s = .next (s.takeException (.illegal 0x30200073)) := by
  simp [exec, execMret, hd, hc, encodeWord_mret]

/-- MNRET below M-mode is illegal whether or not the hart has it. -/
theorem exec_mnret_below (hc : s.cur ≠ .m) : exec .mnret s = .next (s.takeException (.illegal 0x70200073)) := by
  simp [exec, execMnret, State.ifPresent, hd, hc, encodeWord_mnret]

/-- SRET in U-mode is illegal whether or not the hart has S-mode. -/
theorem exec_sret_u (hc : s.cur = .u) : exec .sret s = .next (s.takeException (.illegal 0x10200073)) := by
  simp [exec, execSret, State.ifPresent, State.sretRun, hd, hc, encodeWord_sret]

end

theorem State.sretRun_tsr {s : State} (hc : s.cur = .hs) (ht : s.csr.tsr = true) :
    s.sretRun = s.takeException (.illegal 0x10200073) := by
  simp [State.sretRun, hc, ht, encodeWord_sret]

theorem State.sretRun_virtual {s : State} (h : s.cur = .vu ∨ s.cur = .vs ∧ s.csr.vtsr = true) :
    s.sretRun = s.takeException (.virtualInstruction 0x10200073) := by
  rcases h with hc | ⟨hc, ht⟩
  · simp [State.sretRun, hc, encodeWord_sret]
  · simp [State.sretRun, hc, ht, encodeWord_sret]

/-- Settles O35, a return at a time. -/
theorem returnsBelowTheirMode : Obligations.ReturnsBelowTheirMode := by
  intro s hd
  refine ⟨exec_mret_below hd, exec_mnret_below hd, exec_sret_u hd, fun hS hc ht => ?_, fun hS h => ?_⟩
  · rw [exec_sret_run hS hd, State.sretRun_tsr hc ht]
  · rw [exec_sret_run hS hd, State.sretRun_virtual h]

end Sys2Proof.Machine
end

section
/-! Trace: the ladder of the trace controls (43 R211 to R213), and what the trace interface shows after a step of the hart
(43 R210, R215). Whatever is done to a state, the interface shows afterwards what it showed before or nothing; only
`traceStart` puts something there. -/

namespace Sys2Proof.Machine

/-! ### The ladder of the controls -/

theorem traceAllowed_of_mtrcen (f : Bool) {c : TraceCfg} (h : c.mtrcen = true) (mode : Mode) :
    traceAllowed f c mode = true := by
  cases mode <;> simp [traceAllowed, h]

/-- The control of the supervisor domain reaches every mode below M. -/
theorem traceAllowed_of_sdt (f : Bool) {c : TraceCfg} (h : c.sdt = true) {mode : Mode} (hm : mode ≠ .m) :
    traceAllowed f c mode = true := by
  cases mode with
  | m => exact absurd rfl hm
  | hs | vs | vu | u => simp [traceAllowed, h]

theorem traceAllowed_eq_false (f : Bool) {c : TraceCfg} (hm : c.mtrcen = false) (hs : c.sdt = false)
    (hv : c.vst = false) (hu : c.ust = false) (mode : Mode) : traceAllowed f c mode = false := by
  cases mode <;> simp [traceAllowed, hm, hs, hv, hu]

/-- Settles O26, a control at a time. -/
theorem traceAllowedLadder : Obligations.TraceAllowedLadder := by
  intro f c
  refine ⟨rfl, traceAllowed_of_mtrcen f, fun h mode hmem => ?_, traceAllowed_eq_false f⟩
  have hm : mode ≠ .m := by rintro rfl; simp at hmem
  rcases Bool.or_eq_true_iff.1 h with h | h
  · exact traceAllowed_of_mtrcen f h mode
  · exact traceAllowed_of_sdt f h hm

/-! ### What an update shows that was not shown before -/

/-- What `traceStart` prepares: the pc, where the hart has trace and trace is allowed (43 R210, log 16). -/
theorem State.traceStart_hti_eq_some {s : State} {a : Word} :
    s.traceStart.hti = some a ↔
      s.p.hasTrace = true ∧ traceAllowed s.p.uFollowsVs s.tcfg s.cur = true ∧ a = s.pc := by
  simp [State.traceStart, and_assoc, eq_comm (a := a)]

@[simp] theorem State.takeNmi_hti (s : State) : s.takeNmi.hti = none := by
  unfold State.takeNmi; split <;> simp

@[simp] theorem State.takeInterrupt_hti (s : State) (k : Taken) : (s.takeInterrupt k).hti = none := by
  cases k with
  | nmi => exact s.takeNmi_hti
  | interrupt code => exact s.trapTo_hti ..

@[simp] theorem State.enterByTrigger_hti (s : State) (sel : Trigger → Bool) : (s.enterByTrigger sel).hti = s.hti := by
  obtain ⟨_, he, _⟩ := s.enterByTrigger_eq sel
  simp [he]

section
variable {s t : State} {a : Word}

/-- A trap withdraws what was prepared, and `debug_fail()` leaves it. -/
theorem State.hti_of_takeException {e : Exc} (h : (s.takeException e).hti = some a) : s.hti = some a := by
  cases hd : s.inDebug
  · rw [State.takeException_run hd, State.trapTo_hti] at h
    cases h
  · rwa [State.takeException_debug hd] at h

/-- An instruction shows nothing that was not prepared before it. -/
theorem ExecEffect.hti (he : ExecEffect s t) (h : t.hti = some a) : s.hti = some a := by
  cases he with
  | exception e => exact State.hti_of_takeException h
  | enter => cases h
  | _ => simpa using h

/-- A boundary that begins with nothing shown shows only an instruction that `traceStart` lets it show. -/
theorem RunEffect.hti (hr : RunEffect s t) (h0 : s.hti = none) (h : t.hti = some a) :
    s.p.hasTrace = true ∧ traceAllowed s.p.uFollowsVs s.tcfg s.cur = true ∧ a = s.pc := by
  cases hr with
  | interrupt k => simp at h
  | triggerDebug => simp [h0] at h
  | triggerBreak | fetchFault f =>
    cases h0.symm.trans (State.hti_of_takeException (s := s.fireTriggers anyTrigger) h)
  | instr i t hx => exact State.traceStart_hti_eq_some.1 ((exec_next hx).hti h)

theorem runStep_hti (hd : s.inDebug = false) (h0 : s.hti = none) (hs : s.runStep = .next t) (h : t.hti = some a) :
    s.p.hasTrace = true ∧ traceAllowed s.p.uFollowsVs s.tcfg s.cur = true ∧ a = s.pc := by
  rcases runStep_cases hd hs with ⟨_, c, ⟨_, rfl⟩ | ⟨_, _, rfl⟩⟩ | ⟨_, u, hu, rfl⟩
  · simp [h0] at h
  · simp [h0] at h
  · exact hu.hti h0 (by simpa using h)

/-- The resume that ends a Quick Access shows nothing. -/
theorem finishQuick_hti (hf : s.finishQuick = .next t) : t.hti = s.hti := by
  rcases finishQuick_cases hf with rfl | ⟨_, _, _, hr⟩
  · rfl
  · obtain ⟨_, _, _, rfl⟩ := resume_cases hr
    rfl

/-- A step in Debug Mode shows nothing new (43 R217: nothing of Debug Mode, log 16). -/
theorem debugStep_hti (hs : s.debugStep = .next t) (h : t.hti = some a) : s.hti = some a := by
  rcases debugStep_cases hs with ⟨_, rfl⟩ | ⟨_, rfl⟩ | ⟨e, rfl⟩ | ⟨_, i, u, hx, hf⟩
  · exact h
  · exact h
  · exact State.hti_of_takeException (s := (s.fireTriggers anyTrigger).dropMatched) h
  · rw [finishQuick_hti hf] at h
    exact (exec_next hx).hti h

/-- What was shown is withdrawn when a step begins, so a step shows only what it prepares itself. -/
theorem hartStep_hti (hs : s.hartStep = .next t) (h : t.hti = some a) :
    s.inDebug = false ∧ s.p.hasTrace = true ∧ traceAllowed s.p.uFollowsVs s.tcfg s.cur = true ∧ a = s.pc := by
  unfold State.hartStep at hs
  split at hs
  · cases debugStep_hti hs h
  · rename_i hd
    have hd : s.inDebug = false := Bool.eq_false_iff.2 hd
    exact ⟨hd, runStep_hti (s := s.beginStep) hd rfl hs h⟩

end

/-- Settles O27: the turn of the hart changes nothing the interface depends on, and the hart's step shows only what it
prepares. -/
theorem traceShownOnlyWhereAllowed : Obligations.TraceShownOnlyWhereAllowed := fun s _ _ hturn hstep h =>
  hartStep_hti (s := s.popInput) (step_hart_next hturn hstep) h

end Sys2Proof.Machine
end

section
/-! The trigger registers (44 R222, R229, 41 R142): who writes DMODE, which registers the access check lets an S/HS-level
debugger reach, and that below M-mode no CSR instruction reaches one. -/

namespace Sys2Proof.Machine

/-! ### What a write does to the selected trigger -/

theorem State.selected_setSelected {s : State} {a : Trigger} (h : s.selected = some a) (b : Trigger) :
    (s.setSelected b).selected = some b := by
  obtain ⟨hlt, -⟩ := List.getElem?_eq_some_iff.1 h
  exact List.getElem?_set_self hlt

theorem dmode_position_lt (p : Params) : p.xlen - 5 < 64 := by
  unfold Params.xlen
  split <;> omega

/-- A write of `tdata1` takes DMODE from the value written where the writer has the right, and leaves it where not
(44 R222). -/
theorem State.writeTdata1_dmode {s : State} {a : Trigger} (h : s.selected = some a) (w : Word) :
    ∃ b, (s.writeTdata1 w).selected = some b ∧
      b.dmode s.p = if s.mayWriteDmode then w.getLsbD (s.p.xlen - 5) else a.dmode s.p := by
  unfold State.writeTdata1
  rw [h]
  dsimp only
  split
  · exact ⟨_, State.selected_setSelected h _, rfl⟩
  · split
    · exact ⟨a, h, rfl⟩
    · rename_i hclear
      refine ⟨_, State.selected_setSelected h _, ?_⟩
      rw [Bool.not_eq_true] at hclear
      exact (getLsbD_setBit_self w false (dmode_position_lt s.p)).trans hclear.symm

/-- A debugger below M level moves `tselect` to a delegated trigger only (44 R229). -/
theorem State.csrWrite_tselect_debug {s : State} {a : Trigger} {v : Word} (hd : s.inDebug = true) (hdap : s.dap ≠ .m)
    (h : s.trig.triggers[(s.p.toXlen v).toNat]? = some a) :
    (s.csrWrite .tselect v).trig.tselect = if a.delegated then s.p.toXlen v else s.trig.tselect := by
  have hmay : s.maySelect (s.p.toXlen v).toNat = a.delegated := by simp [State.maySelect, h, hd, hdap]
  simp only [State.csrWrite, State.writeTselect, hmay]
  split <;> rfl

/-! ### The level a trigger register needs -/

/-- The trigger registers and their numbers in the table (log 1). -/
def triggerRegisters : List (CsrNum × Csr) := [(0x7a0, .tselect), (0x7a1, .tdata1), (0x7a2, .tdata2)]

theorem triggerRegister_facts {n : CsrNum} {c : Csr} (h : (n, c) ∈ triggerRegisters) :
    n ∈ allocatedCsrNumbers ∧ csrTable.lookup n = some c ∧ n.extractLsb' 10 2 = 1 ∧ c.isTrigger = true := by
  simp only [triggerRegisters, List.mem_cons, Prod.mk.injEq, List.not_mem_nil, or_false] at h
  rcases h with ⟨rfl, rfl⟩ | ⟨rfl, rfl⟩ | ⟨rfl, rfl⟩ <;> exact ⟨by decide, rfl, rfl, rfl⟩

/-- A trigger register is at hypervisor level or at machine level (41 R142). -/
theorem State.requiredLevel_trigger (s : State) {c : Csr} (h : c.isTrigger = true) :
    s.requiredLevel c = .hs ∨ s.requiredLevel c = .m := by
  cases c with
  | tselect =>
    unfold State.requiredLevel
    dsimp only
    split <;> simp
  | tdata1 | tdata2 =>
    unfold State.requiredLevel
    dsimp only
    split
    · split <;> simp
    · exact .inr rfl
  | _ => cases h

theorem State.requiredLevel_tselect_eq_hs (s : State) :
    s.requiredLevel .tselect = .hs ↔ ∃ a ∈ s.trig.triggers, a.delegated = true := by
  simp [State.requiredLevel]

theorem State.requiredLevel_tdata_eq_hs {s : State} {a : Trigger} (h : s.selected = some a) {c : Csr}
    (hc : c = .tdata1 ∨ c = .tdata2) : s.requiredLevel c = .hs ↔ a.delegated = true := by
  rcases hc with rfl | rfl <;> simp [State.requiredLevel, h]

/-! ### The access check -/

/-- A debugger at S/HS level reaches a trigger register where that is at its level (41 R142). -/
theorem State.csrCheck_trigger_hs {s : State} (hv : s.p.valid = true) (hs : s.p.hasSdtrig = true)
    (hd : s.inDebug = true) (hdap : s.dap = .hs) {n : CsrNum} {c : Csr} (h : (n, c) ∈ triggerRegisters) (w : Bool) :
    s.csrCheck n w = .ok c ↔ s.requiredLevel c = .hs := by
  obtain ⟨halloc, hlookup, hbits, htrig⟩ := triggerRegister_facts h
  have hn : csrNamed s.p n = some c := (csrNamed_fixed hv halloc).trans hlookup
  have hown : c.vsCopy = c ∧ csrImplemented s.p c = s.p.hasSdtrig ∧ s.debugAccessible c = true := by
    cases c with
    | tselect | tdata1 | tdata2 => exact ⟨rfl, rfl, rfl⟩
    | _ => cases htrig
  obtain ⟨hcopy, himpl, hacc⟩ := hown
  rw [State.csrCheck_debug_named hd hn (by simp [csrReadOnly, hbits]) hcopy, himpl, hacc, hdap]
  rcases s.requiredLevel_trigger htrig with hlevel | hlevel <;> simp [hlevel, hs, Level.rank]

/-- Outside Debug Mode and below M-mode no access reaches a trigger register, whether its trigger is delegated or not
(log 27). -/
theorem State.csrCheck_trigger_run {s : State} (hd : s.inDebug = false) (hcur : s.cur ≠ .m) {n : CsrNum} {c : Csr}
    (hn : csrNamed s.p n = some c) (htrig : c.isTrigger = true) (w : Bool) : s.csrCheck n w = .illegal := by
  rw [State.csrCheck, if_neg (Bool.eq_false_iff.1 hd)]
  unfold State.csrCheckRun
  cases hl : csrLookup s.p n with
  | none => rfl
  | some d =>
    obtain rfl : c = d := Option.some.inj (hn.symm.trans (csrLookup_eq_some.1 hl).1)
    simp only [htrig, if_true]
    split
    · rfl
    split
    · rfl
    cases hmode : s.cur with
    | m => exact absurd hmode hcur
    | u => simp
    | hs | vs | vu =>
      rcases s.requiredLevel_trigger htrig with hlevel | hlevel <;> simp [hlevel]

/-- Settles O24, a clause at a time: the write of DMODE, the data registers, the modes below M, and `tselect`. -/
theorem triggerRegisterRights : Obligations.TriggerRegisterRights := by
  intro s v
  refine ⟨fun a ha => ⟨s.writeTdata1_dmode ha (s.p.toXlen v), fun hv hs hd hdap w => ?data⟩,
    fun hv hd hcur n hn rd x i hi => ?below, fun hv hs hd hdap => ⟨fun w => ?reach, fun k a hk ha => ?select⟩⟩
  case data =>
    constructor
    · rw [State.csrCheck_trigger_hs hv hs hd hdap (by simp [triggerRegisters]),
        State.requiredLevel_tdata_eq_hs ha (.inl rfl)]
    · rw [State.csrCheck_trigger_hs hv hs hd hdap (by simp [triggerRegisters]),
        State.requiredLevel_tdata_eq_hs ha (.inr rfl)]
  case below =>
    obtain ⟨⟨_, c⟩, hc, rfl⟩ := List.mem_map.1 (show n ∈ triggerRegisters.map Prod.fst from hn)
    obtain ⟨halloc, hlookup, -, htrig⟩ := triggerRegister_facts hc
    exact exec_csr_illegal hi (State.csrCheck_trigger_run hd hcur ((csrNamed_fixed hv halloc).trans hlookup) htrig)
  case reach =>
    rw [State.csrCheck_trigger_hs hv hs hd hdap (by simp [triggerRegisters]), State.requiredLevel_tselect_eq_hs]
  case select =>
    subst hk
    exact State.csrWrite_tselect_debug hd (by simp [hdap]) ha

end Sys2Proof.Machine
end

section
/-! What triggers do at a step of the hart (44 R220, R223, R224): where debug is disallowed the gated ones are inert, and
where the hart halts for an external trigger, or is halted, every external trigger whose input is asserted fires. -/

namespace Sys2Proof.Machine

/-! ### Which triggers fire -/

/-- A trigger is gated where it is external or its ACTION enters Debug Mode or drives an output (44 R220, R223, R224). -/
def Trigger.gated (p : Params) (a : Trigger) : Prop := a.isExt p = true ∨ isDebugAction (a.action p) = true

/-- A trigger among those that fire fires at some place. -/
theorem State.triggerFires_of_mem_firingFrom {s : State} {sel : Trigger → Bool} {a : Trigger} (k : Nat)
    (ts : List Trigger) (h : a ∈ s.firingFrom sel k ts) : ∃ j, s.triggerFires j a = true := by
  induction ts generalizing k with
  | nil => cases h
  | cons b ts ih =>
    unfold State.firingFrom at h
    split at h
    · rename_i hb
      rcases List.mem_cons.1 h with rfl | h
      · exact ⟨k, (Bool.and_eq_true_iff.1 hb).2⟩
      · exact ih _ h
    · exact ih _ h

/-- An external trigger with an asserted input fires in a debug-allowed state (44 R224). -/
theorem State.triggerFires_ext {s : State} {a : Trigger} (hs : s.p.hasSdtrig = true)
    (ha : s.debugAllowedState = true) (he : a.isExt s.p = true) (hin : a.select &&& s.trig.extIn ≠ 0) (k : Nat) :
    s.triggerFires k a = true := by
  simpa [State.triggerFires, hs, ha, he] using hin

/-! ### What firing does -/

/-- Triggers none of which is external acknowledge nothing. -/
theorem acknowledged_eq_zero {p : Params} {ts : List Trigger} (h : ∀ a ∈ ts, a.isExt p = false) :
    acknowledged p ts = 0 := by
  induction ts with
  | nil => rfl
  | cons a ts ih =>
    obtain ⟨ha, hts⟩ := List.forall_mem_cons.1 h
    simp [acknowledged, ha, ih hts]

/-- Triggers none of which has a gated ACTION assert no output. -/
theorem outputs_eq_zero {p : Params} {ts : List Trigger} (h : ∀ a ∈ ts, isDebugAction (a.action p) = false) :
    outputs p ts = 0 := by
  induction ts with
  | nil => rfl
  | cons a ts ih =>
    obtain ⟨ha, hts⟩ := List.forall_mem_cons.1 h
    have h8 : a.action p ≠ 8 := by rintro h8; simp [isDebugAction, h8] at ha
    have h9 : a.action p ≠ 9 := by rintro h9; simp [isDebugAction, h9] at ha
    rw [outputs, if_neg h8, if_neg h9, ih hts]
    rfl

/-- A trigger after firing: hit where it was selected and fired, and otherwise what it was. -/
theorem State.fireTriggers_getElem? {s : State} (sel : Trigger → Bool) {k : Nat} {a : Trigger}
    (hk : s.trig.triggers[k]? = some a) :
    (s.fireTriggers sel).trig.triggers[k]? =
      some (if sel a && s.triggerFires k a then { a with hit := true } else a) := by
  have h := State.markHits_getElem? (s := s) sel (k := 0) hk
  rwa [Nat.zero_add] at h

/-- In a debug-disallowed mode firing acknowledges nothing, asserts nothing and leaves the gated triggers. -/
theorem State.fireTriggers_disallowed {s : State} (hd : s.inDebug = false) (ha : s.allowed = false)
    (sel : Trigger → Bool) :
    (s.fireTriggers sel).trig.extIn = s.trig.extIn ∧ (s.fireTriggers sel).trig.extOut = s.trig.extOut ∧
      ∀ (k : Nat) (a : Trigger), s.trig.triggers[k]? = some a → a.gated s.p →
        (s.fireTriggers sel).trig.triggers[k]? = some a := by
  have hfiring : ∀ a ∈ s.firing sel, ¬ a.gated s.p := by
    intro a hmem hg
    obtain ⟨j, hj⟩ := State.triggerFires_of_mem_firingFrom 0 _ hmem
    simp [State.triggerFires_gated hd ha j a hg] at hj
  have hack : acknowledged s.p (s.firing sel) = 0 :=
    acknowledged_eq_zero fun a hmem => Bool.eq_false_iff.2 fun he => hfiring a hmem (.inl he)
  have hout : outputs s.p (s.firing sel) = 0 :=
    outputs_eq_zero fun a hmem => Bool.eq_false_iff.2 fun he => hfiring a hmem (.inr he)
  refine ⟨?_, ?_, fun k a hk hg => ?_⟩
  · change s.trig.extIn &&& ~~~(acknowledged s.p (s.firing sel)) = s.trig.extIn
    rw [hack]
    exact BitVec.and_allOnes
  · simp [State.fireTriggers, hout]
  · simp [State.fireTriggers_getElem? sel hk, State.triggerFires_gated hd ha k a hg]

/-- In a debug-allowed state a selected external trigger with an asserted input fires: its inputs are acknowledged, its hit
bit is set and its output is asserted (44 R223, R224). -/
theorem State.fireTriggers_ext {s : State} {sel : Trigger → Bool} {k : Nat} {a : Trigger} (hs : s.p.hasSdtrig = true)
    (ha : s.debugAllowedState = true) (hk : s.trig.triggers[k]? = some a) (hsel : sel a = true)
    (he : a.isExt s.p = true) (hin : a.select &&& s.trig.extIn ≠ 0) :
    a.select &&& (s.fireTriggers sel).trig.extIn = 0 ∧
      (s.fireTriggers sel).trig.triggers[k]? = some { a with hit := true } ∧
      (a.action s.p = 8 → (s.fireTriggers sel).trig.extOut.getLsbD 0 = true) ∧
      (a.action s.p = 9 → (s.fireTriggers sel).trig.extOut.getLsbD 1 = true) := by
  have hfires : ∀ j, s.triggerFires j a = true := State.triggerFires_ext hs ha he hin
  have hmem : a ∈ s.firing sel := State.mem_firingFrom hk hsel (hfires _)
  obtain ⟨hout8, hout9⟩ := outputs_getLsbD (p := s.p) hmem
  refine ⟨select_acknowledged hmem he _, ?_, fun h => ?_, fun h => ?_⟩
  · simp [State.fireTriggers_getElem? sel hk, hsel, hfires]
  · simp [State.fireTriggers, hout8 h]
  · simp [State.fireTriggers, hout9 h]

@[simp] theorem State.enterByTrigger_trig (s : State) (sel : Trigger → Bool) :
    (s.enterByTrigger sel).trig = (s.fireTriggers sel).trig := by
  obtain ⟨_, he, _⟩ := s.enterByTrigger_eq sel
  simp [he]

@[simp] theorem State.enterByTrigger_inDebug (s : State) (sel : Trigger → Bool) :
    (s.enterByTrigger sel).inDebug = true := by
  obtain ⟨_, he, _⟩ := s.enterByTrigger_eq sel
  simp [he]

/-! ### What an instruction leaves of the trigger module -/

/-- The inputs, the outputs and the hit bits are the same: a write of a trigger register reaches none of them. -/
def TriggerModule.sameSignals (x y : TriggerModule) : Prop :=
  y.extIn = x.extIn ∧ y.extOut = x.extOut ∧ y.triggers.map Trigger.hit = x.triggers.map Trigger.hit

theorem TriggerModule.sameSignals.of_eq {x y : TriggerModule} (h : y = x) : x.sameSignals y := by
  subst h
  exact ⟨rfl, rfl, rfl⟩

theorem TriggerModule.sameSignals.hit {x y : TriggerModule} (h : x.sameSignals y) {k : Nat} {a b : Trigger}
    (ha : x.triggers[k]? = some a) (hb : y.triggers[k]? = some b) : b.hit = a.hit := by
  obtain ⟨-, -, hmap⟩ := h
  simpa [ha, hb] using congrArg (·[k]?) hmap

/-- A selected trigger replaced by one with the same hit bit. -/
theorem State.setSelected_sameSignals {s : State} {a b : Trigger} (h : s.selected = some a) (hb : b.hit = a.hit) :
    s.trig.sameSignals (s.setSelected b).trig := by
  obtain ⟨hlt, hget⟩ := List.getElem?_eq_some_iff.1 h
  refine ⟨rfl, rfl, ?_⟩
  have hset := List.set_getElem_self (as := s.trig.triggers.map Trigger.hit) (i := s.trig.tselect.toNat) (by simpa)
  simpa [State.setSelected, List.map_set, hb, hget] using hset

theorem State.csrWrite_sameSignals (s : State) (c : Csr) (v : Word) : s.trig.sameSignals (s.csrWrite c v).trig := by
  cases c with
  | tselect =>
    simp only [State.csrWrite, State.writeTselect]
    split <;> exact ⟨rfl, rfl, rfl⟩
  | tdata1 =>
    simp only [State.csrWrite, State.writeTdata1]
    split
    · exact .of_eq rfl
    · rename_i h
      split
      · exact State.setSelected_sameSignals h rfl
      · split
        · exact .of_eq rfl
        · exact State.setSelected_sameSignals h rfl
  | tdata2 =>
    simp only [State.csrWrite, State.writeTdata2]
    split
    · exact .of_eq rfl
    · rename_i h
      split
      · exact State.setSelected_sameSignals h rfl
      · exact .of_eq rfl
  | _ => exact .of_eq (by simp [State.csrWrite])

theorem ExecEffect.sameSignals {s t : State} (h : ExecEffect s t) : s.trig.sameSignals t.trig := by
  cases h with
  | csrWrite n c rd v => simpa using s.csrWrite_sameSignals c v
  | _ => exact .of_eq (by simp)

/-! ### A step in a debug-disallowed mode -/

/-- Before the step check nothing but the firing of the triggers has touched inputs, outputs or hit bits, and with an
interrupt not even that. -/
theorem RunEffect.sameSignals {s u : State} (ha : s.allowed = false) (h : RunEffect s u) :
    s.trig.sameSignals u.trig ∨ (s.fireTriggers anyTrigger).trig.sameSignals u.trig := by
  cases h with
  | interrupt k => exact .inl (.of_eq (by simp))
  | triggerDebug hallowed => exact absurd (ha.symm.trans hallowed) Bool.false_ne_true
  | triggerBreak | fetchFault f => exact .inr (.of_eq (by simp))
  | instr i u h => exact .inr (exec_next h).sameSignals

/-- At a boundary in a debug-disallowed mode the gated triggers are inert (44 R220, R223, R224). -/
theorem runStep_gated_inert {s t : State} (hd : s.inDebug = false) (ha : s.allowed = false) (h : s.runStep = .next t) :
    t.trig.extIn = s.trig.extIn ∧ t.trig.extOut = s.trig.extOut ∧
      ∀ (k : Nat) (a b : Trigger), s.trig.triggers[k]? = some a → t.trig.triggers[k]? = some b → a.gated s.p →
        b.hit = a.hit := by
  rcases runStep_cases hd h with ⟨hallowed, -⟩ | ⟨-, u, hu, rfl⟩
  · exact absurd (ha.symm.trans hallowed) Bool.false_ne_true
  obtain ⟨hin, hout, hgated⟩ := State.fireTriggers_disallowed hd ha anyTrigger
  simp only [State.dropMatched_extIn, State.dropMatched_extOut, State.dropMatched_triggers, State.stepCheck_trig]
  rcases hu.sameSignals ha with hsame | hsame
  · have ⟨hin', hout', _⟩ := hsame
    exact ⟨hin', hout', fun k a b hk hb _ => hsame.hit hk hb⟩
  · have ⟨hin', hout', _⟩ := hsame
    exact ⟨hin'.trans hin, hout'.trans hout, fun k a b hk hb hg => hsame.hit (hgated k a hk hg) hb⟩

/-! ### Halting for an external trigger, and halted -/

/-- A firing external trigger with ACTION 1 halts the hart where debug is allowed and no request goes first (44 R224,
60 R248). -/
theorem runStep_of_extHalt {s : State} {e : Trigger} (hs : s.p.hasSdtrig = true) (ha : s.allowed = true)
    (hreq : s.haltRequestCause = none) (hmem : e ∈ s.trig.triggers)
    (he : extHalt s.p e = true) (hin : e.select &&& s.trig.extIn ≠ 0) :
    s.runStep = .next (s.enterByTrigger (Trigger.isExt s.p)).dropMatched := by
  obtain ⟨k, hk⟩ := List.getElem?_of_mem hmem
  have hext : e.isExt s.p = true := (Bool.and_eq_true_iff.1 he).1
  have hok : s.debugAllowedState = true := by simp [State.debugAllowedState, ha]
  have hne : s.firing (extHalt s.p) ≠ [] :=
    List.ne_nil_of_mem (State.mem_firingFrom hk he (State.triggerFires_ext hs hok hext hin _))
  simp [State.runStep, State.haltAtBoundary, ha, hreq, hne]

/-- A halted hart with its Program Buffer idle fires its triggers and stays halted. -/
theorem debugStep_idle {s t : State} (hd : s.inDebug = true) (hrun : s.dm.pbRun = false) (h : s.debugStep = .next t) :
    t.inDebug = true ∧ t.trig = (s.fireTriggers anyTrigger).dropMatched.trig := by
  rcases debugStep_cases h with ⟨_, rfl⟩ | ⟨hbusy, _⟩ | ⟨e, rfl⟩ | ⟨hbusy, _⟩
  · exact ⟨hd, rfl⟩
  · exact absurd (hrun.symm.trans hbusy) Bool.false_ne_true
  · rw [State.takeException_debug (s := (s.fireTriggers anyTrigger).dropMatched) hd]
    exact ⟨hd, rfl⟩
  · exact absurd (hrun.symm.trans hbusy) Bool.false_ne_true

/-- Either way the hart is in Debug Mode after the step, and a selection that leaves out no external trigger has fired. -/
theorem hartStep_fires_ext {s t : State} (hs : s.p.hasSdtrig = true)
    (hwhere : s.inDebug = true ∧ s.dm.pbRun = false ∨ s.inDebug = false ∧ s.allowed = true ∧ s.haltRequestCause = none ∧
      ∃ e ∈ s.trig.triggers, extHalt s.p e = true ∧ e.select &&& s.trig.extIn ≠ 0)
    (h : s.hartStep = .next t) :
    s.debugAllowedState = true ∧ t.inDebug = true ∧ ∃ sel, (∀ a, a.isExt s.p = true → sel a = true) ∧
      t.trig = (s.beginStep.fireTriggers sel).dropMatched.trig := by
  rcases hwhere with ⟨hd, hrun⟩ | ⟨hd, ha, hreq, e, hmem, he, hin⟩
  · have hstep : s.beginStep.debugStep = .next t := (if_pos hd).symm.trans h
    obtain ⟨hdt, htrig⟩ := debugStep_idle (s := s.beginStep) hd hrun hstep
    exact ⟨by simp [State.debugAllowedState, hd], hdt, anyTrigger, fun _ _ => rfl, htrig⟩
  · rw [hartStep_run hd, runStep_of_extHalt (s := s.beginStep) hs ha hreq hmem he hin] at h
    cases h
    refine ⟨by simp [State.debugAllowedState, ha], by simp, Trigger.isExt s.p, fun _ h => h, ?_⟩
    simp [State.dropMatched]

/-- Settles O25: the first clause is `runStep_gated_inert`, the second what firing does to an external trigger. -/
theorem gatedTriggersInert : Obligations.GatedTriggersInert := by
  intro s t hturn hstep
  have h : s.popInput.hartStep = .next t := step_hart_next hturn hstep
  refine ⟨fun hd ha => ?disallowed, fun hs hwhere => ?allowed⟩
  case disallowed =>
    rw [hartStep_run (s := s.popInput) hd] at h
    exact runStep_gated_inert (s := s.popInput.beginStep) hd ha h
  case allowed =>
    obtain ⟨hok, hdt, sel, hsel, htrig⟩ := hartStep_fires_ext (s := s.popInput) hs hwhere h
    rw [htrig]
    exact ⟨hdt, fun k a hk he hin =>
      State.fireTriggers_ext (s := s.popInput.beginStep) hs hok hk (hsel a he) he hin⟩

end Sys2Proof.Machine
end

section
/-! Entry to Debug Mode (60 R236, R237) and the single step (60 R242 to R245). A step of a running hart either ends in an
entry to Debug Mode made where debug is allowed, whatever its cause, or it neither enters nor touches the armed step; the
step check settles which of the two an armed step in a debug-allowed mode is. -/

namespace Sys2Proof.Machine

/-! ### How a step of a running hart ends -/

/-- The hart is in Debug Mode as an entry in a debug-allowed mode leaves it: PRV, V and `dpc` name the mode and the pc of
the entry, and no step is owed (60 R236). -/
structure State.JustEntered (t : State) : Prop where
  inDebug : t.inDebug = true
  allowed : t.allowed = true
  prv : t.dbg.prv = t.cur.prv
  v : t.dbg.v = t.cur.virt
  dpc : t.dbg.dpc = pcMask t.p t.pc
  stepArmed : t.stepArmed = false

/-- What happens to a running hart before the step check: an entry to Debug Mode, or it runs on and a step armed stays
armed. -/
def BoundaryEnd (s t : State) : Prop := t.JustEntered ∨ t.inDebug = false ∧ t.stepArmed = s.stepArmed

/-- What has happened after the step check: a hart that runs on with its step armed does so where debug is disallowed
(60 R242, R243). -/
def StepEnd (s t : State) : Prop :=
  t.JustEntered ∨ t.inDebug = false ∧ t.stepArmed = s.stepArmed ∧ (t.stepArmed = true → t.allowed = false)

/-- The triggers, the Debug Module and the trace interface are no part of an entry. -/
theorem State.JustEntered.aside {s : State} (h : s.JustEntered) (x : TriggerModule) (d : DebugModule)
    (shown : Option Word) : { s with trig := x, dm := d, hti := shown }.JustEntered :=
  ⟨h.inDebug, h.allowed, h.prv, h.v, h.dpc, h.stepArmed⟩

theorem State.enterDebug_justEntered {s : State} (ha : s.allowed = true) (c : DebugCause) :
    (s.enterDebug c).JustEntered :=
  ⟨rfl, ha, s.enterDebug_prv c, s.enterDebug_v c, rfl, rfl⟩

theorem State.enterByTrigger_justEntered {s : State} (ha : s.allowed = true) (sel : Trigger → Bool) :
    (s.enterByTrigger sel).JustEntered := by
  obtain ⟨_, he, _⟩ := s.enterByTrigger_eq sel
  have ha' : (s.fireTriggers sel).allowed = true := (s.fireTriggers_allowed sel).trans ha
  rw [he]
  exact (State.enterDebug_justEntered ha' .trigger).aside _ _ _

/-! ### Instructions, interrupts and triggers -/

section
variable {s t : State} (hd : s.inDebug = false)
include hd

/-- Of the instructions only an EBREAK enters Debug Mode, where debug is allowed; none touches the armed step. -/
theorem ExecEffect.boundaryEnd (h : ExecEffect s t) : BoundaryEnd s t := by
  cases h with
  | enter _ ha => exact .inl ((State.enterDebug_justEntered ha .ebreak).aside _ _ _)
  | failed h | bufferEnd h | nop h => exact absurd (hd.symm.trans h) Bool.false_ne_true
  | _ => exact .inr ⟨by simpa using hd, by simp⟩

theorem RunEffect.boundaryEnd (h : RunEffect s t) : BoundaryEnd s t := by
  cases h with
  | triggerDebug ha => exact .inl (State.enterByTrigger_justEntered ha _)
  | instr i t hx => exact (exec_next hx).boundaryEnd (s := (s.fireTriggers anyTrigger).traceStart) hd
  | _ => exact .inr ⟨by simpa using hd, by simp⟩

end

/-! ### The step check (60 R242) -/

theorem State.stepCheck_enters {s : State} (hd : s.inDebug = false) (harmed : s.stepArmed = true)
    (ha : s.allowed = true) : s.stepCheck = s.enterDebug .step := by
  simp [State.stepCheck, hd, harmed, ha]

theorem State.stepCheck_debug {s : State} (hd : s.inDebug = true) : s.stepCheck = s := by
  simp [State.stepCheck, hd]

/-- The hart runs on where no step is armed, and in a debug-disallowed mode (60 R243). -/
theorem State.stepCheck_runsOn {s : State} (h : s.stepArmed = true → s.allowed = false) : s.stepCheck = s := by
  cases harmed : s.stepArmed with
  | false => simp [State.stepCheck, harmed]
  | true => simp [State.stepCheck, h harmed]

/-- The step check enters Debug Mode from every state in which a running hart could still stop. -/
theorem BoundaryEnd.stepCheck {s u : State} (h : BoundaryEnd s u) : StepEnd s u.stepCheck := by
  rcases h with he | ⟨hd, harmed⟩
  · rw [State.stepCheck_debug he.inDebug]
    exact .inl he
  · by_cases hstop : u.stepArmed = true ∧ u.allowed = true
    · obtain ⟨hu, ha⟩ := hstop
      rw [State.stepCheck_enters hd hu ha]
      exact .inl (State.enterDebug_justEntered ha .step)
    · have hon : u.stepArmed = true → u.allowed = false := fun hu => Bool.eq_false_iff.2 fun ha => hstop ⟨hu, ha⟩
      rw [State.stepCheck_runsOn hon]
      exact .inr ⟨hd, harmed, hon⟩

/-- A step of the hart outside Debug Mode: halted at the boundary, or through the step check. -/
theorem runStep_stepEnd {s t : State} (hd : s.inDebug = false) (h : s.runStep = .next t) : StepEnd s t := by
  rcases runStep_cases hd h with ⟨ha, c, ⟨_, rfl⟩ | ⟨_, _, rfl⟩⟩ | ⟨_, u, hu, rfl⟩
  · exact .inl ((State.enterDebug_justEntered ha c).aside _ _ _)
  · exact .inl ((State.enterByTrigger_justEntered ha _).aside _ _ _)
  · exact (hu.boundaryEnd hd).stepCheck.imp_left fun he => he.aside _ _ _

theorem hartStep_stepEnd {s t : State} (hd : s.inDebug = false) (h : s.hartStep = .next t) : StepEnd s t := by
  rw [hartStep_run hd] at h
  exact runStep_stepEnd (s := s.beginStep) hd h

/-! ### The agents -/

theorem commandOnRunning_inDebug {s t : State} (h : s.commandOnRunning = .next t) : t.inDebug = s.inDebug := by
  unfold State.commandOnRunning at h
  split at h
  · cases h
  · split at h <;> cases h
    rfl

/-- Of the agents' actions on a running hart only a Quick Access enters Debug Mode, by a halt of 40 R102. -/
theorem act_enters {s t : State} {e : Event} (hd : s.inDebug = false) (he : e ≠ .hart) (h : s.act e = .next t)
    (ht : t.inDebug = true) : t.JustEntered := by
  have hrunning : t.inDebug = s.inDebug → t.JustEntered :=
    fun hsame => absurd (hd.symm.trans (hsame.symm.trans ht)) Bool.false_ne_true
  have hcommand : ∀ f, s.whenHalted f = .next t → t.JustEntered := by
    intro f hf
    rcases whenHalted_cases hf with ⟨_, hc⟩ | ⟨hd', _⟩
    · exact hrunning (commandOnRunning_inDebug hc)
    · exact absurd (hd.symm.trans hd') Bool.false_ne_true
  cases e with
  | hart => exact absurd rfl he
  | setMdbgen b => exact hrunning (driveMdbgen_inDebug h)
  | resume => simp [State.act, State.resumeRequest, hd] at h
  | accessRegister r write => exact hcommand (fun u => .next (u.accessRegister r write)) h
  | accessMemory addr size write => exact hcommand (fun u => u.accessMemorySized addr size write) h
  | runProgBuf => exact hcommand (fun u => .next u.startProgBuf) h
  | quickAccess =>
    by_cases ha : s.allowed = true
    · simp only [State.act, State.quickAccess, hd, ha, Bool.false_eq_true, if_true, if_false] at h
      cases h
      exact (State.enterDebug_justEntered ha .haltreq).aside _ _ _
    · simp only [State.act, State.quickAccess, hd, ha, Bool.false_eq_true, if_false] at h
      exact hrunning (commandOnRunning_inDebug h)
  | writeProgBuf bytes =>
    simp only [State.act, State.fillProgBuf] at h
    split at h <;> cases h
    exact hrunning rfl
  | delegateTrigger i b => cases h; exact hrunning (by simp)
  | _ => cases h; exact hrunning rfl

/-! ### The statements -/

/-- Settles O46: a boundary that ends in Debug Mode ends in an entry, and among the agents only a Quick Access makes one. -/
theorem debugEntryOnlyWhereAllowed : Obligations.DebugEntryOnlyWhereAllowed := by
  intro s t hd h ht
  have hentered : t.JustEntered := by
    rcases (step_cases h).2 with ⟨_, h⟩ | ⟨e, rest, _, he, h⟩
    · rcases hartStep_stepEnd (s := s.popInput) hd h with hend | ⟨hrun, _⟩
      · exact hend
      · exact absurd (hrun.symm.trans ht) Bool.false_ne_true
    · exact act_enters (s := { s with inputs := rest }) hd he h ht
  exact ⟨hentered.allowed, hentered.prv, hentered.v, hentered.dpc, hentered.stepArmed⟩

/-- Settles O49: an entry pays the step, and a hart that runs on past the step check owes it in a debug-disallowed mode. -/
theorem armedStepStopsWhereAllowed : Obligations.ArmedStepStopsWhereAllowed := by
  intro s t hturn hd harmed h
  rcases hartStep_stepEnd (s := s.popInput) hd (step_hart_next hturn h) with hend | ⟨hrun, hkept, hdisallowed⟩
  · exact .inl ⟨hend.inDebug, hend.stepArmed⟩
  · have harmed' : t.stepArmed = true := hkept.trans harmed
    exact .inr ⟨hrun, harmed', hdisallowed harmed'⟩

end Sys2Proof.Machine
end

section
/-! The order of events at a boundary (60 R248): what goes before an interrupt and before the instruction at the pc, which
interrupt is ready under a single step (60 R246), what taking one does, and MRET under a single step (60 R244, R245). -/

namespace Sys2Proof.Machine

/-! ### Past the requests and the external triggers -/

theorem State.haltRequestCause_eq_none {s : State} :
    s.haltRequestCause = none ↔
      s.resetHaltPending = false ∧ s.groupHaltPending = false ∧ s.haltPending = false := by
  unfold State.haltRequestCause
  cases s.resetHaltPending <;> cases s.groupHaltPending <;> cases s.haltPending <;> simp

/-- Nothing halts the hart at the boundary: in a debug-allowed mode that is no request and no external trigger with
ACTION 1 (60 R248). -/
theorem State.haltAtBoundary_eq_none {s : State} :
    s.haltAtBoundary = none ↔
      (s.allowed = true → s.haltRequestCause = none ∧ s.firing (extHalt s.p) = []) := by
  unfold State.haltAtBoundary
  cases s.allowed <;> cases s.haltRequestCause <;> simp

section
variable (s : State)

/-- The turn of the hart and the withdrawal of what the last step showed change nothing a trigger looks at. -/
theorem State.firing_atBoundary (sel : Trigger → Bool) : s.popInput.beginStep.firing sel = s.firing sel :=
  State.firing_congr (s := s) (t := s.popInput.beginStep) rfl rfl rfl rfl rfl rfl sel

theorem State.haltAtBoundary_atBoundary : s.popInput.beginStep.haltAtBoundary = none ↔ s.haltAtBoundary = none := by
  rw [State.haltAtBoundary_eq_none, State.haltAtBoundary_eq_none, State.firing_atBoundary]
  rfl

theorem State.pickInterrupt_atBoundary : s.popInput.beginStep.pickInterrupt = s.pickInterrupt := rfl

end

/-- Where nothing halts the hart, the step is an interrupt or an instruction, and then the step check (60 R248). -/
theorem step_past_halt {s : State} (hv : s.p.valid = true) (hturn : s.hartTurn) (hd : s.inDebug = false)
    (hhalt : s.haltAtBoundary = none) :
    step s = onNext s.popInput.beginStep.interruptOrInstr fun t => t.stepCheck.dropMatched := by
  rw [step_hart hv hturn, hartStep_run (s := s.popInput) hd, State.runStep, s.haltAtBoundary_atBoundary.2 hhalt]

/-! ### The instruction at the pc -/

theorem State.interruptOrInstr_none {s : State} (h : s.pickInterrupt = none) :
    s.interruptOrInstr = s.triggersThenInstr := by
  unfold State.interruptOrInstr
  rw [h]

theorem State.triggersThenInstr_nil {s : State} (h : s.firing anyTrigger = []) : s.triggersThenInstr = s.runInstr := by
  simp [State.triggersThenInstr, h, State.fireTriggers_nil h]

theorem State.runInstr_of_fetch {s : State} {i : Instr} (h : s.fetch = .instr i) : s.runInstr = exec i s.traceStart := by
  unfold State.runInstr
  rw [h]

/-- Settles O4: at a quiet boundary nothing halts the hart, no interrupt is picked and no trigger fires, so the hart
fetches and executes. -/
theorem stepRunsDecodedInstruction : Obligations.StepRunsDecodedInstruction := by
  intro s i bytes hquiet hbytes hdec
  obtain ⟨hv, hturn, hd, hhalt, hreset, hgroup, hfire, hpick⟩ := hquiet
  have hnohalt : s.haltAtBoundary = none :=
    State.haltAtBoundary_eq_none.2 fun _ =>
      ⟨State.haltRequestCause_eq_none.2 ⟨hreset, hgroup, hhalt⟩, State.firing_nil hfire _⟩
  have hfetch : s.popInput.beginStep.fetch = .instr i :=
    State.fetch_instr ((State.fetchBytes_congr (s := s) (t := s.popInput.beginStep) rfl rfl rfl rfl rfl _ _).trans
      hbytes) hdec
  rw [step_past_halt hv hturn hd hnohalt, State.interruptOrInstr_none (s.pickInterrupt_atBoundary.trans hpick),
    State.triggersThenInstr_nil ((s.firing_atBoundary _).trans hfire), State.runInstr_of_fetch hfetch]
  rfl

/-! ### MRET under a single step -/

/-- Settles O50: the step ends with the step check in the mode and at the pc that MRET returns to. -/
theorem mretUnderSingleStep : Obligations.MretUnderSingleStep := by
  intro s bytes dst hquiet hcur harmed hbytes hdec hdst
  have hd : s.inDebug = false := by
    obtain ⟨_, _, hd, _⟩ := hquiet
    exact hd
  have hstep : step s = .next s.atInstr.mretOp.stepCheck.dropMatched := by
    rw [stepRunsDecodedInstruction s .mret bytes hquiet hbytes hdec, exec_mret_m (s := s.atInstr) hd hcur]
    rfl
  have hallowed : s.atInstr.mretOp.allowed = s.allowedIn dst := by
    rw [hdst]
    rfl
  refine ⟨_, hstep, fun ha => ?_, fun ha => ?_⟩
  · rw [State.stepCheck_enters (s := s.atInstr.mretOp) hd harmed (hallowed.trans ha), hdst]
    exact ⟨rfl, rfl, pcMask_idem _ _, State.enterDebug_prv _ _, State.enterDebug_v _ _, State.enterDebug_cause _ _⟩
  · rw [State.stepCheck_runsOn fun _ => hallowed.trans ha, hdst]
    exact ⟨hd, harmed, rfl, rfl⟩

/-! ### Which interrupt is ready (60 R246) -/

theorem State.stepMasks_eq_true {s : State} {dest : Mode} :
    s.stepMasks dest = true ↔
      s.stepArmed = true ∧ s.allowed = true ∧ s.dbg.stepie = false ∧ s.allowedIn dest = true := by
  simp [State.stepMasks, and_assoc]

/-- A step masks no interrupt bound for a debug-disallowed mode, whatever `dcsr` holds. -/
theorem State.stepMasks_dest_disallowed {s : State} {dest : Mode} (h : s.allowedIn dest = false) :
    s.stepMasks dest = false := by
  simp [State.stepMasks, h]

theorem State.interruptReady_iff {s : State} {code : Nat} :
    s.interruptReady code = true ↔
      (s.csr.mip.getLsbD code = true ∧ s.csr.mie.getLsbD code = true ∧ s.nmieOpen = true ∧
        s.interruptEnabled (s.interruptDest code) = true) ∧ ¬ s.stepMasks (s.interruptDest code) = true := by
  simp [State.interruptReady, and_assoc]

theorem State.nmiReady_iff {s : State} :
    s.nmiReady = true ↔ s.nmiPending = true ∧ s.nmieOpen = true ∧ ¬ s.stepMasks .m = true := by
  simp [State.nmiReady, and_assoc]

/-- An interrupt bound for a debug-disallowed mode is ready from every `dcsr` alike. -/
theorem State.interruptReady_withDcsr_of_dest {s : State} {code : Nat}
    (h : s.allowedIn (s.interruptDest code) = false) (w : BitVec 32) :
    (s.withDcsr w).interruptReady code = s.interruptReady code := by
  have h' : (s.withDcsr w).allowedIn ((s.withDcsr w).interruptDest code) = false := h
  unfold State.interruptReady
  rw [State.stepMasks_dest_disallowed h, State.stepMasks_dest_disallowed h']
  rfl

/-! ### Which interrupt is picked -/

theorem State.firstReady_ready {s : State} {dest : Mode} {c : Nat} (h : s.firstReady dest = some c) :
    s.interruptReady c = true := by
  have hfound := List.find?_some h
  exact (Bool.and_eq_true_iff.1 hfound).1

/-- A ready interrupt is found among those bound for its mode. -/
theorem State.firstReady_ne_none {s : State} {code : Nat} (hmem : code ∈ interruptOrder)
    (hready : s.interruptReady code = true) : s.firstReady (s.interruptDest code) ≠ none := by
  intro h
  have hnot := List.find?_eq_none.1 h code hmem
  simp [hready] at hnot

/-- The maskable interrupt picked: the first ready one bound for M, else for HS, else for VS (log 25). -/
def State.firstMaskable (s : State) : Option Nat := (s.firstReady .m).or ((s.firstReady .hs).or (s.firstReady .vs))

theorem State.pickInterrupt_eq (s : State) :
    s.pickInterrupt = if s.nmiReady then some .nmi else s.firstMaskable.map .interrupt := by
  unfold State.pickInterrupt State.firstMaskable
  split
  · rfl
  · cases s.firstReady .m <;> cases s.firstReady .hs <;> rfl

theorem State.firstMaskable_ready {s : State} {c : Nat} (h : s.firstMaskable = some c) : s.interruptReady c = true := by
  simp only [State.firstMaskable, Option.or_eq_some_iff] at h
  rcases h with h | ⟨_, h | ⟨_, h⟩⟩ <;> exact State.firstReady_ready h

theorem State.firstMaskable_of_ready {s : State} {code : Nat} (hmem : code ∈ interruptOrder)
    (hready : s.interruptReady code = true) : ∃ c, s.firstMaskable = some c := by
  have hfound := State.firstReady_ne_none hmem hready
  refine Option.ne_none_iff_exists'.1 fun hnone => hfound ?_
  simp only [State.firstMaskable, Option.or_eq_none_iff] at hnone
  obtain ⟨hm, hhs, hvs⟩ := hnone
  rcases s.interruptDest_cases code with h | ⟨h, _⟩ | ⟨h, _⟩ <;> rw [h]
  · exact hm
  · exact hhs
  · exact hvs

theorem State.pickInterrupt_nmi {s : State} : s.pickInterrupt = some .nmi ↔ s.nmiReady = true := by
  rw [State.pickInterrupt_eq]
  split <;> simp [*]

theorem State.pickInterrupt_interrupt {s : State} {c : Nat} :
    s.pickInterrupt = some (.interrupt c) ↔ s.nmiReady = false ∧ s.firstMaskable = some c := by
  rw [State.pickInterrupt_eq]
  split <;> simp [*]

/-- Settles O51, clause by clause: what the step masks, what is picked, and where `dcsr` has no say. -/
theorem stepieMasksOnlyAllowedHandlers : Obligations.StepieMasksOnlyAllowedHandlers := by
  intro s code
  refine ⟨?ready, ?nmi, fun hnmi hmem hready => ?taken, fun h => ?picked, fun h w => ?destDisallowed,
    fun h w => ?disallowed, fun harmed ha hstepie hdest => ?masked⟩
  case ready => rw [State.interruptReady_iff, State.stepMasks_eq_true]
  case nmi => rw [State.pickInterrupt_nmi, State.nmiReady_iff, State.stepMasks_eq_true]
  case taken =>
    obtain ⟨c, hc⟩ := State.firstMaskable_of_ready hmem hready
    have hnmi' : s.nmiReady = false := Bool.eq_false_iff.2 fun h => hnmi (State.pickInterrupt_nmi.2 h)
    exact ⟨c, State.pickInterrupt_interrupt.2 ⟨hnmi', hc⟩, State.firstMaskable_ready hc⟩
  case picked => exact State.firstMaskable_ready (State.pickInterrupt_interrupt.1 h).2
  case destDisallowed => exact State.interruptReady_withDcsr_of_dest h w
  case disallowed => exact State.interruptReady_withDcsr h w code
  case masked =>
    have hmask := State.stepMasks_eq_true.2 ⟨harmed, ha, hstepie, hdest⟩
    exact Bool.eq_false_iff.2 fun hready => (State.interruptReady_iff.1 hready).2 hmask

/-! ### Taking an interrupt -/

/-- No trigger goes before an interrupt where the parameter says so, where it is bound for a debug-allowed mode, and where
none fires (44 R221, log 14). -/
theorem State.triggerGoesFirst_eq_false {s : State} {k : Taken}
    (h : s.p.triggerFirst = false ∨ s.allowedIn (s.takenDest k) = true ∨ s.firing anyTrigger = []) :
    s.triggerGoesFirst k = false := by
  rcases h with h | h | h <;> simp [State.triggerGoesFirst, h]

theorem State.interruptOrInstr_taken {s : State} {k : Taken} (hk : s.pickInterrupt = some k)
    (h : s.triggerGoesFirst k = false) : s.interruptOrInstr = .next (s.takeInterrupt k) := by
  simp [State.interruptOrInstr, hk, h]

/-- `mnstatus` in the handler of a non-maskable interrupt: MNPP and MNPV take the mode, NMIE clears (log 26). -/
def nmiMnstatus (s : State) : Word := setBit (setBit (setBits2 s.csr.mnstatus 11 s.cur.prv) 7 s.cur.virt) 3 false

theorem nmiMnstatus_mnpp (s : State) : (nmiMnstatus s).extractLsb' 11 2 = s.cur.prv := by
  unfold nmiMnstatus
  rw [extract_setBit _ _ _ _ _ (by omega), extract_setBit _ _ _ _ _ (by omega), extract_setBits2 _ _ _ (by omega)]

theorem nmiMnstatus_getLsbD (s : State) (j : Nat) :
    (nmiMnstatus s).getLsbD j =
      if 3 = j then false else if 7 = j then s.cur.virt else if 12 = j then s.cur.prv.getLsbD 1
      else if 11 = j then s.cur.prv.getLsbD 0 else s.csr.mnstatus.getLsbD j := by
  unfold nmiMnstatus setBits2
  rw [getLsbD_setBit_lt _ (by omega), getLsbD_setBit_lt _ (by omega), getLsbD_setBit_lt _ (by omega),
    getLsbD_setBit_lt _ (by omega)]

/-- A non-maskable interrupt goes to M-mode at its vector and is no longer pending, resumable or not. -/
theorem State.takeNmi_enters (s : State) :
    s.takeNmi.cur = .m ∧ s.takeNmi.pc = pcMask s.p s.p.nmiVector ∧ s.takeNmi.nmiPending = false ∧
      s.takeNmi.hti = none ∧
      s.takeNmi = { s with
        csr := s.takeNmi.csr, cur := s.takeNmi.cur, pc := s.takeNmi.pc, nmiPending := false, hti := none } := by
  unfold State.takeNmi
  split <;> exact ⟨rfl, rfl, rfl, rfl, rfl⟩

/-- With resumable non-maskable interrupts the state is saved in registers of their own (log 26). -/
theorem State.takeNmi_saves {s : State} (h : s.p.hasRnmi = true) :
    s.takeNmi.csr = { s.csr with
        mnepc := pcMask s.p s.pc, mncause := causeValue s.p true 0, mnstatus := s.takeNmi.csr.mnstatus } ∧
      s.takeNmi.csr.mnpp = s.cur.prv ∧ s.takeNmi.csr.mnpv = s.cur.virt ∧ s.takeNmi.csr.nmie = false ∧
      ∀ j, j ∉ [3, 7, 11, 12] → s.takeNmi.csr.mnstatus.getLsbD j = s.csr.mnstatus.getLsbD j := by
  have hcsr : s.takeNmi.csr = { s.csr with
      mnepc := pcMask s.p s.pc, mncause := causeValue s.p true 0, mnstatus := nmiMnstatus s } := by
    simp only [State.takeNmi, h, if_true, nmiMnstatus]
  rw [hcsr]
  refine ⟨rfl, nmiMnstatus_mnpp s, nmiMnstatus_getLsbD s 7, nmiMnstatus_getLsbD s 3, fun j hj => ?_⟩
  simp only [List.mem_cons, List.not_mem_nil, or_false, not_or] at hj
  obtain ⟨h3, h7, h11, h12⟩ := hj
  rw [nmiMnstatus_getLsbD, if_neg (Ne.symm h3), if_neg (Ne.symm h7), if_neg (Ne.symm h12), if_neg (Ne.symm h11)]

/-- Without them it is saved as by a trap to M-mode. -/
theorem State.takeNmi_saves_trap {s : State} (h : s.p.hasRnmi = false) : s.takeNmi.csr = (s.trapTo .m true 0 0).csr := by
  simp [State.takeNmi, h]

/-- Settles O52: nothing halts the hart and no trigger goes first, so the step takes the interrupt picked. -/
theorem interruptTaken : Obligations.InterruptTaken := by
  intro s k hv hturn hd hhalt hpick hfirst
  have hfirst' : s.popInput.beginStep.triggerGoesFirst k = false :=
    State.triggerGoesFirst_eq_false (by rw [State.firing_atBoundary]; exact hfirst)
  have hstep : step s = .next (s.popInput.beginStep.takeInterrupt k).stepCheck.dropMatched := by
    rw [step_past_halt hv hturn hd hhalt,
      State.interruptOrInstr_taken (s.pickInterrupt_atBoundary.trans hpick) hfirst']
    rfl
  refine ⟨fun code hk => ?maskable, fun hk => ?nmi⟩
  case maskable =>
    subst hk
    exact ⟨rfl, hstep⟩
  case nmi =>
    subst hk
    obtain ⟨hcur, hpc, hpending, hshown, hframe⟩ := s.popInput.beginStep.takeNmi_enters
    exact ⟨rfl, s.popInput.beginStep.takeNmi, hstep, hcur, hpc, hpending, hshown, hframe,
      State.takeNmi_saves (s := s.popInput.beginStep), State.takeNmi_saves_trap (s := s.popInput.beginStep)⟩

end Sys2Proof.Machine
end

section
/-! The trap to each mode, bit by bit (60 R249), the quiet failure in Debug Mode (60 R240), and the modes of the hart as an
invariant of every step (60 R235). -/

namespace Sys2Proof.Machine

/-! ### The status registers on a trap -/

theorem trapMstatus_getLsbD (s : State) (j : Nat) :
    (trapMstatus s).getLsbD j =
      if 3 = j then false else if 7 = j then s.csr.mie_ else if 39 = j then s.cur.virt
      else if 12 = j then s.cur.prv.getLsbD 1 else if 11 = j then s.cur.prv.getLsbD 0
      else s.csr.mstatus.getLsbD j := by
  unfold trapMstatus setBits2
  rw [getLsbD_setBit_lt _ (by omega), getLsbD_setBit_lt _ (by omega), getLsbD_setBit_lt _ (by omega),
    getLsbD_setBit_lt _ (by omega), getLsbD_setBit_lt _ (by omega)]

theorem trapMstatus_mpp (s : State) : (trapMstatus s).extractLsb' 11 2 = s.cur.prv := by
  unfold trapMstatus
  rw [extract_setBit _ _ _ _ _ (by omega), extract_setBit _ _ _ _ _ (by omega), extract_setBit _ _ _ _ _ (by omega),
    extract_setBits2 _ _ _ (by omega)]

theorem trapMstatus_frame (s : State) {j : Nat} (hj : j ∉ [3, 7, 11, 12, 39]) :
    (trapMstatus s).getLsbD j = s.csr.mstatus.getLsbD j := by
  simp only [List.mem_cons, List.not_mem_nil, or_false, not_or] at hj
  obtain ⟨h3, h7, h11, h12, h39⟩ := hj
  rw [trapMstatus_getLsbD, if_neg (Ne.symm h3), if_neg (Ne.symm h7), if_neg (Ne.symm h39), if_neg (Ne.symm h12),
    if_neg (Ne.symm h11)]

/-- The three fields that a trap writes in a supervisor status: SPP takes the mode, SPIE takes SIE, SIE clears. -/
def trapFields (status : Word) (spp sie : Bool) : Word := setBit (setBit (setBit status 8 spp) 5 sie) 1 false

theorem trapSstatus_eq (s : State) : trapSstatus s = trapFields s.csr.mstatus s.cur.sppBit s.csr.sie := rfl

theorem trapVsstatus_eq (s : State) : trapVsstatus s = trapFields s.csr.vsstatus s.cur.sppBit s.csr.vssie := rfl

theorem trapFields_getLsbD (status : Word) (spp sie : Bool) (j : Nat) :
    (trapFields status spp sie).getLsbD j =
      if 1 = j then false else if 5 = j then sie else if 8 = j then spp else status.getLsbD j := by
  unfold trapFields
  rw [getLsbD_setBit_lt _ (by omega), getLsbD_setBit_lt _ (by omega), getLsbD_setBit_lt _ (by omega)]

theorem trapFields_frame (status : Word) (spp sie : Bool) {j : Nat} (hj : j ∉ [1, 5, 8]) :
    (trapFields status spp sie).getLsbD j = status.getLsbD j := by
  simp only [List.mem_cons, List.not_mem_nil, or_false, not_or] at hj
  obtain ⟨h1, h5, h8⟩ := hj
  rw [trapFields_getLsbD, if_neg (Ne.symm h1), if_neg (Ne.symm h5), if_neg (Ne.symm h8)]

/-- SPVP is written from a virtual mode only (log 1). -/
theorem trapHstatus_getLsbD (s : State) (j : Nat) :
    (trapHstatus s).getLsbD j =
      if 7 = j then s.cur.virt else if 8 = j then (if s.cur.virt then s.cur.sppBit else s.csr.spvp)
      else s.csr.hstatus.getLsbD j := by
  unfold trapHstatus
  rw [getLsbD_setBit_lt _ (by omega)]
  cases s.cur.virt
  · by_cases h8 : 8 = j
    · subst h8; rfl
    · simp [h8]
  · rw [if_pos rfl, if_pos rfl, getLsbD_setBit_lt _ (by omega)]

theorem trapHstatus_frame (s : State) {j : Nat} (hj : j ∉ [7, 8]) :
    (trapHstatus s).getLsbD j = s.csr.hstatus.getLsbD j := by
  simp only [List.mem_cons, List.not_mem_nil, or_false, not_or] at hj
  obtain ⟨h7, h8⟩ := hj
  rw [trapHstatus_getLsbD, if_neg (Ne.symm h7), if_neg (Ne.symm h8)]

/-- Settles O30, a destination at a time. -/
theorem trapEntrySaves : Obligations.TrapEntrySaves := by
  intro s intr code tval
  refine ⟨⟨_, rfl, rfl, rfl, rfl, rfl, rfl, rfl, ?m⟩, ⟨_, rfl, rfl, rfl, rfl, rfl, rfl, rfl, ?hs⟩,
    ⟨_, rfl, rfl, rfl, rfl, rfl, rfl, rfl, ?vs⟩⟩
  case m =>
    exact ⟨trapMstatus_mpp s, trapMstatus_getLsbD s 39, trapMstatus_getLsbD s 7, trapMstatus_getLsbD s 3,
      fun _ hj => trapMstatus_frame s hj, rfl⟩
  case hs =>
    exact ⟨trapFields_getLsbD _ _ _ 8, trapHstatus_getLsbD s 7, trapFields_getLsbD _ _ _ 5, trapFields_getLsbD _ _ _ 1,
      trapHstatus_getLsbD s 8, fun _ hj => trapHstatus_frame s hj, fun _ hj => trapFields_frame _ _ _ hj, rfl⟩
  case vs =>
    exact ⟨trapFields_getLsbD _ _ _ 8, trapFields_getLsbD _ _ _ 5, trapFields_getLsbD _ _ _ 1,
      fun _ hj => trapFields_frame _ _ _ hj, rfl⟩

/-! ### The quiet failure -/

/-- An error code is taken where none stands (10 R29). -/
theorem DebugModule.setErr_eq (d : DebugModule) (v : BitVec 3) :
    d.setErr v = { d with cmderr := if d.cmderr = 0 then v else d.cmderr } := by
  unfold DebugModule.setErr
  split <;> rfl

/-- Settles O37: what `setErr` writes is CMDERR alone. -/
theorem debugFailEffect : Obligations.DebugFailEffect := by
  intro s
  have h : s.debugFail = { s with dm := { s.dm with
      cmderr := if s.dm.cmderr = 0 then 3 else s.dm.cmderr, pbRun := false, quick := false } } := by
    rw [State.debugFail, DebugModule.setErr_eq]
  rw [h]
  exact ⟨rfl, rfl⟩

/-! ### The modes of the hart -/

/-- The strengthened invariant: the modes of the hart close under traps and returns in a valid configuration only. -/
def State.modeInvariant (s : State) : Prop := s.p.valid = true ∧ s.modesLegal

theorem Atom.keeps_modeInvariant {s t : State} (h : Atom s t) (hs : s.modeInvariant) : t.modeInvariant := by
  obtain ⟨hv, hmodes⟩ := hs
  exact ⟨h.p_eq ▸ hv, h.keeps_modesLegal hv hmodes⟩

/-- Settles O58: every elementary update keeps the invariant, and a step is a chain of these. -/
theorem modesStayLegal : Obligations.ModesStayLegal := by
  intro s t hmodes h
  obtain ⟨_, hlegal⟩ : t.modeInvariant := step_keeps (fun _ _ ha => ha.keeps_modeInvariant) h ⟨(step_cases h).1, hmodes⟩
  exact hlegal

end Sys2Proof.Machine
end

section
/-! DMPRV out of reset (70 R271), and the two controls as the controlling entity drives them (70 R273). -/

namespace Sys2Proof.Machine

/-! ### Loads and stores of a debugger while DMPRV is 0 -/

/-- At S/HS level DMPRV alone moves an access away from HS-mode, whichever source it has. -/
theorem State.memPriv_hs_of_dmprv_clear {s : State} (h : s.dap = .hs) (hclear : s.dbg.dmprv = false) :
    s.memPriv = some (1, false) := by
  simp [State.memPriv, h, hclear]

/-- At VS level it alone moves an access away from VS-mode. -/
theorem State.memPriv_vs_of_dmprv_clear {s : State} (h : s.dap = .vs) (hclear : s.dbg.dmprv = false) :
    s.memPriv = some (1, true) := by
  rw [State.memPriv_vs h, hclear, if_neg Bool.false_ne_true]

theorem State.resetWith_dmprv (p : Params) (mdbgen mtrcen : Bool) :
    (State.resetWith p mdbgen mtrcen).dbg.dmprv = false := rfl

/-- Settles O7, by the level of the debug access privilege: DMPRV, which is 0, matters at S/HS and VS level only. -/
theorem resetClearsDmprv : Obligations.ResetClearsDmprv := by
  intro p mdbgen mtrcen
  have hclear := State.resetWith_dmprv p mdbgen mtrcen
  refine ⟨hclear, ?_⟩
  cases h : (State.resetWith p mdbgen mtrcen).dap with
  | m => exact State.memPriv_m h
  | hs => exact State.memPriv_hs_of_dmprv_clear h hclear
  | vs => exact State.memPriv_vs_of_dmprv_clear h hclear
  | u => exact State.memPriv_u h
  | none => exact State.memPriv_none h

/-! ### Driving `mdbgen` -/

theorem State.driveMdbgen_refused {s : State} (hd : s.inDebug = true) (hm : s.mdbgen = true) :
    s.driveMdbgen false = .refused .mdbgenLoweredInDebugMode := by
  simp [State.driveMdbgen, hd, hm]

/-- Driving `mdbgen` is accepted on a running hart, where it is 0 already, and where it is driven to 1. -/
theorem State.driveMdbgen_accepted {s : State} {b : Bool} (h : s.inDebug = false ∨ s.mdbgen = false ∨ b = true) :
    s.driveMdbgen b = .next { s with mdbgen := b, dbg := { s.dbg with dmprv := s.dbg.dmprv && !b } } := by
  have hguard : ¬(s.inDebug && s.mdbgen && !b) = true := by
    rcases h with h | h | h <;> simp [h]
  exact if_neg hguard

/-- Settles O53: with valid parameters the step is the drive at the head of the inputs. -/
theorem mdbgenDriven : Obligations.MdbgenDriven := by
  intro s b rest hv
  refine ⟨fun hi => ⟨?refused, fun haccept => ?accepted⟩, fun hi => step_act hv hi⟩
  case refused =>
    rintro hd hm rfl
    exact (step_act hv hi).trans (State.driveMdbgen_refused (s := { s with inputs := rest }) hd hm)
  case accepted =>
    exact (step_act hv hi).trans (State.driveMdbgen_accepted (s := { s with inputs := rest }) haccept)

end Sys2Proof.Machine
end
